-- ==== Sys2Proof/Word.lean ====
section
/-! DEFINITION. The words of the machine: only what the manual itself treats as bits is a bit vector. -/

namespace Sys2Proof

/-- One byte of a serial record, a frame or a reply (12 R200). -/
abbrev Byte := BitVec 8

/-- A value of the 32-bit millisecond timebase, or a deadline's target on it (01 R1, R2). -/
abbrev Time := BitVec 32

/-- A hole number, which wraps from 65,535 to 0 (01 R9). -/
abbrev HoleNo := BitVec 16

end Sys2Proof
end

