-- ==== Sys2Proof/Syntax.lean ====
section
/-! DEFINITION. The commands of the part: one constructor for each row of spec/opcode_table.json, with the operands the
rules give the row (the table lists none). -/

namespace Sys2Proof

/-- The levels of the two input pins that rules read as levels (11 R186, R187; log 5). -/
structure InputLevels where
  canopySet  : Bool
  valveReady : Bool
deriving DecidableEq, Repr

/-- What a transaction of the host port adds to its command (11 R178 to R180): the HSCK periods from the fall of HSEL_N to
its rise, and whether the transaction was cut, which one is that was in progress at a starting event or began while RESET_N was
low (log 27). -/
structure Transaction where
  clocks : Nat
  cut    : Bool
deriving DecidableEq, Repr

/-- The shortest transaction that carries a frame of so many bytes, not cut: that of a host command which names none (log
27). -/
def Transaction.ofBytes (bytes : Nat) : Transaction := ⟨8 * bytes, false⟩

/-- A rig link frame (09 R140, 12 R203): the length field is the number of payload bytes. -/
structure LinkFrame where
  kind    : BitVec 3
  station : BitVec 3
  payload : List Byte
  crc     : BitVec 16
deriving DecidableEq, Repr

/-- The commands. `canopyRise` is true when CANOPY_SET has risen since the event before: a rise has no row of its own
(log 5). `host` is the transaction of a host command (log 27). `bits` are the bit periods read from SRX, a
high level true (02 R29), or from LRX, a recessive bit true (09 R140), in their order (log 10). -/
inductive Instr where
  | powerOn (levels : InputLevels)
  | resetLine
  | resetNRise (levels : InputLevels)
  | sampleRecord (bits : List Bool)
  | linkDeadlineExpiry
  | rotPulse
  | pulseDeadlineExpiry
  | canopySetFall
  | valveReadyRise
  | valveReadyFall
  | strokeDone
  | fetch (host : Transaction := .ofBytes 1)
  | badFrame (host : Transaction := .ofBytes 1)
  | configure (record : List Byte) (host : Transaction := .ofBytes 72)
  | startHole (row : BitVec 16) (slot planned : Byte) (canopyRise : Bool) (host : Transaction := .ofBytes 7)
  | abort (canopyRise : Bool) (host : Transaction := .ofBytes 3)
  | resume (canopyRise : Bool) (host : Transaction := .ofBytes 3)
  | proceed (canopyRise : Bool) (host : Transaction := .ofBytes 3)
  | abandon (host : Transaction := .ofBytes 3)
  | readState (host : Transaction := .ofBytes 3)
  | readAttention (host : Transaction := .ofBytes 3)
  | serviceDone (host : Transaction := .ofBytes 3)
  | setWatch (mask sense combination : Byte) (host : Transaction := .ofBytes 6)
  | readSensors (host : Transaction := .ofBytes 3)
  | unlatch (host : Transaction := .ofBytes 3)
  | readFlow (host : Transaction := .ofBytes 3)
  | readNeighbours (index : Byte) (host : Transaction := .ofBytes 4)
  | readLink (host : Transaction := .ofBytes 3)
  | selectHole (number : HoleNo) (host : Transaction := .ofBytes 5)
  | readCells (count direction : Byte) (host : Transaction := .ofBytes 5)
  | collarTimerExpiry
  | retractTimerExpiry
  | stallWindowExpiry
  | strokeTimerExpiry
  | strokeGapExpiry
  | mixDeadlineExpiry
  | holdDeadlineExpiry
  | torqueTimerExpiry
  | releaseDeadlineExpiry
  | demandScheduleExpiry
  | staleDeadlineExpiry (station : Nat)
  | removalDeadlineExpiry (station : Nat)
  | demandFrameReceived (bits : List Bool)
  | holeFrameReceived (bits : List Bool)
  | seekingComplete
  | frameStart (recessive : Nat)
  | frameSent
  | arbitrationLost (bit : Nat)
  | transmitFault (bit : Nat)
  | duplicateOverridden (bit : Nat)
  | setpointRecordEnd
  | timebaseTick
deriving DecidableEq, Repr

end Sys2Proof
end

