-- ==== Sys2Proof/Machine/State.lean ====
section
/-! DEFINITION. The state of the part, block by block (00 section 2.3), as plain data, and the state right after power-on. -/

namespace Sys2Proof.Machine

/-! ### Names the manual gives -/

/-- The active phases (00 section 3). -/
inductive Phase where
  | collar | drill | retract | insert | mix | hold | torque
deriving DecidableEq, Repr

/-- The eleven cycle states (01 R5); the seven active phases stand under `active`. -/
inductive CycleState where
  | unconfigured | idle | decide | suspended
  | active (phase : Phase)
deriving DecidableEq, Repr

/-- The suspension causes (01 R6). -/
inductive Cause where
  | canopy | sensor | mute | stuck
deriving DecidableEq, Repr

/-- The pending verdicts (01 R6). -/
inductive PendingVerdict where
  | short | aborted
deriving DecidableEq, Repr

/-- The seven verdicts (01 R27); a record without one is OPEN. -/
inductive Verdict where
  | anchored | spinner | torqueTimeout | short | rejected | aborted | faulted
deriving DecidableEq, Repr

/-- The strata classes (03 R55). -/
inductive StrataClass where
  | lost | skipped | void | soft | hard | medium
deriving DecidableEq, Repr

/-- The anchor outcomes (05 R74). -/
inductive AnchorOutcome where
  | none | charge | reject
deriving DecidableEq, Repr

/-- The stroke states (06 R86). -/
inductive StrokeState where
  | idle | inProgress | interrupted
deriving DecidableEq, Repr

/-- The flow classes (08 R116). -/
inductive FlowClass where
  | critical | firm | normal | none
deriving DecidableEq, Repr

/-- Whether a peer has been heard in the last 750 ms (08 R118). -/
inductive Freshness where
  | fresh | stale
deriving DecidableEq, Repr

/-- The interlock states (08 R131). -/
inductive Interlock where
  | off | waitReady | flowing | releasing
deriving DecidableEq, Repr

/-- The feed direction (08 R126). -/
inductive Direction where
  | forward | reverse
deriving DecidableEq, Repr

/-- The line views (09 R141). -/
inductive LineView where
  | off | seeking | gap | frame
deriving DecidableEq, Repr

/-- How MUTE was set (09 R154). -/
inductive MuteCause where
  | overridden | heard
deriving DecidableEq, Repr

/-- The attention sources (11 R189). -/
inductive Source where
  | fault | decide | holeDone | watch | history
deriving DecidableEq, Repr

/-- The fault codes (11 R193). -/
inductive FaultCode where
  | sensorLost | canopyLost | injector | retractStuck | stall | collarTimeout | valveStuck | duplicate
deriving DecidableEq, Repr

/-- The statuses of a reply (11 section 11.2). -/
inductive Status where
  | ok | badState | badArg | badFrame | noCanopy | muted | causePresent | notRead | gone | none
deriving DecidableEq, Repr

/-- The arming states of the watch (11 R196). -/
inductive Arming where
  | armed | fired | served | waitFalse
deriving DecidableEq, Repr

/-- The bit sizes (11 R184). -/
inductive BitSize where
  | mm27 | mm35
deriving DecidableEq, Repr

/-- A pausable timer (01 R4): disarmed, paused with a remaining time in ms, or running towards a deadline. -/
inductive Timer where
  | disarmed
  | paused (remaining : Nat)
  | running (deadline : Time)
deriving DecidableEq, Repr

/-! ### Configuration (11 R184) -/

/-- One value for each active phase. -/
structure PhaseTable where
  collar : Nat
  drill : Nat
  retract : Nat
  insert : Nat
  mix : Nat
  hold : Nat
  torque : Nat
deriving DecidableEq, Repr

/-- One row of the gel table, in tenths of a second (06 R103). -/
structure GelRow where
  mixWindow : Nat
  holdTime : Nat
deriving DecidableEq, Repr

/-- The configuration record as CONFIGURE takes it (11 R184). -/
structure Configuration where
  station : Nat
  capacity : Nat
  demands : PhaseTable
  minimums : PhaseTable
  bitSize : BitSize
  softThreshold : Nat
  hardThreshold : Nat
  voidN : Nat
  voidThrust : Nat
  baseCartridges : Nat
  extraVoid : Nat
  rejectVoid : Nat
  normalTarget : Nat
  softTarget : Nat
  mixRevolutions : Nat
  spinnerLimit : Nat
  gel : List GelRow
deriving DecidableEq, Repr

/-! ### The blocks -/

/-- The cycle controller (01 R1, R5, R6). -/
structure CycleBlock where
  timebase : Time
  state : CycleState
  remembered : Option Phase
  cause : Option Cause
  held : Bool
  pendingVerdict : Option PendingVerdict
  abortPending : Bool
  /-- the current hole number, which is the last one given (R9) -/
  holeNumber : Option HoleNo
  row : Nat
  slot : Nat
  planned : Nat
  collarTimer : Timer
  retractTimer : Timer
deriving DecidableEq, Repr

/-- The last sample, after clamping (02 R30). -/
structure Sample where
  sequence : Nat
  thrust : Nat
  torque : Nat
  speed : Nat
  feed : Nat
  /-- half-degrees, never clamped -/
  temperature : Int
deriving DecidableEq, Repr

/-- The members of the sensor status group (02 R34). -/
structure StatusGroup where
  linkUp : Bool
  tempValid : Bool
  rangeClamp : Bool
  pulseActive : Bool
deriving DecidableEq, Repr

/-- What the receiver of SRX is doing (02 R29): between bytes, within a byte whose data bits read so far are listed, or after a
low stop bit, until the line is high again (log 29). -/
inductive SrxReceiver where
  | idle
  | byte (bits : List Bool)
  | low
deriving DecidableEq, Repr

/-- The sample port (02, table of items). -/
structure SensorBlock where
  receiver : SrxReceiver
  /-- the bit periods since the stop bit of the last byte, counted while a record is in assembly (R29) -/
  gap : Nat
  /-- the bytes of the record in assembly; empty while hunting (R29) -/
  assembly : List Byte
  last : Option Sample
  linkDeadline : Option Time
  pulseDeadline : Option Time
  live : StatusGroup
  snapshot : StatusGroup
  latched : Bool
  readMark : Bool
deriving DecidableEq, Repr

/-- The cell assembler (02 R38, R45) with the watch inputs it owns (R41). -/
structure AssemblerBlock where
  cell : Option Nat
  n : Nat
  rotary : Nat
  thrust : Nat
  capped : Bool
  tainted : Bool
  maxDepth : Nat
  stallWindow : Timer
  stallRef : Nat
  voidCell : Bool
  softCell : Bool
  hardCell : Bool
deriving DecidableEq, Repr

/-- A void interval of a notice, in mm (04 R62). -/
structure VoidInterval where
  start : Nat
  length : Nat
deriving DecidableEq, Repr

/-- A hole notice, which is also an entry of the neighbour table (04 R62, R66). -/
structure HoleNotice where
  station : Nat
  row : Nat
  slot : Nat
  depth : Nat
  verdict : Verdict
  voids : List VoidInterval
deriving DecidableEq, Repr

/-- The neighbour table (04, table of items); `predicted` rises without repeats. -/
structure NeighbourBlock where
  entries : List HoleNotice
  predicted : List Nat
  nearVoid : Bool
deriving DecidableEq, Repr

/-- The anchor evaluator (05 R74). -/
structure AnchorBlock where
  voidCount : Nat
  softCount : Nat
  hardCount : Nat
  outcome : AnchorOutcome
  charge : Option Nat
  target : Option Nat
deriving DecidableEq, Repr

/-- Resin control (06 R86). -/
structure ResinBlock where
  charge : Option Nat
  pushed : Nat
  stroke : StrokeState
  strokeTimer : Timer
  retry : Bool
  gap : Option Time
  band : Option Nat
  quarterRevs : Nat
  mixDeadline : Option Time
  holdDeadline : Option Time
  holdPassed : Bool
deriving DecidableEq, Repr

/-- The torque monitor (07 R104). -/
structure TorqueBlock where
  target : Option Nat
  ceiling : Option Nat
  near : Option Nat
  entered : Bool
  timer : Timer
  spinner : Nat
  peak : Nat
  overshoot : Bool
  torqueNear : Bool
deriving DecidableEq, Repr

/-- An entry of the peer table (08 R118). -/
structure Peer where
  station : Nat
  phase : CycleState
  flowClass : FlowClass
  demand : Nat
  freshness : Freshness
  lastHeard : Time
  staleDeadline : Option Time
  removalDeadline : Time
deriving DecidableEq, Repr

/-- The setpoints (08 R126). -/
structure Setpoints where
  direction : Direction
  feed : Nat
  rotation : Nat
  injector : Nat
deriving DecidableEq, Repr

/-- A setpoint record as sent (08 R128). -/
structure SetpointRecord where
  sequence : Byte
  setpoints : Setpoints
deriving DecidableEq, Repr

/-- The flow share unit and the valve port (08, table of items). -/
structure FlowBlock where
  peers : List Peer
  allowance : Nat
  flowCut : Bool
  interlock : Interlock
  releaseDeadline : Option Time
  setpoints : Setpoints
  lastSent : Option SetpointRecord
  /-- a record is on VTX (R129) -/
  onLine : Bool
  sequence : Byte
  schedule : Option Time
deriving DecidableEq, Repr

/-- A DEMAND notice (08 R136). -/
structure DemandNotice where
  phase : CycleState
  flowClass : FlowClass
  demand : Nat
deriving DecidableEq, Repr

/-- The content of a full demand slot (09 R157). -/
structure DemandSlot where
  notice : DemandNotice
  onLine : Bool
deriving DecidableEq, Repr

/-- The link controller (09, table of items). MUTE is set exactly when a mute cause is held. -/
structure LinkBlock where
  view : LineView
  recessive : Nat
  ownLast : Bool
  /-- the bits read of the frame that is followed or sent (09 R143); empty outside FRAME -/
  assembly : List Bool
  tx : Option LinkFrame
  slot : Option DemandSlot
  queue : List HoleNotice
  queueOnLine : Bool
  mute : Option MuteCause
  holeDropped : Bool
  txFault : Bool
deriving DecidableEq, Repr

/-- A cell record (03 R60); its number is its place in the hole record. -/
structure CellRecord where
  cls : StrataClass
  n : Nat
  energy : Nat
  specificEnergy : Nat
  meanThrust : Nat
  capped : Bool
deriving DecidableEq, Repr

/-- The flags of a hole record (01 R27). -/
structure RecordFlags where
  mixShort : Bool
  overshoot : Bool
  softTarget : Bool
  proceeded : Bool
  extraCharge : Bool
  lostCells : Bool
  resetCut : Bool
deriving DecidableEq, Repr

/-- A hole record (10 R163). A record without a verdict is OPEN; its closed cells are the length of `cells`. -/
structure HoleRecord where
  number : HoleNo
  row : Nat
  slot : Nat
  planned : Nat
  verdict : Option Verdict
  flags : RecordFlags
  outcome : AnchorOutcome
  voidCount : Nat
  softCount : Nat
  hardCount : Nat
  charge : Option Nat
  target : Option Nat
  pushed : Nat
  band : Option Nat
  quarterRevs : Option Nat
  peak : Option Nat
  cells : List CellRecord
deriving DecidableEq, Repr

/-- The selection of the profile window (10 R171). -/
inductive Selection where
  | none
  | hole (number : HoleNo)
  | gone (number : HoleNo)
deriving DecidableEq, Repr

/-- The hole history (10, table of items). -/
structure HistoryBlock where
  records : List HoleRecord
  free : Nat
  selection : Selection
  pointer : Nat
deriving DecidableEq, Repr

/-- A reply (11 R178). -/
structure Reply where
  status : Status
  data : List Byte
deriving DecidableEq, Repr

/-- An entry of the fault queue (11 R193). -/
structure FaultEntry where
  code : FaultCode
  overflow : Bool
deriving DecidableEq, Repr

/-- The pending sources other than FAULT, which is pending while the fault queue holds an entry (11 R189). -/
structure Raised where
  decide : Bool
  holeDone : Bool
  watch : Bool
  history : Bool
deriving DecidableEq, Repr

/-- The six watch inputs, and a mask over them (11 R195). -/
structure WatchInputs where
  voidCell : Bool
  softCell : Bool
  hardCell : Bool
  nearVoid : Bool
  flowCut : Bool
  torqueNear : Bool
deriving DecidableEq, Repr

/-- The watch expression and its round (11 R195 to R198). -/
structure Watch where
  mask : WatchInputs
  activeFalse : Bool
  isAnd : Bool
  y : Bool
  arming : Arming
  fell : Bool
deriving DecidableEq, Repr

/-- The host port and attention unit (11, table of items); the top of the stack is the head of `stack`. -/
structure HostBlock where
  reply : Reply
  /-- the bits HSDO carried in the last transaction taken (log 20) -/
  hsdo : List Bool
  config : Option Configuration
  raised : Raised
  stack : List Source
  faults : List FaultEntry
  watch : Watch
deriving DecidableEq, Repr

/-- The whole part, with the queue of commands that wait for it. -/
structure State where
  pending : List Instr
  resetHeld : Bool
  canopySet : Bool
  valveReady : Bool
  cycle : CycleBlock
  sensor : SensorBlock
  assembler : AssemblerBlock
  neighbours : NeighbourBlock
  anchor : AnchorBlock
  resin : ResinBlock
  torque : TorqueBlock
  flow : FlowBlock
  link : LinkBlock
  history : HistoryBlock
  host : HostBlock
  /-- the model's own field: how many free values have been drawn (log 16) -/
  freeDraws : Nat
deriving DecidableEq, Repr

/-! ### Reasons to stop -/

/-- The ways a step can stop with a fault: none. Every event the manual describes has an effect or is stated to have
none, so no command of this block stops (log 18). -/
inductive Fault where
deriving DecidableEq, Repr

/-- The ways a step can be refused. -/
inductive Refusal where
  /-- Raised by an arm of `exec` whose command has no meaning yet; safe, since nothing can be proved about its effect.
  No arm raises it now. -/
  | notModelled (mnemonic : String)
deriving DecidableEq, Repr

/-! ### The state right after power-on -/

/-- The part right after power-on (11 R186) with both input levels low (log 6) and nothing waiting. The zero setpoint
record of 08 R130 is on VTX: it took sequence 0 (log 25). -/
def State.reset : State where
  pending := []
  resetHeld := false
  canopySet := false
  valveReady := false
  cycle := {
    timebase := 0, state := .unconfigured, remembered := none, cause := none, held := false, pendingVerdict := none,
    abortPending := false, holeNumber := none, row := 0, slot := 0, planned := 0, collarTimer := .disarmed,
    retractTimer := .disarmed }
  sensor := {
    receiver := .idle, gap := 0, assembly := [], last := none, linkDeadline := none, pulseDeadline := none,
    live := ⟨false, false, false, false⟩, snapshot := ⟨false, false, false, false⟩, latched := false, readMark := false }
  assembler := {
    cell := none, n := 0, rotary := 0, thrust := 0, capped := false, tainted := false, maxDepth := 0,
    stallWindow := .disarmed, stallRef := 0, voidCell := false, softCell := false, hardCell := false }
  neighbours := { entries := [], predicted := [], nearVoid := false }
  anchor := { voidCount := 0, softCount := 0, hardCount := 0, outcome := .none, charge := none, target := none }
  resin := {
    charge := none, pushed := 0, stroke := .idle, strokeTimer := .disarmed, retry := false, gap := none, band := none,
    quarterRevs := 0, mixDeadline := none, holdDeadline := none, holdPassed := false }
  torque := {
    target := none, ceiling := none, near := none, entered := false, timer := .disarmed, spinner := 0, peak := 0,
    overshoot := false, torqueNear := false }
  flow := {
    peers := [], allowance := 0, flowCut := false, interlock := .off, releaseDeadline := none,
    setpoints := ⟨.forward, 0, 0, 0⟩, lastSent := some ⟨0, ⟨.forward, 0, 0, 0⟩⟩, onLine := true, sequence := 1,
    schedule := none }
  link := {
    view := .off, recessive := 0, ownLast := false, assembly := [], tx := none, slot := none, queue := [],
    queueOnLine := false, mute := none, holeDropped := false, txFault := false }
  history := { records := [], free := 1024, selection := .none, pointer := 0 }
  host := {
    reply := ⟨.none, []⟩, hsdo := [], config := none, raised := ⟨false, false, false, false⟩, stack := [], faults := [],
    watch := ⟨⟨false, false, false, false, false, false⟩, false, false, false, .armed, false⟩ }
  freeDraws := 0

end Sys2Proof.Machine
end

