-- ==== Sys2Proof/Decode.lean ====
section
/-! DEFINITION. Words and frames that spell commands. No row of spec/opcode_table.json gives bits, so no word spells a
command; the host's transactions do (11 R178, R179, 12 R204), and their frames are read and written here. -/

namespace Sys2Proof

/-- The command a word spells by the table's bits: none, since no row of the table gives any (log 2). -/
def decodeTableWord (_nbits _w : Nat) : Option Instr := none

/-- The bits of a field, high bit first (09 R140, 11 R178). -/
def bitsOf {w : Nat} (x : BitVec w) : List Bool := (List.range w).map x.getMsbD

/-- The number that a run of bits spells, high bit first (09 R140, 11 R178). -/
def valueOf (bits : List Bool) : Nat := bits.foldl (fun n bit => 2 * n + bit.toNat) 0

/-- The whole bytes of a run of bits; a partial byte at its end is dropped (11 R178). -/
def wholeBytes : List Bool → List Byte
  | b7 :: b6 :: b5 :: b4 :: b3 :: b2 :: b1 :: b0 :: rest =>
    BitVec.ofNat 8 (valueOf [b7, b6, b5, b4, b3, b2, b1, b0]) :: wholeBytes rest
  | _ => []

/-- The sum of bytes modulo 256, by which every record and frame is checked (11 R178, 12 R201, R202, R204). -/
def byteSum (bytes : List Byte) : Byte := bytes.foldr (· + ·) 0

/-- The check byte that makes a frame sum to 0 modulo 256. -/
def checkByte (bytes : List Byte) : Byte := -(byteSum bytes)

/-- The command of a code and its argument bytes (12 R204); none where the code is unknown or the number of arguments is
not the one the code requires. -/
def hostCommand (host : Transaction) (canopyRise : Bool) (code : Byte) (args : List Byte) : Option Instr :=
  match code.toNat, args with
  | 1, record => if record.length = 69 then some (.configure record host) else none
  | 2, [rowHigh, rowLow, slot, planned] => some (.startHole (rowHigh ++ rowLow) slot planned canopyRise host)
  | 3, [] => some (.abort canopyRise host)
  | 4, [] => some (.resume canopyRise host)
  | 5, [] => some (.proceed canopyRise host)
  | 6, [] => some (.abandon host)
  | 7, [] => some (.readState host)
  | 8, [] => some (.readAttention host)
  | 9, [] => some (.serviceDone host)
  | 10, [mask, sense, combination] => some (.setWatch mask sense combination host)
  | 11, [] => some (.readSensors host)
  | 12, [] => some (.unlatch host)
  | 13, [] => some (.readFlow host)
  | 14, [index] => some (.readNeighbours index host)
  | 15, [] => some (.readLink host)
  | 16, [high, low] => some (.selectHole (high ++ low) host)
  | 17, [count, direction] => some (.readCells count direction host)
  | _, _ => none

/-- The event a transaction is taken as, from the whole bytes it carried (11 R179): none without a whole byte, a fetch for
a first byte of 255, BAD_FRAME for every failed check, and otherwise the command. Bytes after the check byte are ignored
(R178). -/
def hostEvent (host : Transaction) (canopyRise : Bool) (bytes : List Byte) : Option Instr :=
  match bytes with
  | [] => none
  | code :: rest =>
    if code = 255 then some (.fetch host)
    else match rest with
      | [] => some (.badFrame host)
      | len :: body =>
        if body.length < len.toNat + 1 then some (.badFrame host)
        else if byteSum (code :: len :: body.take (len.toNat + 1)) ≠ 0 then some (.badFrame host)
        else some ((hostCommand host canopyRise code (body.take len.toNat)).getD (.badFrame host))

/-- The event a transaction is taken as at the rise of HSEL_N, from the bits sampled on HSDI, one in each HSCK period (11
R178, R179). `canopyRise` is the pin's, not the frame's (log 5), and `cut` is true for a transaction that a starting event
cut or that began while RESET_N was low (R180; log 27). -/
def hostTransaction (canopyRise cut : Bool) (bits : List Bool) : Option Instr :=
  hostEvent ⟨bits.length, cut⟩ canopyRise (wholeBytes bits)

/-- A command frame: code, length, arguments and check (12 R204). -/
def commandFrame (code : Byte) (args : List Byte) : List Byte :=
  let bytes := code :: BitVec.ofNat 8 args.length :: args
  bytes ++ [checkByte bytes]

/-- The frame the host sends for a command (12 R204); none for a row that is no host command with a frame of its own. -/
def hostFrame : Instr → Option (List Byte)
  | .fetch _ => some [255]
  | .configure record _ => some (commandFrame 1 record)
  | .startHole row slot planned _ _ =>
    some (commandFrame 2 [row.extractLsb' 8 8, row.extractLsb' 0 8, slot, planned])
  | .abort _ _ => some (commandFrame 3 [])
  | .resume _ _ => some (commandFrame 4 [])
  | .proceed _ _ => some (commandFrame 5 [])
  | .abandon _ => some (commandFrame 6 [])
  | .readState _ => some (commandFrame 7 [])
  | .readAttention _ => some (commandFrame 8 [])
  | .serviceDone _ => some (commandFrame 9 [])
  | .setWatch mask sense combination _ => some (commandFrame 10 [mask, sense, combination])
  | .readSensors _ => some (commandFrame 11 [])
  | .unlatch _ => some (commandFrame 12 [])
  | .readFlow _ => some (commandFrame 13 [])
  | .readNeighbours index _ => some (commandFrame 14 [index])
  | .readLink _ => some (commandFrame 15 [])
  | .selectHole number _ => some (commandFrame 16 [number.extractLsb' 8 8, number.extractLsb' 0 8])
  | .readCells count direction _ => some (commandFrame 17 [count, direction])
  | _ => none

/-- The canopy mark of a command that carries one. -/
def Instr.canopyRise : Instr → Bool
  | .startHole _ _ _ rise _ => rise
  | .abort rise _ => rise
  | .resume rise _ => rise
  | .proceed rise _ => rise
  | _ => false

/-- The transaction of a host command. -/
def Instr.transaction : Instr → Option Transaction
  | .fetch host => some host
  | .badFrame host => some host
  | .configure _ host => some host
  | .startHole _ _ _ _ host => some host
  | .abort _ host => some host
  | .resume _ host => some host
  | .proceed _ host => some host
  | .abandon host => some host
  | .readState host => some host
  | .readAttention host => some host
  | .serviceDone host => some host
  | .setWatch _ _ _ host => some host
  | .readSensors host => some host
  | .unlatch host => some host
  | .readFlow host => some host
  | .readNeighbours _ host => some host
  | .readLink host => some host
  | .selectHole _ host => some host
  | .readCells _ _ host => some host
  | _ => none

end Sys2Proof
end

