-- ==== Sys2Proof/Machine/Operands.lean ====
section
/-! DEFINITION. The forms operands come in and leave in: codes (12 R200), byte fields, the sample record (02 R29, 12 R201),
the configuration record (11 R184, 12 R204), the rig link frame and its payloads (09 R140 to R147, 12 R203), the setpoint
record and the reply frame (12 R202, R204). -/

namespace Sys2Proof.Machine

/-! ### Codes (12 R200) -/

def CycleState.code : CycleState → Nat
  | .unconfigured => 0
  | .idle => 1
  | .active .collar => 2
  | .active .drill => 3
  | .active .retract => 4
  | .decide => 5
  | .active .insert => 6
  | .active .mix => 7
  | .active .hold => 8
  | .active .torque => 9
  | .suspended => 10

def CycleState.ofCode : Nat → Option CycleState
  | 0 => some .unconfigured
  | 1 => some .idle
  | 2 => some (.active .collar)
  | 3 => some (.active .drill)
  | 4 => some (.active .retract)
  | 5 => some .decide
  | 6 => some (.active .insert)
  | 7 => some (.active .mix)
  | 8 => some (.active .hold)
  | 9 => some (.active .torque)
  | 10 => some .suspended
  | _ => none

def FlowClass.code : FlowClass → Nat
  | .critical => 0
  | .firm => 1
  | .normal => 2
  | .none => 3

def FlowClass.ofCode : Nat → Option FlowClass
  | 0 => some .critical
  | 1 => some .firm
  | 2 => some .normal
  | 3 => some .none
  | _ => none

def Verdict.code : Verdict → Nat
  | .anchored => 1
  | .spinner => 2
  | .torqueTimeout => 3
  | .short => 4
  | .rejected => 5
  | .aborted => 6
  | .faulted => 7

def Verdict.ofCode : Nat → Option Verdict
  | 1 => some .anchored
  | 2 => some .spinner
  | 3 => some .torqueTimeout
  | 4 => some .short
  | 5 => some .rejected
  | 6 => some .aborted
  | 7 => some .faulted
  | _ => none

/-- The verdict code of a record, 0 while it is OPEN. -/
def verdictCode : Option Verdict → Nat
  | none => 0
  | some v => v.code

def StrataClass.code : StrataClass → Nat
  | .lost => 0
  | .skipped => 1
  | .void => 2
  | .soft => 3
  | .hard => 4
  | .medium => 5

def FaultCode.code : FaultCode → Nat
  | .sensorLost => 1
  | .canopyLost => 2
  | .injector => 3
  | .retractStuck => 4
  | .stall => 5
  | .collarTimeout => 6
  | .valveStuck => 7
  | .duplicate => 8

def Source.code : Source → Nat
  | .fault => 1
  | .decide => 2
  | .holeDone => 3
  | .watch => 4
  | .history => 5

def Status.code : Status → Nat
  | .ok => 0
  | .badState => 1
  | .badArg => 2
  | .badFrame => 3
  | .noCanopy => 4
  | .muted => 5
  | .causePresent => 6
  | .notRead => 7
  | .gone => 8
  | .none => 9

def causeCode : Option Cause → Nat
  | none => 0
  | some .canopy => 1
  | some .sensor => 2
  | some .mute => 3
  | some .stuck => 4

def pendingVerdictCode : Option PendingVerdict → Nat
  | none => 0
  | some .short => 4
  | some .aborted => 6

def AnchorOutcome.code : AnchorOutcome → Nat
  | .none => 0
  | .charge => 1
  | .reject => 2

def StrokeState.code : StrokeState → Nat
  | .idle => 0
  | .inProgress => 1
  | .interrupted => 2

def Interlock.code : Interlock → Nat
  | .off => 0
  | .waitReady => 1
  | .flowing => 2
  | .releasing => 3

def Arming.code : Arming → Nat
  | .armed => 0
  | .fired => 1
  | .served => 2
  | .waitFalse => 3

def LineView.code : LineView → Nat
  | .off => 0
  | .seeking => 1
  | .gap => 2
  | .frame => 3

def muteCauseCode : Option MuteCause → Nat
  | none => 0
  | some .overridden => 1
  | some .heard => 2

def Freshness.code : Freshness → Nat
  | .fresh => 0
  | .stale => 1

def Direction.code : Direction → Nat
  | .forward => 0
  | .reverse => 1

/-! ### Byte fields (12 R200): high byte first -/

def u8 (n : Nat) : List Byte := [BitVec.ofNat 8 n]

def u16 (n : Nat) : List Byte := [BitVec.ofNat 8 (n / 256), BitVec.ofNat 8 n]

def u24 (n : Nat) : List Byte := BitVec.ofNat 8 (n / 65536) :: u16 n

def u32 (n : Nat) : List Byte := BitVec.ofNat 8 (n / 16777216) :: u24 n

/-- A signed field of two bytes, in two's complement (R200, the READ_SENSORS temperature). -/
def s16 (n : Int) : List Byte := u16 (BitVec.ofInt 16 n).toNat

/-- A flag: 1 for set or true, 0 for clear or false. -/
def flag (b : Bool) : List Byte := [if b then 1 else 0]

/-- An item that may be absent: the mark, then the item's `size` bytes, 0 when absent. -/
def marked (size : Nat) : Option (List Byte) → List Byte
  | some item => 1 :: item
  | none => 0 :: List.replicate size 0

/-- A set of named members, bit 0 first. -/
def setByte (members : List Bool) : Byte :=
  members.foldr (fun m acc => acc * 2 + (if m then 1 else 0)) 0

def WatchInputs.toByte (w : WatchInputs) : Byte :=
  setByte [w.voidCell, w.softCell, w.hardCell, w.nearVoid, w.flowCut, w.torqueNear]

/-- The include mask of SET_WATCH; bits 6 and 7 are ignored (R200). -/
def WatchInputs.ofByte (b : Byte) : WatchInputs :=
  ⟨b.getLsbD 0, b.getLsbD 1, b.getLsbD 2, b.getLsbD 3, b.getLsbD 4, b.getLsbD 5⟩

def StatusGroup.toByte (g : StatusGroup) : Byte :=
  setByte [g.linkUp, g.tempValid, g.rangeClamp, g.pulseActive]

def RecordFlags.toByte (f : RecordFlags) : Byte :=
  setByte [f.mixShort, f.overshoot, f.softTarget, f.proceeded, f.extraCharge, f.lostCells, f.resetCut]

/-- The number in two bytes, high byte first. -/
def be16 (high low : Byte) : Nat := high.toNat * 256 + low.toNat

/-! ### A byte on a serial line (02 R29, 08 R128) -/

/-- The bit periods of a byte on SRX or VTX (02 R29, 08 R128): one low start bit, eight data bits, the low one first (log 29),
no parity, and one stop bit. -/
def serialBits (value : Byte) (stopHigh : Bool) : List Bool := false :: ((bitsOf value).reverse ++ [stopHigh])

/-! ### The sample record (02 R29, R30, 12 R201) -/

/-- The sync byte of a sample record. -/
def sampleSync : Byte := 165

/-- The bit periods between two bytes of a record that discard it (R29). -/
def srxGapLimit : Nat := 461

/-- The value of a byte on SRX from its data bits in the order they came, the low bit first (log 29). -/
def srxValue (data : List Bool) : Byte := BitVec.ofNat 8 (valueOf data.reverse)

/-- What one byte on SRX does to the record in assembly (R29), by its value and the level of its stop bit: the assembly after
it, and the 12 bytes of a good record that it completes. -/
def feedSrx (assembly : List Byte) (value : Byte) (stopHigh : Bool) : List Byte × Option (List Byte) :=
  if !stopHigh then ([], none)
  else if assembly.isEmpty then (if value == sampleSync then [value] else [], none)
  else
    let record := assembly ++ [value]
    if record.length == 12 then ([], if byteSum record == 0 then some record else none)
    else (record, none)

/-- The fields of a whole record as the wire carried them (R201). -/
def rawSample : List Byte → Option Sample
  | [_, sequence, t1, t0, q1, q0, s1, s0, f1, f0, temperature, _] =>
    some {
      sequence := sequence.toNat, thrust := be16 t1 t0, torque := be16 q1 q0, speed := be16 s1 s0, feed := be16 f1 f0,
      temperature := (temperature.toNat : Int) - 80 }
  | _ => none

/-- The four ranges of R30; the temperature is never clamped. -/
def Sample.clamp (r : Sample) : Sample :=
  { r with thrust := min r.thrust 600, torque := min r.torque 1023, speed := min r.speed 1023, feed := min r.feed 30000 }

/-- Whether a field was replaced (R30, RANGE_CLAMP). -/
def Sample.clamped (r : Sample) : Bool := 600 < r.thrust || 1023 < r.torque || 1023 < r.speed || 30000 < r.feed

/-- Whether the temperature lies within -40..+120 half-degrees (R30, TEMP_VALID). -/
def Sample.tempValid (r : Sample) : Bool := -40 ≤ r.temperature && r.temperature ≤ 120

/-! ### The configuration record (11 R184, 12 R204) -/

def PhaseTable.get (t : PhaseTable) : Phase → Nat
  | .collar => t.collar
  | .drill => t.drill
  | .retract => t.retract
  | .insert => t.insert
  | .mix => t.mix
  | .hold => t.hold
  | .torque => t.torque

/-- The default gel table (06 R103). -/
def defaultGel : List GelRow :=
  [⟨300, 600⟩, ⟨250, 450⟩, ⟨200, 350⟩, ⟨160, 250⟩, ⟨130, 180⟩, ⟨100, 140⟩, ⟨80, 110⟩, ⟨70, 90⟩]

/-- The defaults of R184 for a station number. -/
def defaultConfiguration (station : Nat) : Configuration where
  station := station
  capacity := 120
  demands := ⟨25, 45, 35, 15, 40, 8, 30⟩
  minimums := ⟨10, 15, 10, 6, 12, 3, 10⟩
  bitSize := .mm27
  softThreshold := 400
  hardThreshold := 2000
  voidN := 20
  voidThrust := 20
  baseCartridges := 1
  extraVoid := 3
  rejectVoid := 8
  normalTarget := 300
  softTarget := 200
  mixRevolutions := 25
  spinnerLimit := 8
  gel := defaultGel

/-- The byte of a record at a place. -/
def byteAt (record : List Byte) (i : Nat) : Nat := (record.getD i 0).toNat

def wordAt (record : List Byte) (i : Nat) : Nat := byteAt record i * 256 + byteAt record (i + 1)

def tripleAt (record : List Byte) (i : Nat) : Nat := byteAt record i * 65536 + wordAt record (i + 1)

/-- Seven consecutive bytes, in the phase order of R204. -/
def phaseTableAt (record : List Byte) (i : Nat) : PhaseTable :=
  ⟨byteAt record i, byteAt record (i + 1), byteAt record (i + 2), byteAt record (i + 3), byteAt record (i + 4),
    byteAt record (i + 5), byteAt record (i + 6)⟩

/-- The fields of a record, unchecked, in the layout of R204. The bit size byte must be 27 or 35. -/
def rawConfiguration (record : List Byte) : Option Configuration :=
  match byteAt record 18 with
  | 27 => some (fields .mm27)
  | 35 => some (fields .mm35)
  | _ => none
where
  fields (bitSize : BitSize) : Configuration := {
    station := byteAt record 1
    capacity := wordAt record 2
    demands := phaseTableAt record 4
    minimums := phaseTableAt record 11
    bitSize := bitSize
    softThreshold := tripleAt record 19
    hardThreshold := tripleAt record 22
    voidN := byteAt record 25
    voidThrust := wordAt record 26
    baseCartridges := byteAt record 28
    extraVoid := byteAt record 29
    rejectVoid := byteAt record 30
    normalTarget := wordAt record 31
    softTarget := wordAt record 33
    mixRevolutions := byteAt record 35
    spinnerLimit := byteAt record 36
    gel := (List.range 8).map fun b => ⟨wordAt record (37 + 4 * b), wordAt record (39 + 4 * b)⟩ }

/-- A value within a range that includes both ends. -/
def within (low x high : Nat) : Bool := low ≤ x && x ≤ high

/-- All seven phases of a table meet a test. -/
def allPhases (test : Phase → Bool) : Bool :=
  [Phase.collar, .drill, .retract, .insert, .mix, .hold, .torque].all test

/-- Every field within its range (R184); the ranges that name another field use that field of the same record. -/
def Configuration.inRange (c : Configuration) : Bool :=
  within 0 c.station 5
    && within 20 c.capacity 400
    && allPhases (fun p => within 1 (c.demands.get p) 255)
    && allPhases (fun p => within 1 (c.minimums.get p) (c.demands.get p))
    && within 0 c.softThreshold 784908
    && within (c.softThreshold + 1) c.hardThreshold 784908
    && within 1 c.voidN 100
    && within 1 c.voidThrust 600
    && within 1 c.baseCartridges 2
    && within 1 c.extraVoid 29
    && within (c.extraVoid + 1) c.rejectVoid 30
    && within 100 c.normalTarget 800
    && within 50 c.softTarget c.normalTarget
    && within 10 c.mixRevolutions 60
    && within 2 c.spinnerLimit 30
    && c.gel.all (fun r => within 10 r.mixWindow 900 && within 10 r.holdTime 900)

/-- The configuration a record gives; none where CONFIGURE is refused with BAD_ARG (R184). With the use-defaults mark only
the station number is checked and taken. -/
def parseConfiguration (record : List Byte) : Option Configuration :=
  match byteAt record 0 with
  | 0 =>
    match rawConfiguration record with
    | some c => if c.inRange then some c else none
    | none => none
  | 1 => if byteAt record 1 ≤ 5 then some (defaultConfiguration (byteAt record 1)) else none
  | _ => none

/-! ### The rig link frame (09 R140, 12 R203). A dominant bit is false, a recessive bit true. -/

/-- The bits the CRC is taken over: kind, station, length and payload. -/
def checkedBits (kind station : BitVec 3) (payload : List Byte) : List Bool :=
  bitsOf kind ++ bitsOf station ++ bitsOf (BitVec.ofNat 6 payload.length) ++ payload.flatMap bitsOf

/-- One bit into the CRC register, polynomial x^16 + x^12 + x^5 + 1 (R140). -/
def crcStep (crc : BitVec 16) (bit : Bool) : BitVec 16 :=
  if crc.msb != bit then (crc <<< 1) ^^^ 0x1021#16 else crc <<< 1

/-- The CRC of a run of bits: the register starts at all ones, with no final inversion (R140). -/
def crcOf (bits : List Bool) : BitVec 16 := bits.foldl crcStep 0xFFFF#16

/-- The whole frame from its lead bit to its last CRC bit. -/
def frameBits (f : LinkFrame) : List Bool :=
  false :: (checkedBits f.kind f.station f.payload ++ bitsOf f.crc)

/-- The CRC the receiver computes is the CRC it read (R140, R143). -/
def crcGood (f : LinkFrame) : Bool := crcOf (checkedBits f.kind f.station f.payload) == f.crc

/-- A frame with the CRC of its content. -/
def buildFrame (kind : BitVec 3) (station : Nat) (payload : List Byte) : LinkFrame :=
  let number := BitVec.ofNat 3 station
  ⟨kind, number, payload, crcOf (checkedBits kind number payload)⟩

/-- The recessive bits at the end of a run of bits: what the recessive count of a SEEKING station is after it (R141). -/
def trailingRecessive (bits : List Bool) : Nat := (bits.reverse.takeWhile id).length

/-- A field of a frame: so many bits from a place on (R140). -/
def bitField (bits : List Bool) (start width : Nat) : Nat := valueOf ((bits.drop start).take width)

/-- The number of payload bytes that a header gives, held after the frame's 13th bit (R143). -/
def lengthRead (bits : List Bool) : Nat := bitField bits 7 6

/-- The bits read of a frame are the whole frame: the length field read in it gives its end (R141, R143). -/
def frameWhole (bits : List Bool) : Bool := 13 ≤ bits.length && bits.length == 29 + 8 * lengthRead bits

/-- A whole frame read from its bits (R140). -/
def frameRead (bits : List Bool) : LinkFrame where
  kind := BitVec.ofNat 3 (bitField bits 1 3)
  station := BitVec.ofNat 3 (bitField bits 4 3)
  payload := (List.range (lengthRead bits)).map fun i => BitVec.ofNat 8 (bitField bits (13 + 8 * i) 8)
  crc := BitVec.ofNat 16 (bitField bits (13 + 8 * lengthRead bits) 16)

def demandKind : BitVec 3 := 1
def holeKind : BitVec 3 := 2

/-- The DEMAND payload (R145, R203). -/
def encodeDemand (n : DemandNotice) : List Byte := u8 n.phase.code ++ u8 n.flowClass.code ++ u8 n.demand

/-- A DEMAND payload read; none where it is malformed (R145). -/
def decodeDemand : List Byte → Option DemandNotice
  | [phase, cls, demand] =>
    match CycleState.ofCode phase.toNat, FlowClass.ofCode cls.toNat with
    | some p, some c => some ⟨p, c, demand.toNat⟩
    | _, _ => none
  | _ => none

/-- The shortest form of a variable-length field (R146). -/
def encodeVar (v : Nat) : List Byte :=
  if v < 128 then u8 v else [BitVec.ofNat 8 (v % 128 + 128), BitVec.ofNat 8 (v / 128)]

/-- A variable-length field read, with the rest; none where it is malformed (R146). -/
def decodeVar : List Byte → Option (Nat × List Byte)
  | [] => none
  | first :: rest =>
    if first.toNat < 128 then some (first.toNat, rest)
    else match rest with
      | [] => none
      | second :: rest =>
        if second.toNat < 128 then some (first.toNat - 128 + 128 * second.toNat, rest) else none

/-- A number of void intervals read, each a start and a length (R147). -/
def decodeVoids : Nat → List Byte → Option (List VoidInterval × List Byte)
  | 0, bytes => some ([], bytes)
  | count + 1, bytes =>
    match decodeVar bytes with
    | none => none
    | some (start, bytes) =>
      match decodeVar bytes with
      | none => none
      | some (length, bytes) =>
        match decodeVoids count bytes with
        | none => none
        | some (voids, bytes) => some (⟨start, length⟩ :: voids, bytes)

/-- The slot and the verdict of a HOLE payload's byte; none where it is not the code of both (R147, R203). -/
def decodeSlotVerdict (b : Byte) : Option (Nat × Verdict) :=
  if b.getLsbD 7 || b.getLsbD 3 then none
  else match Verdict.ofCode (b.toNat % 8) with
    | some v => some (b.toNat / 16, v)
    | none => none

/-- A HOLE payload read; none where it is malformed (R147). -/
def decodeHole (station : Nat) (payload : List Byte) : Option HoleNotice :=
  match decodeVar payload with
  | none => none
  | some (row, bytes) =>
    match bytes with
    | [] => none
    | slotVerdict :: bytes =>
      match decodeSlotVerdict slotVerdict with
      | none => none
      | some (slot, verdict) =>
        match decodeVar bytes with
        | none => none
        | some (depth, bytes) =>
          match bytes with
          | [] => none
          | count :: bytes =>
            if 4095 < row || 8 < count.toNat then none
            else match decodeVoids count.toNat bytes with
              | some (voids, []) => some ⟨station, row, slot, depth, verdict, voids⟩
              | _ => none

/-- The HOLE payload of a notice, every field in its shortest form (R146, R203). -/
def encodeHole (n : HoleNotice) : List Byte :=
  encodeVar n.row ++ u8 (n.slot * 16 + n.verdict.code) ++ encodeVar n.depth ++ u8 n.voids.length
    ++ n.voids.flatMap fun v => encodeVar v.start ++ encodeVar v.length

/-! ### Records and frames the part sends (12 R202, R204) -/

/-- The seven bytes of a setpoint record (R202). -/
def setpointBytes (r : SetpointRecord) : List Byte :=
  let bytes := [90, r.sequence] ++ u8 r.setpoints.direction.code ++ u8 r.setpoints.feed ++ u8 r.setpoints.rotation
    ++ u8 r.setpoints.injector
  bytes ++ [checkByte bytes]

/-- The bit periods of a setpoint record on VTX, its bytes back to back (08 R128): 70 in all (R202). -/
def setpointBits (r : SetpointRecord) : List Bool := (setpointBytes r).flatMap fun b => serialBits b true

/-- A reply frame: status, length, data and check (11 R178, 12 R204). -/
def replyFrame (r : Reply) : List Byte :=
  let bytes := u8 r.status.code ++ u8 r.data.length ++ r.data
  bytes ++ [checkByte bytes]

/-- What HSDO carries in a transaction of so many HSCK periods (11 R178, R179): the reply frame, each byte high bit first,
and after its check byte bytes of 255; a transaction shorter than the reply ends it where it stops. -/
def clockedOut (clocks : Nat) (r : Reply) : List Bool :=
  let frame := (replyFrame r).flatMap bitsOf
  frame.take clocks ++ List.replicate (clocks - frame.length) true

end Sys2Proof.Machine
end

