-- ==== Sys2Proof/Machine/Flags.lean ====
section
/-! DEFINITION. Every figure and condition that is a function of the state: deadlines (01 R2, R4), classes and demand (08
R116), the allowance and its split (08 R122, R126), HELD (08 R125), NEAR_VOID (04 R71), the watch inputs and value (11 R195),
the attention line (11 R190), the resin band (06 R95) and the torque figures (07 R106). -/

namespace Sys2Proof.Machine

/-! ### Deadlines and timers (01 R2, R4) -/

/-- A target has been reached: the difference modulo 2^32 is 0 or at least 2^31 (R2). -/
def expired (target now : Time) : Bool :=
  let d := (target - now).toNat
  d == 0 || 2147483648 ≤ d

/-- The current timebase plus a number of milliseconds. -/
def after (now : Time) (ms : Nat) : Time := now + BitVec.ofNat 32 ms

/-- The time left to a target, 0 once it has been reached (R4; log 4). -/
def remaining (target now : Time) : Nat := if expired target now then 0 else (target - now).toNat

/-- A deadline that is armed and has expired. -/
def deadlineDue (deadline : Option Time) (now : Time) : Bool :=
  match deadline with
  | some target => expired target now
  | none => false

/-- A running timer whose deadline has expired; a paused timer does not expire (R4). -/
def Timer.due (t : Timer) (now : Time) : Bool :=
  match t with
  | .running deadline => expired deadline now
  | _ => false

/-- The timer runs: a paused one is armed at the current timebase plus its remaining time (R4). -/
def Timer.run (t : Timer) (now : Time) : Timer :=
  match t with
  | .paused left => .running (after now left)
  | t => t

/-- The timer pauses: a running one keeps its deadline minus the current timebase (R4). -/
def Timer.pause (t : Timer) (now : Time) : Timer :=
  match t with
  | .running deadline => .paused (remaining deadline now)
  | t => t

/-- The timer runs exactly when it should. -/
def Timer.sync (t : Timer) (shouldRun : Bool) (now : Time) : Timer :=
  if shouldRun then t.run now else t.pause now

/-- The remaining time a timer reports, none when disarmed (06 R86, 07 R104). -/
def Timer.report (t : Timer) (now : Time) : Option Nat :=
  match t with
  | .disarmed => none
  | .paused left => some left
  | .running deadline => some (remaining deadline now)

/-- A periodic deadline at its expiry: the previous target plus whole periods until it is in the future (R3). -/
def rearmPeriodic (target now : Time) (period : Nat) : Time :=
  after target (period * ((now - target).toNat / period + 1))

/-! ### The cycle state, its class and its demand (08 R116) -/

def CycleState.isActive : CycleState → Bool
  | .active _ => true
  | _ => false

def Phase.flowClass : Phase → FlowClass
  | .mix => .critical
  | .hold => .firm
  | .torque => .firm
  | .collar => .normal
  | .drill => .normal
  | .retract => .normal
  | .insert => .normal

def CycleState.flowClass : CycleState → FlowClass
  | .active p => p.flowClass
  | _ => .none

/-- COLLAR, DRILL, RETRACT and TORQUE need the sample link (01 R18, R19). -/
def Phase.needsLink : Phase → Bool
  | .collar => true
  | .drill => true
  | .retract => true
  | .torque => true
  | _ => false

/-- The configuration in force; the defaults stand in states no run reaches, where an active phase has none (log 15). -/
def State.cfg (s : State) : Configuration := s.host.config.getD (defaultConfiguration 0)

def ownClass (s : State) : FlowClass := s.cycle.state.flowClass

/-- The own demand (R116): the configured value of an active phase, and 0 otherwise. -/
def ownDemand (s : State) : Nat :=
  match s.cycle.state with
  | .active p => s.cfg.demands.get p
  | _ => 0

/-- The own minimum (R116). -/
def ownMinimum (s : State) : Nat :=
  match s.cycle.state with
  | .active p => s.cfg.minimums.get p
  | _ => 0

def State.now (s : State) : Time := s.cycle.timebase

/-- The link controller holds MUTE (09 R155). -/
def State.muted (s : State) : Bool := s.link.mute.isSome

/-! ### The allowance (08 R122) -/

/-- The sum of the demands of a class's peers, FRESH and STALE alike. -/
def peerSum (cls : FlowClass) (peers : List Peer) : Nat :=
  ((peers.filter fun p => p.flowClass == cls).map Peer.demand).sum

/-- The sum S of the demands of all claimants of a class, the own station among them. -/
def classSum (cls own : FlowClass) (demand : Nat) (peers : List Peer) : Nat :=
  (if cls == own then demand else 0) + peerSum cls peers

/-- What is left of R after a class of sum S. -/
def leftAfter (r sum : Nat) : Nat := if sum ≤ r then r - sum else 0

/-- What a claimant of demand D receives in a class of sum S out of R. -/
def shareOf (r sum demand : Nat) : Nat := if sum ≤ r then demand else demand * r / sum

/-- The own allowance (R122): the classes in rank order, the remainder starting at the capacity. -/
def allowanceOf (capacity : Nat) (own : FlowClass) (demand : Nat) (peers : List Peer) : Nat :=
  let critical := classSum .critical own demand peers
  let firm := classSum .firm own demand peers
  let normal := classSum .normal own demand peers
  match own with
  | .critical => shareOf capacity critical demand
  | .firm => shareOf (leftAfter capacity critical) firm demand
  | .normal => shareOf (leftAfter (leftAfter capacity critical) firm) normal demand
  | .none => 0

/-- The allowance of the state as it stands. -/
def allowanceNow (s : State) : Nat := allowanceOf s.cfg.capacity (ownClass s) (ownDemand s) s.flow.peers

/-! ### HELD, the interlock's condition and the setpoints (08 R125, R126, R131) -/

/-- HELD (R125): an active phase whose interlock is not FLOWING. -/
def heldNow (s : State) : Bool := s.cycle.state.isActive && s.flow.interlock != .flowing

/-- FLOW_REQ may be high (R131, R133): an active phase, the allowance at or above the minimum, CANOPY_SET high. -/
def mayFlow (s : State) : Bool := s.cycle.state.isActive && ownMinimum s ≤ s.flow.allowance && s.canopySet

/-- The level of FLOW_REQ (R131). -/
def State.flowReq (s : State) : Bool := s.flow.interlock == .waitReady || s.flow.interlock == .flowing

/-- The level of STROKE (06 R88 to R93): high exactly while a stroke is in progress. -/
def State.strokeOut (s : State) : Bool := s.resin.stroke == .inProgress

/-- The recessive count a start needs (09 R149). -/
def LinkBlock.startCount (l : LinkBlock) : Nat := if l.ownLast then 19 else 11

/-- A notice waits to be sent: one in the slot, or the oldest of the hole queue without the on-line mark (09 R149). -/
def LinkBlock.hasNotice (l : LinkBlock) : Bool := l.slot.isSome || (!l.queue.isEmpty && !l.queueOnLine)

/-- Every condition of 09 R149 holds: the station starts a frame in the bit period that comes next. -/
def LinkBlock.starts (l : LinkBlock) : Bool :=
  l.view == .gap && l.startCount ≤ l.recessive && l.mute.isNone && l.hasNotice

/-- The level of LTX in the bit period that comes next, recessive as true (09 R140): the bit of the transmit frame that is next
to be read back (R151); for a station that sends none, dominant where it starts a frame (R149), and recessive else. -/
def State.ltx (s : State) : Bool :=
  match s.link.tx with
  | some f => (frameBits f).getD s.link.assembly.length true
  | none => !s.link.starts

/-- The level of VTX (08 R128): in the bit period `period` of the record on the line, counted from 0 at its hand-over, the bit of
that record; high after its last stop bit and while no record is on the line (log 29). -/
def State.vtxLevel (s : State) (period : Nat) : Bool :=
  if s.flow.onLine then ((s.flow.lastSent.map setpointBits).getD []).getD period true else true

/-- The level of HSDO (11 R178): not driven while HSEL_N is high; in the HSCK period `clock` of a transaction, counted from
0, the bit of the reply buffer's frame, and 1 after its check byte. In what is left of a transaction that a starting event cut,
and in one that begins while RESET_N is low, it is the bit of the empty reply at that period: the model's choice (log 30). -/
def State.hsdoLevel (s : State) (hselHigh : Bool) (clock : Nat) : Option Bool :=
  if hselHigh then none else some (((replyFrame s.host.reply).flatMap bitsOf).getD clock true)

/-- Every setpoint 0, direction FORWARD. -/
def zeroSetpoints : Setpoints := ⟨.forward, 0, 0, 0⟩

/-- The split of an allowance for a phase (R126), with the probe feed of R72 in DRILL. -/
def split (phase : Phase) (a : Nat) (probe : Bool) : Setpoints :=
  match phase with
  | .collar => ⟨.forward, a - a / 2, a / 2, 0⟩
  | .drill =>
    let feed := a - 2 * a / 3
    ⟨.forward, if probe then feed / 2 else feed, 2 * a / 3, 0⟩
  | .retract => ⟨.reverse, a, 0, 0⟩
  | .insert => ⟨.forward, 0, 0, a⟩
  | .mix => ⟨.forward, a - 3 * a / 4, 3 * a / 4, 0⟩
  | .hold => ⟨.forward, a, 0, 0⟩
  | .torque => ⟨.forward, 0, a, 0⟩

/-- The setpoints of the state as it stands (R126). -/
def setpointsNow (s : State) : Setpoints :=
  match s.cycle.state with
  | .active p => if s.flow.interlock == .flowing then split p s.flow.allowance s.neighbours.nearVoid else zeroSetpoints
  | _ => zeroSetpoints

/-! ### NEAR_VOID (04 R71) -/

/-- COLLAR or DRILL with a predicted cell at k, k + 1 or k + 2. -/
def nearVoidNow (s : State) : Bool :=
  match s.cycle.state, s.assembler.cell with
  | .active .collar, some k => s.neighbours.predicted.any fun c => k ≤ c && c ≤ k + 2
  | .active .drill, some k => s.neighbours.predicted.any fun c => k ≤ c && c ≤ k + 2
  | _, _ => false

/-! ### The watch (11 R195) -/

/-- The present value of the six inputs. -/
def watchInputs (s : State) : WatchInputs :=
  ⟨s.assembler.voidCell, s.assembler.softCell, s.assembler.hardCell, s.neighbours.nearVoid, s.flow.flowCut,
    s.torque.torqueNear⟩

/-- The six members in a fixed order. -/
def WatchInputs.members (w : WatchInputs) : List Bool :=
  [w.voidCell, w.softCell, w.hardCell, w.nearVoid, w.flowCut, w.torqueNear]

/-- The value of a watch expression on given inputs (R195); false with an empty mask. -/
def Watch.value (w : Watch) (inputs : WatchInputs) : Bool :=
  let counted := ((w.mask.members.zip inputs.members).filter Prod.fst).map fun m => m.2 != w.activeFalse
  if counted.isEmpty then false
  else if w.isAnd then counted.all id else counted.any id

/-! ### Attention (11 R189, R190) -/

def Source.priority : Source → Nat
  | .fault => 1
  | .decide => 2
  | .holeDone => 3
  | .watch => 4
  | .history => 5

/-- The sources from the highest priority down. -/
def allSources : List Source := [.fault, .decide, .holeDone, .watch, .history]

def HostBlock.isPending (h : HostBlock) : Source → Bool
  | .fault => !h.faults.isEmpty
  | .decide => h.raised.decide
  | .holeDone => h.raised.holeDone
  | .watch => h.raised.watch
  | .history => h.raised.history

/-- A source outranks the top of the stack; with the stack empty any source does (R190). -/
def outranksTop (stack : List Source) (src : Source) : Bool :=
  match stack with
  | [] => true
  | top :: _ => src.priority < top.priority

/-- The highest-priority pending source that outranks the top (R191). -/
def HostBlock.qualifying (h : HostBlock) : Option Source :=
  allSources.find? fun src => h.isPending src && outranksTop h.stack src

/-- ATTN_N is driven low (R190). -/
def State.attnLow (s : State) : Bool := s.host.qualifying.isSome

/-! ### Resin and torque figures -/

/-- The resin band (06 R95). -/
def bandOf (tempValid : Bool) (temperature : Int) : Nat :=
  if !tempValid || temperature < 0 then 0 else min 7 (1 + temperature.toNat / 10)

def gelRow (c : Configuration) (band : Nat) : GelRow := c.gel.getD band ⟨0, 0⟩

/-- The mix window and hold time of a band in ms (06 R95, R100). -/
def mixWindowMs (c : Configuration) (band : Nat) : Nat := (gelRow c band).mixWindow * 100

def holdTimeMs (c : Configuration) (band : Nat) : Nat := (gelRow c band).holdTime * 100

/-- The ceiling and the near threshold of a target (07 R106). -/
def ceilingOf (t : Nat) : Nat := t + 3 * t / 20

def nearOf (t : Nat) : Nat := 9 * t / 10

end Sys2Proof.Machine
end

