-- ==== Sys2Proof/Config.lean ====
section
/-! DEFINITION. What the manual leaves open as a value. Every figure the manual states is in the Machine files; the
host's configuration (11 R184) is state. -/

namespace Sys2Proof

/-- FREE VALUE (log 16): the bytes of a READ_ATTENTION reply whose rule names an item that does not exist in the state
(no hole number, no finished record, an empty ring; 11 R191). No run reaches such a state; the rule states no byte for it. -/
opaque Config.unstatedByte : Nat → Byte

end Sys2Proof
end

