-- ==== Sys2Proof/Machine/Ops.lean ====
section
/-! DEFINITION. The shared operations: block updates, the attention unit (11), the hole history (10), the neighbour table
(04), the link controller's slot and queue (09), the flow share unit (08), and the end of an event, at which the flow share
unit and the watch act. -/

namespace Sys2Proof.Machine

/-! ### Updates of one block -/

def State.onCycle (s : State) (f : CycleBlock → CycleBlock) : State := { s with cycle := f s.cycle }
def State.onSensor (s : State) (f : SensorBlock → SensorBlock) : State := { s with sensor := f s.sensor }
def State.onAssembler (s : State) (f : AssemblerBlock → AssemblerBlock) : State := { s with assembler := f s.assembler }
def State.onNeighbours (s : State) (f : NeighbourBlock → NeighbourBlock) : State :=
  { s with neighbours := f s.neighbours }
def State.onAnchor (s : State) (f : AnchorBlock → AnchorBlock) : State := { s with anchor := f s.anchor }
def State.onResin (s : State) (f : ResinBlock → ResinBlock) : State := { s with resin := f s.resin }
def State.onTorque (s : State) (f : TorqueBlock → TorqueBlock) : State := { s with torque := f s.torque }
def State.onFlow (s : State) (f : FlowBlock → FlowBlock) : State := { s with flow := f s.flow }
def State.onLink (s : State) (f : LinkBlock → LinkBlock) : State := { s with link := f s.link }
def State.onHistory (s : State) (f : HistoryBlock → HistoryBlock) : State := { s with history := f s.history }
def State.onHost (s : State) (f : HostBlock → HostBlock) : State := { s with host := f s.host }

/-- A command that may bring a rise of CANOPY_SET leaves the pin high if it does (log 5, log 24). -/
def State.noteCanopy (s : State) (rise : Bool) : State := { s with canopySet := s.canopySet || rise }

/-! ### Attention unit (11 sections 11.6, 11.8, 11.9) -/

/-- A fault code joins the queue; at a full queue it overwrites the newest entry and sets its OVERFLOW mark (R194). -/
def joinFault (code : FaultCode) (faults : List FaultEntry) : List FaultEntry :=
  if faults.length < 4 then faults ++ [⟨code, false⟩] else faults.dropLast ++ [⟨code, true⟩]

def queueFault (code : FaultCode) (s : State) : State :=
  s.onHost fun h => { h with faults := joinFault code h.faults }

/-- The raised bits with one source set; FAULT has no bit, since it follows the queue (R189). -/
def Raised.set (r : Raised) (src : Source) (value : Bool) : Raised :=
  match src with
  | .fault => r
  | .decide => { r with decide := value }
  | .holeDone => { r with holeDone := value }
  | .watch => { r with watch := value }
  | .history => { r with history := value }

/-- A source is raised; raising a pending source changes nothing (R189). -/
def raiseSource (src : Source) (s : State) : State :=
  s.onHost fun h => { h with raised := h.raised.set src true }

/-- One evaluation of the watch on given inputs (R196). -/
def HostBlock.evaluate (h : HostBlock) (inputs : WatchInputs) : HostBlock :=
  let y := h.watch.value inputs
  match h.watch.arming with
  | .armed =>
    if !h.watch.y && y then
      { h with watch := { h.watch with y := y, arming := .fired }, raised := h.raised.set .watch true }
    else { h with watch := { h.watch with y := y } }
  | .fired => { h with watch := { h.watch with y := y } }
  | .served => { h with watch := { h.watch with y := y, fell := h.watch.fell || !y } }
  | .waitFalse => { h with watch := { h.watch with y := y, arming := if y then .waitFalse else .armed } }

/-- The evaluation at the end of an event that changed an input (R196; log 8). -/
def watchAfter (old s : State) : State :=
  s.onHost fun h => if watchInputs s = watchInputs old then h else h.evaluate (watchInputs s)

/-- A reply takes the reply buffer's place (11 R179). -/
def setReply (status : Status) (data : List Byte) (s : State) : State :=
  s.onHost fun h => { h with reply := ⟨status, data⟩ }

/-- The end of a transaction that began in `s` and whose command has led to `new` (11 R179, R180): HSDO has carried the old
reply for as long as the transaction lasted (log 20). A transaction that was cut is not taken (R180; log 27). -/
def transacted (host : Transaction) (s new : State) : State :=
  if host.cut then s else new.onHost fun h => { h with hsdo := clockedOut host.clocks s.host.reply }

/-! ### Hole history (10) -/

def HoleRecord.isOpen (r : HoleRecord) : Bool := r.verdict.isNone

/-- The reserved count of a record (R162). -/
def HoleRecord.reserved (r : HoleRecord) : Nat := if r.isOpen then r.planned else r.cells.length

/-- A write into the OPEN record; none is taken when no record is OPEN (R164). -/
def writeOpen (f : HoleRecord → HoleRecord) (s : State) : State :=
  s.onHistory fun h => { h with records := h.records.map fun r => if r.isOpen then f r else r }

/-- The OPEN record (R162). -/
def State.openRecord (s : State) : Option HoleRecord := s.history.records.find? HoleRecord.isOpen

/-- A cell appended as the record's next cell; an append past the planned cells is not taken (R164). -/
def HoleRecord.append (r : HoleRecord) (c : CellRecord) : HoleRecord :=
  if r.cells.length < r.planned then { r with cells := r.cells ++ [c] } else r

def appendCells (cells : List CellRecord) (s : State) : State := writeOpen (fun r => cells.foldl HoleRecord.append r) s

/-- The OPEN record is finished with a verdict, and its unused reserved cells go back to the pool (R167, R168). -/
def HistoryBlock.finish (h : HistoryBlock) (verdict : Verdict) (cut : Bool) : HistoryBlock :=
  { h with
    records := h.records.map fun r =>
      if r.isOpen then { r with verdict := some verdict, flags := { r.flags with resetCut := r.flags.resetCut || cut } }
      else r
    free := h.free + ((h.records.filter HoleRecord.isOpen).map fun r => r.planned - r.cells.length).sum }

def noFlags : RecordFlags := ⟨false, false, false, false, false, false, false⟩

/-- A newly reserved record (R163). -/
def newRecord (number : HoleNo) (row slot planned : Nat) : HoleRecord where
  number := number
  row := row
  slot := slot
  planned := planned
  verdict := none
  flags := noFlags
  outcome := .none
  voidCount := 0
  softCount := 0
  hardCount := 0
  charge := none
  target := none
  pushed := 0
  band := none
  quarterRevs := none
  peak := none
  cells := []

/-- The evictions a reservation makes: the oldest record goes while the free cells are fewer than `planned` or the ring
holds 16 records (R165, R166). Answers the records left, the free cells, and the records evicted. -/
def evictFor (planned : Nat) : List HoleRecord → Nat → List HoleRecord × Nat × List HoleRecord
  | [], free => ([], free, [])
  | r :: rest, free =>
    if free < planned ∨ 16 ≤ rest.length + 1 then
      let after := evictFor planned rest (free + r.reserved)
      (after.1, after.2.1, r :: after.2.2)
    else (r :: rest, free, [])

/-- A selection that names an evicted record becomes GONE (R166). -/
def Selection.evict (sel : Selection) (gone : List HoleRecord) : Selection :=
  match sel with
  | .hole n => if gone.any fun r => r.number == n then .gone n else .hole n
  | sel => sel

/-- A record reserved for a new hole (R165); each eviction raises HISTORY (R166). -/
def reserveRecord (number : HoleNo) (row slot planned : Nat) (s : State) : State :=
  let after := evictFor planned s.history.records s.history.free
  (s.onHistory fun h =>
    { h with records := after.1 ++ [newRecord number row slot planned], free := after.2.1 - planned,
             selection := h.selection.evict after.2.2 }).onHost fun h =>
    { h with raised := if after.2.2.isEmpty then h.raised else h.raised.set .history true }

/-- The oldest retained number and the newest record's number, none for an empty ring (R170). -/
def HistoryBlock.oldest (h : HistoryBlock) : Option HoleNo := h.records.head?.map HoleRecord.number

def HistoryBlock.newest (h : HistoryBlock) : Option HoleNo := h.records.getLast?.map HoleRecord.number

/-- The record of a present number (R171): its place is the number less the oldest retained, modulo 65,536. -/
def HistoryBlock.present (h : HistoryBlock) (number : HoleNo) : Option HoleRecord :=
  match h.oldest with
  | none => none
  | some oldest => h.records[(number - oldest).toNat]?

/-! ### Neighbour table (04) -/

/-- Two numbers differ by at most 1. -/
def adjacent (a b : Nat) : Bool := a ≤ b + 1 && b ≤ a + 1

/-- An entry qualifies for a hole at a row and slot (R68). -/
def qualifies (row slot : Nat) (e : HoleNotice) : Bool := adjacent e.row row && adjacent e.slot slot

/-- An interval overlaps a cell by at least 1 mm (R68); one of length 0 covers nothing (R62; log 26). -/
def VoidInterval.overlaps (v : VoidInterval) (cell : Nat) : Bool :=
  0 < v.length && v.start < 20 * (cell + 1) && 20 * cell < v.start + v.length

/-- The predicted void set of a hole (R68), rising. -/
def predictedSet (row slot planned : Nat) (entries : List HoleNotice) : List Nat :=
  (List.range planned).filter fun c => entries.any fun e => qualifies row slot e && e.voids.any fun v => v.overlaps c

def rebuildPrediction (s : State) : State :=
  s.onNeighbours fun nb => { nb with predicted := predictedSet s.cycle.row s.cycle.slot s.cycle.planned nb.entries }

/-- Two notices of one place in the roof (R62). -/
def HoleNotice.sameKey (a b : HoleNotice) : Bool := a.row == b.row && a.slot == b.slot

/-- The entries after an insertion, and those it removed (R63). -/
def insertInto (e : HoleNotice) (entries : List HoleNotice) : List HoleNotice × List HoleNotice :=
  if entries.any fun x => x.sameKey e then
    (entries.filter (fun x => !x.sameKey e) ++ [e], entries.filter fun x => x.sameKey e)
  else if 16 ≤ entries.length then (entries.drop 1 ++ [e], entries.take 1)
  else (entries ++ [e], [])

/-- In COLLAR or DRILL an insertion that adds or removes a qualifying entry rebuilds the set (R69). -/
def insertionRebuilds (s : State) (e : HoleNotice) (removed : List HoleNotice) : Bool :=
  (s.cycle.state == .active .collar || s.cycle.state == .active .drill)
    && (e :: removed).any (qualifies s.cycle.row s.cycle.slot)

/-- An entry inserted into the table (R63), with the rebuild of R69. -/
def insertNotice (e : HoleNotice) (s : State) : State :=
  s.onNeighbours fun nb =>
    let table := insertInto e nb.entries
    { nb with
      entries := table.1
      predicted :=
        if insertionRebuilds s e table.2 then predictedSet s.cycle.row s.cycle.slot s.cycle.planned table.1
        else nb.predicted }

/-- The runs of VOID cells from a cell number on, each a first cell and a number of cells (R67). -/
def voidRuns (k : Nat) (run : Option (Nat × Nat)) : List CellRecord → List (Nat × Nat)
  | [] => run.toList
  | c :: rest =>
    if c.cls = .void then
      match run with
      | none => voidRuns (k + 1) (some (k, 1)) rest
      | some (first, count) => voidRuns (k + 1) (some (first, count + 1)) rest
    else run.toList ++ voidRuns (k + 1) none rest

/-- The void list of the own notice: the deepest 8 runs, in rising order (R67). -/
def voidList (cells : List CellRecord) : List VoidInterval :=
  let runs := voidRuns 0 none cells
  (runs.drop (runs.length - 8)).map fun run => ⟨run.1 * 20, run.2 * 20⟩

/-- The own hole notice of a finished record (R66). -/
def composeNotice (station : Nat) (verdict : Verdict) (r : HoleRecord) : HoleNotice where
  station := station
  row := r.row
  slot := r.slot
  depth := r.cells.length * 20
  verdict := verdict
  voids := voidList r.cells

/-! ### Link controller: the slot and the queue (09 R157, R158) -/

/-- The notice of the present phase (08 R136). -/
def demandNotice (s : State) : DemandNotice := ⟨s.cycle.state, ownClass s, ownDemand s⟩

/-- No notice is placed in UNCONFIGURED or while MUTE holds (08 R139). -/
def mayPlace (s : State) : Bool := s.cycle.state != .unconfigured && !s.muted

/-- A DEMAND notice placed in the slot, without the on-line mark (R157), if one is wanted. -/
def placeDemandIf (wanted : Bool) (s : State) : State :=
  s.onLink fun l => if wanted && mayPlace s then { l with slot := some ⟨demandNotice s, false⟩ } else l

/-- The queue after the oldest notice without the on-line mark is dropped. -/
def dropWaiting (onLine : Bool) (queue : List HoleNotice) : List HoleNotice :=
  if onLine then queue.take 1 ++ queue.drop 2 else queue.drop 1

/-- A notice handed to the link controller (R158). -/
def queueHole (n : HoleNotice) (s : State) : State :=
  s.onLink fun l =>
    if l.mute.isSome then l
    else if l.queue.length < 4 then { l with queue := l.queue ++ [n] }
    else { l with queue := dropWaiting l.queueOnLine l.queue ++ [n], holeDropped := true }

/-! ### Flow share unit and valve port (08) -/

def setNearVoid (s : State) : State := s.onNeighbours fun nb => { nb with nearVoid := nearVoidNow s }

/-- The allowance is recomputed and FLOW_CUT updated (R123, R124). -/
def recomputeAllowance (s : State) : State :=
  s.onFlow fun f => { f with allowance := allowanceNow s, flowCut := allowanceNow s < ownDemand s }

/-- The interlock acts on the state as it stands: it raises FLOW_REQ from OFF (R131) or lowers it (R133). -/
def actInterlock (s : State) : State :=
  s.onFlow fun f =>
    match f.interlock with
    | .off =>
      if mayFlow s then { f with interlock := if s.valveReady then .flowing else .waitReady } else f
    | .releasing => f
    | _ =>
      if mayFlow s then f
      else if s.valveReady then { f with interlock := .releasing, releaseDeadline := some (after s.now 500) }
      else { f with interlock := .off, releaseDeadline := none }

def setHeld (s : State) : State := s.onCycle fun c => { c with held := heldNow s }

/-- A phase runs: it is the cycle state and is not HELD (01 R4, R7). -/
def phaseRuns (s : State) (p : Phase) : Bool := s.cycle.state == .active p && !s.cycle.held

/-- The pausable timers run or pause with their phases (01 R4, 02 R45, 06 R88, 07 R109). -/
def syncTimers (s : State) : State :=
  (((s.onCycle fun c =>
    { c with collarTimer := c.collarTimer.sync (phaseRuns s .collar) s.now,
             retractTimer := c.retractTimer.sync (phaseRuns s .retract) s.now }).onAssembler fun a =>
    { a with stallWindow := a.stallWindow.sync (phaseRuns s .drill) s.now }).onResin fun r =>
    { r with strokeTimer := r.strokeTimer.sync (phaseRuns s .insert && r.stroke == .inProgress) s.now }).onTorque fun t =>
    { t with timer := t.timer.sync (phaseRuns s .torque) s.now }

/-- All the conditions of a stroke's start (06 R88). -/
def strokeDue (s : State) : Bool :=
  phaseRuns s .insert && s.resin.stroke != .inProgress && (s.resin.charge.any fun c => s.resin.pushed < c)
    && !s.cycle.abortPending && s.resin.gap.isNone

/-- A stroke starts as soon as all its conditions hold: a fresh 3,000 ms from IDLE, the kept remainder from INTERRUPTED
(R88). A remainder of 0 arms the timer at the present timebase: R93's timeout on start is then the STROKE_TIMER_EXPIRY that is
due at once, after a gap's expiry and after a clearing of HELD alike; RESUME alone takes it in its own event (log 9). -/
def startStroke (s : State) : State :=
  s.onResin fun r =>
    if strokeDue s then
      { r with
        stroke := .inProgress
        strokeTimer := if r.stroke = .idle then .running (after s.now 3000) else r.strokeTimer.run s.now }
    else r

/-- What follows from the state an event has reached: NEAR_VOID, the allowance, the interlock, HELD, the pausable timers
and a stroke's start (08 R117, R123; log 8). -/
def settle (s : State) : State :=
  startStroke (syncTimers (setHeld (actInterlock (recomputeAllowance (setNearVoid s)))))

/-- The setpoints are computed anew, and a record is sent if VTX is idle and they differ from the last record sent
(R127, R129). -/
def sendSetpoints (s : State) : State :=
  s.onFlow fun f =>
    let new := setpointsNow s
    if f.onLine || f.lastSent.map SetpointRecord.setpoints == some new then { f with setpoints := new }
    else { f with setpoints := new, lastSent := some ⟨f.sequence, new⟩, onLine := true, sequence := f.sequence + 1 }

/-- The end of an event that began in `old`: one notice if the cycle state changed (R137), the setpoint record, and one
evaluation of the watch (11 R196). -/
def finish (old s : State) : State :=
  watchAfter old (sendSetpoints (placeDemandIf (s.cycle.state != old.cycle.state) s))

/-- A whole event: its own work on a state, and then what follows from it. -/
def event (old work : State) : State := finish old (settle work)

/-- A part held by RESET_N takes no event (11 R187); otherwise the event's next state. Of R177's last row, reset line first,
the BAD_STATE is that of a READ_CELLS whose transaction begins after the rise of RESET_N: one that ends while the part is held,
or was cut, is not taken and has no reply (R180, R187; log 17). -/
def unlessHeld {φ ρ : Type} (s new : State) : Host.Outcome State φ ρ := .next (if s.resetHeld then s else new)

/-- A host command is one event, at the end of its transaction (11 R180). -/
def inTransaction {φ ρ : Type} (host : Transaction) (s new : State) : Host.Outcome State φ ρ :=
  unlessHeld s (transacted host s new)

end Sys2Proof.Machine
end

