-- ==== Sys2Proof/Machine/Cells.lean ====
section
/-! DEFINITION. The energy unit (03), the cell assembler (02 sections 2.5 to 2.8) and the anchor evaluator (05). -/

namespace Sys2Proof.Machine

/-! ### The energy unit (03). The input ranges keep every intermediate below 2^48 (R54), so the arithmetic is exact. -/

/-- The rotary energy in J (R49). -/
def rotaryEnergy (rotary : Nat) : Nat := (rotary * 3514 + 8388608) / 16777216

/-- The thrust energy in J, for n of 1 or more (R50). -/
def thrustEnergy (thrust n : Nat) : Nat := (4 * thrust + n) / (2 * n)

/-- The volume constant K of a bit size (R52). -/
def BitSize.volumeConstant : BitSize → Nat
  | .mm27 => 57231
  | .mm35 => 34058

/-- The specific energy in tenths of MJ/m^3 (R52). -/
def specificEnergyOf (bit : BitSize) (energy : Nat) : Nat := (energy * bit.volumeConstant + 32768) / 65536

/-- The class of a cell that is neither LOST nor SKIPPED (R55 orders 3 to 6, R56). -/
def rockClass (c : Configuration) (n specificEnergy meanThrust : Nat) : StrataClass :=
  if n ≤ c.voidN ∧ meanThrust < c.voidThrust then .void
  else if specificEnergy < c.softThreshold then .soft
  else if c.hardThreshold ≤ specificEnergy then .hard
  else .medium

/-- The class of a closing cell (R55). -/
def cellClass (c : Configuration) (tainted : Bool) (n specificEnergy meanThrust : Nat) : StrataClass :=
  if tainted then .lost else if n = 0 then .skipped else rockClass c n specificEnergy meanThrust

/-- A cell whose every figure is 0 (R57, R58). -/
def emptyCell (cls : StrataClass) : CellRecord := ⟨cls, 0, 0, 0, 0, false⟩

/-- The cell record of the cell in assembly (R60). -/
def cellRecord (c : Configuration) (a : AssemblerBlock) : CellRecord :=
  if a.n = 0 then emptyCell (if a.tainted then .lost else .skipped)
  else
    let energy := rotaryEnergy a.rotary + thrustEnergy a.thrust a.n
    let specific := specificEnergyOf c.bitSize energy
    let mean := a.thrust / a.n
    ⟨cellClass c a.tainted a.n specific mean, a.n, energy, specific, mean, a.capped⟩

/-! ### The cell assembler -/

/-- The watch inputs after the last cell an event closed (02 R41). -/
def AssemblerBlock.watchLast (a : AssemblerBlock) (closed : List CellRecord) : AssemblerBlock :=
  match closed.getLast? with
  | none => a
  | some c => { a with voidCell := c.cls == .void, softCell := c.cls == .soft, hardCell := c.cls == .hard }

/-- Closed cells handed on in rising order: appended to the OPEN record, and the last one's class to the watch inputs
(R41). -/
def handOn (closed : List CellRecord) (s : State) : State := (appendCells closed s).onAssembler fun a => a.watchLast closed

/-- A sample accumulated into the cell in assembly, unless it is CAPPED (R39). -/
def AssemblerBlock.accumulate (a : AssemblerBlock) (x : Sample) : AssemblerBlock :=
  if a.capped then a
  else
    { a with n := a.n + 1, rotary := a.rotary + x.torque * x.speed, thrust := a.thrust + x.thrust,
             capped := a.n + 1 == 4095 }

/-- A cell opened with zero accumulators (R38, R40). -/
def AssemblerBlock.openCell (a : AssemblerBlock) (k : Nat) : AssemblerBlock :=
  { a with cell := some k, n := 0, rotary := 0, thrust := 0, capped := false, tainted := false }

/-- The cell in assembly closed, and the cells above it up to `stop` closed SKIPPED (R40, R42). -/
def closedUpTo (s : State) (k stop : Nat) : List CellRecord :=
  cellRecord s.cfg s.assembler :: List.replicate (stop - (k + 1)) (emptyCell .skipped)

/-- The maximum depth raised to a sample's feed position (R39). -/
def raiseDepth (x : Sample) (s : State) : State := s.onAssembler fun a => { a with maxDepth := max a.maxDepth x.feed }

/-- A good sample of COLLAR or DRILL placed by its feed position (R39, R40, R42). -/
def placeSample (x : Sample) (s : State) : State :=
  let s := raiseDepth x s
  match s.assembler.cell with
  | none => s
  | some k =>
    if s.cycle.planned * 200 ≤ x.feed then
      (handOn (closedUpTo s k s.cycle.planned) s).onAssembler fun a => { a with cell := none }
    else if k < x.feed / 200 then
      (handOn (closedUpTo s k (x.feed / 200)) s).onAssembler fun a => (a.openCell (x.feed / 200)).accumulate x
    else s.onAssembler fun a => a.accumulate x

/-- The scan for LOST cells in the OPEN record (05 R81). -/
def scanLost (s : State) : State :=
  writeOpen (fun r =>
    { r with flags := { r.flags with lostCells := r.flags.lostCells || r.cells.any fun c => c.cls == .lost } }) s

/-- The cells an end short of the planned depth closes: the cell in assembly, unless it is empty and untainted (02 R43). -/
def shortEndCells (s : State) : List CellRecord :=
  if s.assembler.cell.isSome && (0 < s.assembler.n || s.assembler.tainted) then [cellRecord s.cfg s.assembler] else []

/-- An end of drilling short of the planned depth (02 R43), with the evaluator's scan (05 R81). The stall window stops
(02 R45; log 13). -/
def shortEnd (s : State) : State :=
  scanLost ((handOn (shortEndCells s) s).onAssembler fun a => { a with cell := none, stallWindow := .disarmed })

/-- A fall of LINK_UP taints the cell in assembly (02 R44). -/
def taintCell (s : State) : State :=
  s.onAssembler fun a =>
    if a.cell.isSome then { a with n := 0, rotary := 0, thrust := 0, capped := false, tainted := true } else a

/-- The stall window started with its full 2,000 ms and the reference at the maximum depth (02 R45). -/
def restartStall (s : State) : State :=
  s.onAssembler fun a => { a with stallWindow := .paused 2000, stallRef := a.maxDepth }

/-! ### The anchor evaluator (05) -/

/-- The number of cells of given classes. -/
def countClasses (classes : List StrataClass) (cells : List CellRecord) : Nat :=
  (cells.filter fun c => classes.contains c.cls).length

/-- The evaluation of the cells of a hole that reached its planned depth (R76 to R80). -/
def evaluation (c : Configuration) (planned : Nat) (cells : List CellRecord) : AnchorBlock :=
  let zone := cells.drop (planned - 30)
  let voids := countClasses [.void, .skipped] zone
  let softs := countClasses [.soft, .lost] zone
  let hards := countClasses [.hard] zone
  if c.rejectVoid ≤ voids then ⟨voids, softs, hards, .reject, none, none⟩
  else
    ⟨voids, softs, hards, .charge, some (if c.extraVoid ≤ voids then c.baseCartridges + 1 else c.baseCartridges),
      some (if 30 ≤ softs * 2 then c.softTarget else c.normalTarget)⟩

/-- The evaluation's results in the record (R82); the two flags follow the charge and target tests (R79, R80). -/
def HoleRecord.withEvaluation (r : HoleRecord) (c : Configuration) (e : AnchorBlock) : HoleRecord :=
  { r with
    outcome := e.outcome, voidCount := e.voidCount, softCount := e.softCount, hardCount := e.hardCount
    charge := e.charge, target := e.target
    flags := { r.flags with
      extraCharge := r.flags.extraCharge || (e.outcome == .charge && decide (c.extraVoid ≤ e.voidCount))
      softTarget := r.flags.softTarget || (e.outcome == .charge && decide (30 ≤ e.softCount * 2)) } }

/-- The cells of the OPEN record. -/
def openCells (s : State) : List CellRecord :=
  match s.openRecord with
  | some r => r.cells
  | none => []

/-- The anchor evaluation at the planned depth (R75), with the scan for LOST cells. -/
def evaluateAnchor (s : State) : State :=
  let e := evaluation s.cfg s.cycle.planned (openCells s)
  scanLost (writeOpen (fun r => r.withEvaluation s.cfg e) (s.onAnchor fun _ => e))

/-- The fixed choice of a proceeded hole (R84), with the cycle controller's PROCEEDED (01 R15). -/
def proceedAnchor (s : State) : State :=
  writeOpen (fun r =>
    { r with charge := some 3, target := some s.cfg.softTarget,
             flags := { r.flags with softTarget := true, proceeded := true } })
    (s.onAnchor fun a => { a with charge := some 3, target := some s.cfg.softTarget })

end Sys2Proof.Machine
end

