-- ==== Sys2Proof/Machine/Cycle.lean ====
section
/-! DEFINITION. The transitions of the bolting cycle (01): entering each phase, suspending, completing, and what resin
control (06), the torque monitor (07) and MUTE (01 R20, 09 R155) do at them. Each is the work of an event; what follows from
the state reached is Ops.settle. -/

namespace Sys2Proof.Machine

/-- The cycle state moves, and the suspension's items are cleared (01 R6). -/
def enterState (new : CycleState) (s : State) : State :=
  s.onCycle fun c => { c with state := new, remembered := none, cause := none }

/-- The work a suspension takes from resin control: in INSERT a stroke in progress is withdrawn (06 R89, R93). -/
def ResinBlock.withdraw (r : ResinBlock) (p : Phase) (now : Time) : ResinBlock :=
  if p = .insert ∧ r.stroke = .inProgress then { r with stroke := .interrupted, gap := some (after now 100) } else r

/-- The entry effects of a suspension (01 R17): the phase is remembered with the cause, a stroke is withdrawn, TORQUE_NEAR
falls (07 R112), and in MIX the record takes MIX_SHORT (06 R99). A state that is no active phase is not suspended. -/
def suspend (cause : Cause) (s : State) : State :=
  match s.cycle.state with
  | .active p =>
    writeOpen (fun r => { r with flags := { r.flags with mixShort := r.flags.mixShort || p == .mix } })
      (((s.onCycle fun c => { c with state := .suspended, remembered := some p, cause := some cause }).onResin fun r =>
        r.withdraw p s.now).onTorque fun t => { t with torqueNear := false })
  | _ => s

/-- An active phase entered; one that needs the sample link is suspended at once while LINK_UP is false (01 R19). -/
def enterPhase (p : Phase) (s : State) : State :=
  if p.needsLink && !s.sensor.live.linkUp then suspend .sensor (enterState (.active p) s) else enterState (.active p) s

/-- The own notice is inserted and handed to the link, unless the hole is ABORTED with no closed cells (04 R66). -/
def announceHole (verdict : Verdict) (record : Option HoleRecord) (s : State) : State :=
  match record with
  | some r =>
    if verdict = .aborted ∧ r.cells = [] then s
    else
      let notice := composeNotice s.cfg.station verdict r
      queueHole notice (insertNotice notice s)
  | none => s

/-- A hole completes with its verdict (01 R26, 06 R86, 07 R104, 10 R167). -/
def complete (verdict : Verdict) (s : State) : State :=
  let closed :=
    ((s.onResin fun r =>
      { r with stroke := .idle, strokeTimer := .disarmed, gap := none, mixDeadline := none, holdDeadline := none }).onTorque
        fun t => { t with timer := .disarmed, torqueNear := false }).onHistory fun h => h.finish verdict false
  raiseSource .holeDone
    ((announceHole verdict s.openRecord closed).onCycle fun c =>
      { c with state := .idle, remembered := none, cause := none, pendingVerdict := none, abortPending := false,
               collarTimer := .disarmed, retractTimer := .disarmed })

/-- A pending verdict set: ABORTED replaces SHORT, and SHORT does not replace ABORTED (01 R6). -/
def setPendingVerdict (v : PendingVerdict) (s : State) : State :=
  s.onCycle fun c =>
    { c with pendingVerdict := if c.pendingVerdict = some .aborted then some .aborted else some v }

/-- RETRACT entered from COLLAR or DRILL, or afresh: its timer takes 20,000 ms, and the timers of the phase left are
disarmed (01 R12, 02 R45; log 13). -/
def enterRetractFresh (s : State) : State :=
  enterPhase .retract
    ((s.onCycle fun c => { c with retractTimer := .paused 20000, collarTimer := .disarmed }).onAssembler fun a =>
      { a with stallWindow := .disarmed })

/-- DECIDE entered (01 R14). -/
def enterDecide (s : State) : State := raiseSource .decide (enterState .decide s)

/-- INSERT entered from RETRACT or DECIDE (06 R87). -/
def enterInsert (s : State) : State :=
  enterPhase .insert
    (s.onResin fun r => { r with charge := s.anchor.charge, pushed := 0, stroke := .idle, retry := false, gap := none })

/-- The band of MIX: the last stored temperature, or band 0 while TEMP_VALID is false (06 R95). -/
def bandNow (s : State) : Nat :=
  match s.sensor.last with
  | some x => bandOf s.sensor.live.tempValid x.temperature
  | none => 0

/-- MIX entered (06 R95). -/
def enterMix (s : State) : State :=
  enterPhase .mix
    (writeOpen (fun r => { r with band := some (bandNow s), quarterRevs := some 0 })
      (s.onResin fun r =>
        { r with band := some (bandNow s), mixDeadline := some (after s.now (mixWindowMs s.cfg (bandNow s))),
                 quarterRevs := 0 }))

/-- HOLD entered from MIX, ended or suspended: the hold deadline is armed and the mix deadline disarmed (06 R98 to R100). -/
def enterHold (s : State) : State :=
  enterPhase .hold
    (s.onResin fun r =>
      { r with mixDeadline := none, holdDeadline := some (after s.now (holdTimeMs s.cfg (r.band.getD 0))),
               holdPassed := false })

/-- The record takes MIX_SHORT (06 R98). -/
def markMixShort (s : State) : State := writeOpen (fun r => { r with flags := { r.flags with mixShort := true } }) s

/-- The first entry to TORQUE in a hole (07 R105). -/
def enterTorqueFirst (s : State) : State :=
  enterPhase .torque
    (writeOpen (fun r => { r with peak := some 0 })
      (s.onTorque fun _ =>
        { target := s.anchor.target, ceiling := s.anchor.target.map ceilingOf, near := s.anchor.target.map nearOf,
          entered := true, timer := .paused 15000, spinner := 0, peak := 0, overshoot := false, torqueNear := false }))

/-- TORQUE entered by RESUME, by the entered mark (07 R113); the hold-passed mark is cleared (06 R102). -/
def enterTorqueAgain (s : State) : State :=
  let s := s.onResin fun r => { r with holdPassed := false }
  if s.torque.entered then enterPhase .torque (s.onTorque fun t => { t with torqueNear := false })
  else enterTorqueFirst s

/-- The end of RETRACT, by the pending verdict and then the evaluation (01 R13). -/
def endRetract (s : State) : State :=
  let s := s.onCycle fun c => { c with retractTimer := .disarmed }
  match s.cycle.pendingVerdict with
  | some .short => complete .short s
  | some .aborted => complete .aborted s
  | none => if s.anchor.outcome = .reject then enterDecide s else enterInsert s

/-! ### Strokes (06 R90, R91) -/

/-- A timeout of the stroke in progress (R91). -/
def strokeTimeout (s : State) : State :=
  let s := s.onResin fun r => { r with stroke := .idle, strokeTimer := .disarmed }
  if s.cycle.abortPending then complete .aborted s
  else if s.resin.retry then complete .faulted (queueFault .injector s)
  else
    let s := s.onResin fun r => { r with retry := true, gap := some (after s.now 100) }
    if s.muted then suspend .mute s else s

/-- The stroke in progress ends by STROKE_DONE (R90). A fall of STROKE with cartridges still to push arms the gap (R89;
log 12). -/
def strokeCounted (s : State) : State :=
  let pushed := s.resin.pushed + 1
  let s := writeOpen (fun r => { r with pushed := pushed })
    (s.onResin fun r => { r with stroke := .idle, strokeTimer := .disarmed, pushed := pushed, retry := false })
  if s.cycle.abortPending then complete .aborted s
  else if s.resin.charge = some pushed then enterMix s
  else
    let s := s.onResin fun r => { r with gap := some (after s.now 100) }
    if s.muted then suspend .mute s else s

/-! ### MUTE (09 R155, 01 R20) -/

/-- What MUTE does to the cycle (01 R20): COLLAR, DRILL, RETRACT, and INSERT with no stroke in progress, are suspended. -/
def muteCycle (s : State) : State :=
  match s.cycle.state with
  | .active .collar => suspend .mute s
  | .active .drill => suspend .mute s
  | .active .retract => suspend .mute s
  | .active .insert => if s.resin.stroke = .inProgress then s else suspend .mute s
  | _ => s

/-- A duplicate station found: MUTE is set unless it is set already (09 R154, R155). -/
def muteStation (cause : MuteCause) (s : State) : State :=
  if s.muted then s
  else
    muteCycle (queueFault .duplicate
      (s.onLink fun l => { l with tx := none, slot := none, queue := [], queueOnLine := false, mute := some cause }))

/-! ### Samples and pulses at the phases -/

/-- A good sample in TORQUE (07 R107). -/
def torqueSample (q : Nat) (s : State) : State :=
  let exceeds := s.torque.ceiling.any fun c => c < q
  let s := writeOpen (fun r =>
      { r with peak := if s.torque.peak < q then some q else r.peak,
               flags := { r.flags with overshoot := r.flags.overshoot || exceeds } })
    (s.onTorque fun t => { t with peak := max t.peak q, overshoot := t.overshoot || exceeds })
  if s.torque.target.any fun t => t ≤ q then complete .anchored s
  else s.onTorque fun t => { t with torqueNear := t.near.any fun n => n ≤ q }

/-- DRILL's tests on a sample taken in it (01 R11, 02 R45). -/
def drillTests (s : State) : State :=
  if s.cycle.planned * 200 ≤ s.assembler.maxDepth then enterRetractFresh (evaluateAnchor s)
  else if s.assembler.stallRef + 10 ≤ s.assembler.maxDepth then restartStall s
  else s

/-- COLLAR's test on a sample taken in it (01 R10): at 600 the state goes to DRILL, the stall window starts, and DRILL's
end is tested on the same sample. -/
def collarTests (s : State) : State :=
  if 600 ≤ s.assembler.maxDepth then
    drillTests (enterPhase .drill (restartStall (s.onCycle fun c => { c with collarTimer := .disarmed })))
  else s

/-- A pulse in MIX (06 R97, R98). -/
def mixPulse (s : State) : State :=
  let count := s.resin.quarterRevs + 1
  let s := writeOpen (fun r => { r with quarterRevs := some count }) (s.onResin fun r => { r with quarterRevs := count })
  if 4 * s.cfg.mixRevolutions ≤ count then enterHold s else s

/-- A pulse in TORQUE (07 R108). -/
def torquePulse (s : State) : State :=
  let count := s.torque.spinner + 1
  let s := s.onTorque fun t => { t with spinner := count }
  if 4 * s.cfg.spinnerLimit ≤ count then complete .spinner s else s

end Sys2Proof.Machine
end

