-- ==== Sys2Proof/Machine/Expiries.lean ====
section
/-! DEFINITION. The expiries of the timers and deadlines. Each acts when its deadline is armed and has expired (01 R2, R4),
and is no event otherwise (log 3). -/

namespace Sys2Proof.Machine

/-- COLLAR_TIMER_EXPIRY (01 R10). -/
def execCollarTimerExpiry (s : State) : Host.Outcome State Fault Refusal :=
  unlessHeld s
    (if s.cycle.state = .active .collar ∧ s.cycle.collarTimer.due s.now then
      event s (enterRetractFresh (shortEnd (setPendingVerdict .short (queueFault .collarTimeout s))))
    else s)

/-- RETRACT_TIMER_EXPIRY (01 R12): the timer is left with a remainder of zero. -/
def execRetractTimerExpiry (s : State) : Host.Outcome State Fault Refusal :=
  unlessHeld s
    (if s.cycle.state = .active .retract ∧ s.cycle.retractTimer.due s.now then
      event s (suspend .stuck ((queueFault .retractStuck s).onCycle fun c => { c with retractTimer := .paused 0 }))
    else s)

/-- STALL_WINDOW_EXPIRY (02 R46). -/
def execStallWindowExpiry (s : State) : Host.Outcome State Fault Refusal :=
  unlessHeld s
    (if s.cycle.state = .active .drill ∧ s.assembler.stallWindow.due s.now then
      event s (enterRetractFresh (setPendingVerdict .short (queueFault .stall (shortEnd s))))
    else s)

/-- STROKE_TIMER_EXPIRY (06 R91). -/
def execStrokeTimerExpiry (s : State) : Host.Outcome State Fault Refusal :=
  unlessHeld s
    (if s.resin.stroke = .inProgress ∧ s.resin.strokeTimer.due s.now then event s (strokeTimeout s) else s)

/-- STROKE_GAP_EXPIRY (06 R89): the gap is disarmed, which may start the next stroke. -/
def execStrokeGapExpiry (s : State) : Host.Outcome State Fault Refusal :=
  unlessHeld s
    (if deadlineDue s.resin.gap s.now then event s (s.onResin fun r => { r with gap := none }) else s)

/-- MIX_DEADLINE_EXPIRY (06 R98, R99): in MIX it ends the phase, elsewhere it only disarms. -/
def execMixDeadlineExpiry (s : State) : Host.Outcome State Fault Refusal :=
  unlessHeld s
    (if deadlineDue s.resin.mixDeadline s.now then
      if s.cycle.state = .active .mix then event s (enterHold (markMixShort s))
      else s.onResin fun r => { r with mixDeadline := none }
    else s)

/-- HOLD_DEADLINE_EXPIRY (06 R101, R102): in HOLD it enters TORQUE, in a suspended HOLD it sets the hold-passed mark. -/
def execHoldDeadlineExpiry (s : State) : Host.Outcome State Fault Refusal :=
  unlessHeld s
    (if deadlineDue s.resin.holdDeadline s.now then
      let disarmed := s.onResin fun r => { r with holdDeadline := none }
      if s.cycle.state = .active .hold then event s (enterTorqueFirst disarmed)
      else if s.cycle.state = .suspended ∧ s.cycle.remembered = some .hold then
        disarmed.onResin fun r => { r with holdPassed := true }
      else disarmed
    else s)

/-- TORQUE_TIMER_EXPIRY (07 R109). -/
def execTorqueTimerExpiry (s : State) : Host.Outcome State Fault Refusal :=
  unlessHeld s
    (if s.cycle.state = .active .torque ∧ s.torque.timer.due s.now then event s (complete .torqueTimeout s) else s)

/-- RELEASE_DEADLINE_EXPIRY (08 R133): VALVE_STUCK, and the interlock stays RELEASING. -/
def execReleaseDeadlineExpiry (s : State) : Host.Outcome State Fault Refusal :=
  unlessHeld s
    (if s.flow.interlock = .releasing ∧ deadlineDue s.flow.releaseDeadline s.now then
      (queueFault .valveStuck s).onFlow fun f => { f with releaseDeadline := none }
    else s)

/-- DEMAND_SCHEDULE_EXPIRY (08 R138, R139): re-armed by R3, and a notice with the values of the moment is placed. -/
def execDemandScheduleExpiry (s : State) : Host.Outcome State Fault Refusal :=
  unlessHeld s
    (match s.flow.schedule with
     | some target =>
       if expired target s.now then
         placeDemandIf true (s.onFlow fun f => { f with schedule := some (rearmPeriodic target s.now 250) })
       else s
     | none => s)

/-- An entry turns STALE at its stale deadline (08 R120). -/
def Peer.ageStale (p : Peer) (now : Time) : Peer :=
  if deadlineDue p.staleDeadline now then { p with freshness := .stale, staleDeadline := none } else p

/-- STALE_DEADLINE_EXPIRY (08 R120): the allowance is not recomputed. -/
def execStaleDeadlineExpiry (station : Nat) (s : State) : Host.Outcome State Fault Refusal :=
  unlessHeld s
    (s.onFlow fun f => { f with peers := f.peers.map fun p => if p.station = station then p.ageStale s.now else p })

/-- An entry's removal deadline has expired. -/
def Peer.removalDue (p : Peer) (station : Nat) (now : Time) : Bool := p.station == station && expired p.removalDeadline now

/-- REMOVAL_DEADLINE_EXPIRY (08 R120): the entry goes, and the allowance is recomputed without it. -/
def execRemovalDeadlineExpiry (station : Nat) (s : State) : Host.Outcome State Fault Refusal :=
  unlessHeld s
    (if s.flow.peers.any fun p => p.removalDue station s.now then
      event s (s.onFlow fun f => { f with peers := f.peers.filter fun p => !p.removalDue station s.now })
    else s)

end Sys2Proof.Machine
end

