-- ==== Sys2Proof/Machine/Replies.lean ====
section
/-! DEFINITION. The data of the replies (12 R204), each from the state as it stands. -/

namespace Sys2Proof.Machine

/-- A hole number in two bytes. -/
def numberBytes (n : HoleNo) : List Byte := u16 n.toNat

/-- A timer or deadline in READ_STATE: marked, with 3 bytes of ms. -/
def timerBytes (left : Option Nat) : List Byte := marked 3 (left.map u24)

/-- The time left to a deadline, none when disarmed (06 R86). -/
def deadlineReport (deadline : Option Time) (now : Time) : Option Nat := deadline.map fun d => remaining d now

/-! ### READ_STATE (11 R181) -/

def partData (s : State) : List Byte := u32 s.now.toNat ++ marked 1 (s.host.config.map fun c => u8 c.station)

def cycleData (s : State) : List Byte :=
  let c := s.cycle
  u8 c.state.code ++ marked 1 (c.remembered.map fun p => u8 (CycleState.active p).code) ++ u8 (causeCode c.cause)
    ++ flag c.held ++ u8 (pendingVerdictCode c.pendingVerdict) ++ flag c.abortPending
    ++ marked 2 (c.holeNumber.map numberBytes) ++ u16 c.row ++ u8 c.slot ++ u8 c.planned

def resinData (s : State) : List Byte :=
  let r := s.resin
  u8 r.pushed ++ marked 1 (r.charge.map u8) ++ u8 r.stroke.code ++ flag r.retry ++ marked 1 (r.band.map u8)
    ++ u8 r.quarterRevs ++ flag r.holdPassed ++ timerBytes (r.strokeTimer.report s.now)
    ++ timerBytes (deadlineReport r.mixDeadline s.now) ++ timerBytes (deadlineReport r.holdDeadline s.now)

def torqueData (s : State) : List Byte :=
  let t := s.torque
  marked 2 (t.target.map u16) ++ marked 2 (t.ceiling.map u16) ++ marked 2 (t.near.map u16) ++ flag t.entered
    ++ u8 t.spinner ++ u16 t.peak ++ flag t.overshoot ++ flag t.torqueNear ++ timerBytes (t.timer.report s.now)

def historyData (s : State) : List Byte :=
  let h := s.history
  u8 h.records.length ++ u16 h.free ++ marked 2 (h.oldest.map numberBytes) ++ marked 2 (h.newest.map numberBytes)
    ++ flag (h.records.getLast?.any HoleRecord.isOpen)

/-- The pending set as a set of members (R200). -/
def pendingByte (h : HostBlock) : Byte := setByte (allSources.map h.isPending)

/-- The stack bottom to top, 0 where unused. -/
def stackBytes (stack : List Source) : List Byte :=
  let codes := stack.reverse.flatMap fun src => u8 src.code
  codes ++ List.replicate (5 - codes.length) 0

def attentionData (s : State) : List Byte :=
  [pendingByte s.host] ++ u8 s.host.stack.length ++ stackBytes s.host.stack ++ u8 s.host.faults.length ++ flag s.attnLow

def watchData (s : State) : List Byte :=
  let w := s.host.watch
  [w.mask.toByte] ++ flag w.activeFalse ++ flag w.isAnd ++ flag w.y ++ u8 w.arming.code ++ flag w.fell
    ++ [(watchInputs s).toByte]

def stateData (s : State) : List Byte :=
  partData s ++ cycleData s ++ resinData s ++ torqueData s ++ historyData s ++ attentionData s ++ watchData s

/-! ### READ_SENSORS (02 R35) -/

def sampleBytes (x : Sample) : List Byte :=
  u8 x.sequence ++ u16 x.thrust ++ u16 x.torque ++ u16 x.speed ++ u16 x.feed ++ s16 x.temperature

def sensorsData (s : State) : List Byte :=
  let p := s.sensor
  flag p.latched ++ [(if p.latched then p.snapshot else p.live).toByte] ++ [p.live.toByte]
    ++ marked 11 (p.last.map sampleBytes) ++ marked 1 (s.assembler.cell.map u8) ++ u16 s.assembler.maxDepth

/-! ### READ_FLOW (11 R182) -/

def setpointFields (x : Setpoints) : List Byte := u8 x.direction.code ++ u8 x.feed ++ u8 x.rotation ++ u8 x.injector

def peerBytes (now : Time) (p : Peer) : List Byte :=
  u8 p.station ++ u8 p.phase.code ++ u8 p.flowClass.code ++ u8 p.demand ++ u8 p.freshness.code
    ++ u16 (now - p.lastHeard).toNat

def flowData (s : State) : List Byte :=
  let f := s.flow
  u16 (match s.host.config with | some c => c.capacity | none => 0)
    ++ u8 s.cycle.state.code ++ u8 (ownClass s).code ++ u8 (ownDemand s) ++ u8 (ownMinimum s)
    ++ u8 f.allowance ++ flag f.flowCut ++ u8 f.interlock.code ++ flag s.flowReq ++ flag s.valveReady
    ++ setpointFields f.setpoints
    ++ marked 5 (f.lastSent.map fun r => [r.sequence] ++ setpointFields r.setpoints)
    ++ [f.sequence] ++ u8 f.peers.length ++ f.peers.flatMap (peerBytes s.now)

/-! ### READ_NEIGHBOURS (11 R183) -/

def entryBytes (e : HoleNotice) : List Byte :=
  u8 e.station ++ u16 e.row ++ u8 e.slot ++ u16 e.depth ++ u8 e.verdict.code ++ u8 e.voids.length
    ++ e.voids.flatMap fun v => u16 v.start ++ u16 v.length

/-- The predicted void set, cell c at bit c mod 8 of byte floor(c / 8). -/
def predictedBytes (predicted : List Nat) : List Byte :=
  (List.range 16).map fun i => setByte ((List.range 8).map fun b => predicted.contains (8 * i + b))

def neighboursData (s : State) (index : Nat) : List Byte :=
  let nb := s.neighbours
  u8 nb.entries.length ++ marked 8 (nb.entries[index]?.map entryBytes) ++ predictedBytes nb.predicted ++ flag nb.nearVoid

/-! ### READ_LINK (09 R160) -/

def slotBytes (slot : DemandSlot) : List Byte :=
  u8 slot.notice.phase.code ++ u8 slot.notice.flowClass.code ++ u8 slot.notice.demand ++ flag slot.onLine

def queuedBytes (n : HoleNotice) (onLine : Bool) : List Byte :=
  u16 n.row ++ u8 n.slot ++ u8 n.verdict.code ++ u8 n.voids.length ++ flag onLine

/-- The queued notices oldest first; only the oldest may carry the on-line mark. -/
def queueBytes (onLine : Bool) : List HoleNotice → List Byte
  | [] => []
  | oldest :: rest => queuedBytes oldest onLine ++ rest.flatMap fun n => queuedBytes n false

def linkData (s : State) : List Byte :=
  let l := s.link
  u8 l.view.code ++ flag l.tx.isSome ++ flag s.muted ++ u8 (muteCauseCode l.mute) ++ flag l.holeDropped ++ flag l.txFault
    ++ marked 4 (l.slot.map slotBytes) ++ u8 l.queue.length ++ queueBytes l.queueOnLine l.queue

/-! ### SELECT_HOLE and READ_CELLS (10 R172 to R175) -/

/-- An optional field of the summary, 0 where it is absent. -/
def orZero (x : Option Nat) : Nat := x.getD 0

/-- The oldest retained number and the newest record's number, 0 for an empty ring. -/
def ringEnds (h : HistoryBlock) : List Byte := numberBytes (h.oldest.getD 0) ++ numberBytes (h.newest.getD 0)

/-- The data of a GONE reply (R204). -/
def goneData (h : HistoryBlock) : List Byte := flag (!h.records.isEmpty) ++ ringEnds h

/-- The hole summary (R172). -/
def summaryData (h : HistoryBlock) (r : HoleRecord) : List Byte :=
  numberBytes r.number ++ u16 r.row ++ u8 r.slot ++ u8 r.planned ++ u8 r.cells.length ++ u8 (verdictCode r.verdict)
    ++ [r.flags.toByte]
    ++ [setByte [r.charge.isSome, r.target.isSome, r.band.isSome, r.quarterRevs.isSome, r.peak.isSome]]
    ++ u8 r.outcome.code ++ u8 r.voidCount ++ u8 r.softCount ++ u8 r.hardCount ++ u8 (orZero r.charge)
    ++ u16 (orZero r.target) ++ u8 r.pushed ++ u8 (orZero r.band) ++ u8 (orZero r.quarterRevs) ++ u16 (orZero r.peak)
    ++ ringEnds h

/-- A cell record with its number (R204). -/
def cellBytes (number : Nat) (c : CellRecord) : List Byte :=
  u8 number ++ u8 (c.cls.code + if c.capped then 128 else 0) ++ u16 c.n ++ u24 c.energy ++ u24 c.specificEnergy
    ++ u16 c.meanThrust

/-- The cells of given numbers, in that order; numbers without a cell give none. -/
def cellsBytes (cells : List CellRecord) (numbers : List Nat) : List Byte :=
  numbers.flatMap fun k => match cells[k]? with | some c => cellBytes k c | none => []

/-- The cell numbers READ_CELLS UP returns from a pointer (R174). -/
def cellsUp (pointer count closed : Nat) : List Nat := List.range' pointer (min count (closed - pointer))

/-- The cell numbers READ_CELLS DOWN returns from a pointer, in falling order (R175). -/
def cellsDown (pointer count : Nat) : List Nat := (List.range' (pointer - min count pointer) (min count pointer)).reverse

/-- The data of an accepted READ_CELLS (R173). -/
def cellsData (number : HoleNo) (cells : List CellRecord) (numbers : List Nat) (pointer : Nat) (atEnd : Bool) : List Byte :=
  numberBytes number ++ u8 numbers.length ++ u8 pointer ++ flag atEnd ++ cellsBytes cells numbers

/-! ### READ_ATTENTION (11 R191) -/

/-- Data bytes of an item, or free bytes where the item does not exist, with the number of free bytes drawn (log 16). -/
def orUnstated (s : State) (size : Nat) (item : Option (List Byte)) : List Byte × Nat :=
  match item with
  | some bytes => (bytes, 0)
  | none => ((List.range size).map fun i => Config.unstatedByte (s.freeDraws + i), size)

/-- The newest finished record (R191). -/
def HistoryBlock.newestFinished (h : HistoryBlock) : Option HoleRecord := h.records.reverse.find? fun r => !r.isOpen

/-- The data that follow the source code in a READ_ATTENTION reply, and the free bytes drawn. -/
def sourceData (s : State) (src : Source) : List Byte × Nat :=
  match src with
  | .fault =>
    orUnstated s 3 (s.host.faults.head?.map fun e => u8 e.code.code ++ flag e.overflow ++ u8 (s.host.faults.length - 1))
  | .decide => orUnstated s 2 (s.cycle.holeNumber.map numberBytes)
  | .holeDone =>
    orUnstated s 3 (s.history.newestFinished.map fun r => numberBytes r.number ++ u8 (verdictCode r.verdict))
  | .watch => (flag s.host.watch.y ++ [(watchInputs s).toByte], 0)
  | .history => orUnstated s 2 (s.history.oldest.map numberBytes)

end Sys2Proof.Machine
end

