-- ==== Sys2Proof/Machine/HostCycle.lean ====
section
/-! DEFINITION. The host's commands to the cycle: CONFIGURE (11 section 11.4), START_HOLE (01 section 1.3), ABORT, RESUME,
PROCEED and ABANDON (01). Each answers in the reply buffer (11 R180). -/

namespace Sys2Proof.Machine

/-- An accepted command: its event, and the reply. -/
def accept (s work : State) (data : List Byte) : State := setReply .ok data (event s work)

/-! ### CONFIGURE -/

/-- The effects of an accepted CONFIGURE (11 R185, 08 R121, R138, 09 R161). -/
def configured (c : Configuration) (s : State) : State :=
  ((((s.onHost fun h => { h with config := some c }).onFlow fun f =>
    { f with peers := [], schedule := some (after s.now 250) }).onLink fun l =>
    { l with view := .seeking, recessive := 0 }).onCycle fun b => { b with state := .idle })

/-- CONFIGURE (11 R184, R185). A record that is not 69 bytes long was no valid frame (R179; log 22). -/
def execConfigure (record : List Byte) (s : State) (host : Transaction := .ofBytes 72) : Host.Outcome State Fault Refusal :=
  inTransaction host s
    (if record.length ≠ 69 then setReply .badFrame [] s
     else if s.cycle.state ≠ .unconfigured then setReply .badState [] s
     else match parseConfiguration record with
       | none => setReply .badArg [] s
       | some c => accept s (configured c s) [])

/-! ### START_HOLE -/

/-- The number of the next hole (01 R9, 11 R186). -/
def nextHole (s : State) : HoleNo :=
  match s.cycle.holeNumber with
  | none => 0
  | some n => n + 1

/-- The items each block takes at an accepted START_HOLE (01 R9, 02 R38, 05 R74, 06 R86, 07 R104). -/
def freshHole (row slot planned : Nat) (s : State) : State :=
  ((((s.onCycle fun c =>
    { c with holeNumber := some (nextHole s), row := row, slot := slot, planned := planned, pendingVerdict := none,
             abortPending := false, collarTimer := .paused 20000 }).onAssembler fun a =>
    { a.openCell 0 with maxDepth := 0, voidCell := false, softCell := false, hardCell := false }).onAnchor fun _ =>
    State.reset.anchor).onResin fun _ => State.reset.resin).onTorque fun _ => State.reset.torque

/-- The whole work of an accepted START_HOLE (01 R9): the record, the items, the prediction and COLLAR. -/
def startedHole (row slot planned : Nat) (s : State) : State :=
  enterPhase .collar (rebuildPrediction (freshHole row slot planned (reserveRecord (nextHole s) row slot planned s)))

/-- START_HOLE's arguments are in range (01 R8). -/
def holeArgsOk (row slot planned : Nat) : Bool := row ≤ 4095 && slot ≤ 7 && within 30 planned 128

/-- START_HOLE with the pin's level noted (01 R8, R9). -/
def startHole (row slot planned : Nat) (s : State) : State :=
  if s.cycle.state ≠ .idle then setReply .badState [] s
  else if !holeArgsOk row slot planned then setReply .badArg [] s
  else if !s.canopySet then setReply .noCanopy [] s
  else if s.muted then setReply .muted [] s
  else accept s (startedHole row slot planned s) (numberBytes (nextHole s))

def execStartHole (row : BitVec 16) (slot planned : Byte) (rise : Bool) (s : State) (host : Transaction := .ofBytes 7) :
    Host.Outcome State Fault Refusal :=
  unlessHeld s
    (transacted host (s.noteCanopy rise) (startHole row.toNat slot.toNat planned.toNat (s.noteCanopy rise)))

/-! ### ABORT (01 R23 to R25) -/

/-- ABORT of drilling with a retract (R23, R25). -/
def abortDrilling (s : State) : State := enterRetractFresh (shortEnd (setPendingVerdict .aborted s))

/-- ABORT in SUSPENDED (R25), by the remembered phase and the present inputs. -/
def abortSuspended (s : State) : State :=
  let stuckInHole := s.muted || !s.canopySet || !s.sensor.live.linkUp
  match s.cycle.remembered with
  | some .collar => if stuckInHole then complete .aborted (shortEnd s) else abortDrilling s
  | some .drill => if stuckInHole then complete .aborted (shortEnd s) else abortDrilling s
  | some .retract =>
    if stuckInHole then complete .aborted s
    else if s.cycle.cause = some .stuck then enterRetractFresh (setPendingVerdict .aborted s)
    else enterPhase .retract (setPendingVerdict .aborted s)
  | _ => complete .aborted s

/-- ABORT with the pin's level noted. -/
def abort (s : State) : State :=
  match s.cycle.state with
  | .unconfigured => setReply .badState [] s
  | .idle => setReply .badState [] s
  | .active .collar => accept s (abortDrilling s) []
  | .active .drill => accept s (abortDrilling s) []
  | .active .retract => setReply .ok [] (setPendingVerdict .aborted s)
  | .active .insert =>
    if s.resin.stroke = .inProgress then setReply .ok [] (s.onCycle fun c => { c with abortPending := true })
    else accept s (complete .aborted s) []
  | .suspended => accept s (abortSuspended s) []
  | _ => accept s (complete .aborted s) []

def execAbort (rise : Bool) (s : State) (host : Transaction := .ofBytes 3) : Host.Outcome State Fault Refusal :=
  unlessHeld s (transacted host (s.noteCanopy rise) (abort (s.noteCanopy rise)))

/-! ### RESUME (01 R22) -/

/-- The phase RESUME would enter (R22); the hold deadline has expired exactly when the hold-passed mark is set (log 23). -/
def resumeTarget (s : State) : Option Phase :=
  match s.cycle.remembered with
  | some .mix => some .hold
  | some .hold => if s.resin.holdPassed then some .torque else some .hold
  | other => other

/-- A cause still holds for the target (R22). -/
def causePresent (target : Phase) (s : State) : Bool :=
  !s.canopySet || (target.needsLink && !s.sensor.live.linkUp) || (target.flowClass == .normal && s.muted)

/-- RETRACT entered again: a fresh 20,000 ms after STUCK, the remainder otherwise (R22). -/
def reenterRetract (s : State) : State :=
  if s.cycle.cause = some .stuck then enterRetractFresh s else enterPhase .retract s

/-- HOLD entered again: from a remembered MIX its deadline is armed (06 R99), from a remembered HOLD it runs on (06 R102). -/
def reenterHold (s : State) : State :=
  if s.cycle.remembered = some .mix then enterHold s
  else enterPhase .hold (s.onResin fun r => { r with holdPassed := false })

/-- The target entered (R22, 04 R69, 06 R93, R99, R102, 07 R113). -/
def reenter (target : Phase) (s : State) : State :=
  match target with
  | .collar => enterPhase .collar (rebuildPrediction s)
  | .drill => enterPhase .drill (rebuildPrediction (restartStall s))
  | .retract => reenterRetract s
  | .hold => reenterHold s
  | .torque => enterTorqueAgain s
  | .insert => enterPhase .insert s
  | .mix => s

/-- A torque timer or a resumed stroke whose remainder is 0 expires at once on running, in RESUME's own event (06 R93,
07 R113; log 9). The phase has flowed within that event, so where the expiry completes the hole the interlock, raised by the
first `settle`, is lowered by the second: it ends RELEASING with its deadline armed, and no split is sent. 08 R131 and R133
speak only of the state after an event: this is the model's choice (log 31). -/
def zeroRemainder (s : State) : State :=
  if s.cycle.state = .active .torque ∧ s.torque.timer.due s.now then settle (complete .torqueTimeout s)
  else if s.resin.stroke = .inProgress ∧ s.resin.strokeTimer.due s.now then settle (strokeTimeout s)
  else s

/-- RESUME with the pin's level noted. A SUSPENDED state without a remembered phase is not reached (log 15). -/
def resume (s : State) : State :=
  if s.cycle.state ≠ .suspended then setReply .badState [] s
  else match resumeTarget s with
    | none => setReply .badState [] s
    | some target =>
      if causePresent target s then setReply .causePresent [] s
      else setReply .ok [] (finish s (zeroRemainder (settle (reenter target s))))

def execResume (rise : Bool) (s : State) (host : Transaction := .ofBytes 3) : Host.Outcome State Fault Refusal :=
  unlessHeld s (transacted host (s.noteCanopy rise) (resume (s.noteCanopy rise)))

/-! ### PROCEED and ABANDON (01 R15, R16) -/

/-- PROCEED with the pin's level noted. -/
def proceed (s : State) : State :=
  if s.cycle.state ≠ .decide then setReply .badState [] s
  else if !s.canopySet then setReply .noCanopy [] s
  else if s.muted then setReply .muted [] s
  else accept s (enterInsert (proceedAnchor s)) []

def execProceed (rise : Bool) (s : State) (host : Transaction := .ofBytes 3) : Host.Outcome State Fault Refusal :=
  unlessHeld s (transacted host (s.noteCanopy rise) (proceed (s.noteCanopy rise)))

/-- ABANDON (R16). -/
def execAbandon (s : State) (host : Transaction := .ofBytes 3) : Host.Outcome State Fault Refusal :=
  inTransaction host s (if s.cycle.state ≠ .decide then setReply .badState [] s else accept s (complete .rejected s) [])

end Sys2Proof.Machine
end

