-- ==== Sys2Proof/Machine/Sensors.lean ====
section
/-! DEFINITION. The sample port's events (02): sample records, rotation pulses and the two deadlines. -/

namespace Sys2Proof.Machine

/-- New live members, with the latch acting once on all their changes (R34). -/
def SensorBlock.takeLive (p : SensorBlock) (live : StatusGroup) : SensorBlock :=
  if live = p.live ∨ p.latched then { p with live := live }
  else { p with live := live, snapshot := live, latched := true, readMark := false }

/-- Steps 1 to 3 of a good record (R30, R31), from its fields as the wire carried them. -/
def storeSample (raw : Sample) (s : State) : State :=
  s.onSensor fun p =>
    ({ p with last := some raw.clamp, linkDeadline := some (after s.now 20) }).takeLive
      { p.live with linkUp := true, tempValid := raw.tempValid, rangeClamp := raw.clamped }

/-- Step 4 of a good record: the sample goes to the block that uses it in the current cycle state (R31). -/
def handSample (x : Sample) (s : State) : State :=
  match s.cycle.state with
  | .active .collar => event s (collarTests (placeSample x s))
  | .active .drill => event s (drillTests (placeSample x s))
  | .active .retract => if x.feed < 100 then event s (endRetract s) else s
  | .active .torque => event s (torqueSample x.torque s)
  | _ => s

/-- A whole good record is one event (R31). -/
def takeRecord (record : List Byte) (s : State) : State :=
  match rawSample record with
  | some raw => handSample raw.clamp (storeSample raw s)
  | none => s

/-- A byte on SRX, at its stop bit (R29). -/
def takeByte (value : Byte) (stopHigh : Bool) (s : State) : State :=
  let fed := feedSrx s.sensor.assembly value stopHigh
  let s := s.onSensor fun p => { p with receiver := if stopHigh then .idle else .low, assembly := fed.1 }
  match fed.2 with
  | some record => takeRecord record s
  | none => s

/-- A high bit period between two bytes (R29): while a record is in assembly it is counted, and the 461st discards the record. -/
def SensorBlock.highBit (p : SensorBlock) : SensorBlock :=
  if p.assembly.isEmpty then p
  else if srxGapLimit ≤ p.gap + 1 then { p with assembly := [], gap := 0 }
  else { p with gap := p.gap + 1 }

/-- One bit period of SRX (R29): a start bit, eight data bits and a stop bit make a byte. -/
def takeSrxBit (s : State) (bit : Bool) : State :=
  match s.sensor.receiver with
  | .idle => s.onSensor fun p => if bit then p.highBit else { p with receiver := .byte [], gap := 0 }
  | .byte data =>
    if data.length < 8 then s.onSensor fun p => { p with receiver := .byte (data ++ [bit]) }
    else takeByte (srxValue data) bit s
  | .low => if bit then s.onSensor fun p => { p with receiver := .idle } else s

/-- SAMPLE_RECORD (R29 to R31): the bit periods of SRX that bring a record, or a part of them. -/
def execSampleRecord (bits : List Bool) (s : State) : Host.Outcome State Fault Refusal :=
  unlessHeld s (bits.foldl takeSrxBit s)

/-- A fall of LINK_UP acts on the cycle (01 R18). -/
def sensorSuspension (s : State) : State :=
  match s.cycle.state with
  | .active p => if p.needsLink then suspend .sensor s else s
  | _ => s

/-- A fall of LINK_UP (R32): the latch, SENSOR_LOST, the taint (R44) and the suspension. -/
def linkFall (s : State) : State :=
  sensorSuspension (taintCell (queueFault .sensorLost
    (s.onSensor fun p => ({ p with linkDeadline := none }).takeLive { p.live with linkUp := false })))

/-- LINK_DEADLINE_EXPIRY (R32). -/
def execLinkDeadlineExpiry (s : State) : Host.Outcome State Fault Refusal :=
  unlessHeld s (if deadlineDue s.sensor.linkDeadline s.now then event s (linkFall s) else s)

/-- Steps 1 and 2 of a pulse (R33). -/
def notePulse (s : State) : State :=
  s.onSensor fun p =>
    ({ p with pulseDeadline := some (after s.now 500) }).takeLive { p.live with pulseActive := true }

/-- Step 3 of a pulse: the counter of the current state (R33). -/
def handPulse (s : State) : State :=
  match s.cycle.state with
  | .active .mix => event s (mixPulse s)
  | .active .torque => event s (torquePulse s)
  | _ => s

/-- ROT_PULSE (R33, 06 R97, 07 R108). -/
def execRotPulse (s : State) : Host.Outcome State Fault Refusal := unlessHeld s (handPulse (notePulse s))

/-- PULSE_DEADLINE_EXPIRY (R33). -/
def execPulseDeadlineExpiry (s : State) : Host.Outcome State Fault Refusal :=
  unlessHeld s
    (if deadlineDue s.sensor.pulseDeadline s.now then
      s.onSensor fun p => ({ p with pulseDeadline := none }).takeLive { p.live with pulseActive := false }
    else s)

end Sys2Proof.Machine
end

