-- ==== Sys2Proof/Machine/HostReads.lean ====
section
/-! DEFINITION. The host's reads (11 section 11.3, 02 section 2.3, 09 R160), the profile window (10 section 10.4), and the
commands of the attention unit (11 sections 11.6 and 11.9). -/

namespace Sys2Proof.Machine

/-- FETCH (11 R179): the empty reply. -/
def execFetch (s : State) (host : Transaction := .ofBytes 1) : Host.Outcome State Fault Refusal :=
  inTransaction host s (setReply .none [] s)

/-- BAD_FRAME (11 R179): no command is executed. -/
def execBadFrame (s : State) (host : Transaction := .ofBytes 1) : Host.Outcome State Fault Refusal :=
  inTransaction host s (setReply .badFrame [] s)

/-- READ_STATE (11 R181). -/
def execReadState (s : State) (host : Transaction := .ofBytes 3) : Host.Outcome State Fault Refusal :=
  inTransaction host s (setReply .ok (stateData s) s)

/-- READ_SENSORS (02 R35). -/
def execReadSensors (s : State) (host : Transaction := .ofBytes 3) : Host.Outcome State Fault Refusal :=
  inTransaction host s
    (setReply .ok (sensorsData s) (s.onSensor fun p => { p with readMark := p.readMark || p.latched }))

/-- The latch cleared and compared at once with the live members (02 R36). -/
def SensorBlock.unlatch (p : SensorBlock) : SensorBlock :=
  if p.live = p.snapshot then { p with latched := false, readMark := false }
  else { p with snapshot := p.live, latched := true, readMark := false }

/-- UNLATCH (02 R36). -/
def execUnlatch (s : State) (host : Transaction := .ofBytes 3) : Host.Outcome State Fault Refusal :=
  inTransaction host s
    (if !s.sensor.latched then setReply .ok [] s
     else if !s.sensor.readMark then setReply .notRead [] s
     else setReply .ok [] (s.onSensor SensorBlock.unlatch))

/-- READ_FLOW (11 R182). -/
def execReadFlow (s : State) (host : Transaction := .ofBytes 3) : Host.Outcome State Fault Refusal :=
  inTransaction host s (setReply .ok (flowData s) s)

/-- READ_NEIGHBOURS (11 R183). -/
def execReadNeighbours (index : Byte) (s : State) (host : Transaction := .ofBytes 4) : Host.Outcome State Fault Refusal :=
  inTransaction host s
    (if 15 < index.toNat then setReply .badArg [] s else setReply .ok (neighboursData s index.toNat) s)

/-- READ_LINK (09 R160): HOLE_DROPPED and TX_FAULT are cleared in the same event. -/
def execReadLink (s : State) (host : Transaction := .ofBytes 3) : Host.Outcome State Fault Refusal :=
  inTransaction host s
    (setReply .ok (linkData s) (s.onLink fun l => { l with holeDropped := false, txFault := false }))

/-! ### The profile window -/

/-- SELECT_HOLE (10 R172). -/
def execSelectHole (number : HoleNo) (s : State) (host : Transaction := .ofBytes 5) : Host.Outcome State Fault Refusal :=
  inTransaction host s
    (match s.history.present number with
     | some r =>
       setReply .ok (summaryData s.history r)
         (s.onHistory fun h => { h with selection := .hole number, pointer := 0 })
     | none =>
       setReply .gone (goneData s.history) (s.onHistory fun h => { h with selection := .none, pointer := 0 }))

/-- The pointer moved by a read that answers the cells of `numbers` (10 R173). -/
def answerCells (number : HoleNo) (cells : List CellRecord) (numbers : List Nat) (pointer : Nat) (atEnd : Bool)
    (s : State) : State :=
  setReply .ok (cellsData number cells numbers pointer atEnd) (s.onHistory fun h => { h with pointer := pointer })

/-- An accepted READ_CELLS, upward (10 R174) or downward (R175). -/
def readCells (number : HoleNo) (cells : List CellRecord) (count : Nat) (up : Bool) (s : State) : State :=
  let p := s.history.pointer
  if up then
    let returned := min count (cells.length - p)
    answerCells number cells (cellsUp p count cells.length) (p + returned) (p + returned == cells.length) s
  else
    let returned := min count p
    answerCells number cells (cellsDown p count) (p - returned) (p - returned == 0) s

/-- READ_CELLS (10 R173): direction code 0 is UP and 1 is DOWN (12 R200). A selected number that names no record is not
reached (log 15). -/
def execReadCells (count direction : Byte) (s : State) (host : Transaction := .ofBytes 5) : Host.Outcome State Fault Refusal :=
  inTransaction host s
    (if !within 1 count.toNat 8 || 1 < direction.toNat then setReply .badArg [] s
     else match s.history.selection with
       | .none => setReply .badState [] s
       | .gone _ => setReply .gone (goneData s.history) s
       | .hole number =>
         match s.history.present number with
         | some r => readCells number r.cells count.toNat (direction.toNat == 0) s
         | none => setReply .gone (goneData s.history) s)

/-! ### Attention -/

/-- The source taken: pushed, and no longer pending; FAULT leaves its oldest entry, WATCH enters SERVED (11 R191, R198). -/
def takeSource (src : Source) (h : HostBlock) : HostBlock :=
  let pushed := { h with stack := src :: h.stack, raised := h.raised.set src false }
  match src with
  | .fault => { pushed with faults := pushed.faults.drop 1 }
  | .watch => { pushed with watch := { pushed.watch with arming := .served, fell := false } }
  | _ => pushed

/-- READ_ATTENTION (11 R191). -/
def execReadAttention (s : State) (host : Transaction := .ofBytes 3) : Host.Outcome State Fault Refusal :=
  inTransaction host s
    (match s.host.qualifying with
     | none => setReply .none [] s
     | some src =>
       let data := sourceData s src
       setReply .ok (u8 src.code ++ data.1) { s.onHost (takeSource src) with freeDraws := s.freeDraws + data.2 })

/-- The re-arming of a served watch whose source leaves the stack (11 R198). -/
def HostBlock.rearmWatch (h : HostBlock) : HostBlock :=
  if h.watch.arming ≠ .served then h
  else if !h.watch.fell then { h with watch := { h.watch with arming := .waitFalse } }
  else if h.watch.y then
    { h with watch := { h.watch with arming := .fired }, raised := h.raised.set .watch true }
  else { h with watch := { h.watch with arming := .armed } }

/-- The top of the stack removed, with the watch rule (11 R192). -/
def HostBlock.serviced (h : HostBlock) (top : Source) (rest : List Source) : HostBlock :=
  let popped := { h with stack := rest }
  if top = .watch then popped.rearmWatch else popped

/-- SERVICE_DONE (11 R192). -/
def execServiceDone (s : State) (host : Transaction := .ofBytes 3) : Host.Outcome State Fault Refusal :=
  inTransaction host s
    (match s.host.stack with
     | [] => setReply .badState [] s
     | top :: rest => setReply .ok (u8 top.code) (s.onHost fun h => h.serviced top rest))

/-- The watch a SET_WATCH leaves (11 R197); sense code 1 is active-false and combination code 1 is AND (12 R200). -/
def Watch.ofBytes (mask sense combination : Byte) (inputs : WatchInputs) : Watch :=
  let w : Watch := ⟨WatchInputs.ofByte mask, sense == 1, combination == 1, false, .armed, false⟩
  { w with y := w.value inputs }

/-- SET_WATCH (11 R197). -/
def execSetWatch (mask sense combination : Byte) (s : State) (host : Transaction := .ofBytes 6) :
    Host.Outcome State Fault Refusal :=
  inTransaction host s
    (if 1 < sense.toNat || 1 < combination.toNat then setReply .badArg [] s
     else
       let w := Watch.ofBytes mask sense combination (watchInputs s)
       setReply .ok (flag w.y)
         (s.onHost fun h => { h with watch := w, raised := h.raised.set .watch false }))

end Sys2Proof.Machine
end

