-- ==== Sys2Proof/Machine/Inputs.lean ====
section
/-! DEFINITION. The edges of the input pins and the end of a record on VTX. -/

namespace Sys2Proof.Machine

/-- What a fall of CANOPY_SET does to the cycle (01 R14, R17, R21, R24). -/
def canopyFall (s : State) : State :=
  match s.cycle.state with
  | .active p =>
    event s
      (if p = .insert ∧ s.cycle.abortPending then complete .aborted (queueFault .canopyLost s)
       else suspend .canopy (queueFault .canopyLost s))
  | _ => s

/-- CANOPY_SET_FALL (01 R17). The pin cannot fall when it is low (log 14). -/
def execCanopySetFall (s : State) : Host.Outcome State Fault Refusal :=
  unlessHeld s (if s.canopySet then canopyFall { s with canopySet := false } else s)

/-- VALVE_READY_RISE (08 R132). -/
def execValveReadyRise (s : State) : Host.Outcome State Fault Refusal :=
  unlessHeld s
    (let high := { s with valveReady := true }
     if s.flow.interlock = .waitReady ∧ s.valveReady = false then
       event s (high.onFlow fun f => { f with interlock := .flowing })
     else high)

/-- What a fall of VALVE_READY does by the interlock state (08 R132). -/
def valveFall (old low : State) : State :=
  match low.flow.interlock with
  | .flowing => event old (low.onFlow fun f => { f with interlock := .waitReady })
  | .releasing => event old (low.onFlow fun f => { f with interlock := .off, releaseDeadline := none })
  | _ => low

/-- VALVE_READY_FALL (08 R132). The pin cannot fall when it is low (log 14). -/
def execValveReadyFall (s : State) : Host.Outcome State Fault Refusal :=
  unlessHeld s (if s.valveReady then valveFall s { s with valveReady := false } else s)

/-- STROKE_DONE (06 R90): a rising edge outside a stroke in progress counts nothing. -/
def execStrokeDone (s : State) : Host.Outcome State Fault Refusal :=
  unlessHeld s (if s.resin.stroke = .inProgress then event s (strokeCounted s) else s)

/-- SETPOINT_RECORD_END (08 R129): VTX is idle, and a record goes out if the setpoints differ from the one that ended. -/
def execSetpointRecordEnd (s : State) : Host.Outcome State Fault Refusal :=
  unlessHeld s (if s.flow.onLine then sendSetpoints (s.onFlow fun f => { f with onLine := false }) else s)

end Sys2Proof.Machine
end

