-- ==== Sys2Proof/Machine/Link.lean ====
section
/-! DEFINITION. The rig link (09): frames received, frames sent, arbitration, transmit faults and duplicates. An event the
line cannot give in the present view has no effect (log 14). -/

namespace Sys2Proof.Machine

/-! ### Receiving -/

/-- The entry a good DEMAND frame makes or refreshes (08 R119). -/
def freshPeer (station : Nat) (n : DemandNotice) (now : Time) : Peer where
  station := station
  phase := n.phase
  flowClass := n.flowClass
  demand := n.demand
  freshness := .fresh
  lastHeard := now
  staleDeadline := some (after now 750)
  removalDeadline := after now 2750

/-- An entry put in its place in rising station order, over an older one of its station (08 R118, R119). -/
def upsertPeer (p : Peer) : List Peer → List Peer
  | [] => [p]
  | q :: rest =>
    if p.station < q.station then p :: q :: rest
    else if p.station = q.station then p :: rest
    else q :: upsertPeer p rest

/-- The configured station number. -/
def ownStation (s : State) : Nat := s.cfg.station

/-- A good frame routed at its end (R148): a DEMAND to the peer table, a HOLE to the neighbour table, the own number to the
duplicate rule (R154). -/
def routeFrame (f : LinkFrame) (s : State) : State :=
  let station := f.station.toNat
  if f.kind = demandKind then
    match decodeDemand f.payload with
    | none => s
    | some n =>
      if station = ownStation s then event s (muteStation .heard s)
      else event s (s.onFlow fun b => { b with peers := upsertPeer (freshPeer station n s.now) b.peers })
  else if f.kind = holeKind then
    match decodeHole station f.payload with
    | none => s
    | some n =>
      if station = ownStation s then event s (muteStation .heard s) else event s (insertNotice n s)
  else s

/-- The checks of a frame with a good CRC, then its routing (R144, R148). -/
def checkFrame (f : LinkFrame) (s : State) : State :=
  if 40 < f.payload.length || 5 < f.station.toNat then s else routeFrame f s

/-- The link controller at the end of a frame it followed as a receiver (R143): GAP, or SEEKING after a bad CRC. -/
def LinkBlock.endReceived (l : LinkBlock) (good : Bool) : LinkBlock :=
  { l with view := if good then .gap else .seeking, recessive := 0, ownLast := false, assembly := [] }

/-- The end of a frame followed as a receiver, at the last bit that its length field gives (R141, R143). -/
def endFrame (s : State) : State :=
  if frameWhole s.link.assembly then
    let f := frameRead s.link.assembly
    let ended := s.onLink fun l => l.endReceived (crcGood f)
    if crcGood f then checkFrame f ended else ended
  else s

/-- A bit of a frame followed as a receiver (R141, R143). -/
def followBit (bit : Bool) (s : State) : State := endFrame (s.onLink fun l => { l with assembly := l.assembly ++ [bit] })

/-- A bit while SEEKING (R141): 544 recessive bits in a row open the line. -/
def LinkBlock.seekBit (l : LinkBlock) (bit : Bool) : LinkBlock :=
  if !bit then { l with recessive := 0 }
  else if 544 ≤ l.recessive + 1 then { l with view := .gap, recessive := 544 }
  else { l with recessive := l.recessive + 1 }

/-- A bit while in GAP (R141): a dominant one is a lead bit. -/
def LinkBlock.gapBit (l : LinkBlock) (bit : Bool) : LinkBlock :=
  if bit then { l with recessive := l.recessive + 1 } else { l with view := .frame, assembly := [false] }

/-- SEEKING_COMPLETE (R141): 544 recessive bits in a row. -/
def execSeekingComplete (s : State) : Host.Outcome State Fault Refusal :=
  unlessHeld s
    (if s.link.view = .seeking then s.onLink fun l => { l with view := .gap, recessive := 544 } else s)

/-! ### Sending -/

/-- The frame a station with something to send builds, and whether it is the slot's (R150); none with nothing to send. -/
def chooseFrame (station : Nat) (l : LinkBlock) : Option (LinkFrame × Bool) :=
  match l.slot with
  | some d => some (buildFrame demandKind station (encodeDemand d.notice), true)
  | none =>
    match l.queue with
    | [] => none
    | oldest :: _ =>
      if l.queueOnLine then none else some (buildFrame holeKind station (encodeHole oldest), false)

/-- The notice chosen takes the on-line mark (R150). -/
def LinkBlock.markOnLine (l : LinkBlock) (fromSlot : Bool) : LinkBlock :=
  if fromSlot then { l with slot := l.slot.map fun d => { d with onLine := true } } else { l with queueOnLine := true }

/-- The on-line mark cleared, so the notice waits for the next idle line (R151, R152). -/
def LinkBlock.unmark (l : LinkBlock) : LinkBlock :=
  { l with slot := l.slot.map fun d => { d with onLine := false }, queueOnLine := false }

/-- The station starts a frame (R149, R150): LTX is driven dominant for the lead bit, which has still to be read back. -/
def startFrame (s : State) : State :=
  s.onLink fun l =>
    match chooseFrame (ownStation s) l with
    | some (frame, fromSlot) => { l.markOnLine fromSlot with view := .frame, assembly := [], tx := some frame }
    | none => l

/-- A bit period begins: it is the lead bit of an own frame where every condition of R149 holds. -/
def beginBit (s : State) : State := if s.link.starts then startFrame s else s

/-- Up to so many recessive bit periods pass in a GAP, as many of them as the count of a start still needs (R149). -/
def LinkBlock.await (l : LinkBlock) (recessive : Nat) : LinkBlock :=
  { l with recessive := max l.recessive (min l.startCount (l.recessive + recessive)) }

/-- FRAME_START (R149): the station starts at the first bit period in which every condition holds, within so many recessive
bit periods since the last event of the line (log 10). -/
def execFrameStart (recessive : Nat) (s : State) : Host.Outcome State Fault Refusal :=
  let waited := s.onLink fun l => l.await recessive
  unlessHeld s (if waited.link.starts then startFrame waited else s)

/-- The notice with the on-line mark leaves the slot or the queue (R153). -/
def LinkBlock.dropSent (l : LinkBlock) : LinkBlock :=
  { l with
    slot := l.slot.filter fun d => !d.onLine
    queue := if l.queueOnLine then l.queue.drop 1 else l.queue
    queueOnLine := false }

/-- The link controller is sending a frame. -/
def LinkBlock.sending (l : LinkBlock) : Option LinkFrame := if l.view = .frame then l.tx else none

/-- The own frame has been sent to its end (R153). -/
def endSent (s : State) : State :=
  s.onLink fun l => { l.dropSent with tx := none, ownLast := true, view := .gap, recessive := 0, assembly := [] }

/-- FRAME_SENT (R153): every bit of the own frame that was still to be read back has been read as it was sent. -/
def execFrameSent (s : State) : Host.Outcome State Fault Refusal :=
  unlessHeld s (if s.link.sending.isSome then endSent s else s)

/-- The station goes on as a receiver of the frame that overrode its own: it sent recessive and read dominant, so the bits
read are those it sent up to that bit (R151, R155). -/
def LinkBlock.follow (l : LinkBlock) (f : LinkFrame) (bit : Nat) : LinkBlock :=
  { l.unmark with tx := none, assembly := (frameBits f).take bit ++ [false] }

/-- Overridden at a bit (R151): arbitration lost in the kind or station field, bits 1 to 6, and a duplicate station found in
the length, payload or CRC field (R154, R155), which the last CRC bit ends (R143). -/
def overridden (f : LinkFrame) (bit : Nat) (s : State) : State :=
  let lost := s.onLink fun l => l.follow f bit
  if bit ≤ 6 then lost else endFrame (event s (muteStation .overridden lost))

/-- A bit driven dominant was read recessive (R152). -/
def faultTransmit (s : State) : State :=
  s.onLink fun l =>
    { l.unmark with tx := none, txFault := true, view := .seeking, recessive := 0, ownLast := false, assembly := [] }

/-- The own frame `f` is on the line, and a bit of it, sent at this level, has still to be read back (R151). -/
def LinkBlock.sendsBit (l : LinkBlock) (f : LinkFrame) (bit : Nat) (level : Bool) : Bool :=
  l.assembly.length ≤ bit && (frameBits f)[bit]? == some level

/-- ARBITRATION_LOST (R151): overridden in the kind or station field, bits 1 to 6, where the station sent recessive. -/
def execArbitrationLost (bit : Nat) (s : State) : Host.Outcome State Fault Refusal :=
  unlessHeld s
    (match s.link.sending with
     | some f => if 1 ≤ bit ∧ bit ≤ 6 ∧ s.link.sendsBit f bit true then overridden f bit s else s
     | none => s)

/-- TRANSMIT_FAULT (R152): a bit driven dominant was read recessive. -/
def execTransmitFault (bit : Nat) (s : State) : Host.Outcome State Fault Refusal :=
  unlessHeld s
    (match s.link.sending with
     | some f => if s.link.sendsBit f bit false then faultTransmit s else s
     | none => s)

/-- DUPLICATE_OVERRIDDEN (R154, R155): overridden in the length, payload or CRC field. -/
def execDuplicateOverridden (bit : Nat) (s : State) : Host.Outcome State Fault Refusal :=
  unlessHeld s
    (match s.link.sending with
     | some f => if 7 ≤ bit ∧ s.link.sendsBit f bit true then overridden f bit s else s
     | none => s)

/-! ### The line, bit by bit -/

/-- A bit of the own frame read back (R151): a match, with the frame's end at its last bit (R153), an override or a transmit
fault (R152). -/
def readBack (f : LinkFrame) (bit : Bool) (s : State) : State :=
  let k := s.link.assembly.length
  if (frameBits f)[k]? = some bit then
    if k + 1 = (frameBits f).length then endSent s else s.onLink fun l => { l with assembly := l.assembly ++ [bit] }
  else if bit then faultTransmit s
  else overridden f k s

/-- A bit read from the line (R141): what it is by the line view, and for a sender by its own frame. -/
def readLine (s : State) (bit : Bool) : State :=
  match s.link.view with
  | .off => s
  | .seeking => s.onLink fun l => l.seekBit bit
  | .gap => s.onLink fun l => l.gapBit bit
  | .frame =>
    match s.link.tx with
    | none => followBit bit s
    | some f => readBack f bit s

/-- One bit period of the line: the station begins a frame in the first period that R149 allows, and reads the bit (R141). -/
def takeBit (s : State) (bit : Bool) : State := readLine (beginBit s) bit

/-- DEMAND_FRAME_RECEIVED (08 R119): the bit periods that bring a frame, or a part of them. -/
def execDemandFrameReceived (bits : List Bool) (s : State) : Host.Outcome State Fault Refusal :=
  unlessHeld s (bits.foldl takeBit s)

/-- HOLE_FRAME_RECEIVED (04 R64): the bit periods that bring a frame, or a part of them. -/
def execHoleFrameReceived (bits : List Bool) (s : State) : Host.Outcome State Fault Refusal :=
  unlessHeld s (bits.foldl takeBit s)

end Sys2Proof.Machine
end

