-- ==== Sys2Proof/Machine/Starting.lean ====
section
/-! DEFINITION. The starting events (11 section 11.5) and the timebase (01 R1). -/

namespace Sys2Proof.Machine

/-- The interlock and the release deadline of a starting event, by the level of VALVE_READY (08 R134). -/
def FlowBlock.startInterlock (f : FlowBlock) (valveReady : Bool) (now : Time) : FlowBlock :=
  if valveReady then { f with interlock := .releasing, releaseDeadline := some (after now 500) }
  else { f with interlock := .off, releaseDeadline := none }

/-- POWER_ON (R186): every block takes its power-on values, the pins are sampled, and the zero setpoint record goes out
(08 R130). RESET_N is taken as high: a power-on with RESET_N low, which the manual leaves open, is this event with RESET_LINE
after it (log 28). The queue of waiting commands and the count of drawn free values are no part of the hardware and stay. -/
def execPowerOn (levels : InputLevels) (s : State) : Host.Outcome State Fault Refusal :=
  .next (({ State.reset with
    pending := s.pending, freeDraws := s.freeDraws, canopySet := levels.canopySet, valveReady := levels.valveReady }).onFlow
      fun f => f.startInterlock levels.valveReady 0)

/-- The flow block of a held part: nothing on VTX, FLOW_REQ low, and no deadline armed (08 R130, 11 R187; log 11). -/
def heldFlow (valveReady : Bool) : FlowBlock :=
  { State.reset.flow with
    interlock := if valveReady then .releasing else .off, lastSent := none, onLine := false, sequence := 0 }

/-- RESET_LINE (R187): the timebase, the last hole number and the ring stay, an OPEN record is cut (10 R168), every other
item takes its reset-line value, and the part is held. -/
def execResetLine (s : State) : Host.Outcome State Fault Refusal :=
  .next { State.reset with
    pending := s.pending
    freeDraws := s.freeDraws
    resetHeld := true
    canopySet := s.canopySet
    valveReady := s.valveReady
    cycle := { State.reset.cycle with timebase := s.cycle.timebase, holeNumber := s.cycle.holeNumber }
    flow := heldFlow s.valveReady
    history := { s.history.finish .aborted true with selection := .none, pointer := 0 } }

/-- RESET_N_RISE (R187): the part takes events again, the pins stand at their levels without edges, the interlock takes its
state from VALVE_READY, and the zero record with sequence 0 goes out (08 R130). It changes nothing in a part that is not
held. -/
def execResetNRise (levels : InputLevels) (s : State) : Host.Outcome State Fault Refusal :=
  .next (if s.resetHeld then
      ({ s with resetHeld := false, canopySet := levels.canopySet, valveReady := levels.valveReady }).onFlow fun f =>
        { f.startInterlock levels.valveReady s.now with lastSent := some ⟨0, zeroSetpoints⟩, onLine := true, sequence := 1 }
    else s)

/-- TIMEBASE_TICK (01 R1): the timebase advances, also while the part is held. -/
def execTimebaseTick (s : State) : Host.Outcome State Fault Refusal :=
  .next (s.onCycle fun c => { c with timebase := c.timebase + 1 })

end Sys2Proof.Machine
end

