-- ==== Sys2Proof/Machine/Dispatch.lean ====
section
/-! DEFINITION. The dispatch of a command to its meaning: one arm for each row of spec/opcode_table.json. -/

namespace Sys2Proof.Machine

def exec (i : Instr) (s : State) : Host.Outcome State Fault Refusal :=
  match i with
  | .powerOn levels => Sys2Proof.Machine.execPowerOn levels s
  | .resetLine => Sys2Proof.Machine.execResetLine s
  | .resetNRise levels => Sys2Proof.Machine.execResetNRise levels s
  | .sampleRecord bits => Sys2Proof.Machine.execSampleRecord bits s
  | .linkDeadlineExpiry => Sys2Proof.Machine.execLinkDeadlineExpiry s
  | .rotPulse => Sys2Proof.Machine.execRotPulse s
  | .pulseDeadlineExpiry => Sys2Proof.Machine.execPulseDeadlineExpiry s
  | .canopySetFall => Sys2Proof.Machine.execCanopySetFall s
  | .valveReadyRise => Sys2Proof.Machine.execValveReadyRise s
  | .valveReadyFall => Sys2Proof.Machine.execValveReadyFall s
  | .strokeDone => Sys2Proof.Machine.execStrokeDone s
  | .fetch host => Sys2Proof.Machine.execFetch s host
  | .badFrame host => Sys2Proof.Machine.execBadFrame s host
  | .configure record host => Sys2Proof.Machine.execConfigure record s host
  | .startHole row slot planned rise host => Sys2Proof.Machine.execStartHole row slot planned rise s host
  | .abort rise host => Sys2Proof.Machine.execAbort rise s host
  | .resume rise host => Sys2Proof.Machine.execResume rise s host
  | .proceed rise host => Sys2Proof.Machine.execProceed rise s host
  | .abandon host => Sys2Proof.Machine.execAbandon s host
  | .readState host => Sys2Proof.Machine.execReadState s host
  | .readAttention host => Sys2Proof.Machine.execReadAttention s host
  | .serviceDone host => Sys2Proof.Machine.execServiceDone s host
  | .setWatch mask sense combination host => Sys2Proof.Machine.execSetWatch mask sense combination s host
  | .readSensors host => Sys2Proof.Machine.execReadSensors s host
  | .unlatch host => Sys2Proof.Machine.execUnlatch s host
  | .readFlow host => Sys2Proof.Machine.execReadFlow s host
  | .readNeighbours index host => Sys2Proof.Machine.execReadNeighbours index s host
  | .readLink host => Sys2Proof.Machine.execReadLink s host
  | .selectHole number host => Sys2Proof.Machine.execSelectHole number s host
  | .readCells count direction host => Sys2Proof.Machine.execReadCells count direction s host
  | .collarTimerExpiry => Sys2Proof.Machine.execCollarTimerExpiry s
  | .retractTimerExpiry => Sys2Proof.Machine.execRetractTimerExpiry s
  | .stallWindowExpiry => Sys2Proof.Machine.execStallWindowExpiry s
  | .strokeTimerExpiry => Sys2Proof.Machine.execStrokeTimerExpiry s
  | .strokeGapExpiry => Sys2Proof.Machine.execStrokeGapExpiry s
  | .mixDeadlineExpiry => Sys2Proof.Machine.execMixDeadlineExpiry s
  | .holdDeadlineExpiry => Sys2Proof.Machine.execHoldDeadlineExpiry s
  | .torqueTimerExpiry => Sys2Proof.Machine.execTorqueTimerExpiry s
  | .releaseDeadlineExpiry => Sys2Proof.Machine.execReleaseDeadlineExpiry s
  | .demandScheduleExpiry => Sys2Proof.Machine.execDemandScheduleExpiry s
  | .staleDeadlineExpiry station => Sys2Proof.Machine.execStaleDeadlineExpiry station s
  | .removalDeadlineExpiry station => Sys2Proof.Machine.execRemovalDeadlineExpiry station s
  | .demandFrameReceived bits => Sys2Proof.Machine.execDemandFrameReceived bits s
  | .holeFrameReceived bits => Sys2Proof.Machine.execHoleFrameReceived bits s
  | .seekingComplete => Sys2Proof.Machine.execSeekingComplete s
  | .frameStart recessive => Sys2Proof.Machine.execFrameStart recessive s
  | .frameSent => Sys2Proof.Machine.execFrameSent s
  | .arbitrationLost bit => Sys2Proof.Machine.execArbitrationLost bit s
  | .transmitFault bit => Sys2Proof.Machine.execTransmitFault bit s
  | .duplicateOverridden bit => Sys2Proof.Machine.execDuplicateOverridden bit s
  | .setpointRecordEnd => Sys2Proof.Machine.execSetpointRecordEnd s
  | .timebaseTick => Sys2Proof.Machine.execTimebaseTick s

end Sys2Proof.Machine
end

