-- ==== Sys2Proof/Machine/Step.lean ====
section
/-! DEFINITION. One step of the part: the command at the front of the queue (log 1). -/

namespace Sys2Proof.Machine

/-- Takes the command at the front of the queue and answers its outcome on the state with the queue's rest; on an empty
queue the part idles (log 1). -/
def step (s : State) : Host.Outcome State Fault Refusal :=
  match s.pending with
  | [] => .next s
  | c :: rest => exec c { s with pending := rest }

/-- The command a word spells, put at the front of the queue; no word spells one (log 2). -/
def State.withFetchWord (s : State) (nbits w : Nat) : State :=
  match Sys2Proof.decodeTableWord nbits w with
  | some c => { s with pending := c :: s.pending }
  | none => s

/-- The event a host transaction is taken as, put at the back of the queue (11 R179, R180). -/
def State.withTransaction (s : State) (canopyRise cut : Bool) (bits : List Bool) : State :=
  match Sys2Proof.hostTransaction canopyRise cut bits with
  | some c => { s with pending := s.pending ++ [c] }
  | none => s

end Sys2Proof.Machine
end

