-- ==== Sys2Proof/Safety.lean ====
section
/-! DEFINITION. What the manual promises of every state of the part, block by block, in the terms the statements use. -/

namespace Sys2Proof.Machine

/-- A phase that needs the sample link runs only while LINK_UP is true (01 R18, R19). -/
def linkServes (s : State) : Bool :=
  match s.cycle.state with
  | .active p => !p.needsLink || s.sensor.live.linkUp
  | _ => true

/-- The items of the cycle fit its state: the remembered phase and the cause stand exactly in SUSPENDED (01 R6), an active
phase has its canopy and its sample link (01 R8, R17, R19, R22), a held part is UNCONFIGURED (11 R187), a stroke is in
progress only in INSERT, with cartridges to push and with the gap disarmed (06 R88 to R90), the abort-pending mark only
during a stroke (01 R24), and TORQUE_NEAR only in TORQUE (07 R111). -/
structure CycleSound (s : State) : Prop where
  remembered : s.cycle.remembered.isSome = (s.cycle.state == .suspended)
  cause : s.cycle.cause.isSome = (s.cycle.state == .suspended)
  canopy : s.cycle.state.isActive = true → s.canopySet = true
  sampleLink : linkServes s = true
  onHold : s.resetHeld = true → s.cycle.state = .unconfigured
  stroke : s.resin.stroke = .inProgress → s.cycle.state = .active .insert ∧ s.resin.pushed < s.resin.charge.getD 0
  pushed : s.resin.pushed ≤ s.resin.charge.getD 0
  gap : s.resin.gap.isSome = true → s.resin.stroke ≠ .inProgress
  abortPending : s.cycle.abortPending = true → s.resin.stroke = .inProgress
  torqueNear : s.torque.torqueNear = true → s.cycle.state = .active .torque

/-- The flow figures agree with the state they are figures of (08 R117, R123 to R126, 04 R71), FLOW_REQ is high only in an
active phase with the allowance at its minimum and CANOPY_SET high (08 R126, R133), and the interlock is not OFF while all
that holds (08 R131). -/
structure FlowSound (s : State) : Prop where
  held : s.cycle.held = heldNow s
  nearVoid : s.neighbours.nearVoid = nearVoidNow s
  allowance : s.flow.allowance = allowanceNow s
  flowCut : s.flow.flowCut = decide (s.flow.allowance < ownDemand s)
  setpoints : s.flow.setpoints = setpointsNow s
  flowReq : s.flowReq = true → mayFlow s = true
  raised : mayFlow s = true → s.flow.interlock ≠ .off

/-- The last record sent carries the present setpoints, unless a record is still on VTX or the part is held (08 R127,
R129). -/
def VtxSound (s : State) : Prop :=
  s.resetHeld = false → s.flow.onLine = false → s.flow.lastSent.map SetpointRecord.setpoints = some s.flow.setpoints

/-- A pausable timer that is armed runs while its phase does and is paused otherwise, with a remainder below 2^31 (01 R2,
R4). -/
def Timer.follows (timer : Timer) (runs : Bool) : Bool :=
  match timer with
  | .disarmed => true
  | .paused left => !runs && left < 2147483648
  | .running _ => runs

/-- The pausable timers run and pause with their phases and HELD (01 R4, 02 R45, 06 R88, 07 R109). -/
structure TimersSound (s : State) : Prop where
  collar : s.cycle.collarTimer.follows (phaseRuns s .collar) = true
  retract : s.cycle.retractTimer.follows (phaseRuns s .retract) = true
  stall : s.assembler.stallWindow.follows (phaseRuns s .drill) = true
  stroke : s.resin.strokeTimer.follows (phaseRuns s .insert && s.resin.stroke == .inProgress) = true
  torque : s.torque.timer.follows (phaseRuns s .torque) = true

/-- The cycle is in a phase, running or suspended. -/
def inPhase (s : State) (p : Phase) : Bool :=
  s.cycle.state == .active p || (s.cycle.state == .suspended && s.cycle.remembered == some p)

/-- A CHARGE outcome has its charge and target (05 R79, R80), a RETRACT without a pending verdict follows an evaluation (01
R13), the phases from INSERT on run on the charge and the target chosen (06 R87), 1 to 3 cartridges (05 R79, R84), TORQUE has
the figures of that target (07 R105, R106), and a hole that has not come to TORQUE has not entered it (07 R104, R105). -/
structure ChargeSound (s : State) : Prop where
  outcome : s.anchor.outcome = .charge → s.anchor.charge.isSome = true ∧ s.anchor.target.isSome = true
  retract : inPhase s .retract = true → s.cycle.pendingVerdict = none → s.anchor.outcome ≠ .none
  charged : ∀ p, (p = .insert ∨ p = .mix ∨ p = .hold ∨ p = .torque) → inPhase s p = true →
    s.resin.charge = s.anchor.charge ∧ s.anchor.charge.isSome = true ∧ s.anchor.target.isSome = true
  range : ∀ n, s.anchor.charge = some n → 1 ≤ n ∧ n ≤ 3
  torque : inPhase s .torque = true → s.torque.entered = true ∧ s.torque.target = s.anchor.target
    ∧ s.torque.ceiling = s.anchor.target.map ceilingOf ∧ s.torque.near = s.anchor.target.map nearOf
  notEntered : ∀ p, p ≠ .torque → inPhase s p = true → s.torque.entered = false
  decide : s.cycle.state = .decide → s.torque.entered = false

/-- A hole is in progress: the cycle is past START_HOLE and not complete. -/
def CycleState.hasHole : CycleState → Bool
  | .unconfigured => false
  | .idle => false
  | _ => true

/-- The reserved counts and the free cells make up the pool of 1,024, the ring holds at most 16 records, no record holds
more cells than it planned, at most 128, and at most the newest record is OPEN, and only while a hole is in progress (10
R162, R164). -/
structure HistorySound (s : State) : Prop where
  pool : s.history.free + (s.history.records.map HoleRecord.reserved).sum = 1024
  ring : s.history.records.length ≤ 16
  cells : ∀ r ∈ s.history.records, r.cells.length ≤ r.planned ∧ r.planned ≤ 128
  newest : ∀ r ∈ s.history.records.dropLast, r.isOpen = false
  inProgress : s.cycle.state.hasHole = false → ∀ r ∈ s.history.records, r.isOpen = false

/-- The records of the ring carry consecutive numbers, the newest the current hole number (10 R162, R170). -/
def NumbersSound (s : State) : Prop :=
  ∀ i r, s.history.records[i]? = some r →
    ∃ n, s.cycle.holeNumber = some n ∧ r.number + BitVec.ofNat 16 (s.history.records.length - 1 - i) = n

/-- A selected number names a record of the ring, and the pointer lies within its closed cells (10 R171). -/
def WindowSound (s : State) : Prop :=
  ∀ n, s.history.selection = .hole n →
    ∃ r, s.history.present n = some r ∧ r.number = n ∧ s.history.pointer ≤ r.cells.length

/-- COLLAR or DRILL runs or stands remembered. -/
def drilling (s : State) : Bool :=
  s.cycle.state == .active .collar || s.cycle.state == .active .drill
    || (s.cycle.state == .suspended && (s.cycle.remembered == some .collar || s.cycle.remembered == some .drill))

/-- A cell is in assembly only while drilling goes on, below the planned depth of 30 cells or more, and every cell before it
has been closed into the OPEN record exactly once (02 R38 to R43); n is at most 4,095, and CAPPED is set exactly there (02
R38, R39); the sums stay within those of n clamped samples (02 R30, R39). -/
structure AssemblerSound (s : State) : Prop where
  drilling : s.assembler.cell.isSome = true → drilling s = true
  closed : ∀ k, s.assembler.cell = some k →
    k < s.cycle.planned ∧ s.assembler.maxDepth < s.cycle.planned * 200 ∧ 30 ≤ s.cycle.planned
      ∧ ∃ r, s.openRecord = some r ∧ r.cells.length = k ∧ r.planned = s.cycle.planned
  n : s.assembler.n ≤ 4095
  capped : s.assembler.capped = (s.assembler.n == 4095)
  rotary : s.assembler.rotary ≤ s.assembler.n * (1023 * 1023)
  thrust : s.assembler.thrust ≤ s.assembler.n * 600

/-- The in-service stack rises strictly in priority from bottom to top (11 R190), and the fault queue holds at most four
entries (11 R193). -/
structure AttentionSound (s : State) : Prop where
  stack : s.host.stack.Pairwise fun upper lower => upper.priority < lower.priority
  faults : s.host.faults.length ≤ 4

/-- Y is the value of the expression on the present inputs (11 R196, R197), a watch in FIRED has WATCH pending, and in
WAIT_FALSE the FELL mark is clear: a removal leads there only with the mark clear, and only SERVED sets it (11 R196, R198). -/
structure WatchSound (s : State) : Prop where
  y : s.host.watch.y = s.host.watch.value (watchInputs s)
  fired : s.host.watch.arming = .fired → s.host.raised.watch = true
  fell : s.host.watch.arming = .waitFalse → s.host.watch.fell = false

/-- LINK_UP and PULSE_ACTIVE stand exactly while their deadlines are armed (02 R32, R33), an unlatched group has no read
mark and its snapshot is the live group (02 R34, R36), a record in assembly starts with the sync byte and is not whole, a byte
on SRX holds at most its eight data bits, and the gap is counted only between two bytes of a record, up to 460 bit periods (02
R29). -/
structure SensorSound (s : State) : Prop where
  linkUp : s.sensor.live.linkUp = s.sensor.linkDeadline.isSome
  pulseActive : s.sensor.live.pulseActive = s.sensor.pulseDeadline.isSome
  unlatched : s.sensor.latched = false → s.sensor.readMark = false ∧ s.sensor.snapshot = s.sensor.live
  assembly : s.sensor.assembly.length < 12 ∧ (s.sensor.assembly = [] ∨ s.sensor.assembly.head? = some sampleSync)
  byte : ∀ data, s.sensor.receiver = .byte data → data.length ≤ 8
  low : s.sensor.receiver = .low → s.sensor.assembly = []
  gap : s.sensor.gap ≤ 460 ∧ (s.sensor.receiver ≠ .idle ∨ s.sensor.assembly = [] → s.sensor.gap = 0)

/-- The hole queue holds at most four notices of at most eight voids (09 R158, 04 R67), a transmit frame is on the line only in
FRAME (09 R149), a muted station sends nothing and holds no notice (09 R155), the line view is OFF exactly in UNCONFIGURED (09
R161), and the assembly holds the bits read of the frame on the line: none outside FRAME, a sender's own bits short of the last
one, and for a receiver a part of a frame (09 R143, R151, R153). -/
structure LinkSound (s : State) : Prop where
  queue : s.link.queue.length ≤ 4 ∧ ∀ n ∈ s.link.queue, n.voids.length ≤ 8
  sending : s.link.tx.isSome = true → s.link.view = .frame
  muted : s.muted = true → s.link.tx = none ∧ s.link.slot = none ∧ s.link.queue = []
  off : (s.link.view == .off) = (s.cycle.state == .unconfigured)
  outside : s.link.view ≠ .frame → s.link.assembly = []
  readBack : ∀ f, s.link.tx = some f → f.payload.length ≤ 38 ∧ crcGood f = true
    ∧ s.link.assembly.isPrefixOf (frameBits f) = true ∧ s.link.assembly.length < (frameBits f).length
  receiving : s.link.view = .frame → s.link.tx = none → s.link.assembly ≠ [] ∧ frameWhole s.link.assembly = false

/-- A configuration stands exactly outside UNCONFIGURED, every field within its range, with one gel row for each band (11
R184, R185); without one there is no peer and no schedule (08 R121, R138). -/
structure ConfigSound (s : State) : Prop where
  stands : s.host.config.isNone = (s.cycle.state == .unconfigured)
  inRange : ∀ c, s.host.config = some c → c.inRange = true ∧ c.gel.length = 8
  peers : s.host.config = none → s.flow.peers = []
  schedule : s.flow.schedule.isSome = s.host.config.isSome

/-- At most 16 entries, no two with one row and slot (04 R62). -/
structure NeighboursSound (s : State) : Prop where
  entries : s.neighbours.entries.length ≤ 16
  keys : s.neighbours.entries.Pairwise fun a b => a.sameKey b = false

/-- The peer entries rise by station number, all below 6 and none the own number (08 R118). -/
structure PeersSound (s : State) : Prop where
  rising : s.flow.peers.Pairwise fun a b => a.station < b.station
  bounded : ∀ p ∈ s.flow.peers, p.station < 6
  others : ∀ c, s.host.config = some c → ∀ p ∈ s.flow.peers, p.station ≠ c.station

/-! ### What an event that moves the cycle leaves -/

/-- A phase entered from a state of class NONE would be let flow at once: the interlock is OFF with VALVE_READY high, and the
phase's allowance reaches its minimum (08 R131). -/
def flowsAtOnce (s : State) (p : Phase) : Bool :=
  s.flow.interlock == .off && s.valveReady
    && decide (s.cfg.minimums.get p ≤ allowanceOf s.cfg.capacity p.flowClass (s.cfg.demands.get p) s.flow.peers)

/-- The ring with a write into the OPEN record. -/
def onOpen (f : HoleRecord → HoleRecord) (records : List HoleRecord) : List HoleRecord :=
  records.map fun r => if r.isOpen then f r else r

/-- The reserved cells of the OPEN record that no cell has taken (10 R167). -/
def unusedCells (records : List HoleRecord) : Nat :=
  ((records.filter HoleRecord.isOpen).map fun r => r.planned - r.cells.length).sum

/-- Nothing flows: every setpoint is 0 and FORWARD, FLOW_REQ and STROKE are low, and HELD is false. -/
structure AtRest (t : State) : Prop where
  setpoints : t.flow.setpoints = ⟨.forward, 0, 0, 0⟩
  flowReq : t.flowReq = false
  stroke : t.strokeOut = false
  held : t.cycle.held = false

/-- What follows a change of the cycle state (08 R117, 01 R7): the flow figures are those of the new state. -/
structure FlowFollows (t : State) : Prop where
  allowance : t.flow.allowance = allowanceNow t
  flowCut : t.flow.flowCut = decide (t.flow.allowance < ownDemand t)
  flowReq : t.flowReq = true → mayFlow t = true
  held : t.cycle.held = heldNow t
  setpoints : t.flow.setpoints = setpointsNow t

/-- The DEMAND notice of a new cycle state stands in the slot, unless MUTE holds (08 R137, R139). -/
def NoticePlaced (t : State) : Prop :=
  t.muted = false → t.link.slot = some ⟨⟨t.cycle.state, ownClass t, ownDemand t⟩, false⟩

/-- A hole of `s` has completed in `t` with verdict `v` (01 R26, 10 R167, 04 R66, 09 R158); `records` is the ring as the
event's own writes left it before the verdict. -/
structure Completed (s : State) (records : List HoleRecord) (v : Verdict) (t : State) : Prop where
  state : t.cycle.state = .idle
  items : t.cycle.remembered = none ∧ t.cycle.cause = none ∧ t.cycle.pendingVerdict = none ∧ t.cycle.abortPending = false
  timers : t.cycle.collarTimer = .disarmed ∧ t.cycle.retractTimer = .disarmed ∧ t.resin.strokeTimer = .disarmed
    ∧ t.torque.timer = .disarmed ∧ t.resin.gap = none ∧ t.resin.mixDeadline = none ∧ t.resin.holdDeadline = none
  strokeIdle : t.resin.stroke = .idle
  torqueNear : t.torque.torqueNear = false
  rest : AtRest t
  verdict : t.history.records = onOpen (fun r => { r with verdict := some v }) records
  free : t.history.free = s.history.free + unusedCells records
  holeDone : t.host.raised.holeDone = true
  noNotice : ∀ r, records.find? HoleRecord.isOpen = some r → v = .aborted → r.cells = [] →
    t.neighbours.entries = s.neighbours.entries ∧ t.link.queue = s.link.queue
  ownEntry : ∀ r, records.find? HoleRecord.isOpen = some r → ¬(v = .aborted ∧ r.cells = []) →
    t.neighbours.entries.getLast? = some (composeNotice s.cfg.station v r)
  queued : ∀ r, records.find? HoleRecord.isOpen = some r → ¬(v = .aborted ∧ r.cells = []) →
    (t.muted = true → t.link.queue = s.link.queue)
      ∧ (t.muted = false → t.link.queue.getLast? = some (composeNotice s.cfg.station v r))

/-- The phase `p` of `s` has been suspended in `t` (01 R17, R18, 06 R89, R93, R99, 07 R112), each pausable timer paused with
what is left of it (01 R4). -/
structure Suspended (s : State) (p : Phase) (cause : Cause) (t : State) : Prop where
  state : t.cycle.state = .suspended
  remembered : t.cycle.remembered = some p ∧ t.cycle.cause = some cause
  rest : AtRest t
  demand : ownDemand t = 0 ∧ ownClass t = .none
  paused : t.cycle.collarTimer = s.cycle.collarTimer.pause s.now ∧ t.cycle.retractTimer = s.cycle.retractTimer.pause s.now
    ∧ t.assembler.stallWindow = s.assembler.stallWindow.pause s.now ∧ t.resin.strokeTimer = s.resin.strokeTimer.pause s.now
    ∧ t.torque.timer = s.torque.timer.pause s.now
  gel : t.resin.mixDeadline = s.resin.mixDeadline ∧ t.resin.holdDeadline = s.resin.holdDeadline
  torqueNear : t.torque.torqueNear = false
  nearVoid : t.neighbours.nearVoid = false
  stroke : p = .insert → s.resin.stroke = .inProgress →
    t.resin.stroke = .interrupted ∧ t.resin.gap = some (after s.now 100)
  records : t.history.records =
    onOpen (fun r => { r with flags := { r.flags with mixShort := r.flags.mixShort || p == .mix } }) s.history.records

/-- The first stroke of an INSERT entered in `t` (06 R87, R88): it starts with a fresh 3,000 ms at the entry, and not while HELD
is true. -/
structure FirstStroke (s t : State) : Prop where
  runs : t.cycle.held = false → t.strokeOut = true ∧ t.resin.strokeTimer = .running (after s.now 3000)
  waits : t.cycle.held = true → t.strokeOut = false

/-- The blocks no event of the cycle touches. -/
structure CycleFrame (s t : State) : Prop where
  pins : t.canopySet = s.canopySet ∧ t.valveReady = s.valveReady ∧ t.resetHeld = s.resetHeld
  pending : t.pending = s.pending
  config : t.host.config = s.host.config
  stack : t.host.stack = s.host.stack
  peers : t.flow.peers = s.flow.peers
  schedule : t.flow.schedule = s.flow.schedule
  hole : t.cycle.holeNumber = s.cycle.holeNumber ∧ t.cycle.row = s.cycle.row ∧ t.cycle.slot = s.cycle.slot
    ∧ t.cycle.planned = s.cycle.planned ∧ t.cycle.timebase = s.cycle.timebase
  window : t.history.selection = s.history.selection ∧ t.history.pointer = s.history.pointer
  line : t.link.view = s.link.view ∧ t.link.tx = s.link.tx ∧ t.link.mute = s.link.mute

/-! ### The rig link -/

/-- The bit periods bring the frame `f` to its last bit, for a station that sends none: the whole of it from a GAP in which the
station does not start a frame itself (09 R149), or what is still to come of the frame that the station follows as a receiver (09
R141, R143). -/
def BringsFrame (s : State) (bits : List Bool) (f : LinkFrame) : Prop :=
  f.payload.length < 64 ∧ s.link.tx = none
    ∧ ((s.link.view = .gap ∧ s.link.starts = false ∧ bits = frameBits f)
      ∨ (s.link.view = .frame ∧ bits ≠ [] ∧ s.link.assembly ++ bits = frameBits f))

/-- A maximal run of `count` VOID cells from the cell `first` on (04 R67). -/
def VoidRun (cells : List CellRecord) (first count : Nat) : Prop :=
  let isVoid := fun k => (cells[k]?.map CellRecord.cls) = some .void
  0 < count ∧ (∀ i, i < count → isVoid (first + i)) ∧ ¬isVoid (first + count) ∧ (∀ k, first = k + 1 → ¬isVoid k)

/-! ### The starting events -/

/-- The values both starting events give, block by block, with LTX recessive (01 R5, 02 R37, R47, 04 R65, 05 R74, 06 R86, 07
R104, 08 R121, R130, R138, 09 R161, 11 R188). -/
structure StartingValues (t : State) : Prop where
  cycle : t.cycle.state = .unconfigured ∧ t.cycle.remembered = none ∧ t.cycle.cause = none ∧ t.cycle.held = false
    ∧ t.cycle.pendingVerdict = none ∧ t.cycle.abortPending = false ∧ t.cycle.row = 0 ∧ t.cycle.slot = 0
    ∧ t.cycle.planned = 0 ∧ t.cycle.collarTimer = .disarmed ∧ t.cycle.retractTimer = .disarmed
  sensor : t.sensor =
    { receiver := .idle, gap := 0, assembly := [], last := none, linkDeadline := none, pulseDeadline := none,
      live := ⟨false, false, false, false⟩, snapshot := ⟨false, false, false, false⟩, latched := false, readMark := false }
  assembler : t.assembler =
    { cell := none, n := 0, rotary := 0, thrust := 0, capped := false, tainted := false, maxDepth := 0,
      stallWindow := .disarmed, stallRef := 0, voidCell := false, softCell := false, hardCell := false }
  neighbours : t.neighbours = { entries := [], predicted := [], nearVoid := false }
  anchor : t.anchor =
    { voidCount := 0, softCount := 0, hardCount := 0, outcome := .none, charge := none, target := none }
  resin : t.resin =
    { charge := none, pushed := 0, stroke := .idle, strokeTimer := .disarmed, retry := false, gap := none, band := none,
      quarterRevs := 0, mixDeadline := none, holdDeadline := none, holdPassed := false }
  torque : t.torque =
    { target := none, ceiling := none, near := none, entered := false, timer := .disarmed, spinner := 0, peak := 0,
      overshoot := false, torqueNear := false }
  flow : t.flow.peers = [] ∧ t.flow.allowance = 0 ∧ t.flow.flowCut = false ∧ t.flow.schedule = none
    ∧ t.flow.setpoints = ⟨.forward, 0, 0, 0⟩ ∧ t.flowReq = false ∧ t.strokeOut = false
  link : t.link =
    { view := .off, recessive := 0, ownLast := false, assembly := [], tx := none, slot := none, queue := [],
      queueOnLine := false, mute := none, holeDropped := false, txFault := false }
  window : t.history.selection = .none ∧ t.history.pointer = 0
  ltx : t.ltx = true
  host : t.host.reply = ⟨.none, []⟩ ∧ t.host.config = none ∧ t.host.raised = ⟨false, false, false, false⟩
    ∧ t.host.stack = [] ∧ t.host.faults = [] ∧ t.attnLow = false
  watch : t.host.watch =
    { mask := ⟨false, false, false, false, false, false⟩, activeFalse := false, isAnd := false, y := false,
      arming := .armed, fell := false }

/-- The interlock a starting event chooses by the level of VALVE_READY (08 R134). -/
def InterlockStarts (valveReady : Bool) (now : Time) (t : State) : Prop :=
  (valveReady = false → t.flow.interlock = .off ∧ t.flow.releaseDeadline = none)
    ∧ (valveReady = true → t.flow.interlock = .releasing ∧ t.flow.releaseDeadline = some (after now 500))

/-- The reply of a host command stands in the reply buffer, and HSDO has carried the old reply for as long as the transaction
lasted (11 R178 to R180). -/
def Replied (host : Transaction) (s : State) (status : Status) (data : List Byte) (t : State) : Prop :=
  t.host.reply = ⟨status, data⟩ ∧ t.host.hsdo = clockedOut host.clocks s.host.reply

/-! ### Sample records -/

/-- A byte as it stands on SRX (02 R29): the high bit periods before its start bit, its value, and the level of its stop bit. -/
structure SrxByte where
  gap : Nat
  value : Byte
  stopHigh : Bool
deriving DecidableEq, Repr

/-- The bit periods of a byte on SRX (02 R29): the gap, and the byte itself (log 29). -/
def SrxByte.bits (b : SrxByte) : List Bool := List.replicate b.gap true ++ serialBits b.value b.stopHigh

/-- The bit periods of a run of bytes on SRX. -/
def srxLine (bytes : List SrxByte) : List Bool := bytes.flatMap SrxByte.bits

/-- The bytes of a whole good record on SRX (02 R29): 12 bytes less than 461 bit periods apart with high stop bits, the sync
byte first, and a sum of 0 modulo 256. -/
def goodRecord (bytes : List SrxByte) : Bool :=
  bytes.length == 12 && bytes.all SrxByte.stopHigh && bytes.tail.all (fun b => decide (b.gap < 461))
    && (bytes.map SrxByte.value).head? == some 165 && byteSum (bytes.map SrxByte.value) == 0

/-- The port is between two bytes, and the first byte to come finds it hunting: no record is in assembly, or a gap of 461 bit
periods or more before that byte discards the one that is (02 R29). -/
def Hunting (s : State) (bytes : List SrxByte) : Prop :=
  s.sensor.receiver = .idle
    ∧ (s.sensor.assembly = []
      ∨ (s.sensor.gap < 461 ∧ ∀ b, bytes.head? = some b → 461 ≤ s.sensor.gap + b.gap))

/-- The sample port after steps 1 to 3 of a good record (02 R30, R31, R34). -/
structure RecordTaken (s : State) (raw : Sample) (t : State) : Prop where
  last : t.sensor.last = some
    { sequence := raw.sequence, thrust := min raw.thrust 600, torque := min raw.torque 1023,
      speed := min raw.speed 1023, feed := min raw.feed 30000, temperature := raw.temperature }
  link : t.sensor.linkDeadline = some (after s.now 20)
  live : t.sensor.live =
    ⟨true, decide (-40 ≤ raw.temperature ∧ raw.temperature ≤ 120),
      decide (600 < raw.thrust ∨ 1023 < raw.torque ∨ 1023 < raw.speed ∨ 30000 < raw.feed), s.sensor.live.pulseActive⟩
  pulse : t.sensor.pulseDeadline = s.sensor.pulseDeadline
  latch : if s.sensor.latched = false ∧ t.sensor.live ≠ s.sensor.live then
      t.sensor.latched = true ∧ t.sensor.snapshot = t.sensor.live ∧ t.sensor.readMark = false
    else t.sensor.latched = s.sensor.latched ∧ t.sensor.snapshot = s.sensor.snapshot
      ∧ t.sensor.readMark = s.sensor.readMark
  hunting : t.sensor.assembly = [] ∧ t.sensor.receiver = .idle ∧ t.sensor.gap = 0

/-! ### The configuration record -/

/-- The ranges of R184 at the places of R204, for a record whose use-defaults mark is absent; `b i` is the byte at place `i`. -/
structure RecordAdmitted (b : Nat → Nat) : Prop where
  station : b 1 ≤ 5
  capacity : 20 ≤ b 2 * 256 + b 3 ∧ b 2 * 256 + b 3 ≤ 400
  demands : ∀ phase, phase < 7 → 1 ≤ b (4 + phase)
  minimums : ∀ phase, phase < 7 → 1 ≤ b (11 + phase) ∧ b (11 + phase) ≤ b (4 + phase)
  bitSize : b 18 = 27 ∨ b 18 = 35
  soft : b 19 * 65536 + b 20 * 256 + b 21 ≤ 784908
  hard : b 19 * 65536 + b 20 * 256 + b 21 < b 22 * 65536 + b 23 * 256 + b 24
    ∧ b 22 * 65536 + b 23 * 256 + b 24 ≤ 784908
  voidN : 1 ≤ b 25 ∧ b 25 ≤ 100
  voidThrust : 1 ≤ b 26 * 256 + b 27 ∧ b 26 * 256 + b 27 ≤ 600
  base : 1 ≤ b 28 ∧ b 28 ≤ 2
  extraVoid : 1 ≤ b 29 ∧ b 29 ≤ 29
  rejectVoid : b 29 < b 30 ∧ b 30 ≤ 30
  normalTarget : 100 ≤ b 31 * 256 + b 32 ∧ b 31 * 256 + b 32 ≤ 800
  softTarget : 50 ≤ b 33 * 256 + b 34 ∧ b 33 * 256 + b 34 ≤ b 31 * 256 + b 32
  mixRevolutions : 10 ≤ b 35 ∧ b 35 ≤ 60
  spinnerLimit : 2 ≤ b 36 ∧ b 36 ≤ 30
  gel : ∀ band, band < 8 → 10 ≤ b (37 + 4 * band) * 256 + b (38 + 4 * band)
    ∧ b (37 + 4 * band) * 256 + b (38 + 4 * band) ≤ 900 ∧ 10 ≤ b (39 + 4 * band) * 256 + b (40 + 4 * band)
    ∧ b (39 + 4 * band) * 256 + b (40 + 4 * band) ≤ 900

/-! ### The fields of a reply -/

/-- A field of so many bytes, high byte first (12 R200). -/
def fieldBytes (width value : Nat) : List Byte :=
  (List.range width).map fun i => BitVec.ofNat 8 (value / 256 ^ (width - 1 - i))

/-- The bytes of a run of fields in their order, each given by its width in bytes and its value (12 R204); a value that its
field cannot hold stands there modulo the field (log 19). -/
def layout (fields : List (Nat × Nat)) : List Byte := fields.flatMap fun f => fieldBytes f.1 f.2

/-- An item that may be absent: its mark, then the item, 0 where it is absent (12 R200). -/
def markedField (width : Nat) (item : Option Nat) : List (Nat × Nat) := [(1, item.isSome.toNat), (width, item.getD 0)]

/-- The value of a set of members, the first at bit 0 (12 R200). -/
def memberSet (members : List Bool) : Nat := (members.zipIdx.map fun m => m.1.toNat * 2 ^ m.2).sum

end Sys2Proof.Machine
end

