-- ==== Sys2Proof/WellFormed.lean ====
section
/-! DEFINITION. What makes a command's operands those of an event the part can meet. -/

namespace Sys2Proof

/-- A frame as the line can carry it: its length field has six bits (09 R140). -/
def LinkFrame.WellFormed (f : LinkFrame) : Bool := f.payload.length < 64

/-- A transaction long enough for a command frame of so many bytes (11 R178, R179, 12 R204). -/
def Transaction.carries (host : Transaction) (bytes : Nat) : Bool := (Transaction.ofBytes bytes).clocks ≤ host.clocks

/-- The check of a command's operands. Values that a rule refuses by a status (BAD_ARG) are well formed: the refusal is
the command's meaning. -/
def Instr.WellFormed : Instr → Bool
  | .powerOn _ => true
  | .resetLine => true
  | .resetNRise _ => true
  -- at least one bit period of SRX: a record may come in parts (02 R29)
  | .sampleRecord bits => 1 ≤ bits.length
  | .linkDeadlineExpiry => true
  | .rotPulse => true
  | .pulseDeadlineExpiry => true
  | .canopySetFall => true
  | .valveReadyRise => true
  | .valveReadyFall => true
  | .strokeDone => true
  -- a host command's transaction carries its whole frame; a bad one at least a whole byte (11 R179, 12 R204)
  | .fetch host => host.carries 1
  | .badFrame host => host.carries 1
  -- the argument length of CONFIGURE is 69 (12 R204)
  | .configure record host => record.length == 69 && host.carries 72
  | .startHole _ _ _ _ host => host.carries 7
  | .abort _ host => host.carries 3
  | .resume _ host => host.carries 3
  | .proceed _ host => host.carries 3
  | .abandon host => host.carries 3
  | .readState host => host.carries 3
  | .readAttention host => host.carries 3
  | .serviceDone host => host.carries 3
  | .setWatch _ _ _ host => host.carries 6
  | .readSensors host => host.carries 3
  | .unlatch host => host.carries 3
  | .readFlow host => host.carries 3
  | .readNeighbours _ host => host.carries 4
  | .readLink host => host.carries 3
  | .selectHole _ host => host.carries 5
  | .readCells _ _ host => host.carries 5
  | .collarTimerExpiry => true
  | .retractTimerExpiry => true
  | .stallWindowExpiry => true
  | .strokeTimerExpiry => true
  | .strokeGapExpiry => true
  | .mixDeadlineExpiry => true
  | .holdDeadlineExpiry => true
  | .torqueTimerExpiry => true
  | .releaseDeadlineExpiry => true
  | .demandScheduleExpiry => true
  -- peer entries are of stations 0..5 (08 R118)
  | .staleDeadlineExpiry station => station < 6
  | .removalDeadlineExpiry station => station < 6
  -- from one bit period to a whole frame, the largest of which has 533 bits (09 R140)
  | .demandFrameReceived bits => 1 ≤ bits.length && bits.length ≤ 533
  | .holeFrameReceived bits => 1 ≤ bits.length && bits.length ≤ 533
  | .seekingComplete => true
  | .frameStart _ => true
  | .frameSent => true
  -- the kind field is bits 1-3 and the station field bits 4-6 (09 R151, 12 R203)
  | .arbitrationLost bit => 1 ≤ bit && bit ≤ 6
  -- the longest frame the part sends has 333 bits (09 R140)
  | .transmitFault bit => bit < 333
  | .duplicateOverridden bit => 7 ≤ bit && bit < 333
  | .setpointRecordEnd => true
  | .timebaseTick => true

end Sys2Proof
end

