-- ==== Sys2Proof/Certificates/Slice0/Obligations.lean ====
section
/-! DEFINITION. The statements for the provers. -/

open Sys2Proof Sys2Proof.Machine

/-! ### The queue, the starting events and the hold -/

/-- A step runs the command at the front of the queue on the state with the queue's rest, and on an empty queue the part
idles: the model's own choice (log 1). -/
def Obligations.StepRunsTheFrontCommand : Prop :=
  (∀ (c : Instr) (rest : List Instr) (s : State), s.pending = c :: rest → step s = exec c { s with pending := rest })
    ∧ ∀ s : State, s.pending = [] → step s = .next s

/-- Every command, with any operands and in any state, ends in a next state, and no command touches the queue (log 1,
log 18). -/
def Obligations.EveryCommandCompletesAndKeepsTheQueue : Prop :=
  ∀ (c : Instr) (s : State), ∃ t, exec c s = .next t ∧ t.pending = s.pending

/-- A part held by RESET_N takes no event but a starting event, the rise of RESET_N and the tick (11 R187, 01 R1). Nor is a
transaction taken that a starting event cut or that began in the hold: the reply buffer and all else stay, but for the level of
CANOPY_SET that came with it (11 R180, R187; log 24, log 27). -/
def Obligations.HeldPartTakesNoEvent : Prop :=
  (∀ (c : Instr) (s : State), s.resetHeld = true → (∀ l, c ≠ .powerOn l) → c ≠ .resetLine → (∀ l, c ≠ .resetNRise l) →
      c ≠ .timebaseTick → exec c s = .next s)
    ∧ ∀ (c : Instr) (host : Transaction) (s : State), c.transaction = some host → host.cut = true → s.resetHeld = false →
      exec c s = .next { s with canopySet := s.canopySet || c.canopyRise }

/-- POWER_ON gives every block its power-on value, LTX recessive at once, empties the ring, starts the timebase at 0, samples
the pins, sets the interlock by VALVE_READY and puts the zero record with sequence 0 on VTX (11 R186, 09 R161, 10 R169, 08
R130, R134). State.reset is what it leaves with both pins low: the model's own choice of levels (log 6). That it ends a hold,
with RESET_N taken as high, is the model's choice too (log 28). -/
def Obligations.PowerOnSetsEveryBlock : Prop :=
  exec (.powerOn ⟨false, false⟩) State.reset = .next State.reset
    ∧ ∀ (levels : InputLevels) (s : State), ∃ t, exec (.powerOn levels) s = .next t
    ∧ StartingValues t ∧ t.cycle.timebase = 0 ∧ t.cycle.holeNumber = none
    ∧ t.history.records = [] ∧ t.history.free = 1024
    ∧ InterlockStarts levels.valveReady 0 t
    ∧ t.flow.lastSent = some ⟨0, ⟨.forward, 0, 0, 0⟩⟩ ∧ t.flow.onLine = true ∧ t.flow.sequence = 1
    ∧ t.resetHeld = false ∧ t.canopySet = levels.canopySet ∧ t.valveReady = levels.valveReady

/-- RESET_LINE holds the part, gives every block its reset-line value, keeps the timebase, the last hole number and the
ring, and cuts an OPEN record ABORTED with RESET_CUT, returning its unused cells (11 R187, 10 R168, 01 R28). -/
def Obligations.ResetLineCutsTheHole : Prop :=
  ∀ s : State, ∃ t, exec .resetLine s = .next t
    ∧ StartingValues t ∧ t.resetHeld = true
    ∧ t.cycle.timebase = s.cycle.timebase ∧ t.cycle.holeNumber = s.cycle.holeNumber
    ∧ t.history.records =
        onOpen (fun r => { r with verdict := some .aborted, flags := { r.flags with resetCut := true } }) s.history.records
    ∧ t.history.free = s.history.free + unusedCells s.history.records
    ∧ t.flow.lastSent = none ∧ t.flow.onLine = false ∧ t.flow.sequence = 0 ∧ t.flow.releaseDeadline = none
    ∧ t.canopySet = s.canopySet ∧ t.valveReady = s.valveReady

/-- RESET_N_RISE ends the hold: the pins stand at their levels, the interlock starts by VALVE_READY from that moment, the
zero record with sequence 0 goes out, and nothing else changes (11 R187, 08 R130, R134). -/
def Obligations.ResetNRiseEndsTheHold : Prop :=
  ∀ (levels : InputLevels) (s : State), s.resetHeld = true → ∃ t, exec (.resetNRise levels) s = .next t
    ∧ InterlockStarts levels.valveReady s.now t
    ∧ t = { s with
        resetHeld := false, canopySet := levels.canopySet, valveReady := levels.valveReady
        flow := { s.flow with
          interlock := t.flow.interlock, releaseDeadline := t.flow.releaseDeadline
          lastSent := some ⟨0, ⟨.forward, 0, 0, 0⟩⟩, onLine := true, sequence := 1 } }

/-- TIMEBASE_TICK advances the 32-bit timebase by one, from 4,294,967,295 to 0, and changes nothing else, also while the
part is held (01 R1, 11 R187). -/
def Obligations.TimebaseTickAdvancesTheCount : Prop :=
  ∀ s : State,
    exec .timebaseTick s = .next { s with cycle := { s.cycle with timebase := s.cycle.timebase + 1 } }
      ∧ (s.cycle.timebase = 4294967295 → s.cycle.timebase + 1 = 0)

/-! ### Deadlines and timers -/

/-- The wrap-safe test of R2: an armed deadline expires first at the millisecond in which its target is reached, and a
disarmed one does not expire. A periodic deadline is re-armed to the previous target plus the least whole number of periods
that puts it in the future (01 R2, R3). -/
def Obligations.DeadlinesExpireAndKeepTheirPhase : Prop :=
  (∀ target now : Time, expired target now = false ↔ 1 ≤ (target - now).toNat ∧ (target - now).toNat ≤ 2147483647)
    ∧ (∀ (now : Time) (ms : Nat), ms < 2147483648 →
        (∀ k, k < ms → expired (after now ms) (after now k) = false) ∧ expired (after now ms) (after now ms) = true)
    ∧ (∀ now : Time, deadlineDue none now = false)
    ∧ (∀ target now : Time, deadlineDue (some target) now = expired target now)
    ∧ (∀ (target now : Time) (period : Nat), 0 < period → period < 2147483648 → expired target now = true →
        ∃ k, 1 ≤ k ∧ rearmPeriodic target now period = after target (period * k)
          ∧ expired (rearmPeriodic target now period) now = false
          ∧ ∀ j, 1 ≤ j → j < k → expired (after target (period * j)) now = true)

/-- A pausable timer keeps its deadline minus the timebase when it pauses, is armed at the timebase plus its remainder when
it runs, does not expire while paused, and loses no time in a pause within one millisecond (01 R4). -/
def Obligations.PausableTimerKeepsItsRemainder : Prop :=
  (∀ d now : Time, expired d now = false → (Timer.running d).pause now = .paused (d - now).toNat)
    ∧ (∀ (left : Nat) (now : Time), (Timer.paused left).run now = .running (after now left))
    ∧ (∀ (left : Nat) (now : Time), (Timer.paused left).due now = false)
    ∧ (∀ d now : Time, expired d now = false → ((Timer.running d).pause now).run now = .running d)

/-! ### Sample records and pulses -/

/-- A whole good record that finds the port hunting replaces the last sample with its clamped fields, arms the link deadline 20
ms on, sets the live members and the latch; in a state where no block takes the sample nothing else changes (02 R29, R30, R31,
R34). How a byte stands on SRX is the model's reading (log 29). -/
def Obligations.GoodRecordIsStored : Prop :=
  ∀ (s : State) (bytes : List SrxByte) (raw : Sample), s.resetHeld = false → Hunting s bytes →
    goodRecord bytes = true → rawSample (bytes.map SrxByte.value) = some raw →
    ∃ t, exec (.sampleRecord (srxLine bytes)) s = .next t ∧ RecordTaken s raw t
      ∧ (s.cycle.state ≠ .active .collar → s.cycle.state ≠ .active .drill → s.cycle.state ≠ .active .retract →
          s.cycle.state ≠ .active .torque → t = { s with sensor := t.sensor })

/-- The port takes the bit periods of SRX in order: a start bit, eight data bits and a stop bit make a byte; while hunting only
a sync byte starts a record, a further byte less than 461 bit periods after the one before joins it, a low stop bit or the 461st
bit period of a gap discards it, and a twelfth byte with a sum other than 0 leaves nothing; no discarded record has another
effect (02 R29). The order of the data bits and the wait for a high level after a low stop bit are the model's (log 29). -/
def Obligations.RecordsAreAssembledByteByByte : Prop :=
  (∀ s : State, s.resetHeld = false →
      let left := fun (receiver : SrxReceiver) (gap : Nat) (bytes : List Byte) =>
        (.next { s with sensor := { s.sensor with receiver := receiver, gap := gap, assembly := bytes } } :
          Host.Outcome State Fault Refusal)
      (s.sensor.receiver = .idle →
          (∀ b : SrxByte,
              (b.stopHigh = false → exec (.sampleRecord (srxLine [b])) s = left .low 0 [])
                ∧ (b.stopHigh = true → Hunting s [b] →
                    exec (.sampleRecord (srxLine [b])) s = left .idle 0 (if b.value = 165 then [165] else []))
                ∧ (b.stopHigh = true → s.sensor.assembly ≠ [] → s.sensor.gap + b.gap < 461 →
                    (s.sensor.assembly.length ≠ 11 →
                        exec (.sampleRecord (srxLine [b])) s = left .idle 0 (s.sensor.assembly ++ [b.value]))
                      ∧ (s.sensor.assembly.length = 11 → byteSum (s.sensor.assembly ++ [b.value]) ≠ 0 →
                          exec (.sampleRecord (srxLine [b])) s = left .idle 0 [])))
            ∧ (∀ n, (s.sensor.assembly = [] → exec (.sampleRecord (List.replicate n true)) s = .next s)
                ∧ (s.sensor.assembly ≠ [] → s.sensor.gap + n < 461 →
                    exec (.sampleRecord (List.replicate n true)) s = left .idle (s.sensor.gap + n) s.sensor.assembly)
                ∧ (s.sensor.assembly ≠ [] → s.sensor.gap < 461 → 461 ≤ s.sensor.gap + n →
                    exec (.sampleRecord (List.replicate n true)) s = left .idle 0 []))
            ∧ (∀ data : List Bool, data.length ≤ 8 →
                exec (.sampleRecord (false :: data)) s = left (.byte data) 0 s.sensor.assembly))
        ∧ (s.sensor.receiver = .low →
            (∀ n, exec (.sampleRecord (List.replicate n false)) s = .next s)
              ∧ exec (.sampleRecord [true]) s = left .idle s.sensor.gap s.sensor.assembly))
    ∧ (∀ (s t : State) (first rest : List Bool), exec (.sampleRecord first) s = .next t →
        exec (.sampleRecord (first ++ rest)) s = exec (.sampleRecord rest) t)
    ∧ (∀ (s : State) (bytes : List SrxByte), s.resetHeld = false → Hunting s bytes → bytes.length = 12 →
        (∀ b ∈ bytes, b.stopHigh = true) → (∀ b ∈ bytes.tail, b.gap < 461) →
        (bytes.map SrxByte.value).head? = some 165 → byteSum (bytes.map SrxByte.value) ≠ 0 →
        exec (.sampleRecord (srxLine bytes)) s =
          .next { s with sensor := { s.sensor with gap := 0, assembly := [] } })

/-- ROT_PULSE arms the pulse deadline 500 ms on and makes PULSE_ACTIVE true, which is a change for the latch; in MIX it raises
the quarter-rev count and writes it into the record, in TORQUE it raises the spinner count, and elsewhere it goes to no
counter (02 R33, R34, 06 R97, 07 R108). Below the counts' limits the cycle state stays. -/
def Obligations.PulseIsCounted : Prop :=
  ∀ s : State, s.resetHeld = false → ∃ t, exec .rotPulse s = .next t
    ∧ t.sensor.pulseDeadline = some (after s.now 500) ∧ t.sensor.live = { s.sensor.live with pulseActive := true }
    ∧ t.sensor.linkDeadline = s.sensor.linkDeadline ∧ t.sensor.last = s.sensor.last
    ∧ (s.sensor.latched = false → s.sensor.live.pulseActive = false →
        t.sensor.latched = true ∧ t.sensor.readMark = false ∧ t.sensor.snapshot = t.sensor.live)
    ∧ (s.sensor.latched = true ∨ s.sensor.live.pulseActive = true → t.sensor.latched = s.sensor.latched
        ∧ t.sensor.readMark = s.sensor.readMark ∧ t.sensor.snapshot = s.sensor.snapshot)
    ∧ (s.cycle.state ≠ .active .mix → s.cycle.state ≠ .active .torque → t = { s with sensor := t.sensor })
    ∧ (s.cycle.state = .active .mix → CycleFrame s t ∧ t.resin.quarterRevs = s.resin.quarterRevs + 1
        ∧ t.history.records =
            onOpen (fun r => { r with quarterRevs := some (s.resin.quarterRevs + 1) }) s.history.records
        ∧ t.torque.spinner = s.torque.spinner
        ∧ (s.resin.quarterRevs + 1 < 4 * s.cfg.mixRevolutions → t.cycle.state = .active .mix
            ∧ t.resin.mixDeadline = s.resin.mixDeadline)
        ∧ (4 * s.cfg.mixRevolutions ≤ s.resin.quarterRevs + 1 → t.cycle.state = .active .hold
            ∧ t.resin.mixDeadline = none
            ∧ t.resin.holdDeadline = some (after s.now (holdTimeMs s.cfg (s.resin.band.getD 0)))
            ∧ FlowFollows t ∧ NoticePlaced t))
    ∧ (s.cycle.state = .active .torque → CycleFrame s t ∧ t.torque.spinner = s.torque.spinner + 1
        ∧ t.resin.quarterRevs = s.resin.quarterRevs
        ∧ (s.torque.spinner + 1 < 4 * s.cfg.spinnerLimit → t.cycle.state = .active .torque ∧ t.history = s.history)
        ∧ (4 * s.cfg.spinnerLimit ≤ s.torque.spinner + 1 → Completed s s.history.records .spinner t ∧ NoticePlaced t))

/-- PULSE_DEADLINE_EXPIRY turns PULSE_ACTIVE false and disarms the deadline, which is a change for the latch; before its
time it is no event (02 R33, R34; log 3). -/
def Obligations.PulseDeadlineExpiryEndsPulseActive : Prop :=
  ∀ s : State, s.resetHeld = false →
    (deadlineDue s.sensor.pulseDeadline s.now = false → exec .pulseDeadlineExpiry s = .next s)
      ∧ (deadlineDue s.sensor.pulseDeadline s.now = true → ∃ t, exec .pulseDeadlineExpiry s = .next t
          ∧ t.sensor.live = { s.sensor.live with pulseActive := false } ∧ t.sensor.pulseDeadline = none
          ∧ (s.sensor.latched = false → s.sensor.live.pulseActive = true →
              t.sensor.latched = true ∧ t.sensor.readMark = false ∧ t.sensor.snapshot = t.sensor.live)
          ∧ (s.sensor.latched = true → t.sensor.snapshot = s.sensor.snapshot ∧ t.sensor.latched = true
              ∧ t.sensor.readMark = s.sensor.readMark)
          ∧ t = { s with sensor := { t.sensor with
              assembly := s.sensor.assembly, last := s.sensor.last, linkDeadline := s.sensor.linkDeadline } })

/-- LINK_DEADLINE_EXPIRY turns LINK_UP false, disarms the deadline, queues SENSOR_LOST and taints a cell in assembly; it
suspends a phase that needs the samples and no other; before its time it is no event (02 R32, R44, 01 R18; log 3). -/
def Obligations.LinkDeadlineExpiryDropsTheLink : Prop :=
  ∀ s : State, s.resetHeld = false →
    (deadlineDue s.sensor.linkDeadline s.now = false → exec .linkDeadlineExpiry s = .next s)
      ∧ (CycleSound s → deadlineDue s.sensor.linkDeadline s.now = true → ∃ t, exec .linkDeadlineExpiry s = .next t
          ∧ CycleFrame s t
          ∧ t.sensor.live = { s.sensor.live with linkUp := false } ∧ t.sensor.linkDeadline = none
          ∧ (s.sensor.latched = false → s.sensor.live.linkUp = true →
              t.sensor.latched = true ∧ t.sensor.readMark = false ∧ t.sensor.snapshot = t.sensor.live)
          ∧ (s.sensor.latched = true → t.sensor.latched = true ∧ t.sensor.readMark = s.sensor.readMark
              ∧ t.sensor.snapshot = s.sensor.snapshot)
          ∧ t.host.faults = joinFault .sensorLost s.host.faults
          ∧ t.assembler.cell = s.assembler.cell ∧ t.assembler.maxDepth = s.assembler.maxDepth
          ∧ (s.assembler.cell.isSome = true → t.assembler.n = 0 ∧ t.assembler.rotary = 0 ∧ t.assembler.thrust = 0
              ∧ t.assembler.capped = false ∧ t.assembler.tainted = true)
          ∧ (s.assembler.cell = none → t.assembler.tainted = s.assembler.tainted)
          ∧ (∀ p, s.cycle.state = .active p → p.needsLink = true →
              Suspended s p .sensor t ∧ NoticePlaced t ∧ t.torque.spinner = s.torque.spinner
                ∧ t.torque.peak = s.torque.peak)
          ∧ ((∀ p, s.cycle.state = .active p → p.needsLink = false) →
              t.cycle.state = s.cycle.state ∧ t.history = s.history))

/-! ### Drilling -/

/-- A sample placed in the cell in assembly raises the maximum depth and is accumulated, unless the cell is CAPPED, and
appends nothing; a COLLAR sample that takes the maximum depth to 600 ends COLLAR. The stall window starts with its full 2,000
ms at the entry to DRILL and at a maximum depth of the reference plus 10 or more, and no other such sample touches it (02 R39,
R45, 01 R10). A sample that crosses a boundary is CrossingClosesCells. -/
def Obligations.SampleIsAccumulated : Prop :=
  ∀ (s : State) (bytes : List SrxByte) (raw : Sample) (k : Nat), s.resetHeld = false → Hunting s bytes →
    goodRecord bytes = true → rawSample (bytes.map SrxByte.value) = some raw →
    (s.cycle.state = .active .collar ∨ s.cycle.state = .active .drill) → s.assembler.cell = some k →
    raw.clamp.feed < (k + 1) * 200 → raw.clamp.feed < s.cycle.planned * 200 →
    s.assembler.maxDepth < s.cycle.planned * 200 →
    ∃ t, exec (.sampleRecord (srxLine bytes)) s = .next t ∧ CycleFrame s t ∧ t.history = s.history
      ∧ t.assembler.cell = some k ∧ t.assembler.maxDepth = max s.assembler.maxDepth raw.clamp.feed
      ∧ t.assembler.tainted = s.assembler.tainted
      ∧ t.assembler.voidCell = s.assembler.voidCell ∧ t.assembler.softCell = s.assembler.softCell
      ∧ t.assembler.hardCell = s.assembler.hardCell
      ∧ (s.assembler.capped = true → t.assembler.n = s.assembler.n ∧ t.assembler.rotary = s.assembler.rotary
          ∧ t.assembler.thrust = s.assembler.thrust ∧ t.assembler.capped = true)
      ∧ (s.assembler.capped = false → t.assembler.n = s.assembler.n + 1
          ∧ t.assembler.rotary = s.assembler.rotary + raw.clamp.torque * raw.clamp.speed
          ∧ t.assembler.thrust = s.assembler.thrust + raw.clamp.thrust
          ∧ t.assembler.capped = decide (s.assembler.n + 1 = 4095))
      ∧ (s.cycle.state = .active .collar → max s.assembler.maxDepth raw.clamp.feed < 600 →
          t.cycle.state = .active .collar
            ∧ (FlowSound s → TimersSound s → t.cycle.collarTimer = s.cycle.collarTimer))
      ∧ (s.cycle.state = .active .collar → 600 ≤ max s.assembler.maxDepth raw.clamp.feed →
          t.cycle.state = .active .drill ∧ t.cycle.collarTimer = .disarmed
            ∧ t.assembler.stallRef = t.assembler.maxDepth
            ∧ t.assembler.stallWindow = (if t.cycle.held then .paused 2000 else .running (after s.now 2000))
            ∧ FlowFollows t ∧ NoticePlaced t)
      ∧ (s.cycle.state = .active .drill → t.cycle.state = .active .drill)
      ∧ (s.cycle.state = .active .drill → s.assembler.stallRef + 10 ≤ max s.assembler.maxDepth raw.clamp.feed →
          t.assembler.stallRef = max s.assembler.maxDepth raw.clamp.feed
            ∧ t.assembler.stallWindow = (if t.cycle.held then .paused 2000 else .running (after s.now 2000)))
      ∧ (s.cycle.state = .active .drill → max s.assembler.maxDepth raw.clamp.feed < s.assembler.stallRef + 10 →
          t.assembler.stallRef = s.assembler.stallRef
            ∧ (FlowSound s → TimersSound s → t.assembler.stallWindow = s.assembler.stallWindow))

/-- A sample beyond the cell's boundary closes the cell and the jumped cells, appends them to the OPEN record in rising
order, gives the watch inputs the class of the last, and opens the new cell with the sample. A COLLAR sample that takes the
maximum depth to 600 ends COLLAR, and one below it leaves COLLAR and its timer. The stall window starts with its full 2,000 ms
at the entry to DRILL and at a maximum depth of the reference plus 10 or more; a DRILL sample below that leaves it, and DRILL
stays DRILL (02 R40, R41, R45, 01 R10). -/
def Obligations.CrossingClosesCells : Prop :=
  ∀ (s : State) (bytes : List SrxByte) (raw : Sample) (k j : Nat), s.resetHeld = false → Hunting s bytes →
    goodRecord bytes = true → rawSample (bytes.map SrxByte.value) = some raw →
    (s.cycle.state = .active .collar ∨ s.cycle.state = .active .drill) → s.assembler.cell = some k →
    j = raw.clamp.feed / 200 → k < j → j < s.cycle.planned → s.assembler.maxDepth < s.cycle.planned * 200 →
    (∀ r ∈ s.history.records, r.isOpen = true → r.cells.length = k ∧ r.planned = s.cycle.planned) →
    ∃ t, exec (.sampleRecord (srxLine bytes)) s = .next t ∧ CycleFrame s t
      ∧ t.history.records =
          onOpen (fun r =>
            { r with cells := r.cells ++ cellRecord s.cfg s.assembler :: List.replicate (j - k - 1) ⟨.skipped, 0, 0, 0, 0, false⟩ })
            s.history.records
      ∧ t.history.free = s.history.free
      ∧ t.assembler.cell = some j ∧ t.assembler.n = 1 ∧ t.assembler.rotary = raw.clamp.torque * raw.clamp.speed
      ∧ t.assembler.thrust = raw.clamp.thrust ∧ t.assembler.capped = false ∧ t.assembler.tainted = false
      ∧ t.assembler.maxDepth = max s.assembler.maxDepth raw.clamp.feed
      ∧ (t.assembler.voidCell, t.assembler.softCell, t.assembler.hardCell) =
          (if j = k + 1 then
            ((cellRecord s.cfg s.assembler).cls == .void, (cellRecord s.cfg s.assembler).cls == .soft,
              (cellRecord s.cfg s.assembler).cls == .hard)
          else (false, false, false))
      ∧ FlowFollows t
      ∧ (s.cycle.state = .active .collar → max s.assembler.maxDepth raw.clamp.feed < 600 →
          t.cycle.state = .active .collar
            ∧ (FlowSound s → TimersSound s → t.cycle.collarTimer = s.cycle.collarTimer))
      ∧ (s.cycle.state = .active .collar → 600 ≤ max s.assembler.maxDepth raw.clamp.feed →
          t.cycle.state = .active .drill ∧ t.cycle.collarTimer = .disarmed
            ∧ t.assembler.stallRef = t.assembler.maxDepth
            ∧ t.assembler.stallWindow = (if t.cycle.held then .paused 2000 else .running (after s.now 2000))
            ∧ NoticePlaced t)
      ∧ (s.cycle.state = .active .drill → t.cycle.state = .active .drill)
      ∧ (s.cycle.state = .active .drill → s.assembler.stallRef + 10 ≤ max s.assembler.maxDepth raw.clamp.feed →
          t.assembler.stallRef = max s.assembler.maxDepth raw.clamp.feed
            ∧ t.assembler.stallWindow = (if t.cycle.held then .paused 2000 else .running (after s.now 2000)))
      ∧ (s.cycle.state = .active .drill → max s.assembler.maxDepth raw.clamp.feed < s.assembler.stallRef + 10 →
          t.assembler.stallRef = s.assembler.stallRef
            ∧ (FlowSound s → TimersSound s → t.assembler.stallWindow = s.assembler.stallWindow))

/-- A sample at or beyond the planned depth closes the last cells up to it, runs the anchor evaluation on them, writes its
results into the OPEN record and moves the state to RETRACT with no pending verdict set (01 R11, 02 R42, 05 R75, R82). -/
def Obligations.PlannedDepthEndsDrilling : Prop :=
  ∀ (s : State) (bytes : List SrxByte) (raw : Sample) (k : Nat) (r : HoleRecord), s.resetHeld = false →
    Hunting s bytes → goodRecord bytes = true → rawSample (bytes.map SrxByte.value) = some raw →
    (s.cycle.state = .active .collar ∨ s.cycle.state = .active .drill) → s.assembler.cell = some k →
    k < s.cycle.planned → 30 ≤ s.cycle.planned → s.cycle.planned * 200 ≤ raw.clamp.feed →
    s.history.records.filter HoleRecord.isOpen = [r] → r.cells.length = k → r.planned = s.cycle.planned →
    ∃ (t : State) (cells : List CellRecord) (e : AnchorBlock), exec (.sampleRecord (srxLine bytes)) s = .next t ∧ CycleFrame s t
      ∧ cells = r.cells ++ cellRecord s.cfg s.assembler ::
          List.replicate (s.cycle.planned - k - 1) ⟨.skipped, 0, 0, 0, 0, false⟩
      ∧ cells.length = s.cycle.planned ∧ e = evaluation s.cfg s.cycle.planned cells
      ∧ t.cycle.state = .active .retract ∧ t.cycle.pendingVerdict = s.cycle.pendingVerdict
      ∧ t.cycle.retractTimer = (if t.cycle.held then .paused 20000 else .running (after s.now 20000))
      ∧ t.cycle.collarTimer = .disarmed ∧ t.assembler.cell = none ∧ t.assembler.stallWindow = .disarmed
      ∧ t.anchor = e
      ∧ t.history.records =
          onOpen (fun q => { q with
            cells := cells, outcome := e.outcome, voidCount := e.voidCount, softCount := e.softCount
            hardCount := e.hardCount, charge := e.charge, target := e.target
            flags := { q.flags with
              extraCharge := q.flags.extraCharge || (e.outcome == .charge && decide (s.cfg.extraVoid ≤ e.voidCount))
              softTarget := q.flags.softTarget || (e.outcome == .charge && decide (30 ≤ e.softCount * 2))
              lostCells := q.flags.lostCells || cells.any fun c => c.cls == .lost } })
            s.history.records
      ∧ FlowFollows t ∧ NoticePlaced t

/-- The class of a closing cell is the first entry of R55's table that applies, at R56's exact thresholds. The cell record
carries that class on the cell's own figures with n, the energy, the specific energy, the mean thrust and CAPPED, all 0 and
clear for a cell without samples (R49 to R53, R57, R58). -/
def Obligations.CellClassFollowsTheTable : Prop :=
  (∀ (c : Configuration) (tainted : Bool) (n se mean : Nat),
    (tainted = true → cellClass c tainted n se mean = .lost)
      ∧ (tainted = false → n = 0 → cellClass c tainted n se mean = .skipped)
      ∧ (tainted = false → 0 < n → n ≤ c.voidN → mean < c.voidThrust → cellClass c tainted n se mean = .void)
      ∧ (tainted = false → 0 < n → ¬(n ≤ c.voidN ∧ mean < c.voidThrust) →
          (se < c.softThreshold → cellClass c tainted n se mean = .soft)
            ∧ (c.softThreshold ≤ se → c.hardThreshold ≤ se → cellClass c tainted n se mean = .hard)
            ∧ (c.softThreshold ≤ se → se < c.hardThreshold → cellClass c tainted n se mean = .medium)))
    ∧ ∀ (c : Configuration) (a : AssemblerBlock),
      (a.n = 0 → cellRecord c a = ⟨if a.tainted then .lost else .skipped, 0, 0, 0, 0, false⟩)
        ∧ (0 < a.n → ∀ energy se mean : Nat,
            energy = (a.rotary * 3514 + 8388608) / 16777216 + (4 * a.thrust + a.n) / (2 * a.n) →
            se = (energy * (match c.bitSize with | .mm27 => 57231 | .mm35 => 34058) + 32768) / 65536 →
            mean = a.thrust / a.n →
            cellRecord c a = ⟨cellClass c a.tainted a.n se mean, a.n, energy, se, mean, a.capped⟩)

/-- The energy unit's intermediates stay below 2^48 and its results within R54's table, for every cell the assembler can
close with a sample. -/
def Obligations.EnergyFiguresStayInRange : Prop :=
  ∀ (n rotary thrust : Nat), 1 ≤ n → n ≤ 4095 → rotary ≤ n * (1023 * 1023) → thrust ≤ n * 600 →
    rotary ≤ 4285536255 ∧ rotary * 3514 + 8388608 ≤ 15059382788678 ∧ rotaryEnergy rotary ≤ 897609
      ∧ thrust ≤ 2457000 ∧ 4 * thrust + n ≤ 9832095 ∧ thrustEnergy thrust n ≤ 1200
      ∧ rotaryEnergy rotary + thrustEnergy thrust n ≤ 898809
      ∧ (rotaryEnergy rotary + thrustEnergy thrust n) * 57231 + 32768 ≤ 51439770647
      ∧ (rotaryEnergy rotary + thrustEnergy thrust n) * 34058 + 32768 ≤ 30611669690
      ∧ specificEnergyOf .mm27 (rotaryEnergy rotary + thrustEnergy thrust n) ≤ 784908
      ∧ specificEnergyOf .mm35 (rotaryEnergy rotary + thrustEnergy thrust n) ≤ 467097
      ∧ thrust / n ≤ 600 ∧ (15059382788678 : Nat) < 281474976710656

/-- The anchor counts are taken over the 30 deepest planned cells and sum to at most 30, and the outcome, the charge and
the target follow them (05 R76 to R80). -/
def Obligations.EvaluationFollowsTheCounts : Prop :=
  ∀ (c : Configuration) (planned : Nat) (cells : List CellRecord), 30 ≤ planned → cells.length = planned →
    let e := evaluation c planned cells
    let zone := cells.drop (planned - 30)
    zone.length = 30
      ∧ e.voidCount = (zone.filter fun x => x.cls == .void || x.cls == .skipped).length
      ∧ e.softCount = (zone.filter fun x => x.cls == .soft || x.cls == .lost).length
      ∧ e.hardCount = (zone.filter fun x => x.cls == .hard).length
      ∧ e.voidCount + e.softCount + e.hardCount ≤ 30
      ∧ (c.rejectVoid ≤ e.voidCount → e.outcome = .reject ∧ e.charge = none ∧ e.target = none)
      ∧ (e.voidCount < c.rejectVoid → e.outcome = .charge
          ∧ e.charge = some (if c.extraVoid ≤ e.voidCount then c.baseCartridges + 1 else c.baseCartridges)
          ∧ e.target = some (if 15 ≤ e.softCount then c.softTarget else c.normalTarget))
      ∧ (c.inRange = true → ∀ n, e.charge = some n → 1 ≤ n ∧ n ≤ 3)

/-- The first good sample of RETRACT with a feed position below 100 ends it, by the pending verdict and then the
evaluation; another sample does not. INSERT starts its first stroke at the entry unless it is HELD (01 R12, R13, R14, 06 R87,
R88). -/
def Obligations.RetractEndsBelowOneHundred : Prop :=
  ∀ (s : State) (bytes : List SrxByte) (raw : Sample), s.resetHeld = false → Hunting s bytes →
    goodRecord bytes = true → rawSample (bytes.map SrxByte.value) = some raw → s.cycle.state = .active .retract →
    s.resin.stroke ≠ .inProgress →
    ∃ t, exec (.sampleRecord (srxLine bytes)) s = .next t ∧ RecordTaken s raw t ∧ CycleFrame s t
      ∧ (100 ≤ raw.clamp.feed → t = { s with sensor := t.sensor })
      ∧ (raw.clamp.feed < 100 → t.cycle.retractTimer = .disarmed ∧ NoticePlaced t)
      ∧ (raw.clamp.feed < 100 → s.cycle.pendingVerdict = some .short → Completed s s.history.records .short t)
      ∧ (raw.clamp.feed < 100 → s.cycle.pendingVerdict = some .aborted → Completed s s.history.records .aborted t)
      ∧ (raw.clamp.feed < 100 → s.cycle.pendingVerdict = none → s.anchor.outcome = .reject →
          t.cycle.state = .decide ∧ t.host.raised.decide = true ∧ AtRest t ∧ t.history = s.history)
      ∧ (raw.clamp.feed < 100 → s.cycle.pendingVerdict = none → s.anchor.outcome ≠ .reject →
          t.cycle.state = .active .insert ∧ t.resin.charge = s.anchor.charge ∧ t.resin.pushed = 0
            ∧ t.resin.retry = false ∧ t.resin.gap = none ∧ FlowFollows t ∧ t.history = s.history
            ∧ (0 < s.anchor.charge.getD 0 → s.cycle.abortPending = false → FirstStroke s t))

/-- COLLAR_TIMER_EXPIRY in COLLAR and STALL_WINDOW_EXPIRY in DRILL queue their fault, set SHORT, end the assembly short of
the planned depth and move the state to RETRACT; otherwise they are no event (01 R10, R11, 02 R43, R46; log 3). -/
def Obligations.DrillingTimeoutsEndShort : Prop :=
  ∀ (c : Instr) (p : Phase) (timer : Timer) (code : FaultCode) (s : State), s.resetHeld = false →
    (c, p, timer, code) ∈ [(Instr.collarTimerExpiry, Phase.collar, s.cycle.collarTimer, FaultCode.collarTimeout),
      (.stallWindowExpiry, .drill, s.assembler.stallWindow, .stall)] →
    (¬(s.cycle.state = .active p ∧ timer.due s.now = true) → exec c s = .next s)
      ∧ (CycleSound s → s.cycle.state = .active p → timer.due s.now = true → ∃ t, exec c s = .next t ∧ CycleFrame s t
          ∧ t.cycle.state = .active .retract ∧ t.host.faults = joinFault code s.host.faults
          ∧ t.cycle.pendingVerdict = (if s.cycle.pendingVerdict = some .aborted then some .aborted else some .short)
          ∧ t.cycle.retractTimer = (if t.cycle.held then .paused 20000 else .running (after s.now 20000))
          ∧ t.cycle.collarTimer = .disarmed ∧ t.assembler.stallWindow = .disarmed ∧ t.assembler.cell = none
          ∧ t.assembler.maxDepth = s.assembler.maxDepth ∧ t.anchor = s.anchor ∧ t.neighbours.nearVoid = false
          ∧ t.history.free = s.history.free
          ∧ (∀ r ∈ s.history.records, r.isOpen = true → r.cells.length < r.planned →
              { r with
                cells := r.cells ++
                  (if s.assembler.cell.isSome = true ∧ (0 < s.assembler.n ∨ s.assembler.tainted = true) then
                    [cellRecord s.cfg s.assembler] else [])
                flags := { r.flags with
                  lostCells := r.flags.lostCells || (r.cells ++
                    (if s.assembler.cell.isSome = true ∧ (0 < s.assembler.n ∨ s.assembler.tainted = true) then
                      [cellRecord s.cfg s.assembler] else [])).any fun x => x.cls == .lost } } ∈ t.history.records)
          ∧ FlowFollows t ∧ NoticePlaced t)

/-- RETRACT_TIMER_EXPIRY in RETRACT queues RETRACT_STUCK and suspends the phase with cause STUCK, the timer left with a
remainder of zero; TORQUE_TIMER_EXPIRY in TORQUE completes the hole TORQUE_TIMEOUT; a paused timer, or one outside its phase,
is no event (01 R12, R17, 07 R109; log 3). -/
def Obligations.RetractAndTorqueTimeoutsAct : Prop :=
  (∀ s : State, s.resetHeld = false →
      (¬(s.cycle.state = .active .retract ∧ s.cycle.retractTimer.due s.now = true) →
          exec .retractTimerExpiry s = .next s)
        ∧ (CycleSound s → s.cycle.state = .active .retract → s.cycle.retractTimer.due s.now = true →
            ∃ t, exec .retractTimerExpiry s = .next t ∧ CycleFrame s t ∧ Suspended s .retract .stuck t
              ∧ t.host.faults = joinFault .retractStuck s.host.faults ∧ t.cycle.retractTimer = .paused 0
              ∧ t.cycle.pendingVerdict = s.cycle.pendingVerdict ∧ NoticePlaced t))
    ∧ (∀ s : State, s.resetHeld = false →
        (¬(s.cycle.state = .active .torque ∧ s.torque.timer.due s.now = true) → exec .torqueTimerExpiry s = .next s)
          ∧ (s.cycle.state = .active .torque → s.torque.timer.due s.now = true →
              ∃ t, exec .torqueTimerExpiry s = .next t ∧ CycleFrame s t ∧ Completed s s.history.records .torqueTimeout t
                ∧ NoticePlaced t ∧ t.torque.target = s.torque.target ∧ t.torque.spinner = s.torque.spinner
                ∧ t.torque.peak = s.torque.peak ∧ t.torque.overshoot = s.torque.overshoot))

/-! ### The input pins and the valve port -/

/-- CANOPY_SET_FALL in an active phase queues CANOPY_LOST and suspends the phase with cause CANOPY, whatever HELD is; under
the abort-pending mark it completes the hole ABORTED instead; in any other state only the level changes (01 R14, R17, R24,
06 R93, R99). -/
def Obligations.CanopyFallSuspends : Prop :=
  ∀ s : State, s.resetHeld = false → CycleSound s → s.canopySet = true →
    (∀ p, s.cycle.state = .active p → (p = .insert → s.cycle.abortPending = false) →
        ∃ t, exec .canopySetFall s = .next t ∧ t.canopySet = false ∧ Suspended s p .canopy t ∧ NoticePlaced t
          ∧ t.host.faults = joinFault .canopyLost s.host.faults
          ∧ t.resin.pushed = s.resin.pushed ∧ t.resin.retry = s.resin.retry ∧ t.resin.charge = s.resin.charge
          ∧ t.resin.quarterRevs = s.resin.quarterRevs ∧ t.torque.spinner = s.torque.spinner
          ∧ t.torque.peak = s.torque.peak ∧ t.torque.target = s.torque.target
          ∧ t.cycle.pendingVerdict = s.cycle.pendingVerdict)
      ∧ (s.cycle.state = .active .insert → s.cycle.abortPending = true →
          ∃ t, exec .canopySetFall s = .next t ∧ t.canopySet = false
            ∧ Completed s s.history.records .aborted t ∧ NoticePlaced t
            ∧ t.host.faults = joinFault .canopyLost s.host.faults ∧ t.resin.pushed = s.resin.pushed)
      ∧ (s.cycle.state.isActive = false → exec .canopySetFall s = .next { s with canopySet := false })

/-- The edges of VALVE_READY by the interlock state (08 R132): a rise in WAIT_READY makes it FLOWING and clears HELD, a fall
in FLOWING makes it WAIT_READY with FLOW_REQ high, HELD true and zero setpoints, a fall in RELEASING makes it OFF, from which
FLOW_REQ may be raised in the same event; the other edges change only the level. HELD pauses every running timer with its
deadline minus the timebase, and the timer of the phase runs on from that remainder when HELD clears (01 R4, R7). A timer past
its target pauses with 0: the model's reading (log 4). In INSERT the clearing of HELD starts a stroke that only HELD kept back,
and lets a stroke in progress run on with its remainder (06 R88, R92). At a remainder of 0 the clearing of HELD arms each of
these timers at the present timebase, with STROKE high for a stroke, and its expiry is a later event: the model's choice
(log 9). -/
def Obligations.ValveReadyDrivesTheInterlock : Prop :=
  ∀ s : State, s.resetHeld = false →
    (FlowSound s → s.valveReady = false → s.flow.interlock = .waitReady →
        ∃ t, exec .valveReadyRise s = .next t ∧ t.valveReady = true ∧ t.flow.interlock = .flowing
          ∧ t.cycle.held = false ∧ t.cycle.state = s.cycle.state ∧ FlowFollows t ∧ t.history = s.history
          ∧ (s.cycle.state = .active .insert → s.resin.stroke ≠ .inProgress → s.cycle.abortPending = false →
              s.resin.gap = none → s.resin.pushed < s.resin.charge.getD 0 →
              t.strokeOut = true ∧ (s.resin.stroke = .idle → t.resin.strokeTimer = .running (after s.now 3000))
                ∧ (∀ left, s.resin.stroke = .interrupted → s.resin.strokeTimer = .paused left →
                    t.resin.strokeTimer = .running (after s.now left)))
          ∧ (s.cycle.state ≠ .active .insert ∨ s.cycle.abortPending = true ∨ s.resin.gap.isSome = true
                ∨ s.resin.charge.getD 0 ≤ s.resin.pushed → t.resin.stroke = s.resin.stroke
              ∧ (s.cycle.state ≠ .active .insert ∨ s.resin.stroke ≠ .inProgress →
                  ∀ left, s.resin.strokeTimer = .paused left → t.resin.strokeTimer = .paused left))
          ∧ (∀ left, s.cycle.state = .active .insert → s.resin.stroke = .inProgress →
              s.resin.strokeTimer = .paused left →
              t.strokeOut = true ∧ t.resin.strokeTimer = .running (after s.now left))
          ∧ (∀ timer new phase, (timer, new, phase) ∈
                [(s.cycle.collarTimer, t.cycle.collarTimer, Phase.collar),
                  (s.cycle.retractTimer, t.cycle.retractTimer, Phase.retract),
                  (s.assembler.stallWindow, t.assembler.stallWindow, Phase.drill),
                  (s.torque.timer, t.torque.timer, Phase.torque)] →
              (∀ left, timer = .paused left →
                  new = (if s.cycle.state = .active phase then .running (after s.now left) else .paused left))
                ∧ (timer = .disarmed → new = .disarmed)))
      ∧ (s.flow.interlock ≠ .waitReady → exec .valveReadyRise s = .next { s with valveReady := true })
      ∧ (FlowSound s → s.valveReady = true → s.flow.interlock = .flowing →
          ∃ t, exec .valveReadyFall s = .next t ∧ t.valveReady = false ∧ t.flow.interlock = .waitReady
            ∧ t.flowReq = true ∧ t.cycle.held = true ∧ t.flow.setpoints = ⟨.forward, 0, 0, 0⟩
            ∧ t.cycle.state = s.cycle.state ∧ t.history = s.history ∧ t.resin.stroke = s.resin.stroke
            ∧ (∀ timer new, (timer, new) ∈
                  [(s.cycle.collarTimer, t.cycle.collarTimer), (s.cycle.retractTimer, t.cycle.retractTimer),
                    (s.assembler.stallWindow, t.assembler.stallWindow), (s.resin.strokeTimer, t.resin.strokeTimer),
                    (s.torque.timer, t.torque.timer)] →
                (∀ target, timer = .running target → expired target s.now = false →
                    new = .paused (target - s.now).toNat)
                  ∧ (∀ target, timer = .running target → expired target s.now = true → new = .paused 0)
                  ∧ (∀ left, timer = .paused left → new = .paused left)
                  ∧ (timer = .disarmed → new = .disarmed)))
      ∧ (s.valveReady = true → s.flow.interlock = .releasing →
          ∃ t, exec .valveReadyFall s = .next t ∧ t.valveReady = false ∧ t.flow.releaseDeadline = none
            ∧ t.flow.interlock = (if mayFlow t then .waitReady else .off) ∧ t.cycle.state = s.cycle.state
            ∧ FlowFollows t ∧ t.history = s.history)
      ∧ (s.valveReady = true → s.flow.interlock = .off ∨ s.flow.interlock = .waitReady →
          exec .valveReadyFall s = .next { s with valveReady := false })

/-- SETPOINT_RECORD_END frees VTX; a record with the next sequence number goes out exactly when the setpoints of that moment
differ from the record that ended, and nothing else changes. A record on VTX is 70 bit periods: its seven bytes back to back,
each a low start bit, eight data bits, no parity and a high stop bit, the check making the sum of the bytes 0 modulo 256; a VTX
without a record sends nothing (08 R128, R129, 12 R202). The order of the data bits and the high level of an idle line are the
model's (log 29). -/
def Obligations.RecordEndSendsTheLatestSetpoints : Prop :=
  (∀ s : State, s.resetHeld = false → s.flow.onLine = true →
    (s.flow.lastSent.map SetpointRecord.setpoints = some (setpointsNow s) →
        exec .setpointRecordEnd s =
          .next { s with flow := { s.flow with onLine := false, setpoints := setpointsNow s } })
      ∧ (s.flow.lastSent.map SetpointRecord.setpoints ≠ some (setpointsNow s) →
          exec .setpointRecordEnd s =
            .next { s with flow := { s.flow with
              setpoints := setpointsNow s, lastSent := some ⟨s.flow.sequence, setpointsNow s⟩, onLine := true
              sequence := s.flow.sequence + 1 } }))
    ∧ (∀ (s : State) (r : SetpointRecord), s.flow.onLine = true → s.flow.lastSent = some r →
        ∃ (check : Byte) (bytes : List Byte),
          bytes = [90, r.sequence, if r.setpoints.direction = .forward then 0 else 1, BitVec.ofNat 8 r.setpoints.feed,
            BitVec.ofNat 8 r.setpoints.rotation, BitVec.ofNat 8 r.setpoints.injector, check]
          ∧ byteSum bytes = 0
          ∧ (∀ i b, bytes[i]? = some b →
              s.vtxLevel (10 * i) = false ∧ (∀ k, k < 8 → s.vtxLevel (10 * i + 1 + k) = b.getLsbD k)
                ∧ s.vtxLevel (10 * i + 9) = true)
          ∧ ∀ period, 70 ≤ period → s.vtxLevel period = true)
    ∧ ∀ (s : State) (period : Nat), s.flow.onLine = false → s.vtxLevel period = true

/-- The own allowance never exceeds the own demand or the pump capacity and is 0 in class NONE. In rank order it is the whole
demand where the sum S of its class fits what the higher classes leave, R; otherwise it is the floor of D times R over S, and a
class below one that did not fit receives 0 (08 R122). The setpoints of a phase are R126's split of the allowance, the feed of
DRILL halved by the probe feed, and sum to at most the allowance; all are zero in a state that is not an active phase or while
the interlock is not FLOWING (08 R126, 04 R72). -/
def Obligations.AllowanceAndSplitKeepTheirBounds : Prop :=
  (∀ (capacity demand : Nat) (own : FlowClass) (peers : List Peer),
      allowanceOf capacity own demand peers ≤ demand ∧ allowanceOf capacity own demand peers ≤ capacity
        ∧ allowanceOf capacity .none demand peers = 0)
    ∧ (∀ (capacity demand critical firm normal : Nat) (peers : List Peer), critical = peerSum .critical peers →
        firm = peerSum .firm peers → normal = peerSum .normal peers →
        (demand + critical ≤ capacity → allowanceOf capacity .critical demand peers = demand)
          ∧ (capacity < demand + critical →
              allowanceOf capacity .critical demand peers = demand * capacity / (demand + critical))
          ∧ (demand + critical + firm ≤ capacity → allowanceOf capacity .firm demand peers = demand)
          ∧ (critical ≤ capacity → capacity < demand + critical + firm →
              allowanceOf capacity .firm demand peers = demand * (capacity - critical) / (demand + firm))
          ∧ (capacity < critical → allowanceOf capacity .firm demand peers = 0)
          ∧ (demand + critical + firm + normal ≤ capacity → allowanceOf capacity .normal demand peers = demand)
          ∧ (critical + firm ≤ capacity → capacity < demand + critical + firm + normal →
              allowanceOf capacity .normal demand peers = demand * (capacity - critical - firm) / (demand + normal))
          ∧ (capacity < critical + firm → allowanceOf capacity .normal demand peers = 0))
    ∧ (∀ (a : Nat) (probe : Bool),
        split .collar a probe = ⟨.forward, a - a / 2, a / 2, 0⟩
          ∧ split .drill a false = ⟨.forward, a - 2 * a / 3, 2 * a / 3, 0⟩
          ∧ split .drill a true = ⟨.forward, (a - 2 * a / 3) / 2, 2 * a / 3, 0⟩
          ∧ split .retract a probe = ⟨.reverse, a, 0, 0⟩ ∧ split .insert a probe = ⟨.forward, 0, 0, a⟩
          ∧ split .mix a probe = ⟨.forward, a - 3 * a / 4, 3 * a / 4, 0⟩
          ∧ split .hold a probe = ⟨.forward, a, 0, 0⟩ ∧ split .torque a probe = ⟨.forward, 0, a, 0⟩)
    ∧ (∀ (p : Phase) (a : Nat) (probe : Bool),
        (split p a probe).feed + (split p a probe).rotation + (split p a probe).injector ≤ a)
    ∧ (∀ (s : State) (p : Phase), s.cycle.state = .active p → s.flow.interlock = .flowing →
        setpointsNow s = split p s.flow.allowance s.neighbours.nearVoid)
    ∧ (∀ s : State, s.cycle.state.isActive = false ∨ s.flow.interlock ≠ .flowing →
        setpointsNow s = ⟨.forward, 0, 0, 0⟩)

/-! ### Strokes, mixing and hold -/

/-- STROKE_DONE during a stroke counts one cartridge, clears the retry mark and writes the record; what follows is by the
first case of R90's table; outside a stroke it changes nothing (06 R89, R90, R95). -/
def Obligations.StrokeDoneCountsTheCartridge : Prop :=
  ∀ s : State, s.resetHeld = false →
    (s.resin.stroke ≠ .inProgress → exec .strokeDone s = .next s)
      ∧ (CycleSound s → s.resin.stroke = .inProgress → ∃ t, exec .strokeDone s = .next t ∧ CycleFrame s t
          ∧ t.resin.pushed = s.resin.pushed + 1 ∧ t.resin.retry = false ∧ t.resin.stroke = .idle
          ∧ t.resin.strokeTimer = .disarmed ∧ t.resin.charge = s.resin.charge
          ∧ (s.cycle.abortPending = true →
              Completed s (onOpen (fun r => { r with pushed := s.resin.pushed + 1 }) s.history.records) .aborted t)
          ∧ (s.cycle.abortPending = false → s.resin.charge = some (s.resin.pushed + 1) →
              t.cycle.state = .active .mix ∧ t.resin.band = some (bandNow s) ∧ t.resin.quarterRevs = 0
                ∧ t.resin.mixDeadline = some (after s.now (mixWindowMs s.cfg (bandNow s)))
                ∧ t.history.records =
                    onOpen (fun r =>
                      { r with pushed := s.resin.pushed + 1, band := some (bandNow s), quarterRevs := some 0 })
                      s.history.records
                ∧ FlowFollows t ∧ NoticePlaced t)
          ∧ (s.cycle.abortPending = false → s.resin.charge ≠ some (s.resin.pushed + 1) →
              t.resin.gap = some (after s.now 100)
                ∧ t.history.records = onOpen (fun r => { r with pushed := s.resin.pushed + 1 }) s.history.records
                ∧ (s.muted = false → t.cycle.state = .active .insert ∧ FlowFollows t)
                ∧ (s.muted = true → t.cycle.state = .suspended ∧ t.cycle.remembered = some .insert
                    ∧ t.cycle.cause = some .mute ∧ AtRest t)))

/-- STROKE_TIMER_EXPIRY during a stroke is a timeout: no cartridge is counted, and the marks decide by R91's table; otherwise
it is no event (06 R91, 01 R20, R24; log 3). -/
def Obligations.StrokeTimeoutFollowsTheMarks : Prop :=
  ∀ s : State, s.resetHeld = false →
    (¬(s.resin.stroke = .inProgress ∧ s.resin.strokeTimer.due s.now = true) → exec .strokeTimerExpiry s = .next s)
      ∧ (CycleSound s → s.resin.stroke = .inProgress → s.resin.strokeTimer.due s.now = true →
          ∃ t, exec .strokeTimerExpiry s = .next t ∧ CycleFrame s t ∧ t.resin.pushed = s.resin.pushed
            ∧ t.resin.stroke = .idle ∧ t.resin.strokeTimer = .disarmed
            ∧ (s.cycle.abortPending = true → Completed s s.history.records .aborted t
                ∧ t.host.faults = s.host.faults)
            ∧ (s.cycle.abortPending = false → s.resin.retry = true → Completed s s.history.records .faulted t
                ∧ t.host.faults = joinFault .injector s.host.faults)
            ∧ (s.cycle.abortPending = false → s.resin.retry = false → t.resin.retry = true
                ∧ t.resin.gap = some (after s.now 100) ∧ t.host.faults = s.host.faults ∧ t.history = s.history
                ∧ (s.muted = false → t.cycle.state = .active .insert)
                ∧ (s.muted = true → t.cycle.state = .suspended ∧ t.cycle.remembered = some .insert
                    ∧ t.cycle.cause = some .mute ∧ AtRest t)))

/-- STROKE_GAP_EXPIRY disarms the gap and starts the next stroke where every condition of R88 holds: fresh 3,000 ms from
IDLE, the kept remainder from INTERRUPTED; otherwise no stroke starts; before its time it is no event, which is the model's
choice (log 3). A kept remainder of 0 arms the timer at the present timebase, and its timeout is a later event: the model's
reading (log 9). Whatever the event, its end leaves a stroke that it has not withdrawn in progress exactly where R88's
conditions hold (06 R88, R89). -/
def Obligations.GapExpiryMayStartAStroke : Prop :=
  (∀ old work t : State, t = event old work → work.resin.stroke ≠ .inProgress →
      (t.resin.stroke = .inProgress ↔ t.cycle.state = .active .insert ∧ t.cycle.held = false
        ∧ t.resin.pushed < t.resin.charge.getD 0 ∧ t.cycle.abortPending = false ∧ t.resin.gap = none))
    ∧ ∀ s : State, s.resetHeld = false →
    (deadlineDue s.resin.gap s.now = false → exec .strokeGapExpiry s = .next s)
      ∧ (FlowSound s → CycleSound s → deadlineDue s.resin.gap s.now = true →
          ∃ t, exec .strokeGapExpiry s = .next t ∧ CycleFrame s t ∧ t.resin.gap = none
            ∧ t.cycle.state = s.cycle.state ∧ t.history = s.history ∧ t.resin.pushed = s.resin.pushed
            ∧ (s.cycle.state = .active .insert → s.cycle.held = false → s.cycle.abortPending = false →
                s.resin.pushed < s.resin.charge.getD 0 →
                t.strokeOut = true
                  ∧ (s.resin.stroke = .idle → t.resin.strokeTimer = .running (after s.now 3000))
                  ∧ (∀ left, s.resin.stroke = .interrupted → s.resin.strokeTimer = .paused left →
                      t.resin.strokeTimer = .running (after s.now left)))
            ∧ (s.cycle.state ≠ .active .insert ∨ s.cycle.held = true ∨ s.cycle.abortPending = true
                ∨ s.resin.charge.getD 0 ≤ s.resin.pushed → t.resin.stroke = s.resin.stroke))

/-- MIX_DEADLINE_EXPIRY and HOLD_DEADLINE_EXPIRY: in MIX it sets MIX_SHORT and enters HOLD, in HOLD it enters TORQUE for the
first time or, with LINK_UP false, stands suspended with cause SENSOR; in SUSPENDED the mix deadline is only disarmed, and a
remembered HOLD takes the hold-passed mark; before its time it is no event (06 R98 to R102, 07 R105, 01 R19; log 3). -/
def Obligations.GelDeadlinesRunOut : Prop :=
  ∀ s : State, s.resetHeld = false →
    (deadlineDue s.resin.mixDeadline s.now = false → exec .mixDeadlineExpiry s = .next s)
      ∧ (deadlineDue s.resin.mixDeadline s.now = true → s.cycle.state ≠ .active .mix →
          exec .mixDeadlineExpiry s = .next { s with resin := { s.resin with mixDeadline := none } })
      ∧ (deadlineDue s.resin.mixDeadline s.now = true → s.cycle.state = .active .mix →
          ∃ t, exec .mixDeadlineExpiry s = .next t ∧ CycleFrame s t ∧ t.cycle.state = .active .hold
            ∧ t.resin.mixDeadline = none ∧ t.resin.quarterRevs = s.resin.quarterRevs ∧ t.resin.holdPassed = false
            ∧ t.resin.holdDeadline = some (after s.now (holdTimeMs s.cfg (s.resin.band.getD 0)))
            ∧ t.history.records =
                onOpen (fun r => { r with flags := { r.flags with mixShort := true } }) s.history.records
            ∧ FlowFollows t ∧ NoticePlaced t)
      ∧ (deadlineDue s.resin.holdDeadline s.now = false → exec .holdDeadlineExpiry s = .next s)
      ∧ (deadlineDue s.resin.holdDeadline s.now = true → s.cycle.state = .suspended →
          s.cycle.remembered = some .hold →
          exec .holdDeadlineExpiry s =
            .next { s with resin := { s.resin with holdDeadline := none, holdPassed := true } })
      ∧ (deadlineDue s.resin.holdDeadline s.now = true → s.cycle.state = .active .hold → s.resin.stroke ≠ .inProgress →
          ∃ t, exec .holdDeadlineExpiry s = .next t ∧ CycleFrame s t ∧ t.resin.holdDeadline = none
            ∧ t.torque.target = s.anchor.target
            ∧ t.torque.ceiling = s.anchor.target.map (fun x => x + 3 * x / 20)
            ∧ t.torque.near = s.anchor.target.map (fun x => 9 * x / 10)
            ∧ t.torque.entered = true ∧ t.torque.spinner = 0 ∧ t.torque.peak = 0 ∧ t.torque.overshoot = false
            ∧ t.torque.torqueNear = false
            ∧ t.torque.timer =
                (if t.cycle.state = .active .torque ∧ t.cycle.held = false then .running (after s.now 15000)
                else .paused 15000)
            ∧ t.history.records = onOpen (fun r => { r with peak := some 0 }) s.history.records
            ∧ (s.sensor.live.linkUp = true → t.cycle.state = .active .torque)
            ∧ (s.sensor.live.linkUp = false → t.cycle.state = .suspended ∧ t.cycle.remembered = some .torque
                ∧ t.cycle.cause = some .sensor ∧ AtRest t ∧ t.host.faults = s.host.faults)
            ∧ FlowFollows t ∧ NoticePlaced t)

/-! ### Torquing -/

/-- The ceiling and the near threshold of a torque target (07 R106): exact integer arithmetic, the near threshold below and
the ceiling above every target from 50 to 800, and the highest ceiling 920. -/
def Obligations.TorqueFiguresFollowTheTarget : Prop :=
  ∀ t : Nat, ceilingOf t = t + 3 * t / 20 ∧ nearOf t = 9 * t / 10
    ∧ (50 ≤ t → t ≤ 800 → nearOf t < t ∧ t < ceilingOf t ∧ ceilingOf t ≤ 920 ∧ ceilingOf t < 1023)

/-- A good sample in TORQUE raises the peak, sets OVERSHOOT above the ceiling, completes the hole ANCHORED at the target,
and otherwise sets TORQUE_NEAR by the near threshold (07 R107, R111), whether or not the phase is HELD. -/
def Obligations.TorqueSampleIsJudged : Prop :=
  ∀ (s : State) (bytes : List SrxByte) (raw : Sample) (target ceiling near : Nat), s.resetHeld = false →
    Hunting s bytes → goodRecord bytes = true → rawSample (bytes.map SrxByte.value) = some raw →
    s.cycle.state = .active .torque → s.torque.target = some target → s.torque.ceiling = some ceiling →
    s.torque.near = some near → s.resin.stroke ≠ .inProgress →
    ∃ t, exec (.sampleRecord (srxLine bytes)) s = .next t ∧ RecordTaken s raw t ∧ CycleFrame s t
      ∧ t.torque.peak = max s.torque.peak raw.clamp.torque
      ∧ t.torque.overshoot = (s.torque.overshoot || decide (ceiling < raw.clamp.torque))
      ∧ t.torque.spinner = s.torque.spinner ∧ t.torque.target = some target
      ∧ (target ≤ raw.clamp.torque →
          Completed s
            (onOpen (fun r => { r with
              peak := if s.torque.peak < raw.clamp.torque then some raw.clamp.torque else r.peak
              flags := { r.flags with overshoot := r.flags.overshoot || decide (ceiling < raw.clamp.torque) } })
              s.history.records) .anchored t)
      ∧ (raw.clamp.torque < target → t.cycle.state = .active .torque
          ∧ t.torque.torqueNear = decide (near ≤ raw.clamp.torque)
          ∧ t.history.records =
              onOpen (fun r => { r with
                peak := if s.torque.peak < raw.clamp.torque then some raw.clamp.torque else r.peak
                flags := { r.flags with overshoot := r.flags.overshoot || decide (ceiling < raw.clamp.torque) } })
                s.history.records)

/-! ### The host's commands to the cycle -/

/-- CONFIGURE is refused outside UNCONFIGURED, and for a record R184 does not admit, and then changes only the reply; a
record of another length is no valid frame. Accepted, it stores the configuration, goes to IDLE, empties the peer table,
arms the schedule 250 ms on, starts SEEKING and places the IDLE notice. R184 admits a record whose mark is absent where every
field is in its range, and takes its fields from the places of R204; with the mark present it admits every station number 0..5
and takes the defaults; it admits no other mark (11 R179, R184, R185, 12 R204, 06 R103, 08 R138, 09 R161). -/
def Obligations.ConfigureStoresTheRecord : Prop :=
  (∀ record : List Byte,
      let b := fun i => (record.getD i 0).toNat
      let w := fun i => b i * 256 + b (i + 1)
      (1 < b 0 → parseConfiguration record = none)
        ∧ (b 0 = 1 → 5 < b 1 → parseConfiguration record = none)
        ∧ (b 0 = 1 → b 1 ≤ 5 → parseConfiguration record = some {
            station := b 1, capacity := 120
            demands := { collar := 25, drill := 45, retract := 35, insert := 15, mix := 40, hold := 8, torque := 30 }
            minimums := { collar := 10, drill := 15, retract := 10, insert := 6, mix := 12, hold := 3, torque := 10 }
            bitSize := .mm27, softThreshold := 400, hardThreshold := 2000, voidN := 20, voidThrust := 20
            baseCartridges := 1, extraVoid := 3, rejectVoid := 8, normalTarget := 300, softTarget := 200
            mixRevolutions := 25, spinnerLimit := 8
            gel := [⟨300, 600⟩, ⟨250, 450⟩, ⟨200, 350⟩, ⟨160, 250⟩, ⟨130, 180⟩, ⟨100, 140⟩, ⟨80, 110⟩, ⟨70, 90⟩] })
        ∧ (b 0 = 0 → ¬RecordAdmitted b → parseConfiguration record = none)
        ∧ (b 0 = 0 → RecordAdmitted b → parseConfiguration record = some {
            station := b 1, capacity := w 2
            demands := {
              collar := b 4, drill := b 5, retract := b 6, insert := b 7, mix := b 8, hold := b 9, torque := b 10 }
            minimums := {
              collar := b 11, drill := b 12, retract := b 13, insert := b 14, mix := b 15, hold := b 16, torque := b 17 }
            bitSize := if b 18 = 27 then .mm27 else .mm35
            softThreshold := b 19 * 65536 + w 20, hardThreshold := b 22 * 65536 + w 23
            voidN := b 25, voidThrust := w 26, baseCartridges := b 28, extraVoid := b 29, rejectVoid := b 30
            normalTarget := w 31, softTarget := w 33, mixRevolutions := b 35, spinnerLimit := b 36
            gel := (List.range 8).map fun band => { mixWindow := w (37 + 4 * band), holdTime := w (39 + 4 * band) } }))
    ∧ ∀ (host : Transaction) (record : List Byte) (s : State), s.resetHeld = false → host.cut = false →
    (∀ status : Status,
        status = (if record.length ≠ 69 then .badFrame
          else if s.cycle.state ≠ .unconfigured then .badState
          else if (parseConfiguration record).isNone then .badArg else .ok) → status ≠ .ok →
        exec (.configure record host) s =
          .next { s with host := { s.host with reply := ⟨status, []⟩, hsdo := clockedOut host.clocks s.host.reply } })
      ∧ (∀ c : Configuration, FlowSound s → TimersSound s → record.length = 69 → s.cycle.state = .unconfigured →
          parseConfiguration record = some c →
          ∃ t, exec (.configure record host) s = .next t ∧ Replied host s .ok [] t
            ∧ t.host.config = some c ∧ t.cycle = { s.cycle with state := .idle }
            ∧ t.flow.peers = [] ∧ t.flow.allowance = 0 ∧ t.flow.schedule = some (after s.now 250)
            ∧ t.link.view = .seeking ∧ t.link.recessive = 0
            ∧ (s.muted = false → t.link.slot = some ⟨⟨.idle, .none, 0⟩, false⟩)
            ∧ t.flow.interlock = s.flow.interlock ∧ t.flow.releaseDeadline = s.flow.releaseDeadline
            ∧ t.sensor = s.sensor ∧ t.history = s.history ∧ t.neighbours = s.neighbours
            ∧ t.host.faults = s.host.faults ∧ t.host.raised = s.host.raised ∧ t.host.stack = s.host.stack
            ∧ t.host.watch = s.host.watch)

/-- START_HOLE's refusals in the order of R8; a refused START_HOLE changes no state but the level of CANOPY_SET that came
with it (log 24) and reserves no record. -/
def Obligations.StartHoleIsRefusedInOrder : Prop :=
  ∀ (host : Transaction) (row : BitVec 16) (slot planned : Byte) (rise : Bool) (s : State) (status : Status),
    s.resetHeld = false → host.cut = false →
    status = (if s.cycle.state ≠ .idle then .badState
      else if 4095 < row.toNat ∨ 7 < slot.toNat ∨ planned.toNat < 30 ∨ 128 < planned.toNat then .badArg
      else if (s.canopySet || rise) = false then .noCanopy
      else if s.muted = true then .muted else .ok) → status ≠ .ok →
    exec (.startHole row slot planned rise host) s =
      .next { s with
        canopySet := s.canopySet || rise
        host := { s.host with reply := ⟨status, []⟩, hsdo := clockedOut host.clocks s.host.reply } }

/-- An accepted START_HOLE: the hole number, the record with its evictions, a selection that names an evicted record made GONE,
the items of every block, the prediction, COLLAR or, with LINK_UP false, SUSPENDED with a remembered COLLAR, and the reply (01
R9, R19, 02 R38, 05 R74, 06 R86, 07 R104, 10 R165, R166, R171). -/
def Obligations.StartHoleStartsTheHole : Prop :=
  ∀ (host : Transaction) (row : BitVec 16) (slot planned : Byte) (rise : Bool) (s : State) (n : HoleNo),
    s.resetHeld = false → host.cut = false → HistorySound s → s.cycle.state = .idle → row.toNat ≤ 4095 →
    slot.toNat ≤ 7 → 30 ≤ planned.toNat → planned.toNat ≤ 128 → (s.canopySet || rise) = true → s.muted = false →
    n = (match s.cycle.holeNumber with | none => 0 | some m => m + 1) →
    ∃ (t : State) (gone kept : List HoleRecord), exec (.startHole row slot planned rise host) s = .next t
      ∧ Replied host s .ok (u16 n.toNat) t
      ∧ t.cycle.holeNumber = some n ∧ t.cycle.row = row.toNat ∧ t.cycle.slot = slot.toNat
      ∧ t.cycle.planned = planned.toNat ∧ t.cycle.pendingVerdict = none ∧ t.cycle.abortPending = false
      ∧ t.assembler.cell = some 0 ∧ t.assembler.n = 0 ∧ t.assembler.rotary = 0 ∧ t.assembler.thrust = 0
      ∧ t.assembler.capped = false ∧ t.assembler.tainted = false ∧ t.assembler.maxDepth = 0
      ∧ t.assembler.voidCell = false ∧ t.assembler.softCell = false ∧ t.assembler.hardCell = false
      ∧ t.anchor = ⟨0, 0, 0, .none, none, none⟩
      ∧ t.resin = ⟨none, 0, .idle, .disarmed, false, none, none, 0, none, none, false⟩
      ∧ t.torque = ⟨none, none, none, false, .disarmed, 0, 0, false, false⟩
      ∧ s.history.records = gone ++ kept ∧ kept.length < 16
      ∧ t.history.records = kept ++ [newRecord n row.toNat slot.toNat planned.toNat]
      ∧ t.history.free + planned.toNat = s.history.free + (gone.map HoleRecord.reserved).sum
      ∧ (∀ i, i < gone.length → s.history.free + ((gone.take i).map HoleRecord.reserved).sum < planned.toNat
          ∨ 16 ≤ s.history.records.length - i)
      ∧ (gone ≠ [] → t.host.raised.history = true)
      ∧ (∀ m, s.history.selection = .hole m → (∃ r ∈ gone, r.number = m) → t.history.selection = .gone m)
      ∧ ((∀ m, s.history.selection = .hole m → ∀ r ∈ gone, r.number ≠ m) → t.history.selection = s.history.selection)
      ∧ t.history.pointer = s.history.pointer
      ∧ t.neighbours.entries = s.neighbours.entries
      ∧ t.neighbours.predicted = predictedSet row.toNat slot.toNat planned.toNat s.neighbours.entries
      ∧ (s.sensor.live.linkUp = true → t.cycle.state = .active .collar
          ∧ t.cycle.collarTimer = (if t.cycle.held then .paused 20000 else .running (after s.now 20000)))
      ∧ (s.sensor.live.linkUp = false → t.cycle.state = .suspended ∧ t.cycle.remembered = some .collar
          ∧ t.cycle.cause = some .sensor ∧ t.cycle.collarTimer = .paused 20000 ∧ AtRest t)
      ∧ t.host.faults = s.host.faults ∧ FlowFollows t ∧ NoticePlaced t

/-- ABORT in a state without a suspension (01 R23, R24, R25): refused in IDLE and UNCONFIGURED; from COLLAR and DRILL to
RETRACT with ABORTED pending, the partial cell closed into the record and scanned for LOST cells (02 R43, 05 R81); in RETRACT
only the pending verdict; in INSERT with a stroke in progress only the mark; else the hole completes ABORTED. The level of
CANOPY_SET that a refused ABORT, or one that only sets a verdict or a mark, records is the model's choice (log 24). -/
def Obligations.AbortActsByTheState : Prop :=
  ∀ (host : Transaction) (rise : Bool) (s : State), s.resetHeld = false → host.cut = false → CycleSound s →
    (s.cycle.state = .idle ∨ s.cycle.state = .unconfigured →
        exec (.abort rise host) s = .next { s with
          canopySet := s.canopySet || rise
          host := { s.host with reply := ⟨.badState, []⟩, hsdo := clockedOut host.clocks s.host.reply } })
      ∧ (s.cycle.state = .active .collar ∨ s.cycle.state = .active .drill →
          ∃ t, exec (.abort rise host) s = .next t ∧ Replied host s .ok [] t ∧ t.cycle.state = .active .retract
            ∧ t.cycle.pendingVerdict = some .aborted ∧ t.assembler.cell = none ∧ t.assembler.stallWindow = .disarmed
            ∧ t.history.free = s.history.free
            ∧ (∀ r ∈ s.history.records, r.isOpen = true → r.cells.length < r.planned →
                ∀ cells, cells = r.cells ++
                  (if s.assembler.cell.isSome = true ∧ (0 < s.assembler.n ∨ s.assembler.tainted = true) then
                    [cellRecord s.cfg s.assembler] else []) →
                { r with
                  cells := cells
                  flags := { r.flags with
                    lostCells := r.flags.lostCells || cells.any fun x => x.cls == .lost } } ∈ t.history.records)
            ∧ t.cycle.retractTimer = (if t.cycle.held then .paused 20000 else .running (after s.now 20000))
            ∧ t.anchor = s.anchor ∧ t.host.faults = s.host.faults ∧ FlowFollows t ∧ NoticePlaced t)
      ∧ (s.cycle.state = .active .retract →
          exec (.abort rise host) s = .next { s with
            canopySet := s.canopySet || rise
            cycle := { s.cycle with pendingVerdict := some .aborted }
            host := { s.host with reply := ⟨.ok, []⟩, hsdo := clockedOut host.clocks s.host.reply } })
      ∧ (s.cycle.state = .active .insert → s.resin.stroke = .inProgress →
          exec (.abort rise host) s = .next { s with
            canopySet := s.canopySet || rise
            cycle := { s.cycle with abortPending := true }
            host := { s.host with reply := ⟨.ok, []⟩, hsdo := clockedOut host.clocks s.host.reply } })
      ∧ ((s.cycle.state = .active .insert ∧ s.resin.stroke ≠ .inProgress) ∨ s.cycle.state = .active .mix
            ∨ s.cycle.state = .active .hold ∨ s.cycle.state = .active .torque ∨ s.cycle.state = .decide →
          ∃ t, exec (.abort rise host) s = .next t ∧ Replied host s .ok [] t ∧ Completed s s.history.records .aborted t
            ∧ NoticePlaced t ∧ t.host.faults = s.host.faults ∧ t.resin.pushed = s.resin.pushed)

/-- ABORT in SUSPENDED decides by the remembered phase and the present inputs: a remembered COLLAR, DRILL or RETRACT is
retracted with ABORTED pending where MUTE is not held, CANOPY_SET is high and LINK_UP is true; every other case completes
the hole ABORTED (01 R25). The kept timer of a remembered RETRACT runs on with its remainder, and with a remainder of 0 it is
armed at the present timebase: the model's choice (log 9). -/
def Obligations.AbortInSuspendedDecides : Prop :=
  ∀ (host : Transaction) (rise : Bool) (s : State) (p : Phase), s.resetHeld = false → host.cut = false → CycleSound s →
    s.cycle.state = .suspended → s.cycle.remembered = some p →
    ∃ t, exec (.abort rise host) s = .next t ∧ Replied host s .ok [] t ∧ NoticePlaced t ∧ t.host.faults = s.host.faults
      ∧ ((p = .collar ∨ p = .drill ∨ p = .retract) ∧ s.muted = false ∧ (s.canopySet || rise) = true
            ∧ s.sensor.live.linkUp = true →
          t.cycle.state = .active .retract ∧ t.cycle.pendingVerdict = some .aborted ∧ t.cycle.remembered = none
            ∧ t.cycle.cause = none ∧ FlowFollows t
            ∧ (p = .retract → s.cycle.cause ≠ some .stuck → ∀ left, s.cycle.retractTimer = .paused left →
                t.cycle.retractTimer = (if t.cycle.held then .paused left else .running (after s.now left)))
            ∧ (p ≠ .retract ∨ s.cycle.cause = some .stuck →
                t.cycle.retractTimer = (if t.cycle.held then .paused 20000 else .running (after s.now 20000)))
            ∧ (p ≠ .retract → t.assembler.cell = none))
      ∧ (p = .retract ∨ p = .insert ∨ p = .mix ∨ p = .hold ∨ p = .torque →
          p ≠ .retract ∨ s.muted = true ∨ (s.canopySet || rise) = false ∨ s.sensor.live.linkUp = false →
          Completed s s.history.records .aborted t)
      ∧ (p = .collar ∨ p = .drill →
          s.muted = true ∨ (s.canopySet || rise) = false ∨ s.sensor.live.linkUp = false →
          Completed s (shortEnd s).history.records .aborted t ∧ t.assembler.cell = none)

/-- RESUME: BAD_STATE outside SUSPENDED, CAUSE_PRESENT while a cause holds for the target, both changing only the reply and
the level of CANOPY_SET; accepted, the target is entered as R22's table gives, TORQUE for the first time with 15,000 ms and the
figures of its target, and again with what it kept (01 R22, 04 R69, 06 R88, R93, R99, R100, R102, 07 R105, R106, R113). A
torque timer or an interrupted stroke with a remainder of zero expires in the same event when its phase flows at once, which
raises the interlock within that event: the model's own choices (log 9, log 31). The timer of COLLAR or RETRACT with a remainder
of zero is armed at the present timebase: the model's own too (log 9). The level of CANOPY_SET that a refused RESUME records is the model's choice (log 24). -/
def Obligations.ResumeEntersTheTarget : Prop :=
  ∀ (host : Transaction) (rise : Bool) (s : State), s.resetHeld = false → host.cut = false →
    (s.cycle.state ≠ .suspended →
        exec (.resume rise host) s = .next { s with
          canopySet := s.canopySet || rise
          host := { s.host with reply := ⟨.badState, []⟩, hsdo := clockedOut host.clocks s.host.reply } })
      ∧ ∀ p target : Phase, s.cycle.state = .suspended → s.cycle.remembered = some p →
          target = (if p = .mix then .hold else if p = .hold ∧ s.resin.holdPassed = true then .torque else p) →
          (((s.canopySet || rise) = false
              ∨ ((target = .collar ∨ target = .drill ∨ target = .retract ∨ target = .torque)
                  ∧ s.sensor.live.linkUp = false)
              ∨ ((target = .collar ∨ target = .drill ∨ target = .retract ∨ target = .insert) ∧ s.muted = true)) →
            exec (.resume rise host) s = .next { s with
              canopySet := s.canopySet || rise
              host := { s.host with reply := ⟨.causePresent, []⟩, hsdo := clockedOut host.clocks s.host.reply } })
          ∧ (CycleSound s → TimersSound s → (s.canopySet || rise) = true →
              ((target = .collar ∨ target = .drill ∨ target = .retract ∨ target = .torque) →
                s.sensor.live.linkUp = true) →
              ((target = .collar ∨ target = .drill ∨ target = .retract ∨ target = .insert) → s.muted = false) →
              (target = .torque → s.torque.entered = true → s.torque.timer ≠ .paused 0) →
              (target = .insert → s.resin.strokeTimer ≠ .paused 0) →
              ∃ t, exec (.resume rise host) s = .next t ∧ Replied host s .ok [] t ∧ t.cycle.state = .active target
                ∧ t.cycle.remembered = none ∧ t.cycle.cause = none ∧ FlowFollows t ∧ NoticePlaced t
                ∧ t.history.free = s.history.free ∧ t.host.faults = s.host.faults
                ∧ t.resin.pushed = s.resin.pushed ∧ t.resin.charge = s.resin.charge
                ∧ (target = .insert → t.cycle.held = false → s.resin.gap = none →
                    s.resin.pushed < s.resin.charge.getD 0 →
                    t.strokeOut = true ∧ (s.resin.stroke = .idle → t.resin.strokeTimer = .running (after s.now 3000))
                      ∧ (∀ left, s.resin.stroke = .interrupted → s.resin.strokeTimer = .paused left →
                          t.resin.strokeTimer = .running (after s.now left)))
                ∧ (target = .insert → t.cycle.held = true ∨ s.resin.gap.isSome = true →
                    t.resin.stroke = s.resin.stroke ∧ t.resin.strokeTimer = s.resin.strokeTimer)
                ∧ (target = .collar ∨ target = .drill →
                    t.neighbours.predicted =
                      predictedSet s.cycle.row s.cycle.slot s.cycle.planned s.neighbours.entries)
                ∧ (∀ left, target = .collar → s.cycle.collarTimer = .paused left →
                    t.cycle.collarTimer = (if t.cycle.held then .paused left else .running (after s.now left)))
                ∧ (target = .drill → t.assembler.cell = s.assembler.cell ∧ t.assembler.n = s.assembler.n
                    ∧ t.assembler.stallRef = s.assembler.maxDepth
                    ∧ t.assembler.stallWindow = (if t.cycle.held then .paused 2000 else .running (after s.now 2000)))
                ∧ (target = .retract → s.cycle.cause = some .stuck →
                    t.cycle.retractTimer = (if t.cycle.held then .paused 20000 else .running (after s.now 20000)))
                ∧ (∀ left, target = .retract → s.cycle.cause ≠ some .stuck → s.cycle.retractTimer = .paused left →
                    t.cycle.retractTimer = (if t.cycle.held then .paused left else .running (after s.now left)))
                ∧ (p = .mix → t.resin.mixDeadline = none ∧ t.resin.holdPassed = false
                    ∧ t.resin.holdDeadline = some (after s.now (holdTimeMs s.cfg (s.resin.band.getD 0))))
                ∧ (p = .hold → target = .hold → t.resin.holdDeadline = s.resin.holdDeadline)
                ∧ (target = .torque → t.resin.holdPassed = false ∧ t.torque.torqueNear = false
                    ∧ t.torque.entered = true)
                ∧ (target = .torque → s.torque.entered = true → t.torque.spinner = s.torque.spinner
                    ∧ t.torque.peak = s.torque.peak ∧ t.torque.target = s.torque.target
                    ∧ t.torque.ceiling = s.torque.ceiling ∧ t.torque.near = s.torque.near
                    ∧ t.torque.overshoot = s.torque.overshoot
                    ∧ ∀ left, s.torque.timer = .paused left →
                        t.torque.timer = (if t.cycle.held then .paused left else .running (after s.now left)))
                ∧ (target = .torque → s.torque.entered = false → t.torque.spinner = 0 ∧ t.torque.peak = 0
                    ∧ t.torque.target = s.anchor.target
                    ∧ t.torque.ceiling = s.anchor.target.map (fun x => x + 3 * x / 20)
                    ∧ t.torque.near = s.anchor.target.map (fun x => 9 * x / 10) ∧ t.torque.overshoot = false
                    ∧ t.torque.timer = (if t.cycle.held then .paused 15000 else .running (after s.now 15000))
                    ∧ t.history.records = onOpen (fun r => { r with peak := some 0 }) s.history.records))
          ∧ (CycleSound s → FlowSound s → (s.canopySet || rise) = true → target = .torque → s.sensor.live.linkUp = true →
              s.torque.entered = true → s.torque.timer = .paused 0 →
              ∃ t, exec (.resume rise host) s = .next t ∧ Replied host s .ok [] t
                ∧ (flowsAtOnce s .torque = true → Completed s s.history.records .torqueTimeout t)
                ∧ (flowsAtOnce s .torque = false → t.cycle.state = .active .torque ∧ t.cycle.held = true
                    ∧ t.torque.timer = .paused 0))
          ∧ (CycleSound s → FlowSound s → (s.canopySet || rise) = true → target = .insert → s.muted = false →
              s.resin.stroke = .interrupted → s.resin.strokeTimer = .paused 0 →
              s.resin.pushed < s.resin.charge.getD 0 →
              ∃ t, exec (.resume rise host) s = .next t ∧ Replied host s .ok [] t ∧ t.resin.pushed = s.resin.pushed
                ∧ (flowsAtOnce s .insert = true → s.resin.gap = none → s.resin.retry = true →
                    Completed s s.history.records .faulted t ∧ t.host.faults = joinFault .injector s.host.faults)
                ∧ (flowsAtOnce s .insert = true → s.resin.gap = none → s.resin.retry = false →
                    t.cycle.state = .active .insert ∧ t.resin.retry = true ∧ t.resin.stroke = .idle
                      ∧ t.resin.gap = some (after s.now 100))
                ∧ (flowsAtOnce s .insert = false ∨ s.resin.gap.isSome = true →
                    t.cycle.state = .active .insert ∧ t.resin.stroke = .interrupted
                      ∧ t.resin.strokeTimer = .paused 0))

/-- PROCEED and ABANDON are taken only in DECIDE, with PROCEED's refusals in order; an accepted PROCEED enters INSERT with
charge 3 and the soft target, sets PROCEEDED and SOFT_TARGET and starts the first stroke unless HELD, and ABANDON completes the
hole REJECTED (01 R15, R16, 05 R84, 06 R87, R88). The level of CANOPY_SET that a refused PROCEED records is the model's choice
(log 24). -/
def Obligations.DecideIsLeftByTheHost : Prop :=
  (∀ (host : Transaction) (rise : Bool) (s : State), s.resetHeld = false → host.cut = false →
      (∀ status : Status,
          status = (if s.cycle.state ≠ .decide then .badState
            else if (s.canopySet || rise) = false then .noCanopy
            else if s.muted = true then .muted else .ok) → status ≠ .ok →
          exec (.proceed rise host) s = .next { s with
            canopySet := s.canopySet || rise
            host := { s.host with reply := ⟨status, []⟩, hsdo := clockedOut host.clocks s.host.reply } })
        ∧ (s.cycle.state = .decide → (s.canopySet || rise) = true → s.muted = false →
            ∃ t, exec (.proceed rise host) s = .next t ∧ Replied host s .ok [] t ∧ t.cycle.state = .active .insert
              ∧ t.resin.charge = some 3 ∧ t.resin.pushed = 0 ∧ t.resin.retry = false ∧ t.resin.gap = none
              ∧ t.anchor = { s.anchor with charge := some 3, target := some s.cfg.softTarget }
              ∧ t.history.records =
                  onOpen (fun r => { r with
                    charge := some 3, target := some s.cfg.softTarget
                    flags := { r.flags with softTarget := true, proceeded := true } }) s.history.records
              ∧ (s.cycle.abortPending = false → FirstStroke s t) ∧ FlowFollows t ∧ NoticePlaced t))
    ∧ (∀ (host : Transaction) (s : State), s.resetHeld = false → host.cut = false →
        (s.cycle.state ≠ .decide →
            exec (.abandon host) s =
              .next { s with host := { s.host with reply := ⟨.badState, []⟩, hsdo := clockedOut host.clocks s.host.reply } })
          ∧ (s.cycle.state = .decide →
              ∃ t, exec (.abandon host) s = .next t ∧ CycleFrame s t ∧ Replied host s .ok [] t
                ∧ Completed s s.history.records .rejected t ∧ NoticePlaced t))

/-! ### The host's reads -/

/-- A fetch and a bad frame change only the reply; READ_STATE, READ_FLOW and READ_NEIGHBOURS reply with the items the layout
lists, each in its field, and change nothing else; READ_LINK also clears HOLE_DROPPED and TX_FAULT. The codes are those of the
common coding (11 R179, R181, R182, R183, 09 R160, 12 R200, R204). That a field carries its value modulo its width is the
model's (log 19). -/
def Obligations.ReadsReplyWithoutAChange : Prop :=
  ([CycleState.unconfigured, .idle, .active .collar, .active .drill, .active .retract, .decide, .active .insert, .active .mix,
        .active .hold, .active .torque, .suspended].map CycleState.code = List.range 11
      ∧ [FlowClass.critical, .firm, .normal, .none].map FlowClass.code = List.range 4
      ∧ [none, some Verdict.anchored, some .spinner, some .torqueTimeout, some .short, some .rejected, some .aborted,
        some .faulted].map verdictCode = List.range 8
      ∧ [StrataClass.lost, .skipped, .void, .soft, .hard, .medium].map StrataClass.code = List.range 6
      ∧ [FaultCode.sensorLost, .canopyLost, .injector, .retractStuck, .stall, .collarTimeout, .valveStuck,
        .duplicate].map FaultCode.code = List.range' 1 8
      ∧ [Source.fault, .decide, .holeDone, .watch, .history].map Source.code = List.range' 1 5
      ∧ [Status.ok, .badState, .badArg, .badFrame, .noCanopy, .muted, .causePresent, .notRead, .gone, .none].map
        Status.code = List.range 10
      ∧ [none, some Cause.canopy, some .sensor, some .mute, some .stuck].map causeCode = List.range 5
      ∧ [none, some PendingVerdict.short, some .aborted].map pendingVerdictCode = [0, 4, 6]
      ∧ [AnchorOutcome.none, .charge, .reject].map AnchorOutcome.code = List.range 3
      ∧ [StrokeState.idle, .inProgress, .interrupted].map StrokeState.code = List.range 3
      ∧ [Interlock.off, .waitReady, .flowing, .releasing].map Interlock.code = List.range 4
      ∧ [Arming.armed, .fired, .served, .waitFalse].map Arming.code = List.range 4
      ∧ [LineView.off, .seeking, .gap, .frame].map LineView.code = List.range 4
      ∧ [none, some MuteCause.overridden, some .heard].map muteCauseCode = List.range 3
      ∧ [Freshness.fresh, .stale].map Freshness.code = List.range 2
      ∧ [Direction.forward, .reverse].map Direction.code = List.range 2)
    ∧ ∀ (host : Transaction) (s : State), s.resetHeld = false → host.cut = false →
    let answered := fun (status : Status) (data : List Byte) =>
      ({ s with host := { s.host with reply := ⟨status, data⟩, hsdo := clockedOut host.clocks s.host.reply } } : State)
    let leftTo := fun (target : Time) => if expired target s.now = true then 0 else (target - s.now).toNat
    let leftOf := fun (timer : Timer) => match timer with
      | .disarmed => none
      | .paused left => some left
      | .running target => some (leftTo target)
    let inputSet := fun (x : WatchInputs) =>
      memberSet [x.voidCell, x.softCell, x.hardCell, x.nearVoid, x.flowCut, x.torqueNear]
    let setpointFields := fun (x : Setpoints) =>
      [(1, x.direction.code), (1, x.feed), (1, x.rotation), (1, x.injector)]
    exec (.fetch host) s = .next (answered .none [])
      ∧ exec (.badFrame host) s = .next (answered .badFrame [])
      ∧ exec (.readState host) s = .next (answered .ok (stateData s))
      ∧ (s.host.stack.length ≤ 5 → (stateData s).length = 86 ∧ stateData s = layout (
          [(4, s.cycle.timebase.toNat)] ++ markedField 1 (s.host.config.map Configuration.station)
            ++ [(1, s.cycle.state.code)] ++ markedField 1 (s.cycle.remembered.map fun p => (CycleState.active p).code)
            ++ [(1, causeCode s.cycle.cause), (1, s.cycle.held.toNat), (1, pendingVerdictCode s.cycle.pendingVerdict),
              (1, s.cycle.abortPending.toNat)]
            ++ markedField 2 (s.cycle.holeNumber.map BitVec.toNat)
            ++ [(2, s.cycle.row), (1, s.cycle.slot), (1, s.cycle.planned)]
            ++ [(1, s.resin.pushed)] ++ markedField 1 s.resin.charge
            ++ [(1, s.resin.stroke.code), (1, s.resin.retry.toNat)] ++ markedField 1 s.resin.band
            ++ [(1, s.resin.quarterRevs), (1, s.resin.holdPassed.toNat)] ++ markedField 3 (leftOf s.resin.strokeTimer)
            ++ markedField 3 (s.resin.mixDeadline.map leftTo) ++ markedField 3 (s.resin.holdDeadline.map leftTo)
            ++ markedField 2 s.torque.target ++ markedField 2 s.torque.ceiling ++ markedField 2 s.torque.near
            ++ [(1, s.torque.entered.toNat), (1, s.torque.spinner), (2, s.torque.peak), (1, s.torque.overshoot.toNat),
              (1, s.torque.torqueNear.toNat)]
            ++ markedField 3 (leftOf s.torque.timer)
            ++ [(1, s.history.records.length), (2, s.history.free)]
            ++ markedField 2 (s.history.records.head?.map fun r => r.number.toNat)
            ++ markedField 2 (s.history.records.getLast?.map fun r => r.number.toNat)
            ++ [(1, (s.history.records.getLast?.any fun r => r.verdict.isNone).toNat)]
            ++ [(1, memberSet [!s.host.faults.isEmpty, s.host.raised.decide, s.host.raised.holeDone, s.host.raised.watch,
                s.host.raised.history]),
              (1, s.host.stack.length)]
            ++ (List.range 5).map (fun i => (1, (s.host.stack.reverse[i]?.map Source.code).getD 0))
            ++ [(1, s.host.faults.length), (1, s.attnLow.toNat)]
            ++ [(1, inputSet s.host.watch.mask), (1, s.host.watch.activeFalse.toNat),
              (1, s.host.watch.isAnd.toNat), (1, s.host.watch.y.toNat), (1, s.host.watch.arming.code),
              (1, s.host.watch.fell.toNat),
              (1, inputSet ⟨s.assembler.voidCell, s.assembler.softCell, s.assembler.hardCell, s.neighbours.nearVoid,
                s.flow.flowCut, s.torque.torqueNear⟩)]))
      ∧ exec (.readFlow host) s = .next (answered .ok (flowData s))
      ∧ (flowData s).length = 23 + 7 * s.flow.peers.length
      ∧ flowData s = layout (
          [(2, (s.host.config.map Configuration.capacity).getD 0), (1, s.cycle.state.code), (1, (ownClass s).code),
            (1, ownDemand s), (1, ownMinimum s), (1, s.flow.allowance), (1, s.flow.flowCut.toNat),
            (1, s.flow.interlock.code), (1, s.flowReq.toNat), (1, s.valveReady.toNat)]
            ++ setpointFields s.flow.setpoints
            ++ (match s.flow.lastSent with
              | some r => [(1, 1), (1, r.sequence.toNat)] ++ setpointFields r.setpoints
              | none => [(1, 0), (5, 0)])
            ++ [(1, s.flow.sequence.toNat), (1, s.flow.peers.length)]
            ++ s.flow.peers.flatMap fun p => [(1, p.station), (1, p.phase.code), (1, p.flowClass.code), (1, p.demand),
              (1, p.freshness.code), (2, (s.now - p.lastHeard).toNat)])
      ∧ (∀ index : Byte, exec (.readNeighbours index host) s =
          .next (if 15 < index.toNat then answered .badArg [] else answered .ok (neighboursData s index.toNat)))
      ∧ (∀ i e, s.neighbours.entries[i]? = some e → (neighboursData s i).length = 27 + 4 * e.voids.length)
      ∧ (∀ i, s.neighbours.entries.length ≤ i → (neighboursData s i).length = 27)
      ∧ (∀ i, neighboursData s i = layout (
          [(1, s.neighbours.entries.length)]
            ++ (match s.neighbours.entries[i]? with
              | some e => [(1, 1), (1, e.station), (2, e.row), (1, e.slot), (2, e.depth), (1, e.verdict.code),
                  (1, e.voids.length)] ++ e.voids.flatMap fun v => [(2, v.start), (2, v.length)]
              | none => [(1, 0), (8, 0)])
            ++ (List.range 16).map (fun i =>
              (1, memberSet ((List.range 8).map fun k => decide (8 * i + k ∈ s.neighbours.predicted))))
            ++ [(1, s.neighbours.nearVoid.toNat)]))
      ∧ exec (.readLink host) s =
          .next { answered .ok (linkData s) with link := { s.link with holeDropped := false, txFault := false } }
      ∧ (linkData s).length = 12 + 6 * s.link.queue.length
      ∧ linkData s = layout (
          [(1, s.link.view.code), (1, s.link.tx.isSome.toNat), (1, s.link.mute.isSome.toNat), (1, muteCauseCode s.link.mute),
            (1, s.link.holeDropped.toNat), (1, s.link.txFault.toNat)]
            ++ (match s.link.slot with
              | some d => [(1, 1), (1, d.notice.phase.code), (1, d.notice.flowClass.code), (1, d.notice.demand),
                  (1, d.onLine.toNat)]
              | none => [(1, 0), (4, 0)])
            ++ [(1, s.link.queue.length)]
            ++ s.link.queue.zipIdx.flatMap fun n => [(2, n.1.row), (1, n.1.slot), (1, n.1.verdict.code),
              (1, n.1.voids.length), (1, (n.2 == 0 && s.link.queueOnLine).toNat)])

/-- READ_SENSORS replies with the status group, the last sample, the cell in assembly and the maximum depth, each in its field,
and, where the group is latched, sets the read mark; UNLATCH acts by R36's three rows and latches again at once where a live
member differs from the snapshot (02 R35, R36, 12 R200, R204). That a field carries its value modulo its width is the model's
(log 19). -/
def Obligations.SensorReadAllowsTheUnlatch : Prop :=
  ∀ (host : Transaction) (s : State), s.resetHeld = false → host.cut = false →
    let answered := fun (status : Status) (data : List Byte) =>
      ({ s with host := { s.host with reply := ⟨status, data⟩, hsdo := clockedOut host.clocks s.host.reply } } : State)
    exec (.readSensors host) s =
        .next { answered .ok (sensorsData s) with
          sensor := { s.sensor with readMark := s.sensor.readMark || s.sensor.latched } }
      ∧ (sensorsData s).length = 19
      ∧ (let group := fun (g : StatusGroup) => memberSet [g.linkUp, g.tempValid, g.rangeClamp, g.pulseActive]
        sensorsData s = layout (
          [(1, s.sensor.latched.toNat), (1, group (if s.sensor.latched = true then s.sensor.snapshot else s.sensor.live)),
            (1, group s.sensor.live)]
            ++ (match s.sensor.last with
              | some x => [(1, 1), (1, x.sequence), (2, x.thrust), (2, x.torque), (2, x.speed), (2, x.feed),
                  (2, (x.temperature % 65536).toNat)]
              | none => [(1, 0), (11, 0)])
            ++ markedField 1 s.assembler.cell ++ [(2, s.assembler.maxDepth)]))
      ∧ (s.sensor.latched = false → exec (.unlatch host) s = .next (answered .ok []))
      ∧ (s.sensor.latched = true → s.sensor.readMark = false → exec (.unlatch host) s = .next (answered .notRead []))
      ∧ (s.sensor.latched = true → s.sensor.readMark = true → s.sensor.live = s.sensor.snapshot →
          exec (.unlatch host) s = .next { answered .ok [] with
            sensor := { s.sensor with latched := false, readMark := false } })
      ∧ (s.sensor.latched = true → s.sensor.readMark = true → s.sensor.live ≠ s.sensor.snapshot →
          exec (.unlatch host) s = .next { answered .ok [] with
            sensor := { s.sensor with snapshot := s.sensor.live, latched := true, readMark := false } })

/-- SELECT_HOLE of a present number selects it with the pointer at 0 and replies with its 26-byte summary, each item in its
field; of an absent one it selects none and replies GONE with the oldest retained and the newest number (10 R171, R172, 12 R200,
R204). That a field carries its value modulo its width is the model's (log 19). -/
def Obligations.SelectHoleMovesTheWindow : Prop :=
  ∀ (host : Transaction) (number : HoleNo) (s : State), s.resetHeld = false → host.cut = false →
    (∀ (first r : HoleRecord), s.history.records.head? = some first →
        s.history.records[(number - first.number).toNat]? = some r →
        exec (.selectHole number host) s =
            .next { s with
              history := { s.history with selection := .hole number, pointer := 0 }
              host := { s.host with
                reply := ⟨.ok, summaryData s.history r⟩, hsdo := clockedOut host.clocks s.host.reply } }
          ∧ (summaryData s.history r).length = 26
          ∧ summaryData s.history r = layout (
              [(2, r.number.toNat), (2, r.row), (1, r.slot), (1, r.planned), (1, r.cells.length), (1, verdictCode r.verdict),
                (1, memberSet [r.flags.mixShort, r.flags.overshoot, r.flags.softTarget, r.flags.proceeded,
                  r.flags.extraCharge, r.flags.lostCells, r.flags.resetCut]),
                (1, memberSet [r.charge.isSome, r.target.isSome, r.band.isSome, r.quarterRevs.isSome, r.peak.isSome]),
                (1, r.outcome.code), (1, r.voidCount), (1, r.softCount), (1, r.hardCount), (1, r.charge.getD 0),
                (2, r.target.getD 0), (1, r.pushed), (1, r.band.getD 0), (1, r.quarterRevs.getD 0), (2, r.peak.getD 0),
                (2, first.number.toNat), (2, (s.history.records.getLast?.map fun x => x.number.toNat).getD 0)]))
      ∧ ((∀ first : HoleRecord, s.history.records.head? = some first →
            s.history.records.length ≤ (number - first.number).toNat) →
          exec (.selectHole number host) s =
            .next { s with
              history := { s.history with selection := .none, pointer := 0 }
              host := { s.host with reply := ⟨.gone, goneData s.history⟩, hsdo := clockedOut host.clocks s.host.reply } })
      ∧ (s.history.records = [] → goneData s.history = [0, 0, 0, 0, 0])
      ∧ (∀ first last : HoleRecord, s.history.records.head? = some first → s.history.records.getLast? = some last →
          goneData s.history = 1 :: (u16 first.number.toNat ++ u16 last.number.toNat))

/-- READ_CELLS: its refusals in order, and the cells a read up or down returns, with the pointer and the END mark it leaves,
each cell in its 12 bytes (10 R173, R174, R175, 12 R204). Nothing else changes but the reply. That a field carries its value
modulo its width is the model's (log 19). -/
def Obligations.ReadCellsWalksThePointer : Prop :=
  (∀ (number : Nat) (c : CellRecord), cellBytes number c = layout
      [(1, number), (1, c.cls.code + 128 * c.capped.toNat), (2, c.n), (3, c.energy), (3, c.specificEnergy),
        (2, c.meanThrust)])
    ∧ ∀ (host : Transaction) (count direction : Byte) (s : State), s.resetHeld = false → host.cut = false →
    let answered := fun (pointer : Nat) (status : Status) (data : List Byte) =>
      ({ s with
        history := { s.history with pointer := pointer }
        host := { s.host with reply := ⟨status, data⟩, hsdo := clockedOut host.clocks s.host.reply } } : State)
    (count.toNat < 1 ∨ 8 < count.toNat ∨ 1 < direction.toNat →
        exec (.readCells count direction host) s = .next (answered s.history.pointer .badArg []))
      ∧ (1 ≤ count.toNat → count.toNat ≤ 8 → direction.toNat ≤ 1 →
          (s.history.selection = .none →
              exec (.readCells count direction host) s = .next (answered s.history.pointer .badState []))
            ∧ (∀ n, s.history.selection = .gone n →
                exec (.readCells count direction host) s =
                  .next (answered s.history.pointer .gone (goneData s.history)))
            ∧ (∀ n r, s.history.selection = .hole n → s.history.present n = some r →
                s.history.pointer ≤ r.cells.length → direction = 0 →
                ∀ returned, returned = min count.toNat (r.cells.length - s.history.pointer) →
                exec (.readCells count direction host) s =
                  .next (answered (s.history.pointer + returned) .ok
                    (u16 n.toNat ++ u8 returned ++ u8 (s.history.pointer + returned)
                      ++ flag (s.history.pointer + returned == r.cells.length)
                      ++ ((List.range returned).flatMap fun i =>
                        ((r.cells[s.history.pointer + i]?).map fun c =>
                          cellBytes (s.history.pointer + i) c).getD []))))
            ∧ (∀ n r, s.history.selection = .hole n → s.history.present n = some r →
                s.history.pointer ≤ r.cells.length → direction = 1 →
                ∀ returned, returned = min count.toNat s.history.pointer →
                exec (.readCells count direction host) s =
                  .next (answered (s.history.pointer - returned) .ok
                    (u16 n.toNat ++ u8 returned ++ u8 (s.history.pointer - returned)
                      ++ flag (s.history.pointer - returned == 0)
                      ++ ((List.range returned).flatMap fun i =>
                        ((r.cells[s.history.pointer - 1 - i]?).map fun c =>
                          cellBytes (s.history.pointer - 1 - i) c).getD [])))))

/-! ### Attention and the watch -/

/-- READ_ATTENTION pushes the highest-priority pending source that outranks the top of the stack, with its data and its
further effect, and replies NONE where no source qualifies; SERVICE_DONE removes the top, and a served watch re-arms by
R198's table (11 R189 to R192, R198). -/
def Obligations.AttentionIsTakenAndServed : Prop :=
  ∀ (host : Transaction) (s : State), s.resetHeld = false → host.cut = false →
    let answered := fun (h : HostBlock) (status : Status) (data : List Byte) =>
      ({ s with host := { h with reply := ⟨status, data⟩, hsdo := clockedOut host.clocks s.host.reply } } : State)
    let outranks := fun (src : Source) => ∀ top, s.host.stack.head? = some top → src.priority < top.priority
    ((∀ src, s.host.isPending src = true → ¬outranks src) →
        exec (.readAttention host) s = .next (answered s.host .none []) ∧ s.attnLow = false)
      ∧ (∀ src, s.host.isPending src = true → outranks src →
          (∀ other, s.host.isPending other = true → outranks other → src.priority ≤ other.priority) →
          s.attnLow = true
            ∧ (∀ e rest, src = .fault → s.host.faults = e :: rest →
                exec (.readAttention host) s =
                  .next (answered { s.host with stack := src :: s.host.stack, faults := rest } .ok
                    ([1] ++ u8 e.code.code ++ flag e.overflow ++ u8 rest.length)))
            ∧ (∀ n, src = .decide → s.cycle.holeNumber = some n →
                exec (.readAttention host) s =
                  .next (answered
                    { s.host with stack := src :: s.host.stack, raised := { s.host.raised with decide := false } } .ok
                    ([2] ++ u16 n.toNat)))
            ∧ (∀ before r after v, src = .holeDone → s.history.records = before ++ r :: after →
                (∀ q ∈ after, q.isOpen = true) → r.verdict = some v →
                exec (.readAttention host) s =
                  .next (answered
                    { s.host with stack := src :: s.host.stack, raised := { s.host.raised with holeDone := false } } .ok
                    ([3] ++ u16 r.number.toNat ++ u8 v.code)))
            ∧ (src = .watch →
                exec (.readAttention host) s =
                  .next (answered
                    { s.host with
                      stack := src :: s.host.stack, raised := { s.host.raised with watch := false }
                      watch := { s.host.watch with arming := .served, fell := false } } .ok
                    ([4] ++ flag s.host.watch.y ++ [(watchInputs s).toByte])))
            ∧ (∀ oldest, src = .history → s.history.records.head? = some oldest →
                exec (.readAttention host) s =
                  .next (answered
                    { s.host with stack := src :: s.host.stack, raised := { s.host.raised with history := false } } .ok
                    ([5] ++ u16 oldest.number.toNat))))
      ∧ (s.host.stack = [] → exec (.serviceDone host) s = .next (answered s.host .badState []))
      ∧ (∀ top rest, s.host.stack = top :: rest →
          (top ≠ .watch ∨ s.host.watch.arming ≠ .served →
              exec (.serviceDone host) s = .next (answered { s.host with stack := rest } .ok (u8 top.code)))
            ∧ (top = .watch → s.host.watch.arming = .served → s.host.watch.fell = true → s.host.watch.y = true →
                exec (.serviceDone host) s =
                  .next (answered
                    { s.host with
                      stack := rest, raised := { s.host.raised with watch := true }
                      watch := { s.host.watch with arming := .fired } } .ok (u8 top.code)))
            ∧ (top = .watch → s.host.watch.arming = .served → s.host.watch.fell = true → s.host.watch.y = false →
                exec (.serviceDone host) s =
                  .next (answered
                    { s.host with stack := rest, watch := { s.host.watch with arming := .armed } } .ok (u8 top.code)))
            ∧ (top = .watch → s.host.watch.arming = .served → s.host.watch.fell = false →
                exec (.serviceDone host) s =
                  .next (answered
                    { s.host with stack := rest, watch := { s.host.watch with arming := .waitFalse } } .ok
                    (u8 top.code))))

/-- SET_WATCH stores the expression, computes Y from the present inputs without firing, withdraws WATCH, arms the watch and
replies with Y; a bad sense or combination is refused. The value of an expression is the AND or the OR of its included inputs
as they count by the sense, false with an empty mask (11 R195, R197). -/
def Obligations.SetWatchArmsTheExpression : Prop :=
  (∀ (host : Transaction) (mask sense combination : Byte) (s : State), s.resetHeld = false → host.cut = false →
      (1 < sense.toNat ∨ 1 < combination.toNat →
          exec (.setWatch mask sense combination host) s =
            .next { s with host := { s.host with reply := ⟨.badArg, []⟩, hsdo := clockedOut host.clocks s.host.reply } })
        ∧ (sense.toNat ≤ 1 → combination.toNat ≤ 1 → ∀ w : Watch,
            w.mask = ⟨mask.getLsbD 0, mask.getLsbD 1, mask.getLsbD 2, mask.getLsbD 3, mask.getLsbD 4, mask.getLsbD 5⟩ →
            w.activeFalse = (sense == 1) → w.isAnd = (combination == 1) → w.y = w.value (watchInputs s) →
            w.arming = .armed → w.fell = false →
            exec (.setWatch mask sense combination host) s =
              .next { s with host := { s.host with
                watch := w, raised := { s.host.raised with watch := false }
                reply := ⟨.ok, if w.y then [1] else [0]⟩, hsdo := clockedOut host.clocks s.host.reply } }))
    ∧ (∀ (w : Watch) (inputs : WatchInputs),
        let pairs := [(w.mask.voidCell, inputs.voidCell), (w.mask.softCell, inputs.softCell),
          (w.mask.hardCell, inputs.hardCell), (w.mask.nearVoid, inputs.nearVoid), (w.mask.flowCut, inputs.flowCut),
          (w.mask.torqueNear, inputs.torqueNear)]
        w.value inputs = true ↔
          (∃ p ∈ pairs, p.1 = true ∧ p.2 ≠ w.activeFalse)
            ∧ (w.isAnd = true → ∀ p ∈ pairs, p.1 = true → p.2 ≠ w.activeFalse))

/-- At the end of an event that changed a watch input the watch is evaluated once, by R196's table; an event that changed
none leaves it (11 R196; log 8). `event` settles an event's work and ends it; RESUME ends its own with `finish` alone. -/
def Obligations.WatchIsEvaluatedOncePerEvent : Prop :=
  ∀ old work t : State, t = event old work ∨ t = finish old work →
    (watchInputs t = watchInputs old →
        t.host.watch = work.host.watch ∧ t.host.raised = work.host.raised)
      ∧ (watchInputs t ≠ watchInputs old → ∀ y : Bool,
          y = work.host.watch.value (watchInputs t) →
          t.host.watch.y = y
            ∧ (work.host.watch.arming = .armed → work.host.watch.y = false → y = true →
                t.host.raised = { work.host.raised with watch := true }
                  ∧ t.host.watch = { work.host.watch with y := true, arming := .fired })
            ∧ (work.host.watch.arming = .armed → work.host.watch.y = true ∨ y = false →
                t.host.raised = work.host.raised
                  ∧ t.host.watch = { work.host.watch with y := y })
            ∧ (work.host.watch.arming = .fired →
                t.host.raised = work.host.raised
                  ∧ t.host.watch = { work.host.watch with y := y })
            ∧ (work.host.watch.arming = .served →
                t.host.raised = work.host.raised
                  ∧ t.host.watch =
                    { work.host.watch with y := y, fell := work.host.watch.fell || !y })
            ∧ (work.host.watch.arming = .waitFalse →
                t.host.raised = work.host.raised
                  ∧ t.host.watch =
                    { work.host.watch with y := y, arming := if y then .waitFalse else .armed }))

/-! ### The deadlines of the flow share unit -/

/-- RELEASE_DEADLINE_EXPIRY queues VALVE_STUCK and disarms; DEMAND_SCHEDULE_EXPIRY re-arms on its phase and places a notice
unless MUTE holds; STALE_DEADLINE_EXPIRY turns the entry STALE and nothing else; REMOVAL_DEADLINE_EXPIRY removes the entry
and recomputes the allowance; a fifth fault overwrites the newest entry with OVERFLOW set (08 R120, R133, R138, R139, 11
R194; log 3). -/
def Obligations.FlowDeadlinesAct : Prop :=
  (∀ (code : FaultCode) (faults : List FaultEntry),
      (faults.length < 4 → joinFault code faults = faults ++ [⟨code, false⟩])
        ∧ (faults.length = 4 → joinFault code faults = faults.take 3 ++ [⟨code, true⟩]))
    ∧ ∀ s : State, s.resetHeld = false →
      (¬(s.flow.interlock = .releasing ∧ deadlineDue s.flow.releaseDeadline s.now = true) →
          exec .releaseDeadlineExpiry s = .next s)
        ∧ (s.flow.interlock = .releasing → deadlineDue s.flow.releaseDeadline s.now = true →
            exec .releaseDeadlineExpiry s =
              .next { s with
                flow := { s.flow with releaseDeadline := none }
                host := { s.host with faults := joinFault .valveStuck s.host.faults } })
        ∧ (deadlineDue s.flow.schedule s.now = false → exec .demandScheduleExpiry s = .next s)
        ∧ (∀ target, s.flow.schedule = some target → expired target s.now = true →
            exec .demandScheduleExpiry s =
              .next { s with
                flow := { s.flow with schedule := some (rearmPeriodic target s.now 250) }
                link := { s.link with
                  slot := if s.cycle.state ≠ .unconfigured ∧ s.muted = false then
                      some ⟨⟨s.cycle.state, ownClass s, ownDemand s⟩, false⟩
                    else s.link.slot } })
        ∧ (∀ station, exec (.staleDeadlineExpiry station) s =
            .next { s with
              flow := { s.flow with
                peers := s.flow.peers.map fun p =>
                  if p.station = station ∧ deadlineDue p.staleDeadline s.now = true then
                    { p with freshness := .stale, staleDeadline := none }
                  else p } })
        ∧ (∀ station, (∀ p ∈ s.flow.peers, p.station = station → expired p.removalDeadline s.now = false) →
            exec (.removalDeadlineExpiry station) s = .next s)
        ∧ (∀ station p, p ∈ s.flow.peers → p.station = station → expired p.removalDeadline s.now = true →
            ∃ t, exec (.removalDeadlineExpiry station) s = .next t
              ∧ t.flow.peers = s.flow.peers.filter (fun q =>
                  !(q.station == station && expired q.removalDeadline s.now))
              ∧ t.cycle.state = s.cycle.state ∧ t.history = s.history ∧ t.sensor = s.sensor
              ∧ t.link = s.link ∧ t.neighbours.entries = s.neighbours.entries ∧ t.host.faults = s.host.faults
              ∧ t.host.reply = s.host.reply ∧ FlowFollows t)

/-! ### The rig link -/

/-- A good frame of another station reaches its table at its last bit: a DEMAND makes or refreshes the station's entry in
rising order, and a HOLE is inserted by R63; in COLLAR or DRILL the predicted set is rebuilt exactly when the inserted entry or
one that the insertion removed qualifies. The set holds the planned cells that a void of a qualifying entry overlaps by 1 mm or
more, each once. The view goes to GAP with the own-last mark clear (04 R63, R64, R68, R69, 08 R119, 09 R141, R143, R144, R148,
R149). A station that starts a frame of its own in the period of the lead bit sends that frame instead. That a void of
length 0 overlaps nothing is the model's reading (log 26); the bit periods are those the sender states (log 10). -/
def Obligations.GoodFramesReachTheirTables : Prop :=
  (∀ (row slot planned : Nat) (entries : List HoleNotice),
      (predictedSet row slot planned entries).Pairwise (fun a b => a < b)
        ∧ ∀ c, c ∈ predictedSet row slot planned entries ↔
            c < planned ∧ ∃ e ∈ entries, e.row ≤ row + 1 ∧ row ≤ e.row + 1 ∧ e.slot ≤ slot + 1 ∧ slot ≤ e.slot + 1
              ∧ ∃ v ∈ e.voids, 0 < v.length ∧ v.start < 20 * (c + 1) ∧ 20 * c < v.start + v.length)
    ∧ ∀ (bits : List Bool) (f : LinkFrame) (s : State), s.resetHeld = false → BringsFrame s bits f → crcGood f = true →
    f.payload.length ≤ 40 → f.station.toNat ≤ 5 → f.station.toNat ≠ s.cfg.station →
    (∀ n : DemandNotice, f.kind = 1 → decodeDemand f.payload = some n →
        s.flow.peers.Pairwise (fun a b => a.station < b.station) →
        ∃ t, exec (.demandFrameReceived bits) s = .next t
          ∧ t.link = { s.link with view := .gap, recessive := 0, ownLast := false, assembly := [] }
          ∧ t.flow.peers =
              s.flow.peers.filter (fun p => decide (p.station < f.station.toNat))
                ++ ⟨f.station.toNat, n.phase, n.flowClass, n.demand, .fresh, s.now, some (after s.now 750),
                  after s.now 2750⟩ :: s.flow.peers.filter (fun p => decide (f.station.toNat < p.station))
          ∧ t.neighbours.entries = s.neighbours.entries ∧ t.neighbours.predicted = s.neighbours.predicted
          ∧ t.cycle.state = s.cycle.state ∧ t.history = s.history ∧ t.sensor = s.sensor
          ∧ t.host.faults = s.host.faults ∧ t.host.reply = s.host.reply ∧ FlowFollows t)
      ∧ (∀ e : HoleNotice, f.kind = 2 → decodeHole f.station.toNat f.payload = some e →
          ∃ (t : State) (removed : List HoleNotice), exec (.holeFrameReceived bits) s = .next t
            ∧ t.link = { s.link with view := .gap, recessive := 0, ownLast := false, assembly := [] }
            ∧ ((∃ x ∈ s.neighbours.entries, x.row = e.row ∧ x.slot = e.slot) →
                removed = s.neighbours.entries.filter (fun x => x.row == e.row && x.slot == e.slot)
                  ∧ t.neighbours.entries =
                    s.neighbours.entries.filter (fun x => !(x.row == e.row && x.slot == e.slot)) ++ [e])
            ∧ ((∀ x ∈ s.neighbours.entries, ¬(x.row = e.row ∧ x.slot = e.slot)) →
                removed = (if 16 ≤ s.neighbours.entries.length then s.neighbours.entries.take 1 else [])
                  ∧ t.neighbours.entries =
                    (if 16 ≤ s.neighbours.entries.length then s.neighbours.entries.drop 1
                    else s.neighbours.entries) ++ [e])
            ∧ (s.cycle.state ≠ .active .collar → s.cycle.state ≠ .active .drill →
                t.neighbours.predicted = s.neighbours.predicted)
            ∧ (s.cycle.state = .active .collar ∨ s.cycle.state = .active .drill →
                (∃ x ∈ e :: removed, qualifies s.cycle.row s.cycle.slot x = true) →
                t.neighbours.predicted =
                  predictedSet s.cycle.row s.cycle.slot s.cycle.planned t.neighbours.entries)
            ∧ ((∀ x ∈ e :: removed, qualifies s.cycle.row s.cycle.slot x = false) →
                t.neighbours.predicted = s.neighbours.predicted)
            ∧ t.flow.peers = s.flow.peers ∧ t.cycle.state = s.cycle.state ∧ t.history = s.history
            ∧ t.sensor = s.sensor ∧ t.host.faults = s.host.faults ∧ t.host.reply = s.host.reply ∧ FlowFollows t)

/-- A frame with a bad CRC sends a follower to SEEKING; one with a good CRC that fails a check of R144 only ends in GAP, and
short of its last bit it leaves nothing but the FRAME it is followed in. A GAP counts the recessive bits in which the station
starts no frame of its own (OwnFramesAreSentOrWait says when it does); a station that is OFF takes none, a SEEKING one only
counts its recessive end, and one that sends reads its own bits back (09 R141 to R144, R149, R151; log 10). -/
def Obligations.OtherFramesAreDiscarded : Prop :=
  ∀ (c : Instr) (bits : List Bool) (f : LinkFrame) (s : State), s.resetHeld = false →
    c ∈ [Instr.demandFrameReceived bits, .holeFrameReceived bits] →
    (BringsFrame s bits f →
        (crcGood f = false →
            exec c s = .next { s with
              link := { s.link with view := .seeking, recessive := 0, ownLast := false, assembly := [] } })
          ∧ (crcGood f = true →
              40 < f.payload.length ∨ 5 < f.station.toNat ∨ (f.kind ≠ 1 ∧ f.kind ≠ 2)
                ∨ (f.kind = 1 ∧ decodeDemand f.payload = none)
                ∨ (f.kind = 2 ∧ decodeHole f.station.toNat f.payload = none) →
              exec c s = .next { s with
                link := { s.link with view := .gap, recessive := 0, ownLast := false, assembly := [] } }))
      ∧ (∀ rest, f.payload.length < 64 → s.link.tx = none → rest ≠ [] → bits ≠ [] →
          (s.link.view = .gap → s.link.starts = false → bits ++ rest = frameBits f →
              exec c s = .next { s with link := { s.link with view := .frame, assembly := bits } })
            ∧ (s.link.view = .frame → s.link.assembly ++ (bits ++ rest) = frameBits f →
              exec c s = .next { s with link := { s.link with assembly := s.link.assembly ++ bits } }))
      ∧ (∀ rest g, s.link.view = .frame → s.link.tx = some g → rest ≠ [] →
          s.link.assembly ++ (bits ++ rest) = frameBits g →
          exec c s = .next { s with link := { s.link with assembly := s.link.assembly ++ bits } })
      ∧ (∀ n, bits = List.replicate n true → s.link.view = .gap →
          (∀ k, k < n → ({ s.link with recessive := s.link.recessive + k } : LinkBlock).starts = false) →
          exec c s = .next { s with link := { s.link with recessive := s.link.recessive + n } })
      ∧ (s.link.view = .off → exec c s = .next s)
      ∧ (s.link.view = .seeking →
          (f.payload.length < 64 → bits = frameBits f →
              exec c s = .next { s with link := { s.link with recessive := trailingRecessive bits } })
            ∧ (∀ n, bits = List.replicate n true → s.link.recessive < 544 → 544 ≤ s.link.recessive + n →
              (∀ k, 544 ≤ k → k < s.link.recessive + n →
                ({ s.link with view := .gap, recessive := k } : LinkBlock).starts = false) →
              exec c s = .next { s with
                link := { s.link with view := .gap, recessive := s.link.recessive + n } }))

/-- The own frames: SEEKING_COMPLETE opens the line, FRAME_START sends the slot's notice or else the oldest of the queue where
every condition of R149 holds, FRAME_SENT removes the notice with the on-line mark, ARBITRATION_LOST keeps it and goes on as a
receiver, TRANSMIT_FAULT keeps it and goes to SEEKING with TX_FAULT set; where its conditions do not hold an event changes
nothing. The start is at the first bit period in which all the conditions hold: the next bit period that is read is then the
lead bit of the own frame, also where another station's lead bit falls into it, and LTX is dominant. LTX is recessive for a
station that neither starts nor sends, and at the bit still to be read back while it sends. A bit period read as it was sent up
to the last is FRAME_SENT, and the first that differs is the event of its place and level (09 R140, R141, R149 to R154, R157,
R161). That an event which the line cannot give changes nothing, that
FRAME_START carries the recessive bits before it and that SEEKING_COMPLETE states the 544 are the model's choices (log 10,
log 14); LTX as a function of the state is its reading (log 7). -/
def Obligations.OwnFramesAreSentOrWait : Prop :=
  ∀ s : State,
    ((s.link.tx = none → (s.ltx = false ↔ s.link.view = .gap ∧ 11 ≤ s.link.recessive
          ∧ (s.link.ownLast = true → 19 ≤ s.link.recessive) ∧ s.link.mute = none
          ∧ (s.link.slot ≠ none ∨ (s.link.queue ≠ [] ∧ s.link.queueOnLine = false))))
      ∧ (∀ f, s.link.tx = some f → s.link.assembly = [] → s.ltx = false)
      ∧ (∀ f level, s.link.tx = some f → (frameBits f)[s.link.assembly.length]? = some level → s.ltx = level))
    ∧ (s.resetHeld = false →
    (exec .seekingComplete s =
        .next (if s.link.view = .seeking then { s with link := { s.link with view := .gap, recessive := 544 } } else s))
      ∧ (∀ recessive count need : Nat, count = s.link.recessive + recessive → need = (if s.link.ownLast then 19 else 11) →
          (s.link.view ≠ .gap ∨ count < need ∨ s.link.mute ≠ none
              ∨ (s.link.slot = none ∧ (s.link.queue = [] ∨ s.link.queueOnLine = true)) →
            exec (.frameStart recessive) s = .next s)
          ∧ (s.link.view = .gap → need ≤ count → s.link.mute = none →
              (∀ d, s.link.slot = some d →
                  exec (.frameStart recessive) s = .next { s with
                    link := { s.link with
                      view := .frame, recessive := max s.link.recessive need, assembly := []
                      slot := some { d with onLine := true }
                      tx := some (buildFrame 1 s.cfg.station (encodeDemand d.notice)) } })
                ∧ (∀ n rest, s.link.slot = none → s.link.queue = n :: rest → s.link.queueOnLine = false →
                    exec (.frameStart recessive) s = .next { s with
                      link := { s.link with
                        view := .frame, recessive := max s.link.recessive need, assembly := [], queueOnLine := true
                        tx := some (buildFrame 2 s.cfg.station (encodeHole n)) } })
                ∧ (s.link.slot ≠ none ∨ (s.link.queue ≠ [] ∧ s.link.queueOnLine = false) →
                    count = max s.link.recessive need → ∀ bits, bits ≠ [] →
                    ∃ u, exec (.frameStart recessive) s = .next u ∧ u.link.view = .frame ∧ u.ltx = false
                      ∧ exec (.demandFrameReceived (List.replicate recessive true ++ bits)) s = exec (.demandFrameReceived bits) u
                      ∧ exec (.holeFrameReceived (List.replicate recessive true ++ bits)) s = exec (.holeFrameReceived bits) u)))
      ∧ (s.link.view ≠ .frame ∨ s.link.tx = none →
          exec .frameSent s = .next s ∧ (∀ bit, exec (.arbitrationLost bit) s = .next s)
            ∧ (∀ bit, exec (.transmitFault bit) s = .next s) ∧ (∀ bit, exec (.duplicateOverridden bit) s = .next s))
      ∧ (∀ f, s.link.view = .frame → s.link.tx = some f →
          (exec .frameSent s = .next { s with
              link := { s.link with
                slot := s.link.slot.filter (fun d => !d.onLine)
                queue := if s.link.queueOnLine then s.link.queue.drop 1 else s.link.queue
                queueOnLine := false, tx := none, ownLast := true, view := .gap, recessive := 0, assembly := [] } })
            ∧ (∀ bit, 1 ≤ bit → bit ≤ 6 → s.link.assembly.length ≤ bit → (frameBits f)[bit]? = some true →
                exec (.arbitrationLost bit) s = .next { s with
                  link := { s.link with
                    slot := s.link.slot.map (fun d => { d with onLine := false }), queueOnLine := false, tx := none
                    assembly := (frameBits f).take bit ++ [false] } })
            ∧ (∀ bit, bit < 1 ∨ 6 < bit ∨ bit < s.link.assembly.length ∨ (frameBits f)[bit]? ≠ some true →
                exec (.arbitrationLost bit) s = .next s)
            ∧ (∀ bit, s.link.assembly.length ≤ bit → (frameBits f)[bit]? = some false →
                exec (.transmitFault bit) s = .next { s with
                  link := { s.link with
                    slot := s.link.slot.map (fun d => { d with onLine := false }), queueOnLine := false, tx := none
                    txFault := true, view := .seeking, recessive := 0, ownLast := false, assembly := [] } })
            ∧ (∀ bit, bit < s.link.assembly.length ∨ (frameBits f)[bit]? ≠ some false →
                exec (.transmitFault bit) s = .next s)
            ∧ (∀ bit, bit < 7 ∨ bit < s.link.assembly.length ∨ (frameBits f)[bit]? ≠ some true →
                exec (.duplicateOverridden bit) s = .next s)
            ∧ (∀ bits, bits ≠ [] →
                (s.link.assembly ++ bits = frameBits f → exec (.demandFrameReceived bits) s = exec .frameSent s)
                  ∧ (∀ level rest, s.link.assembly ++ (bits.dropLast ++ level :: rest) = frameBits f →
                      bits.getLast? = some (!level) →
                      exec (.demandFrameReceived bits) s =
                        exec (if level = false then .transmitFault (s.link.assembly.length + bits.dropLast.length)
                          else if s.link.assembly.length + bits.dropLast.length ≤ 6 then
                            .arbitrationLost (s.link.assembly.length + bits.dropLast.length)
                          else .duplicateOverridden (s.link.assembly.length + bits.dropLast.length)) s)
                  ∧ exec (.holeFrameReceived bits) s = exec (.demandFrameReceived bits) s)))

/-- A duplicate found by being overridden in the length, payload or CRC field, or by a good frame with the own number, sets
MUTE with its cause, abandons the own frame, empties the slot and the queue, queues DUPLICATE, and suspends COLLAR, DRILL,
RETRACT, and INSERT with no stroke in progress; every other state goes on. The station follows the frame that overrode its own,
which ends with a bad CRC where its last bit was the one overridden. In a station already muted it queues nothing and the cause
stays (09 R143, R151, R154, R155, R156, 01 R20). The bit periods that bring a frame are those the sender states (log 10). -/
def Obligations.DuplicateMutesTheStation : Prop :=
  ∀ (c : Instr) (f : LinkFrame) (bit : Nat) (bits : List Bool) (cause : MuteCause) (s : State), s.resetHeld = false →
    CycleSound s → FlowSound s → TimersSound s → LinkSound s →
    ((c = .duplicateOverridden bit ∧ cause = .overridden ∧ s.link.view = .frame ∧ s.link.tx = some f ∧ 7 ≤ bit
          ∧ s.link.assembly.length ≤ bit ∧ (frameBits f)[bit]? = some true)
      ∨ ((c = .demandFrameReceived bits ∨ c = .holeFrameReceived bits) ∧ cause = .heard ∧ BringsFrame s bits f
          ∧ crcGood f = true ∧ f.payload.length ≤ 40 ∧ f.station.toNat = s.cfg.station ∧ s.cfg.station ≤ 5
          ∧ ((f.kind = 1 ∧ (decodeDemand f.payload).isSome = true)
            ∨ (f.kind = 2 ∧ (decodeHole f.station.toNat f.payload).isSome = true)))) →
    ∃ t, exec c s = .next t ∧ t.flow.peers = s.flow.peers ∧ t.neighbours.entries = s.neighbours.entries
      ∧ t.link.holeDropped = s.link.holeDropped ∧ t.host.reply = s.host.reply ∧ t.link.tx = none ∧ t.ltx = true
      ∧ (cause = .heard → t.link.view = .gap ∧ t.link.assembly = [])
      ∧ (cause = .overridden → bit + 1 = (frameBits f).length → t.link.view = .seeking ∧ t.link.assembly = [])
      ∧ (cause = .overridden → bit + 1 ≠ (frameBits f).length →
          t.link.view = .frame ∧ t.link.assembly = (frameBits f).take bit ++ [false])
      ∧ (s.muted = true → t.link.mute = s.link.mute ∧ t.host.faults = s.host.faults ∧ t.history = s.history
          ∧ t.cycle.state = s.cycle.state)
      ∧ (s.muted = false → t.link.mute = some cause ∧ t.link.slot = none ∧ t.link.queue = []
          ∧ t.host.faults = joinFault .duplicate s.host.faults
          ∧ (∀ p, s.cycle.state = .active p →
              p = .collar ∨ p = .drill ∨ p = .retract ∨ (p = .insert ∧ s.resin.stroke ≠ .inProgress) →
              Suspended s p .mute t)
          ∧ ((∀ p, s.cycle.state = .active p →
                p = .mix ∨ p = .hold ∨ p = .torque ∨ (p = .insert ∧ s.resin.stroke = .inProgress)) →
              t.cycle.state = s.cycle.state ∧ t.history = s.history ∧ FlowFollows t
                ∧ (s.resin.stroke = .inProgress → t.resin = s.resin)))

/-! ### Frames and payloads read back -/

/-- Every frame the host sends for a well-formed command is taken as that command, whatever bits follow its check byte, and a
transaction without a whole byte is no event. HSDO carries the reply buffer's frame from the first bit on, then ones to the end
of the transaction, which ends a longer reply where it stops; it is not driven while HSEL_N is high (11 R178, R179, 12 R204). -/
def Obligations.HostFramesAreReadBack : Prop :=
  (∀ (i : Instr) (cut : Bool) (bytes : List Byte) (padding : List Bool), i.WellFormed = true → hostFrame i = some bytes →
      i.transaction = some ⟨8 * bytes.length + padding.length, cut⟩ →
      hostTransaction i.canopyRise cut (bytes.flatMap bitsOf ++ padding) = some i)
    ∧ (∀ (rise cut : Bool) (bits : List Bool), bits.length < 8 → hostTransaction rise cut bits = none)
    ∧ (∀ (clocks : Nat) (r : Reply), (clockedOut clocks r).length = clocks
        ∧ ∀ k, k < clocks → (clockedOut clocks r)[k]? =
            some (if k < 8 * (replyFrame r).length then ((replyFrame r).flatMap bitsOf).getD k true else true))
    ∧ (∀ r : Reply, byteSum (replyFrame r) = 0 ∧ (replyFrame r).length = r.data.length + 3)
    ∧ (∀ (s : State) (clock : Nat), s.hsdoLevel true clock = none
        ∧ ∀ clocks, clock < clocks → s.hsdoLevel false clock = (clockedOut clocks s.host.reply)[clock]?)

/-- Every DEMAND and HOLE notice within its ranges is read back from its payload, its frame carries a good CRC, the kind and
the station it was built with, and its payload is at most 40 bytes long; a frame is read from its bits as it was written (09
R140, R143, R145, R146, R147, 12 R203). The own notice of a record carries 20 mm for each closed cell and one interval for each
maximal run of VOID cells, of more than eight the eight deepest, in rising order (04 R66, R67). -/
def Obligations.NoticesAreReadBack : Prop :=
  (∀ n : DemandNotice, n.demand ≤ 255 →
      decodeDemand (encodeDemand n) = some n ∧ (encodeDemand n).length = 3)
    ∧ (∀ n : HoleNotice, n.row ≤ 4095 → n.slot ≤ 7 → n.depth ≤ 16383 → n.voids.length ≤ 8 →
        (∀ v ∈ n.voids, v.start ≤ 16383 ∧ v.length ≤ 16383) →
        decodeHole n.station (encodeHole n) = some n ∧ (encodeHole n).length ≤ 40)
    ∧ (∀ (kind : BitVec 3) (station : Nat) (payload : List Byte), station ≤ 5 →
        crcGood (buildFrame kind station payload) = true ∧ (buildFrame kind station payload).kind = kind
          ∧ (buildFrame kind station payload).station.toNat = station
          ∧ (buildFrame kind station payload).payload = payload)
    ∧ (∀ f : LinkFrame, f.payload.length < 64 → (frameBits f).length = 29 + 8 * f.payload.length
        ∧ frameRead (frameBits f) = f
        ∧ ∀ read rest, read ++ rest = frameBits f → (frameWhole read = true ↔ rest = []))
    ∧ (∀ (station : Nat) (v : Verdict) (r : HoleRecord),
        composeNotice station v r = ⟨station, r.row, r.slot, r.cells.length * 20, v, voidList r.cells⟩)
    ∧ (∀ cells : List CellRecord,
        (voidList cells).length ≤ 8 ∧ (voidList cells).Pairwise (fun a b => a.start < b.start)
          ∧ (∀ v ∈ voidList cells, ∃ first count, VoidRun cells first count ∧ v = ⟨first * 20, count * 20⟩)
          ∧ (∀ first count, VoidRun cells first count →
              ⟨first * 20, count * 20⟩ ∈ voidList cells
                ∨ ((voidList cells).length = 8 ∧ ∀ v ∈ voidList cells, first * 20 < v.start)))

/-! ### What every step keeps -/

/-- Every step keeps the cycle's items in agreement with its state, the pausable timers running exactly with their phases, and
the charge and the torque figures chosen. -/
def Obligations.StepsKeepTheCycleSound : Prop :=
  ∀ s t : State, step s = .next t → CycleSound s →
    CycleSound t ∧ (TimersSound s → TimersSound t) ∧ (ConfigSound s → ChargeSound s → ChargeSound t)

/-- Every step keeps the flow figures, the setpoints and the interlock in agreement with the state, and the last record on
VTX with the setpoints. -/
def Obligations.StepsKeepTheFlowSound : Prop :=
  ∀ s t : State, step s = .next t → CycleSound s → FlowSound s →
    FlowSound t ∧ (VtxSound s → VtxSound t)

/-- Every step keeps the pool and the ring of the hole history, the consecutive numbers, the profile window within its
record, and the cell in assembly in step with the OPEN record. -/
def Obligations.StepsKeepTheHistorySound : Prop :=
  ∀ s t : State, step s = .next t → CycleSound s → HistorySound s →
    HistorySound t ∧ (NumbersSound s → NumbersSound t) ∧ (NumbersSound s → WindowSound s → WindowSound t)
      ∧ (AssemblerSound s → AssemblerSound t)

/-- Every step keeps the in-service stack rising and the fault queue within four entries, the watch in agreement with its
inputs, and the status group in agreement with its deadlines. -/
def Obligations.StepsKeepTheAttentionSound : Prop :=
  ∀ s t : State, step s = .next t →
    (AttentionSound s → AttentionSound t) ∧ (WatchSound s → WatchSound t) ∧ (SensorSound s → SensorSound t)

/-- Every step keeps the configuration standing exactly outside UNCONFIGURED, the link's queue, MUTE and the bits of the frame on
the line, the neighbour table's keys, and the peer table's order. -/
def Obligations.StepsKeepTheLinkSound : Prop :=
  ∀ s t : State, step s = .next t →
    (NeighboursSound s → NeighboursSound t)
      ∧ (CycleSound s → ConfigSound s → LinkSound s →
          ConfigSound t ∧ LinkSound t ∧ (PeersSound s → PeersSound t))

/-- Everything the steps keep holds right after power-on. -/
def Obligations.EverythingIsSoundAtReset : Prop :=
  let s := State.reset
  CycleSound s ∧ FlowSound s ∧ VtxSound s ∧ TimersSound s ∧ ChargeSound s ∧ HistorySound s ∧ NumbersSound s ∧ WindowSound s
    ∧ AssemblerSound s ∧ AttentionSound s ∧ WatchSound s ∧ SensorSound s ∧ LinkSound s ∧ ConfigSound s
    ∧ NeighboursSound s ∧ PeersSound s
end

