-- ==== Sys2Proof/Laws/State.lean ====
section
/-! SUPPORT. What each update of one block does to each field of the state: one lemma per field, so that no proof unfolds a
record update. -/

namespace Sys2Proof.Machine

@[simp] theorem State.onCycle_pending (s : State) (f : CycleBlock → CycleBlock) : (s.onCycle f).pending = s.pending := rfl
@[simp] theorem State.onCycle_resetHeld (s : State) (f : CycleBlock → CycleBlock) : (s.onCycle f).resetHeld = s.resetHeld := rfl
@[simp] theorem State.onCycle_canopySet (s : State) (f : CycleBlock → CycleBlock) : (s.onCycle f).canopySet = s.canopySet := rfl
@[simp] theorem State.onCycle_valveReady (s : State) (f : CycleBlock → CycleBlock) : (s.onCycle f).valveReady = s.valveReady := rfl
@[simp] theorem State.onCycle_cycle (s : State) (f : CycleBlock → CycleBlock) : (s.onCycle f).cycle = f s.cycle := rfl
@[simp] theorem State.onCycle_sensor (s : State) (f : CycleBlock → CycleBlock) : (s.onCycle f).sensor = s.sensor := rfl
@[simp] theorem State.onCycle_assembler (s : State) (f : CycleBlock → CycleBlock) : (s.onCycle f).assembler = s.assembler := rfl
@[simp] theorem State.onCycle_neighbours (s : State) (f : CycleBlock → CycleBlock) : (s.onCycle f).neighbours = s.neighbours := rfl
@[simp] theorem State.onCycle_anchor (s : State) (f : CycleBlock → CycleBlock) : (s.onCycle f).anchor = s.anchor := rfl
@[simp] theorem State.onCycle_resin (s : State) (f : CycleBlock → CycleBlock) : (s.onCycle f).resin = s.resin := rfl
@[simp] theorem State.onCycle_torque (s : State) (f : CycleBlock → CycleBlock) : (s.onCycle f).torque = s.torque := rfl
@[simp] theorem State.onCycle_flow (s : State) (f : CycleBlock → CycleBlock) : (s.onCycle f).flow = s.flow := rfl
@[simp] theorem State.onCycle_link (s : State) (f : CycleBlock → CycleBlock) : (s.onCycle f).link = s.link := rfl
@[simp] theorem State.onCycle_history (s : State) (f : CycleBlock → CycleBlock) : (s.onCycle f).history = s.history := rfl
@[simp] theorem State.onCycle_host (s : State) (f : CycleBlock → CycleBlock) : (s.onCycle f).host = s.host := rfl
@[simp] theorem State.onCycle_freeDraws (s : State) (f : CycleBlock → CycleBlock) : (s.onCycle f).freeDraws = s.freeDraws := rfl

@[simp] theorem State.onSensor_pending (s : State) (f : SensorBlock → SensorBlock) : (s.onSensor f).pending = s.pending := rfl
@[simp] theorem State.onSensor_resetHeld (s : State) (f : SensorBlock → SensorBlock) : (s.onSensor f).resetHeld = s.resetHeld := rfl
@[simp] theorem State.onSensor_canopySet (s : State) (f : SensorBlock → SensorBlock) : (s.onSensor f).canopySet = s.canopySet := rfl
@[simp] theorem State.onSensor_valveReady (s : State) (f : SensorBlock → SensorBlock) : (s.onSensor f).valveReady = s.valveReady := rfl
@[simp] theorem State.onSensor_cycle (s : State) (f : SensorBlock → SensorBlock) : (s.onSensor f).cycle = s.cycle := rfl
@[simp] theorem State.onSensor_sensor (s : State) (f : SensorBlock → SensorBlock) : (s.onSensor f).sensor = f s.sensor := rfl
@[simp] theorem State.onSensor_assembler (s : State) (f : SensorBlock → SensorBlock) : (s.onSensor f).assembler = s.assembler := rfl
@[simp] theorem State.onSensor_neighbours (s : State) (f : SensorBlock → SensorBlock) : (s.onSensor f).neighbours = s.neighbours := rfl
@[simp] theorem State.onSensor_anchor (s : State) (f : SensorBlock → SensorBlock) : (s.onSensor f).anchor = s.anchor := rfl
@[simp] theorem State.onSensor_resin (s : State) (f : SensorBlock → SensorBlock) : (s.onSensor f).resin = s.resin := rfl
@[simp] theorem State.onSensor_torque (s : State) (f : SensorBlock → SensorBlock) : (s.onSensor f).torque = s.torque := rfl
@[simp] theorem State.onSensor_flow (s : State) (f : SensorBlock → SensorBlock) : (s.onSensor f).flow = s.flow := rfl
@[simp] theorem State.onSensor_link (s : State) (f : SensorBlock → SensorBlock) : (s.onSensor f).link = s.link := rfl
@[simp] theorem State.onSensor_history (s : State) (f : SensorBlock → SensorBlock) : (s.onSensor f).history = s.history := rfl
@[simp] theorem State.onSensor_host (s : State) (f : SensorBlock → SensorBlock) : (s.onSensor f).host = s.host := rfl
@[simp] theorem State.onSensor_freeDraws (s : State) (f : SensorBlock → SensorBlock) : (s.onSensor f).freeDraws = s.freeDraws := rfl

@[simp] theorem State.onAssembler_pending (s : State) (f : AssemblerBlock → AssemblerBlock) : (s.onAssembler f).pending = s.pending := rfl
@[simp] theorem State.onAssembler_resetHeld (s : State) (f : AssemblerBlock → AssemblerBlock) : (s.onAssembler f).resetHeld = s.resetHeld := rfl
@[simp] theorem State.onAssembler_canopySet (s : State) (f : AssemblerBlock → AssemblerBlock) : (s.onAssembler f).canopySet = s.canopySet := rfl
@[simp] theorem State.onAssembler_valveReady (s : State) (f : AssemblerBlock → AssemblerBlock) : (s.onAssembler f).valveReady = s.valveReady := rfl
@[simp] theorem State.onAssembler_cycle (s : State) (f : AssemblerBlock → AssemblerBlock) : (s.onAssembler f).cycle = s.cycle := rfl
@[simp] theorem State.onAssembler_sensor (s : State) (f : AssemblerBlock → AssemblerBlock) : (s.onAssembler f).sensor = s.sensor := rfl
@[simp] theorem State.onAssembler_assembler (s : State) (f : AssemblerBlock → AssemblerBlock) : (s.onAssembler f).assembler = f s.assembler := rfl
@[simp] theorem State.onAssembler_neighbours (s : State) (f : AssemblerBlock → AssemblerBlock) : (s.onAssembler f).neighbours = s.neighbours := rfl
@[simp] theorem State.onAssembler_anchor (s : State) (f : AssemblerBlock → AssemblerBlock) : (s.onAssembler f).anchor = s.anchor := rfl
@[simp] theorem State.onAssembler_resin (s : State) (f : AssemblerBlock → AssemblerBlock) : (s.onAssembler f).resin = s.resin := rfl
@[simp] theorem State.onAssembler_torque (s : State) (f : AssemblerBlock → AssemblerBlock) : (s.onAssembler f).torque = s.torque := rfl
@[simp] theorem State.onAssembler_flow (s : State) (f : AssemblerBlock → AssemblerBlock) : (s.onAssembler f).flow = s.flow := rfl
@[simp] theorem State.onAssembler_link (s : State) (f : AssemblerBlock → AssemblerBlock) : (s.onAssembler f).link = s.link := rfl
@[simp] theorem State.onAssembler_history (s : State) (f : AssemblerBlock → AssemblerBlock) : (s.onAssembler f).history = s.history := rfl
@[simp] theorem State.onAssembler_host (s : State) (f : AssemblerBlock → AssemblerBlock) : (s.onAssembler f).host = s.host := rfl
@[simp] theorem State.onAssembler_freeDraws (s : State) (f : AssemblerBlock → AssemblerBlock) : (s.onAssembler f).freeDraws = s.freeDraws := rfl

@[simp] theorem State.onNeighbours_pending (s : State) (f : NeighbourBlock → NeighbourBlock) : (s.onNeighbours f).pending = s.pending := rfl
@[simp] theorem State.onNeighbours_resetHeld (s : State) (f : NeighbourBlock → NeighbourBlock) : (s.onNeighbours f).resetHeld = s.resetHeld := rfl
@[simp] theorem State.onNeighbours_canopySet (s : State) (f : NeighbourBlock → NeighbourBlock) : (s.onNeighbours f).canopySet = s.canopySet := rfl
@[simp] theorem State.onNeighbours_valveReady (s : State) (f : NeighbourBlock → NeighbourBlock) : (s.onNeighbours f).valveReady = s.valveReady := rfl
@[simp] theorem State.onNeighbours_cycle (s : State) (f : NeighbourBlock → NeighbourBlock) : (s.onNeighbours f).cycle = s.cycle := rfl
@[simp] theorem State.onNeighbours_sensor (s : State) (f : NeighbourBlock → NeighbourBlock) : (s.onNeighbours f).sensor = s.sensor := rfl
@[simp] theorem State.onNeighbours_assembler (s : State) (f : NeighbourBlock → NeighbourBlock) : (s.onNeighbours f).assembler = s.assembler := rfl
@[simp] theorem State.onNeighbours_neighbours (s : State) (f : NeighbourBlock → NeighbourBlock) : (s.onNeighbours f).neighbours = f s.neighbours := rfl
@[simp] theorem State.onNeighbours_anchor (s : State) (f : NeighbourBlock → NeighbourBlock) : (s.onNeighbours f).anchor = s.anchor := rfl
@[simp] theorem State.onNeighbours_resin (s : State) (f : NeighbourBlock → NeighbourBlock) : (s.onNeighbours f).resin = s.resin := rfl
@[simp] theorem State.onNeighbours_torque (s : State) (f : NeighbourBlock → NeighbourBlock) : (s.onNeighbours f).torque = s.torque := rfl
@[simp] theorem State.onNeighbours_flow (s : State) (f : NeighbourBlock → NeighbourBlock) : (s.onNeighbours f).flow = s.flow := rfl
@[simp] theorem State.onNeighbours_link (s : State) (f : NeighbourBlock → NeighbourBlock) : (s.onNeighbours f).link = s.link := rfl
@[simp] theorem State.onNeighbours_history (s : State) (f : NeighbourBlock → NeighbourBlock) : (s.onNeighbours f).history = s.history := rfl
@[simp] theorem State.onNeighbours_host (s : State) (f : NeighbourBlock → NeighbourBlock) : (s.onNeighbours f).host = s.host := rfl
@[simp] theorem State.onNeighbours_freeDraws (s : State) (f : NeighbourBlock → NeighbourBlock) : (s.onNeighbours f).freeDraws = s.freeDraws := rfl

@[simp] theorem State.onAnchor_pending (s : State) (f : AnchorBlock → AnchorBlock) : (s.onAnchor f).pending = s.pending := rfl
@[simp] theorem State.onAnchor_resetHeld (s : State) (f : AnchorBlock → AnchorBlock) : (s.onAnchor f).resetHeld = s.resetHeld := rfl
@[simp] theorem State.onAnchor_canopySet (s : State) (f : AnchorBlock → AnchorBlock) : (s.onAnchor f).canopySet = s.canopySet := rfl
@[simp] theorem State.onAnchor_valveReady (s : State) (f : AnchorBlock → AnchorBlock) : (s.onAnchor f).valveReady = s.valveReady := rfl
@[simp] theorem State.onAnchor_cycle (s : State) (f : AnchorBlock → AnchorBlock) : (s.onAnchor f).cycle = s.cycle := rfl
@[simp] theorem State.onAnchor_sensor (s : State) (f : AnchorBlock → AnchorBlock) : (s.onAnchor f).sensor = s.sensor := rfl
@[simp] theorem State.onAnchor_assembler (s : State) (f : AnchorBlock → AnchorBlock) : (s.onAnchor f).assembler = s.assembler := rfl
@[simp] theorem State.onAnchor_neighbours (s : State) (f : AnchorBlock → AnchorBlock) : (s.onAnchor f).neighbours = s.neighbours := rfl
@[simp] theorem State.onAnchor_anchor (s : State) (f : AnchorBlock → AnchorBlock) : (s.onAnchor f).anchor = f s.anchor := rfl
@[simp] theorem State.onAnchor_resin (s : State) (f : AnchorBlock → AnchorBlock) : (s.onAnchor f).resin = s.resin := rfl
@[simp] theorem State.onAnchor_torque (s : State) (f : AnchorBlock → AnchorBlock) : (s.onAnchor f).torque = s.torque := rfl
@[simp] theorem State.onAnchor_flow (s : State) (f : AnchorBlock → AnchorBlock) : (s.onAnchor f).flow = s.flow := rfl
@[simp] theorem State.onAnchor_link (s : State) (f : AnchorBlock → AnchorBlock) : (s.onAnchor f).link = s.link := rfl
@[simp] theorem State.onAnchor_history (s : State) (f : AnchorBlock → AnchorBlock) : (s.onAnchor f).history = s.history := rfl
@[simp] theorem State.onAnchor_host (s : State) (f : AnchorBlock → AnchorBlock) : (s.onAnchor f).host = s.host := rfl
@[simp] theorem State.onAnchor_freeDraws (s : State) (f : AnchorBlock → AnchorBlock) : (s.onAnchor f).freeDraws = s.freeDraws := rfl

@[simp] theorem State.onResin_pending (s : State) (f : ResinBlock → ResinBlock) : (s.onResin f).pending = s.pending := rfl
@[simp] theorem State.onResin_resetHeld (s : State) (f : ResinBlock → ResinBlock) : (s.onResin f).resetHeld = s.resetHeld := rfl
@[simp] theorem State.onResin_canopySet (s : State) (f : ResinBlock → ResinBlock) : (s.onResin f).canopySet = s.canopySet := rfl
@[simp] theorem State.onResin_valveReady (s : State) (f : ResinBlock → ResinBlock) : (s.onResin f).valveReady = s.valveReady := rfl
@[simp] theorem State.onResin_cycle (s : State) (f : ResinBlock → ResinBlock) : (s.onResin f).cycle = s.cycle := rfl
@[simp] theorem State.onResin_sensor (s : State) (f : ResinBlock → ResinBlock) : (s.onResin f).sensor = s.sensor := rfl
@[simp] theorem State.onResin_assembler (s : State) (f : ResinBlock → ResinBlock) : (s.onResin f).assembler = s.assembler := rfl
@[simp] theorem State.onResin_neighbours (s : State) (f : ResinBlock → ResinBlock) : (s.onResin f).neighbours = s.neighbours := rfl
@[simp] theorem State.onResin_anchor (s : State) (f : ResinBlock → ResinBlock) : (s.onResin f).anchor = s.anchor := rfl
@[simp] theorem State.onResin_resin (s : State) (f : ResinBlock → ResinBlock) : (s.onResin f).resin = f s.resin := rfl
@[simp] theorem State.onResin_torque (s : State) (f : ResinBlock → ResinBlock) : (s.onResin f).torque = s.torque := rfl
@[simp] theorem State.onResin_flow (s : State) (f : ResinBlock → ResinBlock) : (s.onResin f).flow = s.flow := rfl
@[simp] theorem State.onResin_link (s : State) (f : ResinBlock → ResinBlock) : (s.onResin f).link = s.link := rfl
@[simp] theorem State.onResin_history (s : State) (f : ResinBlock → ResinBlock) : (s.onResin f).history = s.history := rfl
@[simp] theorem State.onResin_host (s : State) (f : ResinBlock → ResinBlock) : (s.onResin f).host = s.host := rfl
@[simp] theorem State.onResin_freeDraws (s : State) (f : ResinBlock → ResinBlock) : (s.onResin f).freeDraws = s.freeDraws := rfl

@[simp] theorem State.onTorque_pending (s : State) (f : TorqueBlock → TorqueBlock) : (s.onTorque f).pending = s.pending := rfl
@[simp] theorem State.onTorque_resetHeld (s : State) (f : TorqueBlock → TorqueBlock) : (s.onTorque f).resetHeld = s.resetHeld := rfl
@[simp] theorem State.onTorque_canopySet (s : State) (f : TorqueBlock → TorqueBlock) : (s.onTorque f).canopySet = s.canopySet := rfl
@[simp] theorem State.onTorque_valveReady (s : State) (f : TorqueBlock → TorqueBlock) : (s.onTorque f).valveReady = s.valveReady := rfl
@[simp] theorem State.onTorque_cycle (s : State) (f : TorqueBlock → TorqueBlock) : (s.onTorque f).cycle = s.cycle := rfl
@[simp] theorem State.onTorque_sensor (s : State) (f : TorqueBlock → TorqueBlock) : (s.onTorque f).sensor = s.sensor := rfl
@[simp] theorem State.onTorque_assembler (s : State) (f : TorqueBlock → TorqueBlock) : (s.onTorque f).assembler = s.assembler := rfl
@[simp] theorem State.onTorque_neighbours (s : State) (f : TorqueBlock → TorqueBlock) : (s.onTorque f).neighbours = s.neighbours := rfl
@[simp] theorem State.onTorque_anchor (s : State) (f : TorqueBlock → TorqueBlock) : (s.onTorque f).anchor = s.anchor := rfl
@[simp] theorem State.onTorque_resin (s : State) (f : TorqueBlock → TorqueBlock) : (s.onTorque f).resin = s.resin := rfl
@[simp] theorem State.onTorque_torque (s : State) (f : TorqueBlock → TorqueBlock) : (s.onTorque f).torque = f s.torque := rfl
@[simp] theorem State.onTorque_flow (s : State) (f : TorqueBlock → TorqueBlock) : (s.onTorque f).flow = s.flow := rfl
@[simp] theorem State.onTorque_link (s : State) (f : TorqueBlock → TorqueBlock) : (s.onTorque f).link = s.link := rfl
@[simp] theorem State.onTorque_history (s : State) (f : TorqueBlock → TorqueBlock) : (s.onTorque f).history = s.history := rfl
@[simp] theorem State.onTorque_host (s : State) (f : TorqueBlock → TorqueBlock) : (s.onTorque f).host = s.host := rfl
@[simp] theorem State.onTorque_freeDraws (s : State) (f : TorqueBlock → TorqueBlock) : (s.onTorque f).freeDraws = s.freeDraws := rfl

@[simp] theorem State.onFlow_pending (s : State) (f : FlowBlock → FlowBlock) : (s.onFlow f).pending = s.pending := rfl
@[simp] theorem State.onFlow_resetHeld (s : State) (f : FlowBlock → FlowBlock) : (s.onFlow f).resetHeld = s.resetHeld := rfl
@[simp] theorem State.onFlow_canopySet (s : State) (f : FlowBlock → FlowBlock) : (s.onFlow f).canopySet = s.canopySet := rfl
@[simp] theorem State.onFlow_valveReady (s : State) (f : FlowBlock → FlowBlock) : (s.onFlow f).valveReady = s.valveReady := rfl
@[simp] theorem State.onFlow_cycle (s : State) (f : FlowBlock → FlowBlock) : (s.onFlow f).cycle = s.cycle := rfl
@[simp] theorem State.onFlow_sensor (s : State) (f : FlowBlock → FlowBlock) : (s.onFlow f).sensor = s.sensor := rfl
@[simp] theorem State.onFlow_assembler (s : State) (f : FlowBlock → FlowBlock) : (s.onFlow f).assembler = s.assembler := rfl
@[simp] theorem State.onFlow_neighbours (s : State) (f : FlowBlock → FlowBlock) : (s.onFlow f).neighbours = s.neighbours := rfl
@[simp] theorem State.onFlow_anchor (s : State) (f : FlowBlock → FlowBlock) : (s.onFlow f).anchor = s.anchor := rfl
@[simp] theorem State.onFlow_resin (s : State) (f : FlowBlock → FlowBlock) : (s.onFlow f).resin = s.resin := rfl
@[simp] theorem State.onFlow_torque (s : State) (f : FlowBlock → FlowBlock) : (s.onFlow f).torque = s.torque := rfl
@[simp] theorem State.onFlow_flow (s : State) (f : FlowBlock → FlowBlock) : (s.onFlow f).flow = f s.flow := rfl
@[simp] theorem State.onFlow_link (s : State) (f : FlowBlock → FlowBlock) : (s.onFlow f).link = s.link := rfl
@[simp] theorem State.onFlow_history (s : State) (f : FlowBlock → FlowBlock) : (s.onFlow f).history = s.history := rfl
@[simp] theorem State.onFlow_host (s : State) (f : FlowBlock → FlowBlock) : (s.onFlow f).host = s.host := rfl
@[simp] theorem State.onFlow_freeDraws (s : State) (f : FlowBlock → FlowBlock) : (s.onFlow f).freeDraws = s.freeDraws := rfl

@[simp] theorem State.onLink_pending (s : State) (f : LinkBlock → LinkBlock) : (s.onLink f).pending = s.pending := rfl
@[simp] theorem State.onLink_resetHeld (s : State) (f : LinkBlock → LinkBlock) : (s.onLink f).resetHeld = s.resetHeld := rfl
@[simp] theorem State.onLink_canopySet (s : State) (f : LinkBlock → LinkBlock) : (s.onLink f).canopySet = s.canopySet := rfl
@[simp] theorem State.onLink_valveReady (s : State) (f : LinkBlock → LinkBlock) : (s.onLink f).valveReady = s.valveReady := rfl
@[simp] theorem State.onLink_cycle (s : State) (f : LinkBlock → LinkBlock) : (s.onLink f).cycle = s.cycle := rfl
@[simp] theorem State.onLink_sensor (s : State) (f : LinkBlock → LinkBlock) : (s.onLink f).sensor = s.sensor := rfl
@[simp] theorem State.onLink_assembler (s : State) (f : LinkBlock → LinkBlock) : (s.onLink f).assembler = s.assembler := rfl
@[simp] theorem State.onLink_neighbours (s : State) (f : LinkBlock → LinkBlock) : (s.onLink f).neighbours = s.neighbours := rfl
@[simp] theorem State.onLink_anchor (s : State) (f : LinkBlock → LinkBlock) : (s.onLink f).anchor = s.anchor := rfl
@[simp] theorem State.onLink_resin (s : State) (f : LinkBlock → LinkBlock) : (s.onLink f).resin = s.resin := rfl
@[simp] theorem State.onLink_torque (s : State) (f : LinkBlock → LinkBlock) : (s.onLink f).torque = s.torque := rfl
@[simp] theorem State.onLink_flow (s : State) (f : LinkBlock → LinkBlock) : (s.onLink f).flow = s.flow := rfl
@[simp] theorem State.onLink_link (s : State) (f : LinkBlock → LinkBlock) : (s.onLink f).link = f s.link := rfl
@[simp] theorem State.onLink_history (s : State) (f : LinkBlock → LinkBlock) : (s.onLink f).history = s.history := rfl
@[simp] theorem State.onLink_host (s : State) (f : LinkBlock → LinkBlock) : (s.onLink f).host = s.host := rfl
@[simp] theorem State.onLink_freeDraws (s : State) (f : LinkBlock → LinkBlock) : (s.onLink f).freeDraws = s.freeDraws := rfl

@[simp] theorem State.onHistory_pending (s : State) (f : HistoryBlock → HistoryBlock) : (s.onHistory f).pending = s.pending := rfl
@[simp] theorem State.onHistory_resetHeld (s : State) (f : HistoryBlock → HistoryBlock) : (s.onHistory f).resetHeld = s.resetHeld := rfl
@[simp] theorem State.onHistory_canopySet (s : State) (f : HistoryBlock → HistoryBlock) : (s.onHistory f).canopySet = s.canopySet := rfl
@[simp] theorem State.onHistory_valveReady (s : State) (f : HistoryBlock → HistoryBlock) : (s.onHistory f).valveReady = s.valveReady := rfl
@[simp] theorem State.onHistory_cycle (s : State) (f : HistoryBlock → HistoryBlock) : (s.onHistory f).cycle = s.cycle := rfl
@[simp] theorem State.onHistory_sensor (s : State) (f : HistoryBlock → HistoryBlock) : (s.onHistory f).sensor = s.sensor := rfl
@[simp] theorem State.onHistory_assembler (s : State) (f : HistoryBlock → HistoryBlock) : (s.onHistory f).assembler = s.assembler := rfl
@[simp] theorem State.onHistory_neighbours (s : State) (f : HistoryBlock → HistoryBlock) : (s.onHistory f).neighbours = s.neighbours := rfl
@[simp] theorem State.onHistory_anchor (s : State) (f : HistoryBlock → HistoryBlock) : (s.onHistory f).anchor = s.anchor := rfl
@[simp] theorem State.onHistory_resin (s : State) (f : HistoryBlock → HistoryBlock) : (s.onHistory f).resin = s.resin := rfl
@[simp] theorem State.onHistory_torque (s : State) (f : HistoryBlock → HistoryBlock) : (s.onHistory f).torque = s.torque := rfl
@[simp] theorem State.onHistory_flow (s : State) (f : HistoryBlock → HistoryBlock) : (s.onHistory f).flow = s.flow := rfl
@[simp] theorem State.onHistory_link (s : State) (f : HistoryBlock → HistoryBlock) : (s.onHistory f).link = s.link := rfl
@[simp] theorem State.onHistory_history (s : State) (f : HistoryBlock → HistoryBlock) : (s.onHistory f).history = f s.history := rfl
@[simp] theorem State.onHistory_host (s : State) (f : HistoryBlock → HistoryBlock) : (s.onHistory f).host = s.host := rfl
@[simp] theorem State.onHistory_freeDraws (s : State) (f : HistoryBlock → HistoryBlock) : (s.onHistory f).freeDraws = s.freeDraws := rfl

@[simp] theorem State.onHost_pending (s : State) (f : HostBlock → HostBlock) : (s.onHost f).pending = s.pending := rfl
@[simp] theorem State.onHost_resetHeld (s : State) (f : HostBlock → HostBlock) : (s.onHost f).resetHeld = s.resetHeld := rfl
@[simp] theorem State.onHost_canopySet (s : State) (f : HostBlock → HostBlock) : (s.onHost f).canopySet = s.canopySet := rfl
@[simp] theorem State.onHost_valveReady (s : State) (f : HostBlock → HostBlock) : (s.onHost f).valveReady = s.valveReady := rfl
@[simp] theorem State.onHost_cycle (s : State) (f : HostBlock → HostBlock) : (s.onHost f).cycle = s.cycle := rfl
@[simp] theorem State.onHost_sensor (s : State) (f : HostBlock → HostBlock) : (s.onHost f).sensor = s.sensor := rfl
@[simp] theorem State.onHost_assembler (s : State) (f : HostBlock → HostBlock) : (s.onHost f).assembler = s.assembler := rfl
@[simp] theorem State.onHost_neighbours (s : State) (f : HostBlock → HostBlock) : (s.onHost f).neighbours = s.neighbours := rfl
@[simp] theorem State.onHost_anchor (s : State) (f : HostBlock → HostBlock) : (s.onHost f).anchor = s.anchor := rfl
@[simp] theorem State.onHost_resin (s : State) (f : HostBlock → HostBlock) : (s.onHost f).resin = s.resin := rfl
@[simp] theorem State.onHost_torque (s : State) (f : HostBlock → HostBlock) : (s.onHost f).torque = s.torque := rfl
@[simp] theorem State.onHost_flow (s : State) (f : HostBlock → HostBlock) : (s.onHost f).flow = s.flow := rfl
@[simp] theorem State.onHost_link (s : State) (f : HostBlock → HostBlock) : (s.onHost f).link = s.link := rfl
@[simp] theorem State.onHost_history (s : State) (f : HostBlock → HostBlock) : (s.onHost f).history = s.history := rfl
@[simp] theorem State.onHost_host (s : State) (f : HostBlock → HostBlock) : (s.onHost f).host = f s.host := rfl
@[simp] theorem State.onHost_freeDraws (s : State) (f : HostBlock → HostBlock) : (s.onHost f).freeDraws = s.freeDraws := rfl

@[simp] theorem State.noteCanopy_pending (s : State) (rise : Bool) : (s.noteCanopy rise).pending = s.pending := rfl
@[simp] theorem State.noteCanopy_resetHeld (s : State) (rise : Bool) : (s.noteCanopy rise).resetHeld = s.resetHeld := rfl
@[simp] theorem State.noteCanopy_canopySet (s : State) (rise : Bool) : (s.noteCanopy rise).canopySet = (s.canopySet || rise) := rfl
@[simp] theorem State.noteCanopy_valveReady (s : State) (rise : Bool) : (s.noteCanopy rise).valveReady = s.valveReady := rfl
@[simp] theorem State.noteCanopy_cycle (s : State) (rise : Bool) : (s.noteCanopy rise).cycle = s.cycle := rfl
@[simp] theorem State.noteCanopy_sensor (s : State) (rise : Bool) : (s.noteCanopy rise).sensor = s.sensor := rfl
@[simp] theorem State.noteCanopy_assembler (s : State) (rise : Bool) : (s.noteCanopy rise).assembler = s.assembler := rfl
@[simp] theorem State.noteCanopy_neighbours (s : State) (rise : Bool) : (s.noteCanopy rise).neighbours = s.neighbours := rfl
@[simp] theorem State.noteCanopy_anchor (s : State) (rise : Bool) : (s.noteCanopy rise).anchor = s.anchor := rfl
@[simp] theorem State.noteCanopy_resin (s : State) (rise : Bool) : (s.noteCanopy rise).resin = s.resin := rfl
@[simp] theorem State.noteCanopy_torque (s : State) (rise : Bool) : (s.noteCanopy rise).torque = s.torque := rfl
@[simp] theorem State.noteCanopy_flow (s : State) (rise : Bool) : (s.noteCanopy rise).flow = s.flow := rfl
@[simp] theorem State.noteCanopy_link (s : State) (rise : Bool) : (s.noteCanopy rise).link = s.link := rfl
@[simp] theorem State.noteCanopy_history (s : State) (rise : Bool) : (s.noteCanopy rise).history = s.history := rfl
@[simp] theorem State.noteCanopy_host (s : State) (rise : Bool) : (s.noteCanopy rise).host = s.host := rfl
@[simp] theorem State.noteCanopy_freeDraws (s : State) (rise : Bool) : (s.noteCanopy rise).freeDraws = s.freeDraws := rfl

/-- A command without a rise leaves the pins as they are. -/
@[simp] theorem State.noteCanopy_false (s : State) : s.noteCanopy false = s := by simp [State.noteCanopy]

end Sys2Proof.Machine
end

