-- ==== Sys2Proof/Laws/Ops.lean ====
section
/-! SUPPORT. What each shared operation leaves alone, field by field, and what the end of an event is. -/

namespace Sys2Proof.Machine

@[simp] theorem queueFault_pending (code : FaultCode) (s : State) : (queueFault code s).pending = s.pending := rfl
@[simp] theorem queueFault_resetHeld (code : FaultCode) (s : State) : (queueFault code s).resetHeld = s.resetHeld := rfl
@[simp] theorem queueFault_canopySet (code : FaultCode) (s : State) : (queueFault code s).canopySet = s.canopySet := rfl
@[simp] theorem queueFault_valveReady (code : FaultCode) (s : State) : (queueFault code s).valveReady = s.valveReady := rfl
@[simp] theorem queueFault_cycle (code : FaultCode) (s : State) : (queueFault code s).cycle = s.cycle := rfl
@[simp] theorem queueFault_sensor (code : FaultCode) (s : State) : (queueFault code s).sensor = s.sensor := rfl
@[simp] theorem queueFault_assembler (code : FaultCode) (s : State) : (queueFault code s).assembler = s.assembler := rfl
@[simp] theorem queueFault_neighbours (code : FaultCode) (s : State) : (queueFault code s).neighbours = s.neighbours := rfl
@[simp] theorem queueFault_anchor (code : FaultCode) (s : State) : (queueFault code s).anchor = s.anchor := rfl
@[simp] theorem queueFault_resin (code : FaultCode) (s : State) : (queueFault code s).resin = s.resin := rfl
@[simp] theorem queueFault_torque (code : FaultCode) (s : State) : (queueFault code s).torque = s.torque := rfl
@[simp] theorem queueFault_flow (code : FaultCode) (s : State) : (queueFault code s).flow = s.flow := rfl
@[simp] theorem queueFault_link (code : FaultCode) (s : State) : (queueFault code s).link = s.link := rfl
@[simp] theorem queueFault_history (code : FaultCode) (s : State) : (queueFault code s).history = s.history := rfl
@[simp] theorem queueFault_host_reply (code : FaultCode) (s : State) : (queueFault code s).host.reply = s.host.reply := rfl
@[simp] theorem queueFault_host_hsdo (code : FaultCode) (s : State) : (queueFault code s).host.hsdo = s.host.hsdo := rfl
@[simp] theorem queueFault_host_config (code : FaultCode) (s : State) : (queueFault code s).host.config = s.host.config := rfl
@[simp] theorem queueFault_host_raised (code : FaultCode) (s : State) : (queueFault code s).host.raised = s.host.raised := rfl
@[simp] theorem queueFault_host_stack (code : FaultCode) (s : State) : (queueFault code s).host.stack = s.host.stack := rfl
@[simp] theorem queueFault_host_watch (code : FaultCode) (s : State) : (queueFault code s).host.watch = s.host.watch := rfl
@[simp] theorem queueFault_freeDraws (code : FaultCode) (s : State) : (queueFault code s).freeDraws = s.freeDraws := rfl

@[simp] theorem raiseSource_pending (src : Source) (s : State) : (raiseSource src s).pending = s.pending := rfl
@[simp] theorem raiseSource_resetHeld (src : Source) (s : State) : (raiseSource src s).resetHeld = s.resetHeld := rfl
@[simp] theorem raiseSource_canopySet (src : Source) (s : State) : (raiseSource src s).canopySet = s.canopySet := rfl
@[simp] theorem raiseSource_valveReady (src : Source) (s : State) : (raiseSource src s).valveReady = s.valveReady := rfl
@[simp] theorem raiseSource_cycle (src : Source) (s : State) : (raiseSource src s).cycle = s.cycle := rfl
@[simp] theorem raiseSource_sensor (src : Source) (s : State) : (raiseSource src s).sensor = s.sensor := rfl
@[simp] theorem raiseSource_assembler (src : Source) (s : State) : (raiseSource src s).assembler = s.assembler := rfl
@[simp] theorem raiseSource_neighbours (src : Source) (s : State) : (raiseSource src s).neighbours = s.neighbours := rfl
@[simp] theorem raiseSource_anchor (src : Source) (s : State) : (raiseSource src s).anchor = s.anchor := rfl
@[simp] theorem raiseSource_resin (src : Source) (s : State) : (raiseSource src s).resin = s.resin := rfl
@[simp] theorem raiseSource_torque (src : Source) (s : State) : (raiseSource src s).torque = s.torque := rfl
@[simp] theorem raiseSource_flow (src : Source) (s : State) : (raiseSource src s).flow = s.flow := rfl
@[simp] theorem raiseSource_link (src : Source) (s : State) : (raiseSource src s).link = s.link := rfl
@[simp] theorem raiseSource_history (src : Source) (s : State) : (raiseSource src s).history = s.history := rfl
@[simp] theorem raiseSource_host_reply (src : Source) (s : State) : (raiseSource src s).host.reply = s.host.reply := rfl
@[simp] theorem raiseSource_host_hsdo (src : Source) (s : State) : (raiseSource src s).host.hsdo = s.host.hsdo := rfl
@[simp] theorem raiseSource_host_config (src : Source) (s : State) : (raiseSource src s).host.config = s.host.config := rfl
@[simp] theorem raiseSource_host_stack (src : Source) (s : State) : (raiseSource src s).host.stack = s.host.stack := rfl
@[simp] theorem raiseSource_host_faults (src : Source) (s : State) : (raiseSource src s).host.faults = s.host.faults := rfl
@[simp] theorem raiseSource_host_watch (src : Source) (s : State) : (raiseSource src s).host.watch = s.host.watch := rfl
@[simp] theorem raiseSource_freeDraws (src : Source) (s : State) : (raiseSource src s).freeDraws = s.freeDraws := rfl

@[simp] theorem setReply_pending (st : Status) (d : List Byte) (s : State) : (setReply st d s).pending = s.pending := rfl
@[simp] theorem setReply_resetHeld (st : Status) (d : List Byte) (s : State) : (setReply st d s).resetHeld = s.resetHeld := rfl
@[simp] theorem setReply_canopySet (st : Status) (d : List Byte) (s : State) : (setReply st d s).canopySet = s.canopySet := rfl
@[simp] theorem setReply_valveReady (st : Status) (d : List Byte) (s : State) : (setReply st d s).valveReady = s.valveReady := rfl
@[simp] theorem setReply_cycle (st : Status) (d : List Byte) (s : State) : (setReply st d s).cycle = s.cycle := rfl
@[simp] theorem setReply_sensor (st : Status) (d : List Byte) (s : State) : (setReply st d s).sensor = s.sensor := rfl
@[simp] theorem setReply_assembler (st : Status) (d : List Byte) (s : State) : (setReply st d s).assembler = s.assembler := rfl
@[simp] theorem setReply_neighbours (st : Status) (d : List Byte) (s : State) : (setReply st d s).neighbours = s.neighbours := rfl
@[simp] theorem setReply_anchor (st : Status) (d : List Byte) (s : State) : (setReply st d s).anchor = s.anchor := rfl
@[simp] theorem setReply_resin (st : Status) (d : List Byte) (s : State) : (setReply st d s).resin = s.resin := rfl
@[simp] theorem setReply_torque (st : Status) (d : List Byte) (s : State) : (setReply st d s).torque = s.torque := rfl
@[simp] theorem setReply_flow (st : Status) (d : List Byte) (s : State) : (setReply st d s).flow = s.flow := rfl
@[simp] theorem setReply_link (st : Status) (d : List Byte) (s : State) : (setReply st d s).link = s.link := rfl
@[simp] theorem setReply_history (st : Status) (d : List Byte) (s : State) : (setReply st d s).history = s.history := rfl
@[simp] theorem setReply_host_config (st : Status) (d : List Byte) (s : State) : (setReply st d s).host.config = s.host.config := rfl
@[simp] theorem setReply_host_raised (st : Status) (d : List Byte) (s : State) : (setReply st d s).host.raised = s.host.raised := rfl
@[simp] theorem setReply_host_stack (st : Status) (d : List Byte) (s : State) : (setReply st d s).host.stack = s.host.stack := rfl
@[simp] theorem setReply_host_faults (st : Status) (d : List Byte) (s : State) : (setReply st d s).host.faults = s.host.faults := rfl
@[simp] theorem setReply_host_watch (st : Status) (d : List Byte) (s : State) : (setReply st d s).host.watch = s.host.watch := rfl
@[simp] theorem setReply_freeDraws (st : Status) (d : List Byte) (s : State) : (setReply st d s).freeDraws = s.freeDraws := rfl

@[simp] theorem setReply_host_reply (st : Status) (d : List Byte) (s : State) : (setReply st d s).host.reply = ⟨st, d⟩ := rfl
@[simp] theorem setReply_host_hsdo (st : Status) (d : List Byte) (s : State) :
    (setReply st d s).host.hsdo = s.host.hsdo := rfl

/-- A transaction that was cut is not taken (11 R180). -/
theorem transacted_cut {host : Transaction} (h : host.cut = true) (s new : State) : transacted host s new = s := by
  simp [transacted, h]

/-- A transaction that is taken adds to its command's event only what HSDO has carried (11 R179). -/
theorem transacted_taken {host : Transaction} (h : host.cut = false) (s new : State) :
    transacted host s new = { new with host := { new.host with hsdo := clockedOut host.clocks s.host.reply } } := by
  simp [transacted, h, State.onHost]

@[simp] theorem writeOpen_pending (f : HoleRecord → HoleRecord) (s : State) : (writeOpen f s).pending = s.pending := rfl
@[simp] theorem writeOpen_resetHeld (f : HoleRecord → HoleRecord) (s : State) : (writeOpen f s).resetHeld = s.resetHeld := rfl
@[simp] theorem writeOpen_canopySet (f : HoleRecord → HoleRecord) (s : State) : (writeOpen f s).canopySet = s.canopySet := rfl
@[simp] theorem writeOpen_valveReady (f : HoleRecord → HoleRecord) (s : State) : (writeOpen f s).valveReady = s.valveReady := rfl
@[simp] theorem writeOpen_cycle (f : HoleRecord → HoleRecord) (s : State) : (writeOpen f s).cycle = s.cycle := rfl
@[simp] theorem writeOpen_sensor (f : HoleRecord → HoleRecord) (s : State) : (writeOpen f s).sensor = s.sensor := rfl
@[simp] theorem writeOpen_assembler (f : HoleRecord → HoleRecord) (s : State) : (writeOpen f s).assembler = s.assembler := rfl
@[simp] theorem writeOpen_neighbours (f : HoleRecord → HoleRecord) (s : State) : (writeOpen f s).neighbours = s.neighbours := rfl
@[simp] theorem writeOpen_anchor (f : HoleRecord → HoleRecord) (s : State) : (writeOpen f s).anchor = s.anchor := rfl
@[simp] theorem writeOpen_resin (f : HoleRecord → HoleRecord) (s : State) : (writeOpen f s).resin = s.resin := rfl
@[simp] theorem writeOpen_torque (f : HoleRecord → HoleRecord) (s : State) : (writeOpen f s).torque = s.torque := rfl
@[simp] theorem writeOpen_flow (f : HoleRecord → HoleRecord) (s : State) : (writeOpen f s).flow = s.flow := rfl
@[simp] theorem writeOpen_link (f : HoleRecord → HoleRecord) (s : State) : (writeOpen f s).link = s.link := rfl
@[simp] theorem writeOpen_history_free (f : HoleRecord → HoleRecord) (s : State) : (writeOpen f s).history.free = s.history.free := rfl
@[simp] theorem writeOpen_history_selection (f : HoleRecord → HoleRecord) (s : State) : (writeOpen f s).history.selection = s.history.selection := rfl
@[simp] theorem writeOpen_history_pointer (f : HoleRecord → HoleRecord) (s : State) : (writeOpen f s).history.pointer = s.history.pointer := rfl
@[simp] theorem writeOpen_host (f : HoleRecord → HoleRecord) (s : State) : (writeOpen f s).host = s.host := rfl
@[simp] theorem writeOpen_freeDraws (f : HoleRecord → HoleRecord) (s : State) : (writeOpen f s).freeDraws = s.freeDraws := rfl

@[simp] theorem appendCells_pending (cells : List CellRecord) (s : State) : (appendCells cells s).pending = s.pending := rfl
@[simp] theorem appendCells_resetHeld (cells : List CellRecord) (s : State) : (appendCells cells s).resetHeld = s.resetHeld := rfl
@[simp] theorem appendCells_canopySet (cells : List CellRecord) (s : State) : (appendCells cells s).canopySet = s.canopySet := rfl
@[simp] theorem appendCells_valveReady (cells : List CellRecord) (s : State) : (appendCells cells s).valveReady = s.valveReady := rfl
@[simp] theorem appendCells_cycle (cells : List CellRecord) (s : State) : (appendCells cells s).cycle = s.cycle := rfl
@[simp] theorem appendCells_sensor (cells : List CellRecord) (s : State) : (appendCells cells s).sensor = s.sensor := rfl
@[simp] theorem appendCells_assembler (cells : List CellRecord) (s : State) : (appendCells cells s).assembler = s.assembler := rfl
@[simp] theorem appendCells_neighbours (cells : List CellRecord) (s : State) : (appendCells cells s).neighbours = s.neighbours := rfl
@[simp] theorem appendCells_anchor (cells : List CellRecord) (s : State) : (appendCells cells s).anchor = s.anchor := rfl
@[simp] theorem appendCells_resin (cells : List CellRecord) (s : State) : (appendCells cells s).resin = s.resin := rfl
@[simp] theorem appendCells_torque (cells : List CellRecord) (s : State) : (appendCells cells s).torque = s.torque := rfl
@[simp] theorem appendCells_flow (cells : List CellRecord) (s : State) : (appendCells cells s).flow = s.flow := rfl
@[simp] theorem appendCells_link (cells : List CellRecord) (s : State) : (appendCells cells s).link = s.link := rfl
@[simp] theorem appendCells_history_free (cells : List CellRecord) (s : State) : (appendCells cells s).history.free = s.history.free := rfl
@[simp] theorem appendCells_history_selection (cells : List CellRecord) (s : State) : (appendCells cells s).history.selection = s.history.selection := rfl
@[simp] theorem appendCells_history_pointer (cells : List CellRecord) (s : State) : (appendCells cells s).history.pointer = s.history.pointer := rfl
@[simp] theorem appendCells_host (cells : List CellRecord) (s : State) : (appendCells cells s).host = s.host := rfl
@[simp] theorem appendCells_freeDraws (cells : List CellRecord) (s : State) : (appendCells cells s).freeDraws = s.freeDraws := rfl

@[simp] theorem reserveRecord_pending (n : HoleNo) (row slot planned : Nat) (s : State) : (reserveRecord n row slot planned s).pending = s.pending := rfl
@[simp] theorem reserveRecord_resetHeld (n : HoleNo) (row slot planned : Nat) (s : State) : (reserveRecord n row slot planned s).resetHeld = s.resetHeld := rfl
@[simp] theorem reserveRecord_canopySet (n : HoleNo) (row slot planned : Nat) (s : State) : (reserveRecord n row slot planned s).canopySet = s.canopySet := rfl
@[simp] theorem reserveRecord_valveReady (n : HoleNo) (row slot planned : Nat) (s : State) : (reserveRecord n row slot planned s).valveReady = s.valveReady := rfl
@[simp] theorem reserveRecord_cycle (n : HoleNo) (row slot planned : Nat) (s : State) : (reserveRecord n row slot planned s).cycle = s.cycle := rfl
@[simp] theorem reserveRecord_sensor (n : HoleNo) (row slot planned : Nat) (s : State) : (reserveRecord n row slot planned s).sensor = s.sensor := rfl
@[simp] theorem reserveRecord_assembler (n : HoleNo) (row slot planned : Nat) (s : State) : (reserveRecord n row slot planned s).assembler = s.assembler := rfl
@[simp] theorem reserveRecord_neighbours (n : HoleNo) (row slot planned : Nat) (s : State) : (reserveRecord n row slot planned s).neighbours = s.neighbours := rfl
@[simp] theorem reserveRecord_anchor (n : HoleNo) (row slot planned : Nat) (s : State) : (reserveRecord n row slot planned s).anchor = s.anchor := rfl
@[simp] theorem reserveRecord_resin (n : HoleNo) (row slot planned : Nat) (s : State) : (reserveRecord n row slot planned s).resin = s.resin := rfl
@[simp] theorem reserveRecord_torque (n : HoleNo) (row slot planned : Nat) (s : State) : (reserveRecord n row slot planned s).torque = s.torque := rfl
@[simp] theorem reserveRecord_flow (n : HoleNo) (row slot planned : Nat) (s : State) : (reserveRecord n row slot planned s).flow = s.flow := rfl
@[simp] theorem reserveRecord_link (n : HoleNo) (row slot planned : Nat) (s : State) : (reserveRecord n row slot planned s).link = s.link := rfl
@[simp] theorem reserveRecord_host_reply (n : HoleNo) (row slot planned : Nat) (s : State) : (reserveRecord n row slot planned s).host.reply = s.host.reply := rfl
@[simp] theorem reserveRecord_host_hsdo (n : HoleNo) (row slot planned : Nat) (s : State) : (reserveRecord n row slot planned s).host.hsdo = s.host.hsdo := rfl
@[simp] theorem reserveRecord_host_config (n : HoleNo) (row slot planned : Nat) (s : State) : (reserveRecord n row slot planned s).host.config = s.host.config := rfl
@[simp] theorem reserveRecord_host_stack (n : HoleNo) (row slot planned : Nat) (s : State) : (reserveRecord n row slot planned s).host.stack = s.host.stack := rfl
@[simp] theorem reserveRecord_host_faults (n : HoleNo) (row slot planned : Nat) (s : State) : (reserveRecord n row slot planned s).host.faults = s.host.faults := rfl
@[simp] theorem reserveRecord_host_watch (n : HoleNo) (row slot planned : Nat) (s : State) : (reserveRecord n row slot planned s).host.watch = s.host.watch := rfl
@[simp] theorem reserveRecord_freeDraws (n : HoleNo) (row slot planned : Nat) (s : State) : (reserveRecord n row slot planned s).freeDraws = s.freeDraws := rfl

@[simp] theorem rebuildPrediction_pending (s : State) : (rebuildPrediction s).pending = s.pending := rfl
@[simp] theorem rebuildPrediction_resetHeld (s : State) : (rebuildPrediction s).resetHeld = s.resetHeld := rfl
@[simp] theorem rebuildPrediction_canopySet (s : State) : (rebuildPrediction s).canopySet = s.canopySet := rfl
@[simp] theorem rebuildPrediction_valveReady (s : State) : (rebuildPrediction s).valveReady = s.valveReady := rfl
@[simp] theorem rebuildPrediction_cycle (s : State) : (rebuildPrediction s).cycle = s.cycle := rfl
@[simp] theorem rebuildPrediction_sensor (s : State) : (rebuildPrediction s).sensor = s.sensor := rfl
@[simp] theorem rebuildPrediction_assembler (s : State) : (rebuildPrediction s).assembler = s.assembler := rfl
@[simp] theorem rebuildPrediction_neighbours_entries (s : State) : (rebuildPrediction s).neighbours.entries = s.neighbours.entries := rfl
@[simp] theorem rebuildPrediction_neighbours_nearVoid (s : State) : (rebuildPrediction s).neighbours.nearVoid = s.neighbours.nearVoid := rfl
@[simp] theorem rebuildPrediction_anchor (s : State) : (rebuildPrediction s).anchor = s.anchor := rfl
@[simp] theorem rebuildPrediction_resin (s : State) : (rebuildPrediction s).resin = s.resin := rfl
@[simp] theorem rebuildPrediction_torque (s : State) : (rebuildPrediction s).torque = s.torque := rfl
@[simp] theorem rebuildPrediction_flow (s : State) : (rebuildPrediction s).flow = s.flow := rfl
@[simp] theorem rebuildPrediction_link (s : State) : (rebuildPrediction s).link = s.link := rfl
@[simp] theorem rebuildPrediction_history (s : State) : (rebuildPrediction s).history = s.history := rfl
@[simp] theorem rebuildPrediction_host (s : State) : (rebuildPrediction s).host = s.host := rfl
@[simp] theorem rebuildPrediction_freeDraws (s : State) : (rebuildPrediction s).freeDraws = s.freeDraws := rfl

@[simp] theorem insertNotice_pending (e : HoleNotice) (s : State) : (insertNotice e s).pending = s.pending := rfl
@[simp] theorem insertNotice_resetHeld (e : HoleNotice) (s : State) : (insertNotice e s).resetHeld = s.resetHeld := rfl
@[simp] theorem insertNotice_canopySet (e : HoleNotice) (s : State) : (insertNotice e s).canopySet = s.canopySet := rfl
@[simp] theorem insertNotice_valveReady (e : HoleNotice) (s : State) : (insertNotice e s).valveReady = s.valveReady := rfl
@[simp] theorem insertNotice_cycle (e : HoleNotice) (s : State) : (insertNotice e s).cycle = s.cycle := rfl
@[simp] theorem insertNotice_sensor (e : HoleNotice) (s : State) : (insertNotice e s).sensor = s.sensor := rfl
@[simp] theorem insertNotice_assembler (e : HoleNotice) (s : State) : (insertNotice e s).assembler = s.assembler := rfl
@[simp] theorem insertNotice_neighbours_nearVoid (e : HoleNotice) (s : State) : (insertNotice e s).neighbours.nearVoid = s.neighbours.nearVoid := rfl
@[simp] theorem insertNotice_anchor (e : HoleNotice) (s : State) : (insertNotice e s).anchor = s.anchor := rfl
@[simp] theorem insertNotice_resin (e : HoleNotice) (s : State) : (insertNotice e s).resin = s.resin := rfl
@[simp] theorem insertNotice_torque (e : HoleNotice) (s : State) : (insertNotice e s).torque = s.torque := rfl
@[simp] theorem insertNotice_flow (e : HoleNotice) (s : State) : (insertNotice e s).flow = s.flow := rfl
@[simp] theorem insertNotice_link (e : HoleNotice) (s : State) : (insertNotice e s).link = s.link := rfl
@[simp] theorem insertNotice_history (e : HoleNotice) (s : State) : (insertNotice e s).history = s.history := rfl
@[simp] theorem insertNotice_host (e : HoleNotice) (s : State) : (insertNotice e s).host = s.host := rfl
@[simp] theorem insertNotice_freeDraws (e : HoleNotice) (s : State) : (insertNotice e s).freeDraws = s.freeDraws := rfl

@[simp] theorem setNearVoid_pending (s : State) : (setNearVoid s).pending = s.pending := rfl
@[simp] theorem setNearVoid_resetHeld (s : State) : (setNearVoid s).resetHeld = s.resetHeld := rfl
@[simp] theorem setNearVoid_canopySet (s : State) : (setNearVoid s).canopySet = s.canopySet := rfl
@[simp] theorem setNearVoid_valveReady (s : State) : (setNearVoid s).valveReady = s.valveReady := rfl
@[simp] theorem setNearVoid_cycle (s : State) : (setNearVoid s).cycle = s.cycle := rfl
@[simp] theorem setNearVoid_sensor (s : State) : (setNearVoid s).sensor = s.sensor := rfl
@[simp] theorem setNearVoid_assembler (s : State) : (setNearVoid s).assembler = s.assembler := rfl
@[simp] theorem setNearVoid_neighbours_entries (s : State) : (setNearVoid s).neighbours.entries = s.neighbours.entries := rfl
@[simp] theorem setNearVoid_neighbours_predicted (s : State) : (setNearVoid s).neighbours.predicted = s.neighbours.predicted := rfl
@[simp] theorem setNearVoid_anchor (s : State) : (setNearVoid s).anchor = s.anchor := rfl
@[simp] theorem setNearVoid_resin (s : State) : (setNearVoid s).resin = s.resin := rfl
@[simp] theorem setNearVoid_torque (s : State) : (setNearVoid s).torque = s.torque := rfl
@[simp] theorem setNearVoid_flow (s : State) : (setNearVoid s).flow = s.flow := rfl
@[simp] theorem setNearVoid_link (s : State) : (setNearVoid s).link = s.link := rfl
@[simp] theorem setNearVoid_history (s : State) : (setNearVoid s).history = s.history := rfl
@[simp] theorem setNearVoid_host (s : State) : (setNearVoid s).host = s.host := rfl
@[simp] theorem setNearVoid_freeDraws (s : State) : (setNearVoid s).freeDraws = s.freeDraws := rfl

@[simp] theorem recomputeAllowance_pending (s : State) : (recomputeAllowance s).pending = s.pending := rfl
@[simp] theorem recomputeAllowance_resetHeld (s : State) : (recomputeAllowance s).resetHeld = s.resetHeld := rfl
@[simp] theorem recomputeAllowance_canopySet (s : State) : (recomputeAllowance s).canopySet = s.canopySet := rfl
@[simp] theorem recomputeAllowance_valveReady (s : State) : (recomputeAllowance s).valveReady = s.valveReady := rfl
@[simp] theorem recomputeAllowance_cycle (s : State) : (recomputeAllowance s).cycle = s.cycle := rfl
@[simp] theorem recomputeAllowance_sensor (s : State) : (recomputeAllowance s).sensor = s.sensor := rfl
@[simp] theorem recomputeAllowance_assembler (s : State) : (recomputeAllowance s).assembler = s.assembler := rfl
@[simp] theorem recomputeAllowance_neighbours (s : State) : (recomputeAllowance s).neighbours = s.neighbours := rfl
@[simp] theorem recomputeAllowance_anchor (s : State) : (recomputeAllowance s).anchor = s.anchor := rfl
@[simp] theorem recomputeAllowance_resin (s : State) : (recomputeAllowance s).resin = s.resin := rfl
@[simp] theorem recomputeAllowance_torque (s : State) : (recomputeAllowance s).torque = s.torque := rfl
@[simp] theorem recomputeAllowance_flow_peers (s : State) : (recomputeAllowance s).flow.peers = s.flow.peers := rfl
@[simp] theorem recomputeAllowance_flow_interlock (s : State) : (recomputeAllowance s).flow.interlock = s.flow.interlock := rfl
@[simp] theorem recomputeAllowance_flow_releaseDeadline (s : State) : (recomputeAllowance s).flow.releaseDeadline = s.flow.releaseDeadline := rfl
@[simp] theorem recomputeAllowance_flow_setpoints (s : State) : (recomputeAllowance s).flow.setpoints = s.flow.setpoints := rfl
@[simp] theorem recomputeAllowance_flow_lastSent (s : State) : (recomputeAllowance s).flow.lastSent = s.flow.lastSent := rfl
@[simp] theorem recomputeAllowance_flow_onLine (s : State) : (recomputeAllowance s).flow.onLine = s.flow.onLine := rfl
@[simp] theorem recomputeAllowance_flow_sequence (s : State) : (recomputeAllowance s).flow.sequence = s.flow.sequence := rfl
@[simp] theorem recomputeAllowance_flow_schedule (s : State) : (recomputeAllowance s).flow.schedule = s.flow.schedule := rfl
@[simp] theorem recomputeAllowance_link (s : State) : (recomputeAllowance s).link = s.link := rfl
@[simp] theorem recomputeAllowance_history (s : State) : (recomputeAllowance s).history = s.history := rfl
@[simp] theorem recomputeAllowance_host (s : State) : (recomputeAllowance s).host = s.host := rfl
@[simp] theorem recomputeAllowance_freeDraws (s : State) : (recomputeAllowance s).freeDraws = s.freeDraws := rfl

@[simp] theorem setHeld_pending (s : State) : (setHeld s).pending = s.pending := rfl
@[simp] theorem setHeld_resetHeld (s : State) : (setHeld s).resetHeld = s.resetHeld := rfl
@[simp] theorem setHeld_canopySet (s : State) : (setHeld s).canopySet = s.canopySet := rfl
@[simp] theorem setHeld_valveReady (s : State) : (setHeld s).valveReady = s.valveReady := rfl
@[simp] theorem setHeld_cycle_timebase (s : State) : (setHeld s).cycle.timebase = s.cycle.timebase := rfl
@[simp] theorem setHeld_cycle_state (s : State) : (setHeld s).cycle.state = s.cycle.state := rfl
@[simp] theorem setHeld_cycle_remembered (s : State) : (setHeld s).cycle.remembered = s.cycle.remembered := rfl
@[simp] theorem setHeld_cycle_cause (s : State) : (setHeld s).cycle.cause = s.cycle.cause := rfl
@[simp] theorem setHeld_cycle_pendingVerdict (s : State) : (setHeld s).cycle.pendingVerdict = s.cycle.pendingVerdict := rfl
@[simp] theorem setHeld_cycle_abortPending (s : State) : (setHeld s).cycle.abortPending = s.cycle.abortPending := rfl
@[simp] theorem setHeld_cycle_holeNumber (s : State) : (setHeld s).cycle.holeNumber = s.cycle.holeNumber := rfl
@[simp] theorem setHeld_cycle_row (s : State) : (setHeld s).cycle.row = s.cycle.row := rfl
@[simp] theorem setHeld_cycle_slot (s : State) : (setHeld s).cycle.slot = s.cycle.slot := rfl
@[simp] theorem setHeld_cycle_planned (s : State) : (setHeld s).cycle.planned = s.cycle.planned := rfl
@[simp] theorem setHeld_cycle_collarTimer (s : State) : (setHeld s).cycle.collarTimer = s.cycle.collarTimer := rfl
@[simp] theorem setHeld_cycle_retractTimer (s : State) : (setHeld s).cycle.retractTimer = s.cycle.retractTimer := rfl
@[simp] theorem setHeld_sensor (s : State) : (setHeld s).sensor = s.sensor := rfl
@[simp] theorem setHeld_assembler (s : State) : (setHeld s).assembler = s.assembler := rfl
@[simp] theorem setHeld_neighbours (s : State) : (setHeld s).neighbours = s.neighbours := rfl
@[simp] theorem setHeld_anchor (s : State) : (setHeld s).anchor = s.anchor := rfl
@[simp] theorem setHeld_resin (s : State) : (setHeld s).resin = s.resin := rfl
@[simp] theorem setHeld_torque (s : State) : (setHeld s).torque = s.torque := rfl
@[simp] theorem setHeld_flow (s : State) : (setHeld s).flow = s.flow := rfl
@[simp] theorem setHeld_link (s : State) : (setHeld s).link = s.link := rfl
@[simp] theorem setHeld_history (s : State) : (setHeld s).history = s.history := rfl
@[simp] theorem setHeld_host (s : State) : (setHeld s).host = s.host := rfl
@[simp] theorem setHeld_freeDraws (s : State) : (setHeld s).freeDraws = s.freeDraws := rfl

@[simp] theorem syncTimers_pending (s : State) : (syncTimers s).pending = s.pending := rfl
@[simp] theorem syncTimers_resetHeld (s : State) : (syncTimers s).resetHeld = s.resetHeld := rfl
@[simp] theorem syncTimers_canopySet (s : State) : (syncTimers s).canopySet = s.canopySet := rfl
@[simp] theorem syncTimers_valveReady (s : State) : (syncTimers s).valveReady = s.valveReady := rfl
@[simp] theorem syncTimers_cycle_timebase (s : State) : (syncTimers s).cycle.timebase = s.cycle.timebase := rfl
@[simp] theorem syncTimers_cycle_state (s : State) : (syncTimers s).cycle.state = s.cycle.state := rfl
@[simp] theorem syncTimers_cycle_remembered (s : State) : (syncTimers s).cycle.remembered = s.cycle.remembered := rfl
@[simp] theorem syncTimers_cycle_cause (s : State) : (syncTimers s).cycle.cause = s.cycle.cause := rfl
@[simp] theorem syncTimers_cycle_held (s : State) : (syncTimers s).cycle.held = s.cycle.held := rfl
@[simp] theorem syncTimers_cycle_pendingVerdict (s : State) : (syncTimers s).cycle.pendingVerdict = s.cycle.pendingVerdict := rfl
@[simp] theorem syncTimers_cycle_abortPending (s : State) : (syncTimers s).cycle.abortPending = s.cycle.abortPending := rfl
@[simp] theorem syncTimers_cycle_holeNumber (s : State) : (syncTimers s).cycle.holeNumber = s.cycle.holeNumber := rfl
@[simp] theorem syncTimers_cycle_row (s : State) : (syncTimers s).cycle.row = s.cycle.row := rfl
@[simp] theorem syncTimers_cycle_slot (s : State) : (syncTimers s).cycle.slot = s.cycle.slot := rfl
@[simp] theorem syncTimers_cycle_planned (s : State) : (syncTimers s).cycle.planned = s.cycle.planned := rfl
@[simp] theorem syncTimers_sensor (s : State) : (syncTimers s).sensor = s.sensor := rfl
@[simp] theorem syncTimers_assembler_cell (s : State) : (syncTimers s).assembler.cell = s.assembler.cell := rfl
@[simp] theorem syncTimers_assembler_n (s : State) : (syncTimers s).assembler.n = s.assembler.n := rfl
@[simp] theorem syncTimers_assembler_rotary (s : State) : (syncTimers s).assembler.rotary = s.assembler.rotary := rfl
@[simp] theorem syncTimers_assembler_thrust (s : State) : (syncTimers s).assembler.thrust = s.assembler.thrust := rfl
@[simp] theorem syncTimers_assembler_capped (s : State) : (syncTimers s).assembler.capped = s.assembler.capped := rfl
@[simp] theorem syncTimers_assembler_tainted (s : State) : (syncTimers s).assembler.tainted = s.assembler.tainted := rfl
@[simp] theorem syncTimers_assembler_maxDepth (s : State) : (syncTimers s).assembler.maxDepth = s.assembler.maxDepth := rfl
@[simp] theorem syncTimers_assembler_stallRef (s : State) : (syncTimers s).assembler.stallRef = s.assembler.stallRef := rfl
@[simp] theorem syncTimers_assembler_voidCell (s : State) : (syncTimers s).assembler.voidCell = s.assembler.voidCell := rfl
@[simp] theorem syncTimers_assembler_softCell (s : State) : (syncTimers s).assembler.softCell = s.assembler.softCell := rfl
@[simp] theorem syncTimers_assembler_hardCell (s : State) : (syncTimers s).assembler.hardCell = s.assembler.hardCell := rfl
@[simp] theorem syncTimers_neighbours (s : State) : (syncTimers s).neighbours = s.neighbours := rfl
@[simp] theorem syncTimers_anchor (s : State) : (syncTimers s).anchor = s.anchor := rfl
@[simp] theorem syncTimers_resin_charge (s : State) : (syncTimers s).resin.charge = s.resin.charge := rfl
@[simp] theorem syncTimers_resin_pushed (s : State) : (syncTimers s).resin.pushed = s.resin.pushed := rfl
@[simp] theorem syncTimers_resin_stroke (s : State) : (syncTimers s).resin.stroke = s.resin.stroke := rfl
@[simp] theorem syncTimers_resin_retry (s : State) : (syncTimers s).resin.retry = s.resin.retry := rfl
@[simp] theorem syncTimers_resin_gap (s : State) : (syncTimers s).resin.gap = s.resin.gap := rfl
@[simp] theorem syncTimers_resin_band (s : State) : (syncTimers s).resin.band = s.resin.band := rfl
@[simp] theorem syncTimers_resin_quarterRevs (s : State) : (syncTimers s).resin.quarterRevs = s.resin.quarterRevs := rfl
@[simp] theorem syncTimers_resin_mixDeadline (s : State) : (syncTimers s).resin.mixDeadline = s.resin.mixDeadline := rfl
@[simp] theorem syncTimers_resin_holdDeadline (s : State) : (syncTimers s).resin.holdDeadline = s.resin.holdDeadline := rfl
@[simp] theorem syncTimers_resin_holdPassed (s : State) : (syncTimers s).resin.holdPassed = s.resin.holdPassed := rfl
@[simp] theorem syncTimers_torque_target (s : State) : (syncTimers s).torque.target = s.torque.target := rfl
@[simp] theorem syncTimers_torque_ceiling (s : State) : (syncTimers s).torque.ceiling = s.torque.ceiling := rfl
@[simp] theorem syncTimers_torque_near (s : State) : (syncTimers s).torque.near = s.torque.near := rfl
@[simp] theorem syncTimers_torque_entered (s : State) : (syncTimers s).torque.entered = s.torque.entered := rfl
@[simp] theorem syncTimers_torque_spinner (s : State) : (syncTimers s).torque.spinner = s.torque.spinner := rfl
@[simp] theorem syncTimers_torque_peak (s : State) : (syncTimers s).torque.peak = s.torque.peak := rfl
@[simp] theorem syncTimers_torque_overshoot (s : State) : (syncTimers s).torque.overshoot = s.torque.overshoot := rfl
@[simp] theorem syncTimers_torque_torqueNear (s : State) : (syncTimers s).torque.torqueNear = s.torque.torqueNear := rfl
@[simp] theorem syncTimers_flow (s : State) : (syncTimers s).flow = s.flow := rfl
@[simp] theorem syncTimers_link (s : State) : (syncTimers s).link = s.link := rfl
@[simp] theorem syncTimers_history (s : State) : (syncTimers s).history = s.history := rfl
@[simp] theorem syncTimers_host (s : State) : (syncTimers s).host = s.host := rfl
@[simp] theorem syncTimers_freeDraws (s : State) : (syncTimers s).freeDraws = s.freeDraws := rfl

@[simp] theorem actInterlock_pending (s : State) : (actInterlock s).pending = s.pending := rfl
@[simp] theorem actInterlock_resetHeld (s : State) : (actInterlock s).resetHeld = s.resetHeld := rfl
@[simp] theorem actInterlock_canopySet (s : State) : (actInterlock s).canopySet = s.canopySet := rfl
@[simp] theorem actInterlock_valveReady (s : State) : (actInterlock s).valveReady = s.valveReady := rfl
@[simp] theorem actInterlock_cycle (s : State) : (actInterlock s).cycle = s.cycle := rfl
@[simp] theorem actInterlock_sensor (s : State) : (actInterlock s).sensor = s.sensor := rfl
@[simp] theorem actInterlock_assembler (s : State) : (actInterlock s).assembler = s.assembler := rfl
@[simp] theorem actInterlock_neighbours (s : State) : (actInterlock s).neighbours = s.neighbours := rfl
@[simp] theorem actInterlock_anchor (s : State) : (actInterlock s).anchor = s.anchor := rfl
@[simp] theorem actInterlock_resin (s : State) : (actInterlock s).resin = s.resin := rfl
@[simp] theorem actInterlock_torque (s : State) : (actInterlock s).torque = s.torque := rfl
@[simp] theorem actInterlock_link (s : State) : (actInterlock s).link = s.link := rfl
@[simp] theorem actInterlock_history (s : State) : (actInterlock s).history = s.history := rfl
@[simp] theorem actInterlock_host (s : State) : (actInterlock s).host = s.host := rfl
@[simp] theorem actInterlock_freeDraws (s : State) : (actInterlock s).freeDraws = s.freeDraws := rfl

@[simp] theorem placeDemandIf_pending (w : Bool) (s : State) : (placeDemandIf w s).pending = s.pending := rfl
@[simp] theorem placeDemandIf_resetHeld (w : Bool) (s : State) : (placeDemandIf w s).resetHeld = s.resetHeld := rfl
@[simp] theorem placeDemandIf_canopySet (w : Bool) (s : State) : (placeDemandIf w s).canopySet = s.canopySet := rfl
@[simp] theorem placeDemandIf_valveReady (w : Bool) (s : State) : (placeDemandIf w s).valveReady = s.valveReady := rfl
@[simp] theorem placeDemandIf_cycle (w : Bool) (s : State) : (placeDemandIf w s).cycle = s.cycle := rfl
@[simp] theorem placeDemandIf_sensor (w : Bool) (s : State) : (placeDemandIf w s).sensor = s.sensor := rfl
@[simp] theorem placeDemandIf_assembler (w : Bool) (s : State) : (placeDemandIf w s).assembler = s.assembler := rfl
@[simp] theorem placeDemandIf_neighbours (w : Bool) (s : State) : (placeDemandIf w s).neighbours = s.neighbours := rfl
@[simp] theorem placeDemandIf_anchor (w : Bool) (s : State) : (placeDemandIf w s).anchor = s.anchor := rfl
@[simp] theorem placeDemandIf_resin (w : Bool) (s : State) : (placeDemandIf w s).resin = s.resin := rfl
@[simp] theorem placeDemandIf_torque (w : Bool) (s : State) : (placeDemandIf w s).torque = s.torque := rfl
@[simp] theorem placeDemandIf_flow (w : Bool) (s : State) : (placeDemandIf w s).flow = s.flow := rfl
@[simp] theorem placeDemandIf_history (w : Bool) (s : State) : (placeDemandIf w s).history = s.history := rfl
@[simp] theorem placeDemandIf_host (w : Bool) (s : State) : (placeDemandIf w s).host = s.host := rfl
@[simp] theorem placeDemandIf_freeDraws (w : Bool) (s : State) : (placeDemandIf w s).freeDraws = s.freeDraws := rfl

@[simp] theorem queueHole_pending (n : HoleNotice) (s : State) : (queueHole n s).pending = s.pending := rfl
@[simp] theorem queueHole_resetHeld (n : HoleNotice) (s : State) : (queueHole n s).resetHeld = s.resetHeld := rfl
@[simp] theorem queueHole_canopySet (n : HoleNotice) (s : State) : (queueHole n s).canopySet = s.canopySet := rfl
@[simp] theorem queueHole_valveReady (n : HoleNotice) (s : State) : (queueHole n s).valveReady = s.valveReady := rfl
@[simp] theorem queueHole_cycle (n : HoleNotice) (s : State) : (queueHole n s).cycle = s.cycle := rfl
@[simp] theorem queueHole_sensor (n : HoleNotice) (s : State) : (queueHole n s).sensor = s.sensor := rfl
@[simp] theorem queueHole_assembler (n : HoleNotice) (s : State) : (queueHole n s).assembler = s.assembler := rfl
@[simp] theorem queueHole_neighbours (n : HoleNotice) (s : State) : (queueHole n s).neighbours = s.neighbours := rfl
@[simp] theorem queueHole_anchor (n : HoleNotice) (s : State) : (queueHole n s).anchor = s.anchor := rfl
@[simp] theorem queueHole_resin (n : HoleNotice) (s : State) : (queueHole n s).resin = s.resin := rfl
@[simp] theorem queueHole_torque (n : HoleNotice) (s : State) : (queueHole n s).torque = s.torque := rfl
@[simp] theorem queueHole_flow (n : HoleNotice) (s : State) : (queueHole n s).flow = s.flow := rfl
@[simp] theorem queueHole_history (n : HoleNotice) (s : State) : (queueHole n s).history = s.history := rfl
@[simp] theorem queueHole_host (n : HoleNotice) (s : State) : (queueHole n s).host = s.host := rfl
@[simp] theorem queueHole_freeDraws (n : HoleNotice) (s : State) : (queueHole n s).freeDraws = s.freeDraws := rfl

@[simp] theorem startStroke_pending (s : State) : (startStroke s).pending = s.pending := rfl
@[simp] theorem startStroke_resetHeld (s : State) : (startStroke s).resetHeld = s.resetHeld := rfl
@[simp] theorem startStroke_canopySet (s : State) : (startStroke s).canopySet = s.canopySet := rfl
@[simp] theorem startStroke_valveReady (s : State) : (startStroke s).valveReady = s.valveReady := rfl
@[simp] theorem startStroke_cycle (s : State) : (startStroke s).cycle = s.cycle := rfl
@[simp] theorem startStroke_sensor (s : State) : (startStroke s).sensor = s.sensor := rfl
@[simp] theorem startStroke_assembler (s : State) : (startStroke s).assembler = s.assembler := rfl
@[simp] theorem startStroke_neighbours (s : State) : (startStroke s).neighbours = s.neighbours := rfl
@[simp] theorem startStroke_anchor (s : State) : (startStroke s).anchor = s.anchor := rfl
@[simp] theorem startStroke_torque (s : State) : (startStroke s).torque = s.torque := rfl
@[simp] theorem startStroke_flow (s : State) : (startStroke s).flow = s.flow := rfl
@[simp] theorem startStroke_link (s : State) : (startStroke s).link = s.link := rfl
@[simp] theorem startStroke_history (s : State) : (startStroke s).history = s.history := rfl
@[simp] theorem startStroke_host (s : State) : (startStroke s).host = s.host := rfl
@[simp] theorem startStroke_freeDraws (s : State) : (startStroke s).freeDraws = s.freeDraws := rfl

@[simp] theorem sendSetpoints_pending (s : State) : (sendSetpoints s).pending = s.pending := rfl
@[simp] theorem sendSetpoints_resetHeld (s : State) : (sendSetpoints s).resetHeld = s.resetHeld := rfl
@[simp] theorem sendSetpoints_canopySet (s : State) : (sendSetpoints s).canopySet = s.canopySet := rfl
@[simp] theorem sendSetpoints_valveReady (s : State) : (sendSetpoints s).valveReady = s.valveReady := rfl
@[simp] theorem sendSetpoints_cycle (s : State) : (sendSetpoints s).cycle = s.cycle := rfl
@[simp] theorem sendSetpoints_sensor (s : State) : (sendSetpoints s).sensor = s.sensor := rfl
@[simp] theorem sendSetpoints_assembler (s : State) : (sendSetpoints s).assembler = s.assembler := rfl
@[simp] theorem sendSetpoints_neighbours (s : State) : (sendSetpoints s).neighbours = s.neighbours := rfl
@[simp] theorem sendSetpoints_anchor (s : State) : (sendSetpoints s).anchor = s.anchor := rfl
@[simp] theorem sendSetpoints_resin (s : State) : (sendSetpoints s).resin = s.resin := rfl
@[simp] theorem sendSetpoints_torque (s : State) : (sendSetpoints s).torque = s.torque := rfl
@[simp] theorem sendSetpoints_link (s : State) : (sendSetpoints s).link = s.link := rfl
@[simp] theorem sendSetpoints_history (s : State) : (sendSetpoints s).history = s.history := rfl
@[simp] theorem sendSetpoints_host (s : State) : (sendSetpoints s).host = s.host := rfl
@[simp] theorem sendSetpoints_freeDraws (s : State) : (sendSetpoints s).freeDraws = s.freeDraws := rfl

@[simp] theorem watchAfter_pending (old : State) (s : State) : (watchAfter old s).pending = s.pending := rfl
@[simp] theorem watchAfter_resetHeld (old : State) (s : State) : (watchAfter old s).resetHeld = s.resetHeld := rfl
@[simp] theorem watchAfter_canopySet (old : State) (s : State) : (watchAfter old s).canopySet = s.canopySet := rfl
@[simp] theorem watchAfter_valveReady (old : State) (s : State) : (watchAfter old s).valveReady = s.valveReady := rfl
@[simp] theorem watchAfter_cycle (old : State) (s : State) : (watchAfter old s).cycle = s.cycle := rfl
@[simp] theorem watchAfter_sensor (old : State) (s : State) : (watchAfter old s).sensor = s.sensor := rfl
@[simp] theorem watchAfter_assembler (old : State) (s : State) : (watchAfter old s).assembler = s.assembler := rfl
@[simp] theorem watchAfter_neighbours (old : State) (s : State) : (watchAfter old s).neighbours = s.neighbours := rfl
@[simp] theorem watchAfter_anchor (old : State) (s : State) : (watchAfter old s).anchor = s.anchor := rfl
@[simp] theorem watchAfter_resin (old : State) (s : State) : (watchAfter old s).resin = s.resin := rfl
@[simp] theorem watchAfter_torque (old : State) (s : State) : (watchAfter old s).torque = s.torque := rfl
@[simp] theorem watchAfter_flow (old : State) (s : State) : (watchAfter old s).flow = s.flow := rfl
@[simp] theorem watchAfter_link (old : State) (s : State) : (watchAfter old s).link = s.link := rfl
@[simp] theorem watchAfter_history (old : State) (s : State) : (watchAfter old s).history = s.history := rfl
@[simp] theorem watchAfter_freeDraws (old : State) (s : State) : (watchAfter old s).freeDraws = s.freeDraws := rfl

@[simp] theorem actInterlock_flow_peers (s : State) : (actInterlock s).flow.peers = s.flow.peers := by
  simp only [actInterlock, State.onFlow]; split <;> try split_ifs
  all_goals rfl
@[simp] theorem actInterlock_flow_allowance (s : State) : (actInterlock s).flow.allowance = s.flow.allowance := by
  simp only [actInterlock, State.onFlow]; split <;> try split_ifs
  all_goals rfl
@[simp] theorem actInterlock_flow_flowCut (s : State) : (actInterlock s).flow.flowCut = s.flow.flowCut := by
  simp only [actInterlock, State.onFlow]; split <;> try split_ifs
  all_goals rfl
@[simp] theorem actInterlock_flow_setpoints (s : State) : (actInterlock s).flow.setpoints = s.flow.setpoints := by
  simp only [actInterlock, State.onFlow]; split <;> try split_ifs
  all_goals rfl
@[simp] theorem actInterlock_flow_lastSent (s : State) : (actInterlock s).flow.lastSent = s.flow.lastSent := by
  simp only [actInterlock, State.onFlow]; split <;> try split_ifs
  all_goals rfl
@[simp] theorem actInterlock_flow_onLine (s : State) : (actInterlock s).flow.onLine = s.flow.onLine := by
  simp only [actInterlock, State.onFlow]; split <;> try split_ifs
  all_goals rfl
@[simp] theorem actInterlock_flow_sequence (s : State) : (actInterlock s).flow.sequence = s.flow.sequence := by
  simp only [actInterlock, State.onFlow]; split <;> try split_ifs
  all_goals rfl
@[simp] theorem actInterlock_flow_schedule (s : State) : (actInterlock s).flow.schedule = s.flow.schedule := by
  simp only [actInterlock, State.onFlow]; split <;> try split_ifs
  all_goals rfl

@[simp] theorem placeDemandIf_link_view (w : Bool) (s : State) : (placeDemandIf w s).link.view = s.link.view := by
  simp only [placeDemandIf, State.onLink]; split_ifs <;> rfl
@[simp] theorem placeDemandIf_link_recessive (w : Bool) (s : State) : (placeDemandIf w s).link.recessive = s.link.recessive := by
  simp only [placeDemandIf, State.onLink]; split_ifs <;> rfl
@[simp] theorem placeDemandIf_link_ownLast (w : Bool) (s : State) : (placeDemandIf w s).link.ownLast = s.link.ownLast := by
  simp only [placeDemandIf, State.onLink]; split_ifs <;> rfl
@[simp] theorem placeDemandIf_link_assembly (w : Bool) (s : State) : (placeDemandIf w s).link.assembly = s.link.assembly := by
  simp only [placeDemandIf, State.onLink]; split_ifs <;> rfl
@[simp] theorem placeDemandIf_link_tx (w : Bool) (s : State) : (placeDemandIf w s).link.tx = s.link.tx := by
  simp only [placeDemandIf, State.onLink]; split_ifs <;> rfl
@[simp] theorem placeDemandIf_link_queue (w : Bool) (s : State) : (placeDemandIf w s).link.queue = s.link.queue := by
  simp only [placeDemandIf, State.onLink]; split_ifs <;> rfl
@[simp] theorem placeDemandIf_link_queueOnLine (w : Bool) (s : State) : (placeDemandIf w s).link.queueOnLine = s.link.queueOnLine := by
  simp only [placeDemandIf, State.onLink]; split_ifs <;> rfl
@[simp] theorem placeDemandIf_link_mute (w : Bool) (s : State) : (placeDemandIf w s).link.mute = s.link.mute := by
  simp only [placeDemandIf, State.onLink]; split_ifs <;> rfl
@[simp] theorem placeDemandIf_link_holeDropped (w : Bool) (s : State) : (placeDemandIf w s).link.holeDropped = s.link.holeDropped := by
  simp only [placeDemandIf, State.onLink]; split_ifs <;> rfl
@[simp] theorem placeDemandIf_link_txFault (w : Bool) (s : State) : (placeDemandIf w s).link.txFault = s.link.txFault := by
  simp only [placeDemandIf, State.onLink]; split_ifs <;> rfl

@[simp] theorem queueHole_link_view (n : HoleNotice) (s : State) : (queueHole n s).link.view = s.link.view := by
  simp only [queueHole, State.onLink]; split_ifs <;> rfl
@[simp] theorem queueHole_link_recessive (n : HoleNotice) (s : State) : (queueHole n s).link.recessive = s.link.recessive := by
  simp only [queueHole, State.onLink]; split_ifs <;> rfl
@[simp] theorem queueHole_link_ownLast (n : HoleNotice) (s : State) : (queueHole n s).link.ownLast = s.link.ownLast := by
  simp only [queueHole, State.onLink]; split_ifs <;> rfl
@[simp] theorem queueHole_link_assembly (n : HoleNotice) (s : State) : (queueHole n s).link.assembly = s.link.assembly := by
  simp only [queueHole, State.onLink]; split_ifs <;> rfl
@[simp] theorem queueHole_link_tx (n : HoleNotice) (s : State) : (queueHole n s).link.tx = s.link.tx := by
  simp only [queueHole, State.onLink]; split_ifs <;> rfl
@[simp] theorem queueHole_link_slot (n : HoleNotice) (s : State) : (queueHole n s).link.slot = s.link.slot := by
  simp only [queueHole, State.onLink]; split_ifs <;> rfl
@[simp] theorem queueHole_link_queueOnLine (n : HoleNotice) (s : State) : (queueHole n s).link.queueOnLine = s.link.queueOnLine := by
  simp only [queueHole, State.onLink]; split_ifs <;> rfl
@[simp] theorem queueHole_link_mute (n : HoleNotice) (s : State) : (queueHole n s).link.mute = s.link.mute := by
  simp only [queueHole, State.onLink]; split_ifs <;> rfl
@[simp] theorem queueHole_link_txFault (n : HoleNotice) (s : State) : (queueHole n s).link.txFault = s.link.txFault := by
  simp only [queueHole, State.onLink]; split_ifs <;> rfl

@[simp] theorem startStroke_resin_charge (s : State) : (startStroke s).resin.charge = s.resin.charge := by
  simp only [startStroke, State.onResin]; split_ifs <;> rfl
@[simp] theorem startStroke_resin_pushed (s : State) : (startStroke s).resin.pushed = s.resin.pushed := by
  simp only [startStroke, State.onResin]; split_ifs <;> rfl
@[simp] theorem startStroke_resin_retry (s : State) : (startStroke s).resin.retry = s.resin.retry := by
  simp only [startStroke, State.onResin]; split_ifs <;> rfl
@[simp] theorem startStroke_resin_gap (s : State) : (startStroke s).resin.gap = s.resin.gap := by
  simp only [startStroke, State.onResin]; split_ifs <;> rfl
@[simp] theorem startStroke_resin_band (s : State) : (startStroke s).resin.band = s.resin.band := by
  simp only [startStroke, State.onResin]; split_ifs <;> rfl
@[simp] theorem startStroke_resin_quarterRevs (s : State) : (startStroke s).resin.quarterRevs = s.resin.quarterRevs := by
  simp only [startStroke, State.onResin]; split_ifs <;> rfl
@[simp] theorem startStroke_resin_mixDeadline (s : State) : (startStroke s).resin.mixDeadline = s.resin.mixDeadline := by
  simp only [startStroke, State.onResin]; split_ifs <;> rfl
@[simp] theorem startStroke_resin_holdDeadline (s : State) : (startStroke s).resin.holdDeadline = s.resin.holdDeadline := by
  simp only [startStroke, State.onResin]; split_ifs <;> rfl
@[simp] theorem startStroke_resin_holdPassed (s : State) : (startStroke s).resin.holdPassed = s.resin.holdPassed := by
  simp only [startStroke, State.onResin]; split_ifs <;> rfl

@[simp] theorem sendSetpoints_flow_peers (s : State) : (sendSetpoints s).flow.peers = s.flow.peers := by
  simp only [sendSetpoints, State.onFlow]; split_ifs <;> rfl
@[simp] theorem sendSetpoints_flow_allowance (s : State) : (sendSetpoints s).flow.allowance = s.flow.allowance := by
  simp only [sendSetpoints, State.onFlow]; split_ifs <;> rfl
@[simp] theorem sendSetpoints_flow_flowCut (s : State) : (sendSetpoints s).flow.flowCut = s.flow.flowCut := by
  simp only [sendSetpoints, State.onFlow]; split_ifs <;> rfl
@[simp] theorem sendSetpoints_flow_interlock (s : State) : (sendSetpoints s).flow.interlock = s.flow.interlock := by
  simp only [sendSetpoints, State.onFlow]; split_ifs <;> rfl
@[simp] theorem sendSetpoints_flow_releaseDeadline (s : State) : (sendSetpoints s).flow.releaseDeadline = s.flow.releaseDeadline := by
  simp only [sendSetpoints, State.onFlow]; split_ifs <;> rfl
@[simp] theorem sendSetpoints_flow_schedule (s : State) : (sendSetpoints s).flow.schedule = s.flow.schedule := by
  simp only [sendSetpoints, State.onFlow]; split_ifs <;> rfl

theorem HostBlock.evaluate_reply (h : HostBlock) (w : WatchInputs) : (h.evaluate w).reply = h.reply := by
  unfold HostBlock.evaluate; dsimp only; split <;> try split
  all_goals rfl
@[simp] theorem watchAfter_host_reply (old s : State) : (watchAfter old s).host.reply = s.host.reply := by
  simp only [watchAfter, State.onHost]; split_ifs
  · rfl
  · exact HostBlock.evaluate_reply _ _
theorem HostBlock.evaluate_hsdo (h : HostBlock) (w : WatchInputs) : (h.evaluate w).hsdo = h.hsdo := by
  unfold HostBlock.evaluate; dsimp only; split <;> try split
  all_goals rfl
@[simp] theorem watchAfter_host_hsdo (old s : State) : (watchAfter old s).host.hsdo = s.host.hsdo := by
  simp only [watchAfter, State.onHost]; split_ifs
  · rfl
  · exact HostBlock.evaluate_hsdo _ _
theorem HostBlock.evaluate_config (h : HostBlock) (w : WatchInputs) : (h.evaluate w).config = h.config := by
  unfold HostBlock.evaluate; dsimp only; split <;> try split
  all_goals rfl
@[simp] theorem watchAfter_host_config (old s : State) : (watchAfter old s).host.config = s.host.config := by
  simp only [watchAfter, State.onHost]; split_ifs
  · rfl
  · exact HostBlock.evaluate_config _ _
theorem HostBlock.evaluate_stack (h : HostBlock) (w : WatchInputs) : (h.evaluate w).stack = h.stack := by
  unfold HostBlock.evaluate; dsimp only; split <;> try split
  all_goals rfl
@[simp] theorem watchAfter_host_stack (old s : State) : (watchAfter old s).host.stack = s.host.stack := by
  simp only [watchAfter, State.onHost]; split_ifs
  · rfl
  · exact HostBlock.evaluate_stack _ _
theorem HostBlock.evaluate_faults (h : HostBlock) (w : WatchInputs) : (h.evaluate w).faults = h.faults := by
  unfold HostBlock.evaluate; dsimp only; split <;> try split
  all_goals rfl
@[simp] theorem watchAfter_host_faults (old s : State) : (watchAfter old s).host.faults = s.host.faults := by
  simp only [watchAfter, State.onHost]; split_ifs
  · rfl
  · exact HostBlock.evaluate_faults _ _
theorem HostBlock.evaluate_raised_decide (h : HostBlock) (w : WatchInputs) : (h.evaluate w).raised.decide = h.raised.decide := by
  unfold HostBlock.evaluate; dsimp only; split <;> try split
  all_goals rfl
@[simp] theorem watchAfter_host_raised_decide (old s : State) : (watchAfter old s).host.raised.decide = s.host.raised.decide := by
  simp only [watchAfter, State.onHost]; split_ifs
  · rfl
  · exact HostBlock.evaluate_raised_decide _ _
theorem HostBlock.evaluate_raised_holeDone (h : HostBlock) (w : WatchInputs) : (h.evaluate w).raised.holeDone = h.raised.holeDone := by
  unfold HostBlock.evaluate; dsimp only; split <;> try split
  all_goals rfl
@[simp] theorem watchAfter_host_raised_holeDone (old s : State) : (watchAfter old s).host.raised.holeDone = s.host.raised.holeDone := by
  simp only [watchAfter, State.onHost]; split_ifs
  · rfl
  · exact HostBlock.evaluate_raised_holeDone _ _
theorem HostBlock.evaluate_raised_history (h : HostBlock) (w : WatchInputs) : (h.evaluate w).raised.history = h.raised.history := by
  unfold HostBlock.evaluate; dsimp only; split <;> try split
  all_goals rfl
@[simp] theorem watchAfter_host_raised_history (old s : State) : (watchAfter old s).host.raised.history = s.host.raised.history := by
  simp only [watchAfter, State.onHost]; split_ifs
  · rfl
  · exact HostBlock.evaluate_raised_history _ _

@[simp] theorem settle_pending (s : State) : (settle s).pending = s.pending := by simp [settle]
@[simp] theorem settle_resetHeld (s : State) : (settle s).resetHeld = s.resetHeld := by simp [settle]
@[simp] theorem settle_canopySet (s : State) : (settle s).canopySet = s.canopySet := by simp [settle]
@[simp] theorem settle_valveReady (s : State) : (settle s).valveReady = s.valveReady := by simp [settle]
@[simp] theorem settle_cycle_timebase (s : State) : (settle s).cycle.timebase = s.cycle.timebase := by simp [settle]
@[simp] theorem settle_cycle_state (s : State) : (settle s).cycle.state = s.cycle.state := by simp [settle]
@[simp] theorem settle_cycle_remembered (s : State) : (settle s).cycle.remembered = s.cycle.remembered := by simp [settle]
@[simp] theorem settle_cycle_cause (s : State) : (settle s).cycle.cause = s.cycle.cause := by simp [settle]
@[simp] theorem settle_cycle_pendingVerdict (s : State) : (settle s).cycle.pendingVerdict = s.cycle.pendingVerdict := by simp [settle]
@[simp] theorem settle_cycle_abortPending (s : State) : (settle s).cycle.abortPending = s.cycle.abortPending := by simp [settle]
@[simp] theorem settle_cycle_holeNumber (s : State) : (settle s).cycle.holeNumber = s.cycle.holeNumber := by simp [settle]
@[simp] theorem settle_cycle_row (s : State) : (settle s).cycle.row = s.cycle.row := by simp [settle]
@[simp] theorem settle_cycle_slot (s : State) : (settle s).cycle.slot = s.cycle.slot := by simp [settle]
@[simp] theorem settle_cycle_planned (s : State) : (settle s).cycle.planned = s.cycle.planned := by simp [settle]
@[simp] theorem settle_sensor (s : State) : (settle s).sensor = s.sensor := by simp [settle]
@[simp] theorem settle_assembler_cell (s : State) : (settle s).assembler.cell = s.assembler.cell := by simp [settle]
@[simp] theorem settle_assembler_n (s : State) : (settle s).assembler.n = s.assembler.n := by simp [settle]
@[simp] theorem settle_assembler_rotary (s : State) : (settle s).assembler.rotary = s.assembler.rotary := by simp [settle]
@[simp] theorem settle_assembler_thrust (s : State) : (settle s).assembler.thrust = s.assembler.thrust := by simp [settle]
@[simp] theorem settle_assembler_capped (s : State) : (settle s).assembler.capped = s.assembler.capped := by simp [settle]
@[simp] theorem settle_assembler_tainted (s : State) : (settle s).assembler.tainted = s.assembler.tainted := by simp [settle]
@[simp] theorem settle_assembler_maxDepth (s : State) : (settle s).assembler.maxDepth = s.assembler.maxDepth := by simp [settle]
@[simp] theorem settle_assembler_stallRef (s : State) : (settle s).assembler.stallRef = s.assembler.stallRef := by simp [settle]
@[simp] theorem settle_assembler_voidCell (s : State) : (settle s).assembler.voidCell = s.assembler.voidCell := by simp [settle]
@[simp] theorem settle_assembler_softCell (s : State) : (settle s).assembler.softCell = s.assembler.softCell := by simp [settle]
@[simp] theorem settle_assembler_hardCell (s : State) : (settle s).assembler.hardCell = s.assembler.hardCell := by simp [settle]
@[simp] theorem settle_neighbours_entries (s : State) : (settle s).neighbours.entries = s.neighbours.entries := by simp [settle]
@[simp] theorem settle_neighbours_predicted (s : State) : (settle s).neighbours.predicted = s.neighbours.predicted := by simp [settle]
@[simp] theorem settle_anchor (s : State) : (settle s).anchor = s.anchor := by simp [settle]
@[simp] theorem settle_resin_charge (s : State) : (settle s).resin.charge = s.resin.charge := by simp [settle]
@[simp] theorem settle_resin_pushed (s : State) : (settle s).resin.pushed = s.resin.pushed := by simp [settle]
@[simp] theorem settle_resin_retry (s : State) : (settle s).resin.retry = s.resin.retry := by simp [settle]
@[simp] theorem settle_resin_gap (s : State) : (settle s).resin.gap = s.resin.gap := by simp [settle]
@[simp] theorem settle_resin_band (s : State) : (settle s).resin.band = s.resin.band := by simp [settle]
@[simp] theorem settle_resin_quarterRevs (s : State) : (settle s).resin.quarterRevs = s.resin.quarterRevs := by simp [settle]
@[simp] theorem settle_resin_mixDeadline (s : State) : (settle s).resin.mixDeadline = s.resin.mixDeadline := by simp [settle]
@[simp] theorem settle_resin_holdDeadline (s : State) : (settle s).resin.holdDeadline = s.resin.holdDeadline := by simp [settle]
@[simp] theorem settle_resin_holdPassed (s : State) : (settle s).resin.holdPassed = s.resin.holdPassed := by simp [settle]
@[simp] theorem settle_torque_target (s : State) : (settle s).torque.target = s.torque.target := by simp [settle]
@[simp] theorem settle_torque_ceiling (s : State) : (settle s).torque.ceiling = s.torque.ceiling := by simp [settle]
@[simp] theorem settle_torque_near (s : State) : (settle s).torque.near = s.torque.near := by simp [settle]
@[simp] theorem settle_torque_entered (s : State) : (settle s).torque.entered = s.torque.entered := by simp [settle]
@[simp] theorem settle_torque_spinner (s : State) : (settle s).torque.spinner = s.torque.spinner := by simp [settle]
@[simp] theorem settle_torque_peak (s : State) : (settle s).torque.peak = s.torque.peak := by simp [settle]
@[simp] theorem settle_torque_overshoot (s : State) : (settle s).torque.overshoot = s.torque.overshoot := by simp [settle]
@[simp] theorem settle_torque_torqueNear (s : State) : (settle s).torque.torqueNear = s.torque.torqueNear := by simp [settle]
@[simp] theorem settle_flow_peers (s : State) : (settle s).flow.peers = s.flow.peers := by simp [settle]
@[simp] theorem settle_flow_setpoints (s : State) : (settle s).flow.setpoints = s.flow.setpoints := by simp [settle]
@[simp] theorem settle_flow_lastSent (s : State) : (settle s).flow.lastSent = s.flow.lastSent := by simp [settle]
@[simp] theorem settle_flow_onLine (s : State) : (settle s).flow.onLine = s.flow.onLine := by simp [settle]
@[simp] theorem settle_flow_sequence (s : State) : (settle s).flow.sequence = s.flow.sequence := by simp [settle]
@[simp] theorem settle_flow_schedule (s : State) : (settle s).flow.schedule = s.flow.schedule := by simp [settle]
@[simp] theorem settle_link (s : State) : (settle s).link = s.link := by simp [settle]
@[simp] theorem settle_history (s : State) : (settle s).history = s.history := by simp [settle]
@[simp] theorem settle_host (s : State) : (settle s).host = s.host := by simp [settle]
@[simp] theorem settle_freeDraws (s : State) : (settle s).freeDraws = s.freeDraws := by simp [settle]

@[simp] theorem finish_pending (old : State) (s : State) : (finish old s).pending = s.pending := by simp [finish]
@[simp] theorem finish_resetHeld (old : State) (s : State) : (finish old s).resetHeld = s.resetHeld := by simp [finish]
@[simp] theorem finish_canopySet (old : State) (s : State) : (finish old s).canopySet = s.canopySet := by simp [finish]
@[simp] theorem finish_valveReady (old : State) (s : State) : (finish old s).valveReady = s.valveReady := by simp [finish]
@[simp] theorem finish_cycle (old : State) (s : State) : (finish old s).cycle = s.cycle := by simp [finish]
@[simp] theorem finish_sensor (old : State) (s : State) : (finish old s).sensor = s.sensor := by simp [finish]
@[simp] theorem finish_assembler (old : State) (s : State) : (finish old s).assembler = s.assembler := by simp [finish]
@[simp] theorem finish_neighbours (old : State) (s : State) : (finish old s).neighbours = s.neighbours := by simp [finish]
@[simp] theorem finish_anchor (old : State) (s : State) : (finish old s).anchor = s.anchor := by simp [finish]
@[simp] theorem finish_resin (old : State) (s : State) : (finish old s).resin = s.resin := by simp [finish]
@[simp] theorem finish_torque (old : State) (s : State) : (finish old s).torque = s.torque := by simp [finish]
@[simp] theorem finish_flow_peers (old : State) (s : State) : (finish old s).flow.peers = s.flow.peers := by simp [finish]
@[simp] theorem finish_flow_allowance (old : State) (s : State) : (finish old s).flow.allowance = s.flow.allowance := by simp [finish]
@[simp] theorem finish_flow_flowCut (old : State) (s : State) : (finish old s).flow.flowCut = s.flow.flowCut := by simp [finish]
@[simp] theorem finish_flow_interlock (old : State) (s : State) : (finish old s).flow.interlock = s.flow.interlock := by simp [finish]
@[simp] theorem finish_flow_releaseDeadline (old : State) (s : State) : (finish old s).flow.releaseDeadline = s.flow.releaseDeadline := by simp [finish]
@[simp] theorem finish_flow_schedule (old : State) (s : State) : (finish old s).flow.schedule = s.flow.schedule := by simp [finish]
@[simp] theorem finish_link_view (old : State) (s : State) : (finish old s).link.view = s.link.view := by simp [finish]
@[simp] theorem finish_link_recessive (old : State) (s : State) : (finish old s).link.recessive = s.link.recessive := by simp [finish]
@[simp] theorem finish_link_ownLast (old : State) (s : State) : (finish old s).link.ownLast = s.link.ownLast := by simp [finish]
@[simp] theorem finish_link_assembly (old : State) (s : State) : (finish old s).link.assembly = s.link.assembly := by simp [finish]
@[simp] theorem finish_link_tx (old : State) (s : State) : (finish old s).link.tx = s.link.tx := by simp [finish]
@[simp] theorem finish_link_queue (old : State) (s : State) : (finish old s).link.queue = s.link.queue := by simp [finish]
@[simp] theorem finish_link_queueOnLine (old : State) (s : State) : (finish old s).link.queueOnLine = s.link.queueOnLine := by simp [finish]
@[simp] theorem finish_link_mute (old : State) (s : State) : (finish old s).link.mute = s.link.mute := by simp [finish]
@[simp] theorem finish_link_holeDropped (old : State) (s : State) : (finish old s).link.holeDropped = s.link.holeDropped := by simp [finish]
@[simp] theorem finish_link_txFault (old : State) (s : State) : (finish old s).link.txFault = s.link.txFault := by simp [finish]
@[simp] theorem finish_history (old : State) (s : State) : (finish old s).history = s.history := by simp [finish]
@[simp] theorem finish_host_reply (old : State) (s : State) : (finish old s).host.reply = s.host.reply := by simp [finish]
@[simp] theorem finish_host_hsdo (old : State) (s : State) : (finish old s).host.hsdo = s.host.hsdo := by simp [finish]
@[simp] theorem finish_host_config (old : State) (s : State) : (finish old s).host.config = s.host.config := by simp [finish]
@[simp] theorem finish_host_stack (old : State) (s : State) : (finish old s).host.stack = s.host.stack := by simp [finish]
@[simp] theorem finish_host_faults (old : State) (s : State) : (finish old s).host.faults = s.host.faults := by simp [finish]
@[simp] theorem finish_freeDraws (old : State) (s : State) : (finish old s).freeDraws = s.freeDraws := by simp [finish]
@[simp] theorem finish_host_raised_decide (old : State) (s : State) : (finish old s).host.raised.decide = s.host.raised.decide := by simp [finish]
@[simp] theorem finish_host_raised_holeDone (old : State) (s : State) : (finish old s).host.raised.holeDone = s.host.raised.holeDone := by simp [finish]
@[simp] theorem finish_host_raised_history (old : State) (s : State) : (finish old s).host.raised.history = s.host.raised.history := by simp [finish]

@[simp] theorem event_pending (old : State) (s : State) : (event old s).pending = s.pending := by simp [event]
@[simp] theorem event_resetHeld (old : State) (s : State) : (event old s).resetHeld = s.resetHeld := by simp [event]
@[simp] theorem event_canopySet (old : State) (s : State) : (event old s).canopySet = s.canopySet := by simp [event]
@[simp] theorem event_valveReady (old : State) (s : State) : (event old s).valveReady = s.valveReady := by simp [event]
@[simp] theorem event_cycle_timebase (old : State) (s : State) : (event old s).cycle.timebase = s.cycle.timebase := by simp [event]
@[simp] theorem event_cycle_state (old : State) (s : State) : (event old s).cycle.state = s.cycle.state := by simp [event]
@[simp] theorem event_cycle_remembered (old : State) (s : State) : (event old s).cycle.remembered = s.cycle.remembered := by simp [event]
@[simp] theorem event_cycle_cause (old : State) (s : State) : (event old s).cycle.cause = s.cycle.cause := by simp [event]
@[simp] theorem event_cycle_pendingVerdict (old : State) (s : State) : (event old s).cycle.pendingVerdict = s.cycle.pendingVerdict := by simp [event]
@[simp] theorem event_cycle_abortPending (old : State) (s : State) : (event old s).cycle.abortPending = s.cycle.abortPending := by simp [event]
@[simp] theorem event_cycle_holeNumber (old : State) (s : State) : (event old s).cycle.holeNumber = s.cycle.holeNumber := by simp [event]
@[simp] theorem event_cycle_row (old : State) (s : State) : (event old s).cycle.row = s.cycle.row := by simp [event]
@[simp] theorem event_cycle_slot (old : State) (s : State) : (event old s).cycle.slot = s.cycle.slot := by simp [event]
@[simp] theorem event_cycle_planned (old : State) (s : State) : (event old s).cycle.planned = s.cycle.planned := by simp [event]
@[simp] theorem event_sensor (old : State) (s : State) : (event old s).sensor = s.sensor := by simp [event]
@[simp] theorem event_assembler_cell (old : State) (s : State) : (event old s).assembler.cell = s.assembler.cell := by simp [event]
@[simp] theorem event_assembler_n (old : State) (s : State) : (event old s).assembler.n = s.assembler.n := by simp [event]
@[simp] theorem event_assembler_rotary (old : State) (s : State) : (event old s).assembler.rotary = s.assembler.rotary := by simp [event]
@[simp] theorem event_assembler_thrust (old : State) (s : State) : (event old s).assembler.thrust = s.assembler.thrust := by simp [event]
@[simp] theorem event_assembler_capped (old : State) (s : State) : (event old s).assembler.capped = s.assembler.capped := by simp [event]
@[simp] theorem event_assembler_tainted (old : State) (s : State) : (event old s).assembler.tainted = s.assembler.tainted := by simp [event]
@[simp] theorem event_assembler_maxDepth (old : State) (s : State) : (event old s).assembler.maxDepth = s.assembler.maxDepth := by simp [event]
@[simp] theorem event_assembler_stallRef (old : State) (s : State) : (event old s).assembler.stallRef = s.assembler.stallRef := by simp [event]
@[simp] theorem event_assembler_voidCell (old : State) (s : State) : (event old s).assembler.voidCell = s.assembler.voidCell := by simp [event]
@[simp] theorem event_assembler_softCell (old : State) (s : State) : (event old s).assembler.softCell = s.assembler.softCell := by simp [event]
@[simp] theorem event_assembler_hardCell (old : State) (s : State) : (event old s).assembler.hardCell = s.assembler.hardCell := by simp [event]
@[simp] theorem event_neighbours_entries (old : State) (s : State) : (event old s).neighbours.entries = s.neighbours.entries := by simp [event]
@[simp] theorem event_neighbours_predicted (old : State) (s : State) : (event old s).neighbours.predicted = s.neighbours.predicted := by simp [event]
@[simp] theorem event_anchor (old : State) (s : State) : (event old s).anchor = s.anchor := by simp [event]
@[simp] theorem event_resin_charge (old : State) (s : State) : (event old s).resin.charge = s.resin.charge := by simp [event]
@[simp] theorem event_resin_pushed (old : State) (s : State) : (event old s).resin.pushed = s.resin.pushed := by simp [event]
@[simp] theorem event_resin_retry (old : State) (s : State) : (event old s).resin.retry = s.resin.retry := by simp [event]
@[simp] theorem event_resin_gap (old : State) (s : State) : (event old s).resin.gap = s.resin.gap := by simp [event]
@[simp] theorem event_resin_band (old : State) (s : State) : (event old s).resin.band = s.resin.band := by simp [event]
@[simp] theorem event_resin_quarterRevs (old : State) (s : State) : (event old s).resin.quarterRevs = s.resin.quarterRevs := by simp [event]
@[simp] theorem event_resin_mixDeadline (old : State) (s : State) : (event old s).resin.mixDeadline = s.resin.mixDeadline := by simp [event]
@[simp] theorem event_resin_holdDeadline (old : State) (s : State) : (event old s).resin.holdDeadline = s.resin.holdDeadline := by simp [event]
@[simp] theorem event_resin_holdPassed (old : State) (s : State) : (event old s).resin.holdPassed = s.resin.holdPassed := by simp [event]
@[simp] theorem event_torque_target (old : State) (s : State) : (event old s).torque.target = s.torque.target := by simp [event]
@[simp] theorem event_torque_ceiling (old : State) (s : State) : (event old s).torque.ceiling = s.torque.ceiling := by simp [event]
@[simp] theorem event_torque_near (old : State) (s : State) : (event old s).torque.near = s.torque.near := by simp [event]
@[simp] theorem event_torque_entered (old : State) (s : State) : (event old s).torque.entered = s.torque.entered := by simp [event]
@[simp] theorem event_torque_spinner (old : State) (s : State) : (event old s).torque.spinner = s.torque.spinner := by simp [event]
@[simp] theorem event_torque_peak (old : State) (s : State) : (event old s).torque.peak = s.torque.peak := by simp [event]
@[simp] theorem event_torque_overshoot (old : State) (s : State) : (event old s).torque.overshoot = s.torque.overshoot := by simp [event]
@[simp] theorem event_torque_torqueNear (old : State) (s : State) : (event old s).torque.torqueNear = s.torque.torqueNear := by simp [event]
@[simp] theorem event_flow_peers (old : State) (s : State) : (event old s).flow.peers = s.flow.peers := by simp [event]
@[simp] theorem event_flow_schedule (old : State) (s : State) : (event old s).flow.schedule = s.flow.schedule := by simp [event]
@[simp] theorem event_link_view (old : State) (s : State) : (event old s).link.view = s.link.view := by simp [event]
@[simp] theorem event_link_recessive (old : State) (s : State) : (event old s).link.recessive = s.link.recessive := by simp [event]
@[simp] theorem event_link_ownLast (old : State) (s : State) : (event old s).link.ownLast = s.link.ownLast := by simp [event]
@[simp] theorem event_link_assembly (old : State) (s : State) : (event old s).link.assembly = s.link.assembly := by simp [event]
@[simp] theorem event_link_tx (old : State) (s : State) : (event old s).link.tx = s.link.tx := by simp [event]
@[simp] theorem event_link_queue (old : State) (s : State) : (event old s).link.queue = s.link.queue := by simp [event]
@[simp] theorem event_link_queueOnLine (old : State) (s : State) : (event old s).link.queueOnLine = s.link.queueOnLine := by simp [event]
@[simp] theorem event_link_mute (old : State) (s : State) : (event old s).link.mute = s.link.mute := by simp [event]
@[simp] theorem event_link_holeDropped (old : State) (s : State) : (event old s).link.holeDropped = s.link.holeDropped := by simp [event]
@[simp] theorem event_link_txFault (old : State) (s : State) : (event old s).link.txFault = s.link.txFault := by simp [event]
@[simp] theorem event_history (old : State) (s : State) : (event old s).history = s.history := by simp [event]
@[simp] theorem event_host_reply (old : State) (s : State) : (event old s).host.reply = s.host.reply := by simp [event]
@[simp] theorem event_host_hsdo (old : State) (s : State) : (event old s).host.hsdo = s.host.hsdo := by simp [event]
@[simp] theorem event_host_config (old : State) (s : State) : (event old s).host.config = s.host.config := by simp [event]
@[simp] theorem event_host_stack (old : State) (s : State) : (event old s).host.stack = s.host.stack := by simp [event]
@[simp] theorem event_host_faults (old : State) (s : State) : (event old s).host.faults = s.host.faults := by simp [event]
@[simp] theorem event_freeDraws (old : State) (s : State) : (event old s).freeDraws = s.freeDraws := by simp [event]
@[simp] theorem event_host_raised_decide (old : State) (s : State) : (event old s).host.raised.decide = s.host.raised.decide := by simp [event]
@[simp] theorem event_host_raised_holeDone (old : State) (s : State) : (event old s).host.raised.holeDone = s.host.raised.holeDone := by simp [event]
@[simp] theorem event_host_raised_history (old : State) (s : State) : (event old s).host.raised.history = s.host.raised.history := by simp [event]


end Sys2Proof.Machine
end

