-- ==== Sys2Proof/Laws/Blocks.lean ====
section
/-! SUPPORT. What the sample port's latch, the attention unit's choice, the peer table's insertion and the link's receiver
do, once each. -/

namespace Sys2Proof.Machine

/-! ### The latch (02 R34) -/

@[simp] theorem SensorBlock.takeLive_live (p : SensorBlock) (l : StatusGroup) : (p.takeLive l).live = l := by
  simp only [SensorBlock.takeLive]; split <;> rfl
@[simp] theorem SensorBlock.takeLive_last (p : SensorBlock) (l : StatusGroup) : (p.takeLive l).last = p.last := by
  simp only [SensorBlock.takeLive]; split <;> rfl
@[simp] theorem SensorBlock.takeLive_linkDeadline (p : SensorBlock) (l : StatusGroup) :
    (p.takeLive l).linkDeadline = p.linkDeadline := by
  simp only [SensorBlock.takeLive]; split <;> rfl
@[simp] theorem SensorBlock.takeLive_pulseDeadline (p : SensorBlock) (l : StatusGroup) :
    (p.takeLive l).pulseDeadline = p.pulseDeadline := by
  simp only [SensorBlock.takeLive]; split <;> rfl
@[simp] theorem SensorBlock.takeLive_receiver (p : SensorBlock) (l : StatusGroup) :
    (p.takeLive l).receiver = p.receiver := by
  unfold SensorBlock.takeLive; split <;> rfl
@[simp] theorem SensorBlock.takeLive_gap (p : SensorBlock) (l : StatusGroup) : (p.takeLive l).gap = p.gap := by
  unfold SensorBlock.takeLive; split <;> rfl
@[simp] theorem SensorBlock.takeLive_assembly (p : SensorBlock) (l : StatusGroup) :
    (p.takeLive l).assembly = p.assembly := by
  simp only [SensorBlock.takeLive]; split <;> rfl

/-! ### Attention (11 R190, R191) -/

theorem outranksTop_iff (stack : List Source) (src : Source) :
    outranksTop stack src = true ↔ ∀ top, stack.head? = some top → src.priority < top.priority := by
  cases stack <;> simp [outranksTop]

/-- No source qualifies exactly when no pending source outranks the top. -/
theorem HostBlock.qualifying_none {h : HostBlock} (hn : ∀ src, h.isPending src = true → outranksTop h.stack src = false) :
    h.qualifying = none := by
  rw [HostBlock.qualifying, List.find?_eq_none]
  intro src _ hc
  simp only [Bool.and_eq_true] at hc
  simp [hn src hc.1] at hc

/-- The source that qualifies is the pending one of highest priority that outranks the top. -/
theorem HostBlock.qualifying_some {h : HostBlock} {src : Source} (hp : h.isPending src = true)
    (ho : outranksTop h.stack src = true)
    (hm : ∀ other, h.isPending other = true → outranksTop h.stack other = true → src.priority ≤ other.priority) :
    h.qualifying = some src := by
  have e1 := hm .fault
  have e2 := hm .decide
  have e3 := hm .holeDone
  have e4 := hm .watch
  have e5 := hm .history
  simp only [HostBlock.qualifying, allSources, List.find?]
  cases src <;> simp_all [Source.priority] <;> grind

/-! ### The peer table (08 R118, R119) -/

/-- An entry put into a table in rising order stands between the lower and the higher station numbers. -/
theorem upsertPeer_eq (p : Peer) (l : List Peer) (h : l.Pairwise (fun a b => a.station < b.station)) :
    upsertPeer p l =
      l.filter (fun q => decide (q.station < p.station)) ++ p :: l.filter (fun q => decide (p.station < q.station)) := by
  induction l with
  | nil => rfl
  | cons q rest ih =>
    rw [List.pairwise_cons] at h
    simp only [upsertPeer]
    split
    · rename_i hlt
      have : ∀ x ∈ q :: rest, p.station < x.station := by
        intro x hx
        simp only [List.mem_cons] at hx
        rcases hx with rfl | hx
        · exact hlt
        · exact lt_trans hlt (h.1 x hx)
      rw [List.filter_eq_nil_iff.2, List.filter_eq_self.2]
      · rfl
      · intro x hx; simpa using this x hx
      · intro x hx; have := this x hx; simp; omega
    · split
      · rename_i h1 h2
        have : ∀ x ∈ rest, p.station < x.station := fun x hx => h2 ▸ h.1 x hx
        rw [List.filter_cons_of_neg (by simp; omega), List.filter_cons_of_neg (by simp; omega),
          List.filter_eq_nil_iff.2, List.filter_eq_self.2]
        · rfl
        · intro x hx; simpa using this x hx
        · intro x hx; have := this x hx; simp; omega
      · rename_i h1 h2
        rw [ih h.2, List.filter_cons_of_pos (by simp; omega), List.filter_cons_of_neg (by simp; omega)]
        rfl

end Sys2Proof.Machine
end

