-- ==== Sys2Proof/Laws/Cycle.lean ====
section
/-! SUPPORT. What the cell assembler's and the cycle's operations leave alone, field by field. -/

namespace Sys2Proof.Machine

/-! ### Cells -/

@[simp] theorem handOn_pending (cells : List CellRecord) (s : State) : (handOn cells s).pending = s.pending := by
  simp [handOn]
@[simp] theorem handOn_resetHeld (cells : List CellRecord) (s : State) : (handOn cells s).resetHeld = s.resetHeld := by simp [handOn]
@[simp] theorem handOn_canopySet (cells : List CellRecord) (s : State) : (handOn cells s).canopySet = s.canopySet := by simp [handOn]
@[simp] theorem handOn_valveReady (cells : List CellRecord) (s : State) : (handOn cells s).valveReady = s.valveReady := by simp [handOn]
@[simp] theorem handOn_cycle (cells : List CellRecord) (s : State) : (handOn cells s).cycle = s.cycle := by simp [handOn]
@[simp] theorem handOn_sensor (cells : List CellRecord) (s : State) : (handOn cells s).sensor = s.sensor := by simp [handOn]
@[simp] theorem handOn_assembler_cell (cells : List CellRecord) (s : State) : (handOn cells s).assembler.cell = s.assembler.cell := by
  simp only [handOn, AssemblerBlock.watchLast, State.onAssembler]; split <;> simp
@[simp] theorem handOn_assembler_n (cells : List CellRecord) (s : State) : (handOn cells s).assembler.n = s.assembler.n := by
  simp only [handOn, AssemblerBlock.watchLast, State.onAssembler]; split <;> simp
@[simp] theorem handOn_assembler_rotary (cells : List CellRecord) (s : State) : (handOn cells s).assembler.rotary = s.assembler.rotary := by
  simp only [handOn, AssemblerBlock.watchLast, State.onAssembler]; split <;> simp
@[simp] theorem handOn_assembler_thrust (cells : List CellRecord) (s : State) : (handOn cells s).assembler.thrust = s.assembler.thrust := by
  simp only [handOn, AssemblerBlock.watchLast, State.onAssembler]; split <;> simp
@[simp] theorem handOn_assembler_capped (cells : List CellRecord) (s : State) : (handOn cells s).assembler.capped = s.assembler.capped := by
  simp only [handOn, AssemblerBlock.watchLast, State.onAssembler]; split <;> simp
@[simp] theorem handOn_assembler_tainted (cells : List CellRecord) (s : State) : (handOn cells s).assembler.tainted = s.assembler.tainted := by
  simp only [handOn, AssemblerBlock.watchLast, State.onAssembler]; split <;> simp
@[simp] theorem handOn_assembler_maxDepth (cells : List CellRecord) (s : State) : (handOn cells s).assembler.maxDepth = s.assembler.maxDepth := by
  simp only [handOn, AssemblerBlock.watchLast, State.onAssembler]; split <;> simp
@[simp] theorem handOn_assembler_stallWindow (cells : List CellRecord) (s : State) : (handOn cells s).assembler.stallWindow = s.assembler.stallWindow := by
  simp only [handOn, AssemblerBlock.watchLast, State.onAssembler]; split <;> simp
@[simp] theorem handOn_assembler_stallRef (cells : List CellRecord) (s : State) : (handOn cells s).assembler.stallRef = s.assembler.stallRef := by
  simp only [handOn, AssemblerBlock.watchLast, State.onAssembler]; split <;> simp
@[simp] theorem handOn_neighbours (cells : List CellRecord) (s : State) : (handOn cells s).neighbours = s.neighbours := by simp [handOn]
@[simp] theorem handOn_anchor (cells : List CellRecord) (s : State) : (handOn cells s).anchor = s.anchor := by simp [handOn]
@[simp] theorem handOn_resin (cells : List CellRecord) (s : State) : (handOn cells s).resin = s.resin := by simp [handOn]
@[simp] theorem handOn_torque (cells : List CellRecord) (s : State) : (handOn cells s).torque = s.torque := by simp [handOn]
@[simp] theorem handOn_flow (cells : List CellRecord) (s : State) : (handOn cells s).flow = s.flow := by simp [handOn]
@[simp] theorem handOn_link (cells : List CellRecord) (s : State) : (handOn cells s).link = s.link := by simp [handOn]
@[simp] theorem handOn_history_free (cells : List CellRecord) (s : State) : (handOn cells s).history.free = s.history.free := by simp [handOn]
@[simp] theorem handOn_history_selection (cells : List CellRecord) (s : State) : (handOn cells s).history.selection = s.history.selection := by simp [handOn]
@[simp] theorem handOn_history_pointer (cells : List CellRecord) (s : State) : (handOn cells s).history.pointer = s.history.pointer := by simp [handOn]
@[simp] theorem handOn_host (cells : List CellRecord) (s : State) : (handOn cells s).host = s.host := by simp [handOn]
@[simp] theorem handOn_freeDraws (cells : List CellRecord) (s : State) : (handOn cells s).freeDraws = s.freeDraws := by simp [handOn]

@[simp] theorem raiseDepth_pending (x : Sample) (s : State) : (raiseDepth x s).pending = s.pending := rfl
@[simp] theorem raiseDepth_resetHeld (x : Sample) (s : State) : (raiseDepth x s).resetHeld = s.resetHeld := rfl
@[simp] theorem raiseDepth_canopySet (x : Sample) (s : State) : (raiseDepth x s).canopySet = s.canopySet := rfl
@[simp] theorem raiseDepth_valveReady (x : Sample) (s : State) : (raiseDepth x s).valveReady = s.valveReady := rfl
@[simp] theorem raiseDepth_cycle (x : Sample) (s : State) : (raiseDepth x s).cycle = s.cycle := rfl
@[simp] theorem raiseDepth_sensor (x : Sample) (s : State) : (raiseDepth x s).sensor = s.sensor := rfl
@[simp] theorem raiseDepth_assembler_cell (x : Sample) (s : State) : (raiseDepth x s).assembler.cell = s.assembler.cell := rfl
@[simp] theorem raiseDepth_assembler_n (x : Sample) (s : State) : (raiseDepth x s).assembler.n = s.assembler.n := rfl
@[simp] theorem raiseDepth_assembler_rotary (x : Sample) (s : State) : (raiseDepth x s).assembler.rotary = s.assembler.rotary := rfl
@[simp] theorem raiseDepth_assembler_thrust (x : Sample) (s : State) : (raiseDepth x s).assembler.thrust = s.assembler.thrust := rfl
@[simp] theorem raiseDepth_assembler_capped (x : Sample) (s : State) : (raiseDepth x s).assembler.capped = s.assembler.capped := rfl
@[simp] theorem raiseDepth_assembler_tainted (x : Sample) (s : State) : (raiseDepth x s).assembler.tainted = s.assembler.tainted := rfl
@[simp] theorem raiseDepth_assembler_stallWindow (x : Sample) (s : State) : (raiseDepth x s).assembler.stallWindow = s.assembler.stallWindow := rfl
@[simp] theorem raiseDepth_assembler_stallRef (x : Sample) (s : State) : (raiseDepth x s).assembler.stallRef = s.assembler.stallRef := rfl
@[simp] theorem raiseDepth_assembler_voidCell (x : Sample) (s : State) : (raiseDepth x s).assembler.voidCell = s.assembler.voidCell := rfl
@[simp] theorem raiseDepth_assembler_softCell (x : Sample) (s : State) : (raiseDepth x s).assembler.softCell = s.assembler.softCell := rfl
@[simp] theorem raiseDepth_assembler_hardCell (x : Sample) (s : State) : (raiseDepth x s).assembler.hardCell = s.assembler.hardCell := rfl
@[simp] theorem raiseDepth_neighbours (x : Sample) (s : State) : (raiseDepth x s).neighbours = s.neighbours := rfl
@[simp] theorem raiseDepth_anchor (x : Sample) (s : State) : (raiseDepth x s).anchor = s.anchor := rfl
@[simp] theorem raiseDepth_resin (x : Sample) (s : State) : (raiseDepth x s).resin = s.resin := rfl
@[simp] theorem raiseDepth_torque (x : Sample) (s : State) : (raiseDepth x s).torque = s.torque := rfl
@[simp] theorem raiseDepth_flow (x : Sample) (s : State) : (raiseDepth x s).flow = s.flow := rfl
@[simp] theorem raiseDepth_link (x : Sample) (s : State) : (raiseDepth x s).link = s.link := rfl
@[simp] theorem raiseDepth_history (x : Sample) (s : State) : (raiseDepth x s).history = s.history := rfl
@[simp] theorem raiseDepth_host (x : Sample) (s : State) : (raiseDepth x s).host = s.host := rfl
@[simp] theorem raiseDepth_freeDraws (x : Sample) (s : State) : (raiseDepth x s).freeDraws = s.freeDraws := rfl

@[simp] theorem placeSample_pending (x : Sample) (s : State) : (placeSample x s).pending = s.pending := by
  simp only [placeSample]; split <;> try split_ifs
  all_goals simp
@[simp] theorem placeSample_resetHeld (x : Sample) (s : State) : (placeSample x s).resetHeld = s.resetHeld := by
  simp only [placeSample]; split <;> try split_ifs
  all_goals simp
@[simp] theorem placeSample_canopySet (x : Sample) (s : State) : (placeSample x s).canopySet = s.canopySet := by
  simp only [placeSample]; split <;> try split_ifs
  all_goals simp
@[simp] theorem placeSample_valveReady (x : Sample) (s : State) : (placeSample x s).valveReady = s.valveReady := by
  simp only [placeSample]; split <;> try split_ifs
  all_goals simp
@[simp] theorem placeSample_cycle (x : Sample) (s : State) : (placeSample x s).cycle = s.cycle := by
  simp only [placeSample]; split <;> try split_ifs
  all_goals simp
@[simp] theorem placeSample_sensor (x : Sample) (s : State) : (placeSample x s).sensor = s.sensor := by
  simp only [placeSample]; split <;> try split_ifs
  all_goals simp
@[simp] theorem placeSample_neighbours (x : Sample) (s : State) : (placeSample x s).neighbours = s.neighbours := by
  simp only [placeSample]; split <;> try split_ifs
  all_goals simp
@[simp] theorem placeSample_anchor (x : Sample) (s : State) : (placeSample x s).anchor = s.anchor := by
  simp only [placeSample]; split <;> try split_ifs
  all_goals simp
@[simp] theorem placeSample_resin (x : Sample) (s : State) : (placeSample x s).resin = s.resin := by
  simp only [placeSample]; split <;> try split_ifs
  all_goals simp
@[simp] theorem placeSample_torque (x : Sample) (s : State) : (placeSample x s).torque = s.torque := by
  simp only [placeSample]; split <;> try split_ifs
  all_goals simp
@[simp] theorem placeSample_flow (x : Sample) (s : State) : (placeSample x s).flow = s.flow := by
  simp only [placeSample]; split <;> try split_ifs
  all_goals simp
@[simp] theorem placeSample_link (x : Sample) (s : State) : (placeSample x s).link = s.link := by
  simp only [placeSample]; split <;> try split_ifs
  all_goals simp
@[simp] theorem placeSample_history_free (x : Sample) (s : State) : (placeSample x s).history.free = s.history.free := by
  simp only [placeSample]; split <;> try split_ifs
  all_goals simp
@[simp] theorem placeSample_history_selection (x : Sample) (s : State) : (placeSample x s).history.selection = s.history.selection := by
  simp only [placeSample]; split <;> try split_ifs
  all_goals simp
@[simp] theorem placeSample_history_pointer (x : Sample) (s : State) : (placeSample x s).history.pointer = s.history.pointer := by
  simp only [placeSample]; split <;> try split_ifs
  all_goals simp
@[simp] theorem placeSample_host (x : Sample) (s : State) : (placeSample x s).host = s.host := by
  simp only [placeSample]; split <;> try split_ifs
  all_goals simp
@[simp] theorem placeSample_freeDraws (x : Sample) (s : State) : (placeSample x s).freeDraws = s.freeDraws := by
  simp only [placeSample]; split <;> try split_ifs
  all_goals simp

@[simp] theorem scanLost_pending (s : State) : (scanLost s).pending = s.pending := rfl
@[simp] theorem scanLost_resetHeld (s : State) : (scanLost s).resetHeld = s.resetHeld := rfl
@[simp] theorem scanLost_canopySet (s : State) : (scanLost s).canopySet = s.canopySet := rfl
@[simp] theorem scanLost_valveReady (s : State) : (scanLost s).valveReady = s.valveReady := rfl
@[simp] theorem scanLost_cycle (s : State) : (scanLost s).cycle = s.cycle := rfl
@[simp] theorem scanLost_sensor (s : State) : (scanLost s).sensor = s.sensor := rfl
@[simp] theorem scanLost_assembler (s : State) : (scanLost s).assembler = s.assembler := rfl
@[simp] theorem scanLost_neighbours (s : State) : (scanLost s).neighbours = s.neighbours := rfl
@[simp] theorem scanLost_anchor (s : State) : (scanLost s).anchor = s.anchor := rfl
@[simp] theorem scanLost_resin (s : State) : (scanLost s).resin = s.resin := rfl
@[simp] theorem scanLost_torque (s : State) : (scanLost s).torque = s.torque := rfl
@[simp] theorem scanLost_flow (s : State) : (scanLost s).flow = s.flow := rfl
@[simp] theorem scanLost_link (s : State) : (scanLost s).link = s.link := rfl
@[simp] theorem scanLost_history_free (s : State) : (scanLost s).history.free = s.history.free := rfl
@[simp] theorem scanLost_history_selection (s : State) : (scanLost s).history.selection = s.history.selection := rfl
@[simp] theorem scanLost_history_pointer (s : State) : (scanLost s).history.pointer = s.history.pointer := rfl
@[simp] theorem scanLost_host (s : State) : (scanLost s).host = s.host := rfl
@[simp] theorem scanLost_freeDraws (s : State) : (scanLost s).freeDraws = s.freeDraws := rfl

@[simp] theorem shortEnd_pending (s : State) : (shortEnd s).pending = s.pending := by simp [shortEnd]
@[simp] theorem shortEnd_resetHeld (s : State) : (shortEnd s).resetHeld = s.resetHeld := by simp [shortEnd]
@[simp] theorem shortEnd_canopySet (s : State) : (shortEnd s).canopySet = s.canopySet := by simp [shortEnd]
@[simp] theorem shortEnd_valveReady (s : State) : (shortEnd s).valveReady = s.valveReady := by simp [shortEnd]
@[simp] theorem shortEnd_cycle (s : State) : (shortEnd s).cycle = s.cycle := by simp [shortEnd]
@[simp] theorem shortEnd_sensor (s : State) : (shortEnd s).sensor = s.sensor := by simp [shortEnd]
@[simp] theorem shortEnd_neighbours (s : State) : (shortEnd s).neighbours = s.neighbours := by simp [shortEnd]
@[simp] theorem shortEnd_anchor (s : State) : (shortEnd s).anchor = s.anchor := by simp [shortEnd]
@[simp] theorem shortEnd_resin (s : State) : (shortEnd s).resin = s.resin := by simp [shortEnd]
@[simp] theorem shortEnd_torque (s : State) : (shortEnd s).torque = s.torque := by simp [shortEnd]
@[simp] theorem shortEnd_flow (s : State) : (shortEnd s).flow = s.flow := by simp [shortEnd]
@[simp] theorem shortEnd_link (s : State) : (shortEnd s).link = s.link := by simp [shortEnd]
@[simp] theorem shortEnd_history_free (s : State) : (shortEnd s).history.free = s.history.free := by simp [shortEnd]
@[simp] theorem shortEnd_history_selection (s : State) : (shortEnd s).history.selection = s.history.selection := by simp [shortEnd]
@[simp] theorem shortEnd_history_pointer (s : State) : (shortEnd s).history.pointer = s.history.pointer := by simp [shortEnd]
@[simp] theorem shortEnd_host (s : State) : (shortEnd s).host = s.host := by simp [shortEnd]
@[simp] theorem shortEnd_freeDraws (s : State) : (shortEnd s).freeDraws = s.freeDraws := by simp [shortEnd]

@[simp] theorem taintCell_pending (s : State) : (taintCell s).pending = s.pending := rfl
@[simp] theorem taintCell_resetHeld (s : State) : (taintCell s).resetHeld = s.resetHeld := rfl
@[simp] theorem taintCell_canopySet (s : State) : (taintCell s).canopySet = s.canopySet := rfl
@[simp] theorem taintCell_valveReady (s : State) : (taintCell s).valveReady = s.valveReady := rfl
@[simp] theorem taintCell_cycle (s : State) : (taintCell s).cycle = s.cycle := rfl
@[simp] theorem taintCell_sensor (s : State) : (taintCell s).sensor = s.sensor := rfl
@[simp] theorem taintCell_neighbours (s : State) : (taintCell s).neighbours = s.neighbours := rfl
@[simp] theorem taintCell_anchor (s : State) : (taintCell s).anchor = s.anchor := rfl
@[simp] theorem taintCell_resin (s : State) : (taintCell s).resin = s.resin := rfl
@[simp] theorem taintCell_torque (s : State) : (taintCell s).torque = s.torque := rfl
@[simp] theorem taintCell_flow (s : State) : (taintCell s).flow = s.flow := rfl
@[simp] theorem taintCell_link (s : State) : (taintCell s).link = s.link := rfl
@[simp] theorem taintCell_history (s : State) : (taintCell s).history = s.history := rfl
@[simp] theorem taintCell_host (s : State) : (taintCell s).host = s.host := rfl
@[simp] theorem taintCell_freeDraws (s : State) : (taintCell s).freeDraws = s.freeDraws := rfl

@[simp] theorem taintCell_assembler_cell (s : State) : (taintCell s).assembler.cell = s.assembler.cell := by
  simp only [taintCell, State.onAssembler]; split <;> rfl
@[simp] theorem taintCell_assembler_maxDepth (s : State) : (taintCell s).assembler.maxDepth = s.assembler.maxDepth := by
  simp only [taintCell, State.onAssembler]; split <;> rfl
@[simp] theorem taintCell_assembler_stallWindow (s : State) : (taintCell s).assembler.stallWindow = s.assembler.stallWindow := by
  simp only [taintCell, State.onAssembler]; split <;> rfl
@[simp] theorem taintCell_assembler_stallRef (s : State) : (taintCell s).assembler.stallRef = s.assembler.stallRef := by
  simp only [taintCell, State.onAssembler]; split <;> rfl
@[simp] theorem taintCell_assembler_voidCell (s : State) : (taintCell s).assembler.voidCell = s.assembler.voidCell := by
  simp only [taintCell, State.onAssembler]; split <;> rfl
@[simp] theorem taintCell_assembler_softCell (s : State) : (taintCell s).assembler.softCell = s.assembler.softCell := by
  simp only [taintCell, State.onAssembler]; split <;> rfl
@[simp] theorem taintCell_assembler_hardCell (s : State) : (taintCell s).assembler.hardCell = s.assembler.hardCell := by
  simp only [taintCell, State.onAssembler]; split <;> rfl

@[simp] theorem restartStall_pending (s : State) : (restartStall s).pending = s.pending := rfl
@[simp] theorem restartStall_resetHeld (s : State) : (restartStall s).resetHeld = s.resetHeld := rfl
@[simp] theorem restartStall_canopySet (s : State) : (restartStall s).canopySet = s.canopySet := rfl
@[simp] theorem restartStall_valveReady (s : State) : (restartStall s).valveReady = s.valveReady := rfl
@[simp] theorem restartStall_cycle (s : State) : (restartStall s).cycle = s.cycle := rfl
@[simp] theorem restartStall_sensor (s : State) : (restartStall s).sensor = s.sensor := rfl
@[simp] theorem restartStall_assembler_cell (s : State) : (restartStall s).assembler.cell = s.assembler.cell := rfl
@[simp] theorem restartStall_assembler_n (s : State) : (restartStall s).assembler.n = s.assembler.n := rfl
@[simp] theorem restartStall_assembler_rotary (s : State) : (restartStall s).assembler.rotary = s.assembler.rotary := rfl
@[simp] theorem restartStall_assembler_thrust (s : State) : (restartStall s).assembler.thrust = s.assembler.thrust := rfl
@[simp] theorem restartStall_assembler_capped (s : State) : (restartStall s).assembler.capped = s.assembler.capped := rfl
@[simp] theorem restartStall_assembler_tainted (s : State) : (restartStall s).assembler.tainted = s.assembler.tainted := rfl
@[simp] theorem restartStall_assembler_maxDepth (s : State) : (restartStall s).assembler.maxDepth = s.assembler.maxDepth := rfl
@[simp] theorem restartStall_assembler_voidCell (s : State) : (restartStall s).assembler.voidCell = s.assembler.voidCell := rfl
@[simp] theorem restartStall_assembler_softCell (s : State) : (restartStall s).assembler.softCell = s.assembler.softCell := rfl
@[simp] theorem restartStall_assembler_hardCell (s : State) : (restartStall s).assembler.hardCell = s.assembler.hardCell := rfl
@[simp] theorem restartStall_neighbours (s : State) : (restartStall s).neighbours = s.neighbours := rfl
@[simp] theorem restartStall_anchor (s : State) : (restartStall s).anchor = s.anchor := rfl
@[simp] theorem restartStall_resin (s : State) : (restartStall s).resin = s.resin := rfl
@[simp] theorem restartStall_torque (s : State) : (restartStall s).torque = s.torque := rfl
@[simp] theorem restartStall_flow (s : State) : (restartStall s).flow = s.flow := rfl
@[simp] theorem restartStall_link (s : State) : (restartStall s).link = s.link := rfl
@[simp] theorem restartStall_history (s : State) : (restartStall s).history = s.history := rfl
@[simp] theorem restartStall_host (s : State) : (restartStall s).host = s.host := rfl
@[simp] theorem restartStall_freeDraws (s : State) : (restartStall s).freeDraws = s.freeDraws := rfl

@[simp] theorem evaluateAnchor_pending (s : State) : (evaluateAnchor s).pending = s.pending := by simp [evaluateAnchor]
@[simp] theorem evaluateAnchor_resetHeld (s : State) : (evaluateAnchor s).resetHeld = s.resetHeld := by simp [evaluateAnchor]
@[simp] theorem evaluateAnchor_canopySet (s : State) : (evaluateAnchor s).canopySet = s.canopySet := by simp [evaluateAnchor]
@[simp] theorem evaluateAnchor_valveReady (s : State) : (evaluateAnchor s).valveReady = s.valveReady := by simp [evaluateAnchor]
@[simp] theorem evaluateAnchor_cycle (s : State) : (evaluateAnchor s).cycle = s.cycle := by simp [evaluateAnchor]
@[simp] theorem evaluateAnchor_sensor (s : State) : (evaluateAnchor s).sensor = s.sensor := by simp [evaluateAnchor]
@[simp] theorem evaluateAnchor_assembler (s : State) : (evaluateAnchor s).assembler = s.assembler := by simp [evaluateAnchor]
@[simp] theorem evaluateAnchor_neighbours (s : State) : (evaluateAnchor s).neighbours = s.neighbours := by simp [evaluateAnchor]
@[simp] theorem evaluateAnchor_resin (s : State) : (evaluateAnchor s).resin = s.resin := by simp [evaluateAnchor]
@[simp] theorem evaluateAnchor_torque (s : State) : (evaluateAnchor s).torque = s.torque := by simp [evaluateAnchor]
@[simp] theorem evaluateAnchor_flow (s : State) : (evaluateAnchor s).flow = s.flow := by simp [evaluateAnchor]
@[simp] theorem evaluateAnchor_link (s : State) : (evaluateAnchor s).link = s.link := by simp [evaluateAnchor]
@[simp] theorem evaluateAnchor_history_free (s : State) : (evaluateAnchor s).history.free = s.history.free := by simp [evaluateAnchor]
@[simp] theorem evaluateAnchor_history_selection (s : State) : (evaluateAnchor s).history.selection = s.history.selection := by simp [evaluateAnchor]
@[simp] theorem evaluateAnchor_history_pointer (s : State) : (evaluateAnchor s).history.pointer = s.history.pointer := by simp [evaluateAnchor]
@[simp] theorem evaluateAnchor_host (s : State) : (evaluateAnchor s).host = s.host := by simp [evaluateAnchor]
@[simp] theorem evaluateAnchor_freeDraws (s : State) : (evaluateAnchor s).freeDraws = s.freeDraws := by simp [evaluateAnchor]

@[simp] theorem proceedAnchor_pending (s : State) : (proceedAnchor s).pending = s.pending := rfl
@[simp] theorem proceedAnchor_resetHeld (s : State) : (proceedAnchor s).resetHeld = s.resetHeld := rfl
@[simp] theorem proceedAnchor_canopySet (s : State) : (proceedAnchor s).canopySet = s.canopySet := rfl
@[simp] theorem proceedAnchor_valveReady (s : State) : (proceedAnchor s).valveReady = s.valveReady := rfl
@[simp] theorem proceedAnchor_cycle (s : State) : (proceedAnchor s).cycle = s.cycle := rfl
@[simp] theorem proceedAnchor_sensor (s : State) : (proceedAnchor s).sensor = s.sensor := rfl
@[simp] theorem proceedAnchor_assembler (s : State) : (proceedAnchor s).assembler = s.assembler := rfl
@[simp] theorem proceedAnchor_neighbours (s : State) : (proceedAnchor s).neighbours = s.neighbours := rfl
@[simp] theorem proceedAnchor_anchor_voidCount (s : State) : (proceedAnchor s).anchor.voidCount = s.anchor.voidCount := rfl
@[simp] theorem proceedAnchor_anchor_softCount (s : State) : (proceedAnchor s).anchor.softCount = s.anchor.softCount := rfl
@[simp] theorem proceedAnchor_anchor_hardCount (s : State) : (proceedAnchor s).anchor.hardCount = s.anchor.hardCount := rfl
@[simp] theorem proceedAnchor_anchor_outcome (s : State) : (proceedAnchor s).anchor.outcome = s.anchor.outcome := rfl
@[simp] theorem proceedAnchor_resin (s : State) : (proceedAnchor s).resin = s.resin := rfl
@[simp] theorem proceedAnchor_torque (s : State) : (proceedAnchor s).torque = s.torque := rfl
@[simp] theorem proceedAnchor_flow (s : State) : (proceedAnchor s).flow = s.flow := rfl
@[simp] theorem proceedAnchor_link (s : State) : (proceedAnchor s).link = s.link := rfl
@[simp] theorem proceedAnchor_history_free (s : State) : (proceedAnchor s).history.free = s.history.free := rfl
@[simp] theorem proceedAnchor_history_selection (s : State) : (proceedAnchor s).history.selection = s.history.selection := rfl
@[simp] theorem proceedAnchor_history_pointer (s : State) : (proceedAnchor s).history.pointer = s.history.pointer := rfl
@[simp] theorem proceedAnchor_host (s : State) : (proceedAnchor s).host = s.host := rfl
@[simp] theorem proceedAnchor_freeDraws (s : State) : (proceedAnchor s).freeDraws = s.freeDraws := rfl

/-! ### The cycle -/

@[simp] theorem enterState_pending (c : CycleState) (s : State) : (enterState c s).pending = s.pending := rfl
@[simp] theorem enterState_resetHeld (c : CycleState) (s : State) : (enterState c s).resetHeld = s.resetHeld := rfl
@[simp] theorem enterState_canopySet (c : CycleState) (s : State) : (enterState c s).canopySet = s.canopySet := rfl
@[simp] theorem enterState_valveReady (c : CycleState) (s : State) : (enterState c s).valveReady = s.valveReady := rfl
@[simp] theorem enterState_cycle_timebase (c : CycleState) (s : State) : (enterState c s).cycle.timebase = s.cycle.timebase := rfl
@[simp] theorem enterState_cycle_held (c : CycleState) (s : State) : (enterState c s).cycle.held = s.cycle.held := rfl
@[simp] theorem enterState_cycle_pendingVerdict (c : CycleState) (s : State) : (enterState c s).cycle.pendingVerdict = s.cycle.pendingVerdict := rfl
@[simp] theorem enterState_cycle_abortPending (c : CycleState) (s : State) : (enterState c s).cycle.abortPending = s.cycle.abortPending := rfl
@[simp] theorem enterState_cycle_holeNumber (c : CycleState) (s : State) : (enterState c s).cycle.holeNumber = s.cycle.holeNumber := rfl
@[simp] theorem enterState_cycle_row (c : CycleState) (s : State) : (enterState c s).cycle.row = s.cycle.row := rfl
@[simp] theorem enterState_cycle_slot (c : CycleState) (s : State) : (enterState c s).cycle.slot = s.cycle.slot := rfl
@[simp] theorem enterState_cycle_planned (c : CycleState) (s : State) : (enterState c s).cycle.planned = s.cycle.planned := rfl
@[simp] theorem enterState_cycle_collarTimer (c : CycleState) (s : State) : (enterState c s).cycle.collarTimer = s.cycle.collarTimer := rfl
@[simp] theorem enterState_cycle_retractTimer (c : CycleState) (s : State) : (enterState c s).cycle.retractTimer = s.cycle.retractTimer := rfl
@[simp] theorem enterState_sensor (c : CycleState) (s : State) : (enterState c s).sensor = s.sensor := rfl
@[simp] theorem enterState_assembler (c : CycleState) (s : State) : (enterState c s).assembler = s.assembler := rfl
@[simp] theorem enterState_neighbours (c : CycleState) (s : State) : (enterState c s).neighbours = s.neighbours := rfl
@[simp] theorem enterState_anchor (c : CycleState) (s : State) : (enterState c s).anchor = s.anchor := rfl
@[simp] theorem enterState_resin (c : CycleState) (s : State) : (enterState c s).resin = s.resin := rfl
@[simp] theorem enterState_torque (c : CycleState) (s : State) : (enterState c s).torque = s.torque := rfl
@[simp] theorem enterState_flow (c : CycleState) (s : State) : (enterState c s).flow = s.flow := rfl
@[simp] theorem enterState_link (c : CycleState) (s : State) : (enterState c s).link = s.link := rfl
@[simp] theorem enterState_history (c : CycleState) (s : State) : (enterState c s).history = s.history := rfl
@[simp] theorem enterState_host (c : CycleState) (s : State) : (enterState c s).host = s.host := rfl
@[simp] theorem enterState_freeDraws (c : CycleState) (s : State) : (enterState c s).freeDraws = s.freeDraws := rfl

@[simp] theorem ResinBlock.withdraw_charge (r : ResinBlock) (p : Phase) (now : Time) : (r.withdraw p now).charge = r.charge := by
  unfold ResinBlock.withdraw; split <;> rfl
@[simp] theorem ResinBlock.withdraw_pushed (r : ResinBlock) (p : Phase) (now : Time) : (r.withdraw p now).pushed = r.pushed := by
  unfold ResinBlock.withdraw; split <;> rfl
@[simp] theorem ResinBlock.withdraw_strokeTimer (r : ResinBlock) (p : Phase) (now : Time) : (r.withdraw p now).strokeTimer = r.strokeTimer := by
  unfold ResinBlock.withdraw; split <;> rfl
@[simp] theorem ResinBlock.withdraw_retry (r : ResinBlock) (p : Phase) (now : Time) : (r.withdraw p now).retry = r.retry := by
  unfold ResinBlock.withdraw; split <;> rfl
@[simp] theorem ResinBlock.withdraw_band (r : ResinBlock) (p : Phase) (now : Time) : (r.withdraw p now).band = r.band := by
  unfold ResinBlock.withdraw; split <;> rfl
@[simp] theorem ResinBlock.withdraw_quarterRevs (r : ResinBlock) (p : Phase) (now : Time) : (r.withdraw p now).quarterRevs = r.quarterRevs := by
  unfold ResinBlock.withdraw; split <;> rfl
@[simp] theorem ResinBlock.withdraw_mixDeadline (r : ResinBlock) (p : Phase) (now : Time) : (r.withdraw p now).mixDeadline = r.mixDeadline := by
  unfold ResinBlock.withdraw; split <;> rfl
@[simp] theorem ResinBlock.withdraw_holdDeadline (r : ResinBlock) (p : Phase) (now : Time) : (r.withdraw p now).holdDeadline = r.holdDeadline := by
  unfold ResinBlock.withdraw; split <;> rfl
@[simp] theorem ResinBlock.withdraw_holdPassed (r : ResinBlock) (p : Phase) (now : Time) : (r.withdraw p now).holdPassed = r.holdPassed := by
  unfold ResinBlock.withdraw; split <;> rfl

@[simp] theorem suspend_pending (c : Cause) (s : State) : (suspend c s).pending = s.pending := by unfold suspend; split <;> simp
@[simp] theorem suspend_resetHeld (c : Cause) (s : State) : (suspend c s).resetHeld = s.resetHeld := by unfold suspend; split <;> simp
@[simp] theorem suspend_canopySet (c : Cause) (s : State) : (suspend c s).canopySet = s.canopySet := by unfold suspend; split <;> simp
@[simp] theorem suspend_valveReady (c : Cause) (s : State) : (suspend c s).valveReady = s.valveReady := by unfold suspend; split <;> simp
@[simp] theorem suspend_cycle_timebase (c : Cause) (s : State) : (suspend c s).cycle.timebase = s.cycle.timebase := by unfold suspend; split <;> simp
@[simp] theorem suspend_cycle_held (c : Cause) (s : State) : (suspend c s).cycle.held = s.cycle.held := by unfold suspend; split <;> simp
@[simp] theorem suspend_cycle_pendingVerdict (c : Cause) (s : State) : (suspend c s).cycle.pendingVerdict = s.cycle.pendingVerdict := by unfold suspend; split <;> simp
@[simp] theorem suspend_cycle_abortPending (c : Cause) (s : State) : (suspend c s).cycle.abortPending = s.cycle.abortPending := by unfold suspend; split <;> simp
@[simp] theorem suspend_cycle_holeNumber (c : Cause) (s : State) : (suspend c s).cycle.holeNumber = s.cycle.holeNumber := by unfold suspend; split <;> simp
@[simp] theorem suspend_cycle_row (c : Cause) (s : State) : (suspend c s).cycle.row = s.cycle.row := by unfold suspend; split <;> simp
@[simp] theorem suspend_cycle_slot (c : Cause) (s : State) : (suspend c s).cycle.slot = s.cycle.slot := by unfold suspend; split <;> simp
@[simp] theorem suspend_cycle_planned (c : Cause) (s : State) : (suspend c s).cycle.planned = s.cycle.planned := by unfold suspend; split <;> simp
@[simp] theorem suspend_cycle_collarTimer (c : Cause) (s : State) : (suspend c s).cycle.collarTimer = s.cycle.collarTimer := by unfold suspend; split <;> simp
@[simp] theorem suspend_cycle_retractTimer (c : Cause) (s : State) : (suspend c s).cycle.retractTimer = s.cycle.retractTimer := by unfold suspend; split <;> simp
@[simp] theorem suspend_sensor (c : Cause) (s : State) : (suspend c s).sensor = s.sensor := by unfold suspend; split <;> simp
@[simp] theorem suspend_assembler (c : Cause) (s : State) : (suspend c s).assembler = s.assembler := by unfold suspend; split <;> simp
@[simp] theorem suspend_neighbours (c : Cause) (s : State) : (suspend c s).neighbours = s.neighbours := by unfold suspend; split <;> simp
@[simp] theorem suspend_anchor (c : Cause) (s : State) : (suspend c s).anchor = s.anchor := by unfold suspend; split <;> simp
@[simp] theorem suspend_resin_charge (c : Cause) (s : State) : (suspend c s).resin.charge = s.resin.charge := by unfold suspend; split <;> simp
@[simp] theorem suspend_resin_pushed (c : Cause) (s : State) : (suspend c s).resin.pushed = s.resin.pushed := by unfold suspend; split <;> simp
@[simp] theorem suspend_resin_strokeTimer (c : Cause) (s : State) : (suspend c s).resin.strokeTimer = s.resin.strokeTimer := by unfold suspend; split <;> simp
@[simp] theorem suspend_resin_retry (c : Cause) (s : State) : (suspend c s).resin.retry = s.resin.retry := by unfold suspend; split <;> simp
@[simp] theorem suspend_resin_band (c : Cause) (s : State) : (suspend c s).resin.band = s.resin.band := by unfold suspend; split <;> simp
@[simp] theorem suspend_resin_quarterRevs (c : Cause) (s : State) : (suspend c s).resin.quarterRevs = s.resin.quarterRevs := by unfold suspend; split <;> simp
@[simp] theorem suspend_resin_mixDeadline (c : Cause) (s : State) : (suspend c s).resin.mixDeadline = s.resin.mixDeadline := by unfold suspend; split <;> simp
@[simp] theorem suspend_resin_holdDeadline (c : Cause) (s : State) : (suspend c s).resin.holdDeadline = s.resin.holdDeadline := by unfold suspend; split <;> simp
@[simp] theorem suspend_resin_holdPassed (c : Cause) (s : State) : (suspend c s).resin.holdPassed = s.resin.holdPassed := by unfold suspend; split <;> simp
@[simp] theorem suspend_torque_target (c : Cause) (s : State) : (suspend c s).torque.target = s.torque.target := by unfold suspend; split <;> simp
@[simp] theorem suspend_torque_ceiling (c : Cause) (s : State) : (suspend c s).torque.ceiling = s.torque.ceiling := by unfold suspend; split <;> simp
@[simp] theorem suspend_torque_near (c : Cause) (s : State) : (suspend c s).torque.near = s.torque.near := by unfold suspend; split <;> simp
@[simp] theorem suspend_torque_entered (c : Cause) (s : State) : (suspend c s).torque.entered = s.torque.entered := by unfold suspend; split <;> simp
@[simp] theorem suspend_torque_timer (c : Cause) (s : State) : (suspend c s).torque.timer = s.torque.timer := by unfold suspend; split <;> simp
@[simp] theorem suspend_torque_spinner (c : Cause) (s : State) : (suspend c s).torque.spinner = s.torque.spinner := by unfold suspend; split <;> simp
@[simp] theorem suspend_torque_peak (c : Cause) (s : State) : (suspend c s).torque.peak = s.torque.peak := by unfold suspend; split <;> simp
@[simp] theorem suspend_torque_overshoot (c : Cause) (s : State) : (suspend c s).torque.overshoot = s.torque.overshoot := by unfold suspend; split <;> simp
@[simp] theorem suspend_flow (c : Cause) (s : State) : (suspend c s).flow = s.flow := by unfold suspend; split <;> simp
@[simp] theorem suspend_link (c : Cause) (s : State) : (suspend c s).link = s.link := by unfold suspend; split <;> simp
@[simp] theorem suspend_history_free (c : Cause) (s : State) : (suspend c s).history.free = s.history.free := by unfold suspend; split <;> simp
@[simp] theorem suspend_history_selection (c : Cause) (s : State) : (suspend c s).history.selection = s.history.selection := by unfold suspend; split <;> simp
@[simp] theorem suspend_history_pointer (c : Cause) (s : State) : (suspend c s).history.pointer = s.history.pointer := by unfold suspend; split <;> simp
@[simp] theorem suspend_host (c : Cause) (s : State) : (suspend c s).host = s.host := by unfold suspend; split <;> simp
@[simp] theorem suspend_freeDraws (c : Cause) (s : State) : (suspend c s).freeDraws = s.freeDraws := by unfold suspend; split <;> simp

@[simp] theorem enterPhase_pending (p : Phase) (s : State) : (enterPhase p s).pending = s.pending := by unfold enterPhase; split <;> simp
@[simp] theorem enterPhase_resetHeld (p : Phase) (s : State) : (enterPhase p s).resetHeld = s.resetHeld := by unfold enterPhase; split <;> simp
@[simp] theorem enterPhase_canopySet (p : Phase) (s : State) : (enterPhase p s).canopySet = s.canopySet := by unfold enterPhase; split <;> simp
@[simp] theorem enterPhase_valveReady (p : Phase) (s : State) : (enterPhase p s).valveReady = s.valveReady := by unfold enterPhase; split <;> simp
@[simp] theorem enterPhase_cycle_timebase (p : Phase) (s : State) : (enterPhase p s).cycle.timebase = s.cycle.timebase := by unfold enterPhase; split <;> simp
@[simp] theorem enterPhase_cycle_held (p : Phase) (s : State) : (enterPhase p s).cycle.held = s.cycle.held := by unfold enterPhase; split <;> simp
@[simp] theorem enterPhase_cycle_pendingVerdict (p : Phase) (s : State) : (enterPhase p s).cycle.pendingVerdict = s.cycle.pendingVerdict := by unfold enterPhase; split <;> simp
@[simp] theorem enterPhase_cycle_abortPending (p : Phase) (s : State) : (enterPhase p s).cycle.abortPending = s.cycle.abortPending := by unfold enterPhase; split <;> simp
@[simp] theorem enterPhase_cycle_holeNumber (p : Phase) (s : State) : (enterPhase p s).cycle.holeNumber = s.cycle.holeNumber := by unfold enterPhase; split <;> simp
@[simp] theorem enterPhase_cycle_row (p : Phase) (s : State) : (enterPhase p s).cycle.row = s.cycle.row := by unfold enterPhase; split <;> simp
@[simp] theorem enterPhase_cycle_slot (p : Phase) (s : State) : (enterPhase p s).cycle.slot = s.cycle.slot := by unfold enterPhase; split <;> simp
@[simp] theorem enterPhase_cycle_planned (p : Phase) (s : State) : (enterPhase p s).cycle.planned = s.cycle.planned := by unfold enterPhase; split <;> simp
@[simp] theorem enterPhase_cycle_collarTimer (p : Phase) (s : State) : (enterPhase p s).cycle.collarTimer = s.cycle.collarTimer := by unfold enterPhase; split <;> simp
@[simp] theorem enterPhase_cycle_retractTimer (p : Phase) (s : State) : (enterPhase p s).cycle.retractTimer = s.cycle.retractTimer := by unfold enterPhase; split <;> simp
@[simp] theorem enterPhase_sensor (p : Phase) (s : State) : (enterPhase p s).sensor = s.sensor := by unfold enterPhase; split <;> simp
@[simp] theorem enterPhase_assembler (p : Phase) (s : State) : (enterPhase p s).assembler = s.assembler := by unfold enterPhase; split <;> simp
@[simp] theorem enterPhase_neighbours (p : Phase) (s : State) : (enterPhase p s).neighbours = s.neighbours := by unfold enterPhase; split <;> simp
@[simp] theorem enterPhase_anchor (p : Phase) (s : State) : (enterPhase p s).anchor = s.anchor := by unfold enterPhase; split <;> simp
@[simp] theorem enterPhase_resin_charge (p : Phase) (s : State) : (enterPhase p s).resin.charge = s.resin.charge := by unfold enterPhase; split <;> simp
@[simp] theorem enterPhase_resin_pushed (p : Phase) (s : State) : (enterPhase p s).resin.pushed = s.resin.pushed := by unfold enterPhase; split <;> simp
@[simp] theorem enterPhase_resin_strokeTimer (p : Phase) (s : State) : (enterPhase p s).resin.strokeTimer = s.resin.strokeTimer := by unfold enterPhase; split <;> simp
@[simp] theorem enterPhase_resin_retry (p : Phase) (s : State) : (enterPhase p s).resin.retry = s.resin.retry := by unfold enterPhase; split <;> simp
@[simp] theorem enterPhase_resin_band (p : Phase) (s : State) : (enterPhase p s).resin.band = s.resin.band := by unfold enterPhase; split <;> simp
@[simp] theorem enterPhase_resin_quarterRevs (p : Phase) (s : State) : (enterPhase p s).resin.quarterRevs = s.resin.quarterRevs := by unfold enterPhase; split <;> simp
@[simp] theorem enterPhase_resin_mixDeadline (p : Phase) (s : State) : (enterPhase p s).resin.mixDeadline = s.resin.mixDeadline := by unfold enterPhase; split <;> simp
@[simp] theorem enterPhase_resin_holdDeadline (p : Phase) (s : State) : (enterPhase p s).resin.holdDeadline = s.resin.holdDeadline := by unfold enterPhase; split <;> simp
@[simp] theorem enterPhase_resin_holdPassed (p : Phase) (s : State) : (enterPhase p s).resin.holdPassed = s.resin.holdPassed := by unfold enterPhase; split <;> simp
@[simp] theorem enterPhase_torque_target (p : Phase) (s : State) : (enterPhase p s).torque.target = s.torque.target := by unfold enterPhase; split <;> simp
@[simp] theorem enterPhase_torque_ceiling (p : Phase) (s : State) : (enterPhase p s).torque.ceiling = s.torque.ceiling := by unfold enterPhase; split <;> simp
@[simp] theorem enterPhase_torque_near (p : Phase) (s : State) : (enterPhase p s).torque.near = s.torque.near := by unfold enterPhase; split <;> simp
@[simp] theorem enterPhase_torque_entered (p : Phase) (s : State) : (enterPhase p s).torque.entered = s.torque.entered := by unfold enterPhase; split <;> simp
@[simp] theorem enterPhase_torque_timer (p : Phase) (s : State) : (enterPhase p s).torque.timer = s.torque.timer := by unfold enterPhase; split <;> simp
@[simp] theorem enterPhase_torque_spinner (p : Phase) (s : State) : (enterPhase p s).torque.spinner = s.torque.spinner := by unfold enterPhase; split <;> simp
@[simp] theorem enterPhase_torque_peak (p : Phase) (s : State) : (enterPhase p s).torque.peak = s.torque.peak := by unfold enterPhase; split <;> simp
@[simp] theorem enterPhase_torque_overshoot (p : Phase) (s : State) : (enterPhase p s).torque.overshoot = s.torque.overshoot := by unfold enterPhase; split <;> simp
@[simp] theorem enterPhase_flow (p : Phase) (s : State) : (enterPhase p s).flow = s.flow := by unfold enterPhase; split <;> simp
@[simp] theorem enterPhase_link (p : Phase) (s : State) : (enterPhase p s).link = s.link := by unfold enterPhase; split <;> simp
@[simp] theorem enterPhase_history_free (p : Phase) (s : State) : (enterPhase p s).history.free = s.history.free := by unfold enterPhase; split <;> simp
@[simp] theorem enterPhase_history_selection (p : Phase) (s : State) : (enterPhase p s).history.selection = s.history.selection := by unfold enterPhase; split <;> simp
@[simp] theorem enterPhase_history_pointer (p : Phase) (s : State) : (enterPhase p s).history.pointer = s.history.pointer := by unfold enterPhase; split <;> simp
@[simp] theorem enterPhase_host (p : Phase) (s : State) : (enterPhase p s).host = s.host := by unfold enterPhase; split <;> simp
@[simp] theorem enterPhase_freeDraws (p : Phase) (s : State) : (enterPhase p s).freeDraws = s.freeDraws := by unfold enterPhase; split <;> simp

@[simp] theorem announceHole_pending (v : Verdict) (r : Option HoleRecord) (s : State) : (announceHole v r s).pending = s.pending := by
  unfold announceHole; split <;> try split
  all_goals simp
@[simp] theorem announceHole_resetHeld (v : Verdict) (r : Option HoleRecord) (s : State) : (announceHole v r s).resetHeld = s.resetHeld := by
  unfold announceHole; split <;> try split
  all_goals simp
@[simp] theorem announceHole_canopySet (v : Verdict) (r : Option HoleRecord) (s : State) : (announceHole v r s).canopySet = s.canopySet := by
  unfold announceHole; split <;> try split
  all_goals simp
@[simp] theorem announceHole_valveReady (v : Verdict) (r : Option HoleRecord) (s : State) : (announceHole v r s).valveReady = s.valveReady := by
  unfold announceHole; split <;> try split
  all_goals simp
@[simp] theorem announceHole_cycle (v : Verdict) (r : Option HoleRecord) (s : State) : (announceHole v r s).cycle = s.cycle := by
  unfold announceHole; split <;> try split
  all_goals simp
@[simp] theorem announceHole_sensor (v : Verdict) (r : Option HoleRecord) (s : State) : (announceHole v r s).sensor = s.sensor := by
  unfold announceHole; split <;> try split
  all_goals simp
@[simp] theorem announceHole_assembler (v : Verdict) (r : Option HoleRecord) (s : State) : (announceHole v r s).assembler = s.assembler := by
  unfold announceHole; split <;> try split
  all_goals simp
@[simp] theorem announceHole_neighbours_nearVoid (v : Verdict) (r : Option HoleRecord) (s : State) : (announceHole v r s).neighbours.nearVoid = s.neighbours.nearVoid := by
  unfold announceHole; split <;> try split
  all_goals simp
@[simp] theorem announceHole_anchor (v : Verdict) (r : Option HoleRecord) (s : State) : (announceHole v r s).anchor = s.anchor := by
  unfold announceHole; split <;> try split
  all_goals simp
@[simp] theorem announceHole_resin (v : Verdict) (r : Option HoleRecord) (s : State) : (announceHole v r s).resin = s.resin := by
  unfold announceHole; split <;> try split
  all_goals simp
@[simp] theorem announceHole_torque (v : Verdict) (r : Option HoleRecord) (s : State) : (announceHole v r s).torque = s.torque := by
  unfold announceHole; split <;> try split
  all_goals simp
@[simp] theorem announceHole_flow (v : Verdict) (r : Option HoleRecord) (s : State) : (announceHole v r s).flow = s.flow := by
  unfold announceHole; split <;> try split
  all_goals simp
@[simp] theorem announceHole_link_view (v : Verdict) (r : Option HoleRecord) (s : State) : (announceHole v r s).link.view = s.link.view := by
  unfold announceHole; split <;> try split
  all_goals simp
@[simp] theorem announceHole_link_recessive (v : Verdict) (r : Option HoleRecord) (s : State) : (announceHole v r s).link.recessive = s.link.recessive := by
  unfold announceHole; split <;> try split
  all_goals simp
@[simp] theorem announceHole_link_ownLast (v : Verdict) (r : Option HoleRecord) (s : State) : (announceHole v r s).link.ownLast = s.link.ownLast := by
  unfold announceHole; split <;> try split
  all_goals simp
@[simp] theorem announceHole_link_assembly (v : Verdict) (r : Option HoleRecord) (s : State) : (announceHole v r s).link.assembly = s.link.assembly := by
  unfold announceHole; split <;> try split
  all_goals simp
@[simp] theorem announceHole_link_tx (v : Verdict) (r : Option HoleRecord) (s : State) : (announceHole v r s).link.tx = s.link.tx := by
  unfold announceHole; split <;> try split
  all_goals simp
@[simp] theorem announceHole_link_slot (v : Verdict) (r : Option HoleRecord) (s : State) : (announceHole v r s).link.slot = s.link.slot := by
  unfold announceHole; split <;> try split
  all_goals simp
@[simp] theorem announceHole_link_queueOnLine (v : Verdict) (r : Option HoleRecord) (s : State) : (announceHole v r s).link.queueOnLine = s.link.queueOnLine := by
  unfold announceHole; split <;> try split
  all_goals simp
@[simp] theorem announceHole_link_mute (v : Verdict) (r : Option HoleRecord) (s : State) : (announceHole v r s).link.mute = s.link.mute := by
  unfold announceHole; split <;> try split
  all_goals simp
@[simp] theorem announceHole_link_txFault (v : Verdict) (r : Option HoleRecord) (s : State) : (announceHole v r s).link.txFault = s.link.txFault := by
  unfold announceHole; split <;> try split
  all_goals simp
@[simp] theorem announceHole_history (v : Verdict) (r : Option HoleRecord) (s : State) : (announceHole v r s).history = s.history := by
  unfold announceHole; split <;> try split
  all_goals simp
@[simp] theorem announceHole_host (v : Verdict) (r : Option HoleRecord) (s : State) : (announceHole v r s).host = s.host := by
  unfold announceHole; split <;> try split
  all_goals simp
@[simp] theorem announceHole_freeDraws (v : Verdict) (r : Option HoleRecord) (s : State) : (announceHole v r s).freeDraws = s.freeDraws := by
  unfold announceHole; split <;> try split
  all_goals simp

@[simp] theorem HistoryBlock.finish_selection (h : HistoryBlock) (v : Verdict) (b : Bool) : (h.finish v b).selection = h.selection := rfl
@[simp] theorem HistoryBlock.finish_pointer (h : HistoryBlock) (v : Verdict) (b : Bool) : (h.finish v b).pointer = h.pointer := rfl
@[simp] theorem complete_pending (v : Verdict) (s : State) : (complete v s).pending = s.pending := by simp [complete]
@[simp] theorem complete_resetHeld (v : Verdict) (s : State) : (complete v s).resetHeld = s.resetHeld := by simp [complete]
@[simp] theorem complete_canopySet (v : Verdict) (s : State) : (complete v s).canopySet = s.canopySet := by simp [complete]
@[simp] theorem complete_valveReady (v : Verdict) (s : State) : (complete v s).valveReady = s.valveReady := by simp [complete]
@[simp] theorem complete_cycle_timebase (v : Verdict) (s : State) : (complete v s).cycle.timebase = s.cycle.timebase := by simp [complete]
@[simp] theorem complete_cycle_held (v : Verdict) (s : State) : (complete v s).cycle.held = s.cycle.held := by simp [complete]
@[simp] theorem complete_cycle_holeNumber (v : Verdict) (s : State) : (complete v s).cycle.holeNumber = s.cycle.holeNumber := by simp [complete]
@[simp] theorem complete_cycle_row (v : Verdict) (s : State) : (complete v s).cycle.row = s.cycle.row := by simp [complete]
@[simp] theorem complete_cycle_slot (v : Verdict) (s : State) : (complete v s).cycle.slot = s.cycle.slot := by simp [complete]
@[simp] theorem complete_cycle_planned (v : Verdict) (s : State) : (complete v s).cycle.planned = s.cycle.planned := by simp [complete]
@[simp] theorem complete_sensor (v : Verdict) (s : State) : (complete v s).sensor = s.sensor := by simp [complete]
@[simp] theorem complete_assembler (v : Verdict) (s : State) : (complete v s).assembler = s.assembler := by simp [complete]
@[simp] theorem complete_neighbours_nearVoid (v : Verdict) (s : State) : (complete v s).neighbours.nearVoid = s.neighbours.nearVoid := by simp [complete]
@[simp] theorem complete_anchor (v : Verdict) (s : State) : (complete v s).anchor = s.anchor := by simp [complete]
@[simp] theorem complete_resin_charge (v : Verdict) (s : State) : (complete v s).resin.charge = s.resin.charge := by simp [complete]
@[simp] theorem complete_resin_pushed (v : Verdict) (s : State) : (complete v s).resin.pushed = s.resin.pushed := by simp [complete]
@[simp] theorem complete_resin_retry (v : Verdict) (s : State) : (complete v s).resin.retry = s.resin.retry := by simp [complete]
@[simp] theorem complete_resin_band (v : Verdict) (s : State) : (complete v s).resin.band = s.resin.band := by simp [complete]
@[simp] theorem complete_resin_quarterRevs (v : Verdict) (s : State) : (complete v s).resin.quarterRevs = s.resin.quarterRevs := by simp [complete]
@[simp] theorem complete_resin_holdPassed (v : Verdict) (s : State) : (complete v s).resin.holdPassed = s.resin.holdPassed := by simp [complete]
@[simp] theorem complete_torque_target (v : Verdict) (s : State) : (complete v s).torque.target = s.torque.target := by simp [complete]
@[simp] theorem complete_torque_ceiling (v : Verdict) (s : State) : (complete v s).torque.ceiling = s.torque.ceiling := by simp [complete]
@[simp] theorem complete_torque_near (v : Verdict) (s : State) : (complete v s).torque.near = s.torque.near := by simp [complete]
@[simp] theorem complete_torque_entered (v : Verdict) (s : State) : (complete v s).torque.entered = s.torque.entered := by simp [complete]
@[simp] theorem complete_torque_spinner (v : Verdict) (s : State) : (complete v s).torque.spinner = s.torque.spinner := by simp [complete]
@[simp] theorem complete_torque_peak (v : Verdict) (s : State) : (complete v s).torque.peak = s.torque.peak := by simp [complete]
@[simp] theorem complete_torque_overshoot (v : Verdict) (s : State) : (complete v s).torque.overshoot = s.torque.overshoot := by simp [complete]
@[simp] theorem complete_flow (v : Verdict) (s : State) : (complete v s).flow = s.flow := by simp [complete]
@[simp] theorem complete_link_view (v : Verdict) (s : State) : (complete v s).link.view = s.link.view := by simp [complete]
@[simp] theorem complete_link_recessive (v : Verdict) (s : State) : (complete v s).link.recessive = s.link.recessive := by simp [complete]
@[simp] theorem complete_link_ownLast (v : Verdict) (s : State) : (complete v s).link.ownLast = s.link.ownLast := by simp [complete]
@[simp] theorem complete_link_assembly (v : Verdict) (s : State) : (complete v s).link.assembly = s.link.assembly := by simp [complete]
@[simp] theorem complete_link_tx (v : Verdict) (s : State) : (complete v s).link.tx = s.link.tx := by simp [complete]
@[simp] theorem complete_link_slot (v : Verdict) (s : State) : (complete v s).link.slot = s.link.slot := by simp [complete]
@[simp] theorem complete_link_queueOnLine (v : Verdict) (s : State) : (complete v s).link.queueOnLine = s.link.queueOnLine := by simp [complete]
@[simp] theorem complete_link_mute (v : Verdict) (s : State) : (complete v s).link.mute = s.link.mute := by simp [complete]
@[simp] theorem complete_link_txFault (v : Verdict) (s : State) : (complete v s).link.txFault = s.link.txFault := by simp [complete]
@[simp] theorem complete_history_selection (v : Verdict) (s : State) : (complete v s).history.selection = s.history.selection := by simp [complete]
@[simp] theorem complete_history_pointer (v : Verdict) (s : State) : (complete v s).history.pointer = s.history.pointer := by simp [complete]
@[simp] theorem complete_host_reply (v : Verdict) (s : State) : (complete v s).host.reply = s.host.reply := by simp [complete]
@[simp] theorem complete_host_hsdo (v : Verdict) (s : State) : (complete v s).host.hsdo = s.host.hsdo := by simp [complete]
@[simp] theorem complete_host_config (v : Verdict) (s : State) : (complete v s).host.config = s.host.config := by simp [complete]
@[simp] theorem complete_host_stack (v : Verdict) (s : State) : (complete v s).host.stack = s.host.stack := by simp [complete]
@[simp] theorem complete_host_faults (v : Verdict) (s : State) : (complete v s).host.faults = s.host.faults := by simp [complete]
@[simp] theorem complete_host_watch (v : Verdict) (s : State) : (complete v s).host.watch = s.host.watch := by simp [complete]
@[simp] theorem complete_freeDraws (v : Verdict) (s : State) : (complete v s).freeDraws = s.freeDraws := by simp [complete]

@[simp] theorem setPendingVerdict_pending (v : PendingVerdict) (s : State) : (setPendingVerdict v s).pending = s.pending := rfl
@[simp] theorem setPendingVerdict_resetHeld (v : PendingVerdict) (s : State) : (setPendingVerdict v s).resetHeld = s.resetHeld := rfl
@[simp] theorem setPendingVerdict_canopySet (v : PendingVerdict) (s : State) : (setPendingVerdict v s).canopySet = s.canopySet := rfl
@[simp] theorem setPendingVerdict_valveReady (v : PendingVerdict) (s : State) : (setPendingVerdict v s).valveReady = s.valveReady := rfl
@[simp] theorem setPendingVerdict_cycle_timebase (v : PendingVerdict) (s : State) : (setPendingVerdict v s).cycle.timebase = s.cycle.timebase := rfl
@[simp] theorem setPendingVerdict_cycle_state (v : PendingVerdict) (s : State) : (setPendingVerdict v s).cycle.state = s.cycle.state := rfl
@[simp] theorem setPendingVerdict_cycle_remembered (v : PendingVerdict) (s : State) : (setPendingVerdict v s).cycle.remembered = s.cycle.remembered := rfl
@[simp] theorem setPendingVerdict_cycle_cause (v : PendingVerdict) (s : State) : (setPendingVerdict v s).cycle.cause = s.cycle.cause := rfl
@[simp] theorem setPendingVerdict_cycle_held (v : PendingVerdict) (s : State) : (setPendingVerdict v s).cycle.held = s.cycle.held := rfl
@[simp] theorem setPendingVerdict_cycle_abortPending (v : PendingVerdict) (s : State) : (setPendingVerdict v s).cycle.abortPending = s.cycle.abortPending := rfl
@[simp] theorem setPendingVerdict_cycle_holeNumber (v : PendingVerdict) (s : State) : (setPendingVerdict v s).cycle.holeNumber = s.cycle.holeNumber := rfl
@[simp] theorem setPendingVerdict_cycle_row (v : PendingVerdict) (s : State) : (setPendingVerdict v s).cycle.row = s.cycle.row := rfl
@[simp] theorem setPendingVerdict_cycle_slot (v : PendingVerdict) (s : State) : (setPendingVerdict v s).cycle.slot = s.cycle.slot := rfl
@[simp] theorem setPendingVerdict_cycle_planned (v : PendingVerdict) (s : State) : (setPendingVerdict v s).cycle.planned = s.cycle.planned := rfl
@[simp] theorem setPendingVerdict_cycle_collarTimer (v : PendingVerdict) (s : State) : (setPendingVerdict v s).cycle.collarTimer = s.cycle.collarTimer := rfl
@[simp] theorem setPendingVerdict_cycle_retractTimer (v : PendingVerdict) (s : State) : (setPendingVerdict v s).cycle.retractTimer = s.cycle.retractTimer := rfl
@[simp] theorem setPendingVerdict_sensor (v : PendingVerdict) (s : State) : (setPendingVerdict v s).sensor = s.sensor := rfl
@[simp] theorem setPendingVerdict_assembler (v : PendingVerdict) (s : State) : (setPendingVerdict v s).assembler = s.assembler := rfl
@[simp] theorem setPendingVerdict_neighbours (v : PendingVerdict) (s : State) : (setPendingVerdict v s).neighbours = s.neighbours := rfl
@[simp] theorem setPendingVerdict_anchor (v : PendingVerdict) (s : State) : (setPendingVerdict v s).anchor = s.anchor := rfl
@[simp] theorem setPendingVerdict_resin (v : PendingVerdict) (s : State) : (setPendingVerdict v s).resin = s.resin := rfl
@[simp] theorem setPendingVerdict_torque (v : PendingVerdict) (s : State) : (setPendingVerdict v s).torque = s.torque := rfl
@[simp] theorem setPendingVerdict_flow (v : PendingVerdict) (s : State) : (setPendingVerdict v s).flow = s.flow := rfl
@[simp] theorem setPendingVerdict_link (v : PendingVerdict) (s : State) : (setPendingVerdict v s).link = s.link := rfl
@[simp] theorem setPendingVerdict_history (v : PendingVerdict) (s : State) : (setPendingVerdict v s).history = s.history := rfl
@[simp] theorem setPendingVerdict_host (v : PendingVerdict) (s : State) : (setPendingVerdict v s).host = s.host := rfl
@[simp] theorem setPendingVerdict_freeDraws (v : PendingVerdict) (s : State) : (setPendingVerdict v s).freeDraws = s.freeDraws := rfl

@[simp] theorem enterRetractFresh_pending (s : State) : (enterRetractFresh s).pending = s.pending := by simp [enterRetractFresh]
@[simp] theorem enterRetractFresh_resetHeld (s : State) : (enterRetractFresh s).resetHeld = s.resetHeld := by simp [enterRetractFresh]
@[simp] theorem enterRetractFresh_canopySet (s : State) : (enterRetractFresh s).canopySet = s.canopySet := by simp [enterRetractFresh]
@[simp] theorem enterRetractFresh_valveReady (s : State) : (enterRetractFresh s).valveReady = s.valveReady := by simp [enterRetractFresh]
@[simp] theorem enterRetractFresh_cycle_timebase (s : State) : (enterRetractFresh s).cycle.timebase = s.cycle.timebase := by simp [enterRetractFresh]
@[simp] theorem enterRetractFresh_cycle_held (s : State) : (enterRetractFresh s).cycle.held = s.cycle.held := by simp [enterRetractFresh]
@[simp] theorem enterRetractFresh_cycle_pendingVerdict (s : State) : (enterRetractFresh s).cycle.pendingVerdict = s.cycle.pendingVerdict := by simp [enterRetractFresh]
@[simp] theorem enterRetractFresh_cycle_abortPending (s : State) : (enterRetractFresh s).cycle.abortPending = s.cycle.abortPending := by simp [enterRetractFresh]
@[simp] theorem enterRetractFresh_cycle_holeNumber (s : State) : (enterRetractFresh s).cycle.holeNumber = s.cycle.holeNumber := by simp [enterRetractFresh]
@[simp] theorem enterRetractFresh_cycle_row (s : State) : (enterRetractFresh s).cycle.row = s.cycle.row := by simp [enterRetractFresh]
@[simp] theorem enterRetractFresh_cycle_slot (s : State) : (enterRetractFresh s).cycle.slot = s.cycle.slot := by simp [enterRetractFresh]
@[simp] theorem enterRetractFresh_cycle_planned (s : State) : (enterRetractFresh s).cycle.planned = s.cycle.planned := by simp [enterRetractFresh]
@[simp] theorem enterRetractFresh_sensor (s : State) : (enterRetractFresh s).sensor = s.sensor := by simp [enterRetractFresh]
@[simp] theorem enterRetractFresh_assembler_cell (s : State) : (enterRetractFresh s).assembler.cell = s.assembler.cell := by simp [enterRetractFresh]
@[simp] theorem enterRetractFresh_assembler_n (s : State) : (enterRetractFresh s).assembler.n = s.assembler.n := by simp [enterRetractFresh]
@[simp] theorem enterRetractFresh_assembler_rotary (s : State) : (enterRetractFresh s).assembler.rotary = s.assembler.rotary := by simp [enterRetractFresh]
@[simp] theorem enterRetractFresh_assembler_thrust (s : State) : (enterRetractFresh s).assembler.thrust = s.assembler.thrust := by simp [enterRetractFresh]
@[simp] theorem enterRetractFresh_assembler_capped (s : State) : (enterRetractFresh s).assembler.capped = s.assembler.capped := by simp [enterRetractFresh]
@[simp] theorem enterRetractFresh_assembler_tainted (s : State) : (enterRetractFresh s).assembler.tainted = s.assembler.tainted := by simp [enterRetractFresh]
@[simp] theorem enterRetractFresh_assembler_maxDepth (s : State) : (enterRetractFresh s).assembler.maxDepth = s.assembler.maxDepth := by simp [enterRetractFresh]
@[simp] theorem enterRetractFresh_assembler_stallRef (s : State) : (enterRetractFresh s).assembler.stallRef = s.assembler.stallRef := by simp [enterRetractFresh]
@[simp] theorem enterRetractFresh_assembler_voidCell (s : State) : (enterRetractFresh s).assembler.voidCell = s.assembler.voidCell := by simp [enterRetractFresh]
@[simp] theorem enterRetractFresh_assembler_softCell (s : State) : (enterRetractFresh s).assembler.softCell = s.assembler.softCell := by simp [enterRetractFresh]
@[simp] theorem enterRetractFresh_assembler_hardCell (s : State) : (enterRetractFresh s).assembler.hardCell = s.assembler.hardCell := by simp [enterRetractFresh]
@[simp] theorem enterRetractFresh_neighbours (s : State) : (enterRetractFresh s).neighbours = s.neighbours := by simp [enterRetractFresh]
@[simp] theorem enterRetractFresh_anchor (s : State) : (enterRetractFresh s).anchor = s.anchor := by simp [enterRetractFresh]
@[simp] theorem enterRetractFresh_resin_charge (s : State) : (enterRetractFresh s).resin.charge = s.resin.charge := by simp [enterRetractFresh]
@[simp] theorem enterRetractFresh_resin_pushed (s : State) : (enterRetractFresh s).resin.pushed = s.resin.pushed := by simp [enterRetractFresh]
@[simp] theorem enterRetractFresh_resin_strokeTimer (s : State) : (enterRetractFresh s).resin.strokeTimer = s.resin.strokeTimer := by simp [enterRetractFresh]
@[simp] theorem enterRetractFresh_resin_retry (s : State) : (enterRetractFresh s).resin.retry = s.resin.retry := by simp [enterRetractFresh]
@[simp] theorem enterRetractFresh_resin_band (s : State) : (enterRetractFresh s).resin.band = s.resin.band := by simp [enterRetractFresh]
@[simp] theorem enterRetractFresh_resin_quarterRevs (s : State) : (enterRetractFresh s).resin.quarterRevs = s.resin.quarterRevs := by simp [enterRetractFresh]
@[simp] theorem enterRetractFresh_resin_mixDeadline (s : State) : (enterRetractFresh s).resin.mixDeadline = s.resin.mixDeadline := by simp [enterRetractFresh]
@[simp] theorem enterRetractFresh_resin_holdDeadline (s : State) : (enterRetractFresh s).resin.holdDeadline = s.resin.holdDeadline := by simp [enterRetractFresh]
@[simp] theorem enterRetractFresh_resin_holdPassed (s : State) : (enterRetractFresh s).resin.holdPassed = s.resin.holdPassed := by simp [enterRetractFresh]
@[simp] theorem enterRetractFresh_torque_target (s : State) : (enterRetractFresh s).torque.target = s.torque.target := by simp [enterRetractFresh]
@[simp] theorem enterRetractFresh_torque_ceiling (s : State) : (enterRetractFresh s).torque.ceiling = s.torque.ceiling := by simp [enterRetractFresh]
@[simp] theorem enterRetractFresh_torque_near (s : State) : (enterRetractFresh s).torque.near = s.torque.near := by simp [enterRetractFresh]
@[simp] theorem enterRetractFresh_torque_entered (s : State) : (enterRetractFresh s).torque.entered = s.torque.entered := by simp [enterRetractFresh]
@[simp] theorem enterRetractFresh_torque_timer (s : State) : (enterRetractFresh s).torque.timer = s.torque.timer := by simp [enterRetractFresh]
@[simp] theorem enterRetractFresh_torque_spinner (s : State) : (enterRetractFresh s).torque.spinner = s.torque.spinner := by simp [enterRetractFresh]
@[simp] theorem enterRetractFresh_torque_peak (s : State) : (enterRetractFresh s).torque.peak = s.torque.peak := by simp [enterRetractFresh]
@[simp] theorem enterRetractFresh_torque_overshoot (s : State) : (enterRetractFresh s).torque.overshoot = s.torque.overshoot := by simp [enterRetractFresh]
@[simp] theorem enterRetractFresh_flow (s : State) : (enterRetractFresh s).flow = s.flow := by simp [enterRetractFresh]
@[simp] theorem enterRetractFresh_link (s : State) : (enterRetractFresh s).link = s.link := by simp [enterRetractFresh]
@[simp] theorem enterRetractFresh_history_free (s : State) : (enterRetractFresh s).history.free = s.history.free := by simp [enterRetractFresh]
@[simp] theorem enterRetractFresh_history_selection (s : State) : (enterRetractFresh s).history.selection = s.history.selection := by simp [enterRetractFresh]
@[simp] theorem enterRetractFresh_history_pointer (s : State) : (enterRetractFresh s).history.pointer = s.history.pointer := by simp [enterRetractFresh]
@[simp] theorem enterRetractFresh_host (s : State) : (enterRetractFresh s).host = s.host := by simp [enterRetractFresh]
@[simp] theorem enterRetractFresh_freeDraws (s : State) : (enterRetractFresh s).freeDraws = s.freeDraws := by simp [enterRetractFresh]

@[simp] theorem enterDecide_pending (s : State) : (enterDecide s).pending = s.pending := rfl
@[simp] theorem enterDecide_resetHeld (s : State) : (enterDecide s).resetHeld = s.resetHeld := rfl
@[simp] theorem enterDecide_canopySet (s : State) : (enterDecide s).canopySet = s.canopySet := rfl
@[simp] theorem enterDecide_valveReady (s : State) : (enterDecide s).valveReady = s.valveReady := rfl
@[simp] theorem enterDecide_cycle_timebase (s : State) : (enterDecide s).cycle.timebase = s.cycle.timebase := rfl
@[simp] theorem enterDecide_cycle_held (s : State) : (enterDecide s).cycle.held = s.cycle.held := rfl
@[simp] theorem enterDecide_cycle_pendingVerdict (s : State) : (enterDecide s).cycle.pendingVerdict = s.cycle.pendingVerdict := rfl
@[simp] theorem enterDecide_cycle_abortPending (s : State) : (enterDecide s).cycle.abortPending = s.cycle.abortPending := rfl
@[simp] theorem enterDecide_cycle_holeNumber (s : State) : (enterDecide s).cycle.holeNumber = s.cycle.holeNumber := rfl
@[simp] theorem enterDecide_cycle_row (s : State) : (enterDecide s).cycle.row = s.cycle.row := rfl
@[simp] theorem enterDecide_cycle_slot (s : State) : (enterDecide s).cycle.slot = s.cycle.slot := rfl
@[simp] theorem enterDecide_cycle_planned (s : State) : (enterDecide s).cycle.planned = s.cycle.planned := rfl
@[simp] theorem enterDecide_cycle_collarTimer (s : State) : (enterDecide s).cycle.collarTimer = s.cycle.collarTimer := rfl
@[simp] theorem enterDecide_cycle_retractTimer (s : State) : (enterDecide s).cycle.retractTimer = s.cycle.retractTimer := rfl
@[simp] theorem enterDecide_sensor (s : State) : (enterDecide s).sensor = s.sensor := rfl
@[simp] theorem enterDecide_assembler (s : State) : (enterDecide s).assembler = s.assembler := rfl
@[simp] theorem enterDecide_neighbours (s : State) : (enterDecide s).neighbours = s.neighbours := rfl
@[simp] theorem enterDecide_anchor (s : State) : (enterDecide s).anchor = s.anchor := rfl
@[simp] theorem enterDecide_resin (s : State) : (enterDecide s).resin = s.resin := rfl
@[simp] theorem enterDecide_torque (s : State) : (enterDecide s).torque = s.torque := rfl
@[simp] theorem enterDecide_flow (s : State) : (enterDecide s).flow = s.flow := rfl
@[simp] theorem enterDecide_link (s : State) : (enterDecide s).link = s.link := rfl
@[simp] theorem enterDecide_history (s : State) : (enterDecide s).history = s.history := rfl
@[simp] theorem enterDecide_host_reply (s : State) : (enterDecide s).host.reply = s.host.reply := rfl
@[simp] theorem enterDecide_host_hsdo (s : State) : (enterDecide s).host.hsdo = s.host.hsdo := rfl
@[simp] theorem enterDecide_host_config (s : State) : (enterDecide s).host.config = s.host.config := rfl
@[simp] theorem enterDecide_host_stack (s : State) : (enterDecide s).host.stack = s.host.stack := rfl
@[simp] theorem enterDecide_host_faults (s : State) : (enterDecide s).host.faults = s.host.faults := rfl
@[simp] theorem enterDecide_host_watch (s : State) : (enterDecide s).host.watch = s.host.watch := rfl
@[simp] theorem enterDecide_freeDraws (s : State) : (enterDecide s).freeDraws = s.freeDraws := rfl

@[simp] theorem enterInsert_pending (s : State) : (enterInsert s).pending = s.pending := by simp [enterInsert]
@[simp] theorem enterInsert_resetHeld (s : State) : (enterInsert s).resetHeld = s.resetHeld := by simp [enterInsert]
@[simp] theorem enterInsert_canopySet (s : State) : (enterInsert s).canopySet = s.canopySet := by simp [enterInsert]
@[simp] theorem enterInsert_valveReady (s : State) : (enterInsert s).valveReady = s.valveReady := by simp [enterInsert]
@[simp] theorem enterInsert_cycle_timebase (s : State) : (enterInsert s).cycle.timebase = s.cycle.timebase := by simp [enterInsert]
@[simp] theorem enterInsert_cycle_held (s : State) : (enterInsert s).cycle.held = s.cycle.held := by simp [enterInsert]
@[simp] theorem enterInsert_cycle_pendingVerdict (s : State) : (enterInsert s).cycle.pendingVerdict = s.cycle.pendingVerdict := by simp [enterInsert]
@[simp] theorem enterInsert_cycle_abortPending (s : State) : (enterInsert s).cycle.abortPending = s.cycle.abortPending := by simp [enterInsert]
@[simp] theorem enterInsert_cycle_holeNumber (s : State) : (enterInsert s).cycle.holeNumber = s.cycle.holeNumber := by simp [enterInsert]
@[simp] theorem enterInsert_cycle_row (s : State) : (enterInsert s).cycle.row = s.cycle.row := by simp [enterInsert]
@[simp] theorem enterInsert_cycle_slot (s : State) : (enterInsert s).cycle.slot = s.cycle.slot := by simp [enterInsert]
@[simp] theorem enterInsert_cycle_planned (s : State) : (enterInsert s).cycle.planned = s.cycle.planned := by simp [enterInsert]
@[simp] theorem enterInsert_cycle_collarTimer (s : State) : (enterInsert s).cycle.collarTimer = s.cycle.collarTimer := by simp [enterInsert]
@[simp] theorem enterInsert_cycle_retractTimer (s : State) : (enterInsert s).cycle.retractTimer = s.cycle.retractTimer := by simp [enterInsert]
@[simp] theorem enterInsert_sensor (s : State) : (enterInsert s).sensor = s.sensor := by simp [enterInsert]
@[simp] theorem enterInsert_assembler (s : State) : (enterInsert s).assembler = s.assembler := by simp [enterInsert]
@[simp] theorem enterInsert_neighbours (s : State) : (enterInsert s).neighbours = s.neighbours := by simp [enterInsert]
@[simp] theorem enterInsert_anchor (s : State) : (enterInsert s).anchor = s.anchor := by simp [enterInsert]
@[simp] theorem enterInsert_resin_strokeTimer (s : State) : (enterInsert s).resin.strokeTimer = s.resin.strokeTimer := by simp [enterInsert]
@[simp] theorem enterInsert_resin_band (s : State) : (enterInsert s).resin.band = s.resin.band := by simp [enterInsert]
@[simp] theorem enterInsert_resin_quarterRevs (s : State) : (enterInsert s).resin.quarterRevs = s.resin.quarterRevs := by simp [enterInsert]
@[simp] theorem enterInsert_resin_mixDeadline (s : State) : (enterInsert s).resin.mixDeadline = s.resin.mixDeadline := by simp [enterInsert]
@[simp] theorem enterInsert_resin_holdDeadline (s : State) : (enterInsert s).resin.holdDeadline = s.resin.holdDeadline := by simp [enterInsert]
@[simp] theorem enterInsert_resin_holdPassed (s : State) : (enterInsert s).resin.holdPassed = s.resin.holdPassed := by simp [enterInsert]
@[simp] theorem enterInsert_torque_target (s : State) : (enterInsert s).torque.target = s.torque.target := by simp [enterInsert]
@[simp] theorem enterInsert_torque_ceiling (s : State) : (enterInsert s).torque.ceiling = s.torque.ceiling := by simp [enterInsert]
@[simp] theorem enterInsert_torque_near (s : State) : (enterInsert s).torque.near = s.torque.near := by simp [enterInsert]
@[simp] theorem enterInsert_torque_entered (s : State) : (enterInsert s).torque.entered = s.torque.entered := by simp [enterInsert]
@[simp] theorem enterInsert_torque_timer (s : State) : (enterInsert s).torque.timer = s.torque.timer := by simp [enterInsert]
@[simp] theorem enterInsert_torque_spinner (s : State) : (enterInsert s).torque.spinner = s.torque.spinner := by simp [enterInsert]
@[simp] theorem enterInsert_torque_peak (s : State) : (enterInsert s).torque.peak = s.torque.peak := by simp [enterInsert]
@[simp] theorem enterInsert_torque_overshoot (s : State) : (enterInsert s).torque.overshoot = s.torque.overshoot := by simp [enterInsert]
@[simp] theorem enterInsert_flow (s : State) : (enterInsert s).flow = s.flow := by simp [enterInsert]
@[simp] theorem enterInsert_link (s : State) : (enterInsert s).link = s.link := by simp [enterInsert]
@[simp] theorem enterInsert_history_free (s : State) : (enterInsert s).history.free = s.history.free := by simp [enterInsert]
@[simp] theorem enterInsert_history_selection (s : State) : (enterInsert s).history.selection = s.history.selection := by simp [enterInsert]
@[simp] theorem enterInsert_history_pointer (s : State) : (enterInsert s).history.pointer = s.history.pointer := by simp [enterInsert]
@[simp] theorem enterInsert_host (s : State) : (enterInsert s).host = s.host := by simp [enterInsert]
@[simp] theorem enterInsert_freeDraws (s : State) : (enterInsert s).freeDraws = s.freeDraws := by simp [enterInsert]

@[simp] theorem enterMix_pending (s : State) : (enterMix s).pending = s.pending := by simp [enterMix]
@[simp] theorem enterMix_resetHeld (s : State) : (enterMix s).resetHeld = s.resetHeld := by simp [enterMix]
@[simp] theorem enterMix_canopySet (s : State) : (enterMix s).canopySet = s.canopySet := by simp [enterMix]
@[simp] theorem enterMix_valveReady (s : State) : (enterMix s).valveReady = s.valveReady := by simp [enterMix]
@[simp] theorem enterMix_cycle_timebase (s : State) : (enterMix s).cycle.timebase = s.cycle.timebase := by simp [enterMix]
@[simp] theorem enterMix_cycle_held (s : State) : (enterMix s).cycle.held = s.cycle.held := by simp [enterMix]
@[simp] theorem enterMix_cycle_pendingVerdict (s : State) : (enterMix s).cycle.pendingVerdict = s.cycle.pendingVerdict := by simp [enterMix]
@[simp] theorem enterMix_cycle_abortPending (s : State) : (enterMix s).cycle.abortPending = s.cycle.abortPending := by simp [enterMix]
@[simp] theorem enterMix_cycle_holeNumber (s : State) : (enterMix s).cycle.holeNumber = s.cycle.holeNumber := by simp [enterMix]
@[simp] theorem enterMix_cycle_row (s : State) : (enterMix s).cycle.row = s.cycle.row := by simp [enterMix]
@[simp] theorem enterMix_cycle_slot (s : State) : (enterMix s).cycle.slot = s.cycle.slot := by simp [enterMix]
@[simp] theorem enterMix_cycle_planned (s : State) : (enterMix s).cycle.planned = s.cycle.planned := by simp [enterMix]
@[simp] theorem enterMix_cycle_collarTimer (s : State) : (enterMix s).cycle.collarTimer = s.cycle.collarTimer := by simp [enterMix]
@[simp] theorem enterMix_cycle_retractTimer (s : State) : (enterMix s).cycle.retractTimer = s.cycle.retractTimer := by simp [enterMix]
@[simp] theorem enterMix_sensor (s : State) : (enterMix s).sensor = s.sensor := by simp [enterMix]
@[simp] theorem enterMix_assembler (s : State) : (enterMix s).assembler = s.assembler := by simp [enterMix]
@[simp] theorem enterMix_neighbours (s : State) : (enterMix s).neighbours = s.neighbours := by simp [enterMix]
@[simp] theorem enterMix_anchor (s : State) : (enterMix s).anchor = s.anchor := by simp [enterMix]
@[simp] theorem enterMix_resin_charge (s : State) : (enterMix s).resin.charge = s.resin.charge := by simp [enterMix]
@[simp] theorem enterMix_resin_pushed (s : State) : (enterMix s).resin.pushed = s.resin.pushed := by simp [enterMix]
@[simp] theorem enterMix_resin_strokeTimer (s : State) : (enterMix s).resin.strokeTimer = s.resin.strokeTimer := by simp [enterMix]
@[simp] theorem enterMix_resin_retry (s : State) : (enterMix s).resin.retry = s.resin.retry := by simp [enterMix]
@[simp] theorem enterMix_resin_holdDeadline (s : State) : (enterMix s).resin.holdDeadline = s.resin.holdDeadline := by simp [enterMix]
@[simp] theorem enterMix_resin_holdPassed (s : State) : (enterMix s).resin.holdPassed = s.resin.holdPassed := by simp [enterMix]
@[simp] theorem enterMix_torque_target (s : State) : (enterMix s).torque.target = s.torque.target := by simp [enterMix]
@[simp] theorem enterMix_torque_ceiling (s : State) : (enterMix s).torque.ceiling = s.torque.ceiling := by simp [enterMix]
@[simp] theorem enterMix_torque_near (s : State) : (enterMix s).torque.near = s.torque.near := by simp [enterMix]
@[simp] theorem enterMix_torque_entered (s : State) : (enterMix s).torque.entered = s.torque.entered := by simp [enterMix]
@[simp] theorem enterMix_torque_timer (s : State) : (enterMix s).torque.timer = s.torque.timer := by simp [enterMix]
@[simp] theorem enterMix_torque_spinner (s : State) : (enterMix s).torque.spinner = s.torque.spinner := by simp [enterMix]
@[simp] theorem enterMix_torque_peak (s : State) : (enterMix s).torque.peak = s.torque.peak := by simp [enterMix]
@[simp] theorem enterMix_torque_overshoot (s : State) : (enterMix s).torque.overshoot = s.torque.overshoot := by simp [enterMix]
@[simp] theorem enterMix_flow (s : State) : (enterMix s).flow = s.flow := by simp [enterMix]
@[simp] theorem enterMix_link (s : State) : (enterMix s).link = s.link := by simp [enterMix]
@[simp] theorem enterMix_history_free (s : State) : (enterMix s).history.free = s.history.free := by simp [enterMix]
@[simp] theorem enterMix_history_selection (s : State) : (enterMix s).history.selection = s.history.selection := by simp [enterMix]
@[simp] theorem enterMix_history_pointer (s : State) : (enterMix s).history.pointer = s.history.pointer := by simp [enterMix]
@[simp] theorem enterMix_host (s : State) : (enterMix s).host = s.host := by simp [enterMix]
@[simp] theorem enterMix_freeDraws (s : State) : (enterMix s).freeDraws = s.freeDraws := by simp [enterMix]

@[simp] theorem enterHold_pending (s : State) : (enterHold s).pending = s.pending := by simp [enterHold]
@[simp] theorem enterHold_resetHeld (s : State) : (enterHold s).resetHeld = s.resetHeld := by simp [enterHold]
@[simp] theorem enterHold_canopySet (s : State) : (enterHold s).canopySet = s.canopySet := by simp [enterHold]
@[simp] theorem enterHold_valveReady (s : State) : (enterHold s).valveReady = s.valveReady := by simp [enterHold]
@[simp] theorem enterHold_cycle_timebase (s : State) : (enterHold s).cycle.timebase = s.cycle.timebase := by simp [enterHold]
@[simp] theorem enterHold_cycle_held (s : State) : (enterHold s).cycle.held = s.cycle.held := by simp [enterHold]
@[simp] theorem enterHold_cycle_pendingVerdict (s : State) : (enterHold s).cycle.pendingVerdict = s.cycle.pendingVerdict := by simp [enterHold]
@[simp] theorem enterHold_cycle_abortPending (s : State) : (enterHold s).cycle.abortPending = s.cycle.abortPending := by simp [enterHold]
@[simp] theorem enterHold_cycle_holeNumber (s : State) : (enterHold s).cycle.holeNumber = s.cycle.holeNumber := by simp [enterHold]
@[simp] theorem enterHold_cycle_row (s : State) : (enterHold s).cycle.row = s.cycle.row := by simp [enterHold]
@[simp] theorem enterHold_cycle_slot (s : State) : (enterHold s).cycle.slot = s.cycle.slot := by simp [enterHold]
@[simp] theorem enterHold_cycle_planned (s : State) : (enterHold s).cycle.planned = s.cycle.planned := by simp [enterHold]
@[simp] theorem enterHold_cycle_collarTimer (s : State) : (enterHold s).cycle.collarTimer = s.cycle.collarTimer := by simp [enterHold]
@[simp] theorem enterHold_cycle_retractTimer (s : State) : (enterHold s).cycle.retractTimer = s.cycle.retractTimer := by simp [enterHold]
@[simp] theorem enterHold_sensor (s : State) : (enterHold s).sensor = s.sensor := by simp [enterHold]
@[simp] theorem enterHold_assembler (s : State) : (enterHold s).assembler = s.assembler := by simp [enterHold]
@[simp] theorem enterHold_neighbours (s : State) : (enterHold s).neighbours = s.neighbours := by simp [enterHold]
@[simp] theorem enterHold_anchor (s : State) : (enterHold s).anchor = s.anchor := by simp [enterHold]
@[simp] theorem enterHold_resin_charge (s : State) : (enterHold s).resin.charge = s.resin.charge := by simp [enterHold]
@[simp] theorem enterHold_resin_pushed (s : State) : (enterHold s).resin.pushed = s.resin.pushed := by simp [enterHold]
@[simp] theorem enterHold_resin_strokeTimer (s : State) : (enterHold s).resin.strokeTimer = s.resin.strokeTimer := by simp [enterHold]
@[simp] theorem enterHold_resin_retry (s : State) : (enterHold s).resin.retry = s.resin.retry := by simp [enterHold]
@[simp] theorem enterHold_resin_band (s : State) : (enterHold s).resin.band = s.resin.band := by simp [enterHold]
@[simp] theorem enterHold_resin_quarterRevs (s : State) : (enterHold s).resin.quarterRevs = s.resin.quarterRevs := by simp [enterHold]
@[simp] theorem enterHold_torque_target (s : State) : (enterHold s).torque.target = s.torque.target := by simp [enterHold]
@[simp] theorem enterHold_torque_ceiling (s : State) : (enterHold s).torque.ceiling = s.torque.ceiling := by simp [enterHold]
@[simp] theorem enterHold_torque_near (s : State) : (enterHold s).torque.near = s.torque.near := by simp [enterHold]
@[simp] theorem enterHold_torque_entered (s : State) : (enterHold s).torque.entered = s.torque.entered := by simp [enterHold]
@[simp] theorem enterHold_torque_timer (s : State) : (enterHold s).torque.timer = s.torque.timer := by simp [enterHold]
@[simp] theorem enterHold_torque_spinner (s : State) : (enterHold s).torque.spinner = s.torque.spinner := by simp [enterHold]
@[simp] theorem enterHold_torque_peak (s : State) : (enterHold s).torque.peak = s.torque.peak := by simp [enterHold]
@[simp] theorem enterHold_torque_overshoot (s : State) : (enterHold s).torque.overshoot = s.torque.overshoot := by simp [enterHold]
@[simp] theorem enterHold_flow (s : State) : (enterHold s).flow = s.flow := by simp [enterHold]
@[simp] theorem enterHold_link (s : State) : (enterHold s).link = s.link := by simp [enterHold]
@[simp] theorem enterHold_history_free (s : State) : (enterHold s).history.free = s.history.free := by simp [enterHold]
@[simp] theorem enterHold_history_selection (s : State) : (enterHold s).history.selection = s.history.selection := by simp [enterHold]
@[simp] theorem enterHold_history_pointer (s : State) : (enterHold s).history.pointer = s.history.pointer := by simp [enterHold]
@[simp] theorem enterHold_host (s : State) : (enterHold s).host = s.host := by simp [enterHold]
@[simp] theorem enterHold_freeDraws (s : State) : (enterHold s).freeDraws = s.freeDraws := by simp [enterHold]

@[simp] theorem markMixShort_pending (s : State) : (markMixShort s).pending = s.pending := rfl
@[simp] theorem markMixShort_resetHeld (s : State) : (markMixShort s).resetHeld = s.resetHeld := rfl
@[simp] theorem markMixShort_canopySet (s : State) : (markMixShort s).canopySet = s.canopySet := rfl
@[simp] theorem markMixShort_valveReady (s : State) : (markMixShort s).valveReady = s.valveReady := rfl
@[simp] theorem markMixShort_cycle (s : State) : (markMixShort s).cycle = s.cycle := rfl
@[simp] theorem markMixShort_sensor (s : State) : (markMixShort s).sensor = s.sensor := rfl
@[simp] theorem markMixShort_assembler (s : State) : (markMixShort s).assembler = s.assembler := rfl
@[simp] theorem markMixShort_neighbours (s : State) : (markMixShort s).neighbours = s.neighbours := rfl
@[simp] theorem markMixShort_anchor (s : State) : (markMixShort s).anchor = s.anchor := rfl
@[simp] theorem markMixShort_resin (s : State) : (markMixShort s).resin = s.resin := rfl
@[simp] theorem markMixShort_torque (s : State) : (markMixShort s).torque = s.torque := rfl
@[simp] theorem markMixShort_flow (s : State) : (markMixShort s).flow = s.flow := rfl
@[simp] theorem markMixShort_link (s : State) : (markMixShort s).link = s.link := rfl
@[simp] theorem markMixShort_history_free (s : State) : (markMixShort s).history.free = s.history.free := rfl
@[simp] theorem markMixShort_history_selection (s : State) : (markMixShort s).history.selection = s.history.selection := rfl
@[simp] theorem markMixShort_history_pointer (s : State) : (markMixShort s).history.pointer = s.history.pointer := rfl
@[simp] theorem markMixShort_host (s : State) : (markMixShort s).host = s.host := rfl
@[simp] theorem markMixShort_freeDraws (s : State) : (markMixShort s).freeDraws = s.freeDraws := rfl

@[simp] theorem enterTorqueFirst_pending (s : State) : (enterTorqueFirst s).pending = s.pending := by simp [enterTorqueFirst]
@[simp] theorem enterTorqueFirst_resetHeld (s : State) : (enterTorqueFirst s).resetHeld = s.resetHeld := by simp [enterTorqueFirst]
@[simp] theorem enterTorqueFirst_canopySet (s : State) : (enterTorqueFirst s).canopySet = s.canopySet := by simp [enterTorqueFirst]
@[simp] theorem enterTorqueFirst_valveReady (s : State) : (enterTorqueFirst s).valveReady = s.valveReady := by simp [enterTorqueFirst]
@[simp] theorem enterTorqueFirst_cycle_timebase (s : State) : (enterTorqueFirst s).cycle.timebase = s.cycle.timebase := by simp [enterTorqueFirst]
@[simp] theorem enterTorqueFirst_cycle_held (s : State) : (enterTorqueFirst s).cycle.held = s.cycle.held := by simp [enterTorqueFirst]
@[simp] theorem enterTorqueFirst_cycle_pendingVerdict (s : State) : (enterTorqueFirst s).cycle.pendingVerdict = s.cycle.pendingVerdict := by simp [enterTorqueFirst]
@[simp] theorem enterTorqueFirst_cycle_abortPending (s : State) : (enterTorqueFirst s).cycle.abortPending = s.cycle.abortPending := by simp [enterTorqueFirst]
@[simp] theorem enterTorqueFirst_cycle_holeNumber (s : State) : (enterTorqueFirst s).cycle.holeNumber = s.cycle.holeNumber := by simp [enterTorqueFirst]
@[simp] theorem enterTorqueFirst_cycle_row (s : State) : (enterTorqueFirst s).cycle.row = s.cycle.row := by simp [enterTorqueFirst]
@[simp] theorem enterTorqueFirst_cycle_slot (s : State) : (enterTorqueFirst s).cycle.slot = s.cycle.slot := by simp [enterTorqueFirst]
@[simp] theorem enterTorqueFirst_cycle_planned (s : State) : (enterTorqueFirst s).cycle.planned = s.cycle.planned := by simp [enterTorqueFirst]
@[simp] theorem enterTorqueFirst_cycle_collarTimer (s : State) : (enterTorqueFirst s).cycle.collarTimer = s.cycle.collarTimer := by simp [enterTorqueFirst]
@[simp] theorem enterTorqueFirst_cycle_retractTimer (s : State) : (enterTorqueFirst s).cycle.retractTimer = s.cycle.retractTimer := by simp [enterTorqueFirst]
@[simp] theorem enterTorqueFirst_sensor (s : State) : (enterTorqueFirst s).sensor = s.sensor := by simp [enterTorqueFirst]
@[simp] theorem enterTorqueFirst_assembler (s : State) : (enterTorqueFirst s).assembler = s.assembler := by simp [enterTorqueFirst]
@[simp] theorem enterTorqueFirst_neighbours (s : State) : (enterTorqueFirst s).neighbours = s.neighbours := by simp [enterTorqueFirst]
@[simp] theorem enterTorqueFirst_anchor (s : State) : (enterTorqueFirst s).anchor = s.anchor := by simp [enterTorqueFirst]
@[simp] theorem enterTorqueFirst_resin_charge (s : State) : (enterTorqueFirst s).resin.charge = s.resin.charge := by simp [enterTorqueFirst]
@[simp] theorem enterTorqueFirst_resin_pushed (s : State) : (enterTorqueFirst s).resin.pushed = s.resin.pushed := by simp [enterTorqueFirst]
@[simp] theorem enterTorqueFirst_resin_strokeTimer (s : State) : (enterTorqueFirst s).resin.strokeTimer = s.resin.strokeTimer := by simp [enterTorqueFirst]
@[simp] theorem enterTorqueFirst_resin_retry (s : State) : (enterTorqueFirst s).resin.retry = s.resin.retry := by simp [enterTorqueFirst]
@[simp] theorem enterTorqueFirst_resin_band (s : State) : (enterTorqueFirst s).resin.band = s.resin.band := by simp [enterTorqueFirst]
@[simp] theorem enterTorqueFirst_resin_quarterRevs (s : State) : (enterTorqueFirst s).resin.quarterRevs = s.resin.quarterRevs := by simp [enterTorqueFirst]
@[simp] theorem enterTorqueFirst_resin_mixDeadline (s : State) : (enterTorqueFirst s).resin.mixDeadline = s.resin.mixDeadline := by simp [enterTorqueFirst]
@[simp] theorem enterTorqueFirst_resin_holdDeadline (s : State) : (enterTorqueFirst s).resin.holdDeadline = s.resin.holdDeadline := by simp [enterTorqueFirst]
@[simp] theorem enterTorqueFirst_resin_holdPassed (s : State) : (enterTorqueFirst s).resin.holdPassed = s.resin.holdPassed := by simp [enterTorqueFirst]
@[simp] theorem enterTorqueFirst_flow (s : State) : (enterTorqueFirst s).flow = s.flow := by simp [enterTorqueFirst]
@[simp] theorem enterTorqueFirst_link (s : State) : (enterTorqueFirst s).link = s.link := by simp [enterTorqueFirst]
@[simp] theorem enterTorqueFirst_history_free (s : State) : (enterTorqueFirst s).history.free = s.history.free := by simp [enterTorqueFirst]
@[simp] theorem enterTorqueFirst_history_selection (s : State) : (enterTorqueFirst s).history.selection = s.history.selection := by simp [enterTorqueFirst]
@[simp] theorem enterTorqueFirst_history_pointer (s : State) : (enterTorqueFirst s).history.pointer = s.history.pointer := by simp [enterTorqueFirst]
@[simp] theorem enterTorqueFirst_host (s : State) : (enterTorqueFirst s).host = s.host := by simp [enterTorqueFirst]
@[simp] theorem enterTorqueFirst_freeDraws (s : State) : (enterTorqueFirst s).freeDraws = s.freeDraws := by simp [enterTorqueFirst]

@[simp] theorem enterTorqueAgain_pending (s : State) : (enterTorqueAgain s).pending = s.pending := by
  unfold enterTorqueAgain; dsimp only; split <;> simp
@[simp] theorem enterTorqueAgain_resetHeld (s : State) : (enterTorqueAgain s).resetHeld = s.resetHeld := by
  unfold enterTorqueAgain; dsimp only; split <;> simp
@[simp] theorem enterTorqueAgain_canopySet (s : State) : (enterTorqueAgain s).canopySet = s.canopySet := by
  unfold enterTorqueAgain; dsimp only; split <;> simp
@[simp] theorem enterTorqueAgain_valveReady (s : State) : (enterTorqueAgain s).valveReady = s.valveReady := by
  unfold enterTorqueAgain; dsimp only; split <;> simp
@[simp] theorem enterTorqueAgain_cycle_timebase (s : State) : (enterTorqueAgain s).cycle.timebase = s.cycle.timebase := by
  unfold enterTorqueAgain; dsimp only; split <;> simp
@[simp] theorem enterTorqueAgain_cycle_held (s : State) : (enterTorqueAgain s).cycle.held = s.cycle.held := by
  unfold enterTorqueAgain; dsimp only; split <;> simp
@[simp] theorem enterTorqueAgain_cycle_pendingVerdict (s : State) : (enterTorqueAgain s).cycle.pendingVerdict = s.cycle.pendingVerdict := by
  unfold enterTorqueAgain; dsimp only; split <;> simp
@[simp] theorem enterTorqueAgain_cycle_abortPending (s : State) : (enterTorqueAgain s).cycle.abortPending = s.cycle.abortPending := by
  unfold enterTorqueAgain; dsimp only; split <;> simp
@[simp] theorem enterTorqueAgain_cycle_holeNumber (s : State) : (enterTorqueAgain s).cycle.holeNumber = s.cycle.holeNumber := by
  unfold enterTorqueAgain; dsimp only; split <;> simp
@[simp] theorem enterTorqueAgain_cycle_row (s : State) : (enterTorqueAgain s).cycle.row = s.cycle.row := by
  unfold enterTorqueAgain; dsimp only; split <;> simp
@[simp] theorem enterTorqueAgain_cycle_slot (s : State) : (enterTorqueAgain s).cycle.slot = s.cycle.slot := by
  unfold enterTorqueAgain; dsimp only; split <;> simp
@[simp] theorem enterTorqueAgain_cycle_planned (s : State) : (enterTorqueAgain s).cycle.planned = s.cycle.planned := by
  unfold enterTorqueAgain; dsimp only; split <;> simp
@[simp] theorem enterTorqueAgain_cycle_collarTimer (s : State) : (enterTorqueAgain s).cycle.collarTimer = s.cycle.collarTimer := by
  unfold enterTorqueAgain; dsimp only; split <;> simp
@[simp] theorem enterTorqueAgain_cycle_retractTimer (s : State) : (enterTorqueAgain s).cycle.retractTimer = s.cycle.retractTimer := by
  unfold enterTorqueAgain; dsimp only; split <;> simp
@[simp] theorem enterTorqueAgain_sensor (s : State) : (enterTorqueAgain s).sensor = s.sensor := by
  unfold enterTorqueAgain; dsimp only; split <;> simp
@[simp] theorem enterTorqueAgain_assembler (s : State) : (enterTorqueAgain s).assembler = s.assembler := by
  unfold enterTorqueAgain; dsimp only; split <;> simp
@[simp] theorem enterTorqueAgain_neighbours (s : State) : (enterTorqueAgain s).neighbours = s.neighbours := by
  unfold enterTorqueAgain; dsimp only; split <;> simp
@[simp] theorem enterTorqueAgain_anchor (s : State) : (enterTorqueAgain s).anchor = s.anchor := by
  unfold enterTorqueAgain; dsimp only; split <;> simp
@[simp] theorem enterTorqueAgain_resin_charge (s : State) : (enterTorqueAgain s).resin.charge = s.resin.charge := by
  unfold enterTorqueAgain; dsimp only; split <;> simp
@[simp] theorem enterTorqueAgain_resin_pushed (s : State) : (enterTorqueAgain s).resin.pushed = s.resin.pushed := by
  unfold enterTorqueAgain; dsimp only; split <;> simp
@[simp] theorem enterTorqueAgain_resin_strokeTimer (s : State) : (enterTorqueAgain s).resin.strokeTimer = s.resin.strokeTimer := by
  unfold enterTorqueAgain; dsimp only; split <;> simp
@[simp] theorem enterTorqueAgain_resin_retry (s : State) : (enterTorqueAgain s).resin.retry = s.resin.retry := by
  unfold enterTorqueAgain; dsimp only; split <;> simp
@[simp] theorem enterTorqueAgain_resin_band (s : State) : (enterTorqueAgain s).resin.band = s.resin.band := by
  unfold enterTorqueAgain; dsimp only; split <;> simp
@[simp] theorem enterTorqueAgain_resin_quarterRevs (s : State) : (enterTorqueAgain s).resin.quarterRevs = s.resin.quarterRevs := by
  unfold enterTorqueAgain; dsimp only; split <;> simp
@[simp] theorem enterTorqueAgain_resin_mixDeadline (s : State) : (enterTorqueAgain s).resin.mixDeadline = s.resin.mixDeadline := by
  unfold enterTorqueAgain; dsimp only; split <;> simp
@[simp] theorem enterTorqueAgain_resin_holdDeadline (s : State) : (enterTorqueAgain s).resin.holdDeadline = s.resin.holdDeadline := by
  unfold enterTorqueAgain; dsimp only; split <;> simp
@[simp] theorem enterTorqueAgain_flow (s : State) : (enterTorqueAgain s).flow = s.flow := by
  unfold enterTorqueAgain; dsimp only; split <;> simp
@[simp] theorem enterTorqueAgain_link (s : State) : (enterTorqueAgain s).link = s.link := by
  unfold enterTorqueAgain; dsimp only; split <;> simp
@[simp] theorem enterTorqueAgain_history_free (s : State) : (enterTorqueAgain s).history.free = s.history.free := by
  unfold enterTorqueAgain; dsimp only; split <;> simp
@[simp] theorem enterTorqueAgain_history_selection (s : State) : (enterTorqueAgain s).history.selection = s.history.selection := by
  unfold enterTorqueAgain; dsimp only; split <;> simp
@[simp] theorem enterTorqueAgain_history_pointer (s : State) : (enterTorqueAgain s).history.pointer = s.history.pointer := by
  unfold enterTorqueAgain; dsimp only; split <;> simp
@[simp] theorem enterTorqueAgain_host (s : State) : (enterTorqueAgain s).host = s.host := by
  unfold enterTorqueAgain; dsimp only; split <;> simp
@[simp] theorem enterTorqueAgain_freeDraws (s : State) : (enterTorqueAgain s).freeDraws = s.freeDraws := by
  unfold enterTorqueAgain; dsimp only; split <;> simp

@[simp] theorem endRetract_pending (s : State) : (endRetract s).pending = s.pending := by
  unfold endRetract; dsimp only; split <;> try split
  all_goals simp
@[simp] theorem endRetract_resetHeld (s : State) : (endRetract s).resetHeld = s.resetHeld := by
  unfold endRetract; dsimp only; split <;> try split
  all_goals simp
@[simp] theorem endRetract_canopySet (s : State) : (endRetract s).canopySet = s.canopySet := by
  unfold endRetract; dsimp only; split <;> try split
  all_goals simp
@[simp] theorem endRetract_valveReady (s : State) : (endRetract s).valveReady = s.valveReady := by
  unfold endRetract; dsimp only; split <;> try split
  all_goals simp
@[simp] theorem endRetract_cycle_timebase (s : State) : (endRetract s).cycle.timebase = s.cycle.timebase := by
  unfold endRetract; dsimp only; split <;> try split
  all_goals simp
@[simp] theorem endRetract_cycle_held (s : State) : (endRetract s).cycle.held = s.cycle.held := by
  unfold endRetract; dsimp only; split <;> try split
  all_goals simp
@[simp] theorem endRetract_cycle_holeNumber (s : State) : (endRetract s).cycle.holeNumber = s.cycle.holeNumber := by
  unfold endRetract; dsimp only; split <;> try split
  all_goals simp
@[simp] theorem endRetract_cycle_row (s : State) : (endRetract s).cycle.row = s.cycle.row := by
  unfold endRetract; dsimp only; split <;> try split
  all_goals simp
@[simp] theorem endRetract_cycle_slot (s : State) : (endRetract s).cycle.slot = s.cycle.slot := by
  unfold endRetract; dsimp only; split <;> try split
  all_goals simp
@[simp] theorem endRetract_cycle_planned (s : State) : (endRetract s).cycle.planned = s.cycle.planned := by
  unfold endRetract; dsimp only; split <;> try split
  all_goals simp
@[simp] theorem endRetract_sensor (s : State) : (endRetract s).sensor = s.sensor := by
  unfold endRetract; dsimp only; split <;> try split
  all_goals simp
@[simp] theorem endRetract_assembler (s : State) : (endRetract s).assembler = s.assembler := by
  unfold endRetract; dsimp only; split <;> try split
  all_goals simp
@[simp] theorem endRetract_neighbours_nearVoid (s : State) : (endRetract s).neighbours.nearVoid = s.neighbours.nearVoid := by
  unfold endRetract; dsimp only; split <;> try split
  all_goals simp
@[simp] theorem endRetract_anchor (s : State) : (endRetract s).anchor = s.anchor := by
  unfold endRetract; dsimp only; split <;> try split
  all_goals simp
@[simp] theorem endRetract_resin_band (s : State) : (endRetract s).resin.band = s.resin.band := by
  unfold endRetract; dsimp only; split <;> try split
  all_goals simp
@[simp] theorem endRetract_resin_quarterRevs (s : State) : (endRetract s).resin.quarterRevs = s.resin.quarterRevs := by
  unfold endRetract; dsimp only; split <;> try split
  all_goals simp
@[simp] theorem endRetract_resin_holdPassed (s : State) : (endRetract s).resin.holdPassed = s.resin.holdPassed := by
  unfold endRetract; dsimp only; split <;> try split
  all_goals simp
@[simp] theorem endRetract_torque_target (s : State) : (endRetract s).torque.target = s.torque.target := by
  unfold endRetract; dsimp only; split <;> try split
  all_goals simp
@[simp] theorem endRetract_torque_ceiling (s : State) : (endRetract s).torque.ceiling = s.torque.ceiling := by
  unfold endRetract; dsimp only; split <;> try split
  all_goals simp
@[simp] theorem endRetract_torque_near (s : State) : (endRetract s).torque.near = s.torque.near := by
  unfold endRetract; dsimp only; split <;> try split
  all_goals simp
@[simp] theorem endRetract_torque_entered (s : State) : (endRetract s).torque.entered = s.torque.entered := by
  unfold endRetract; dsimp only; split <;> try split
  all_goals simp
@[simp] theorem endRetract_torque_spinner (s : State) : (endRetract s).torque.spinner = s.torque.spinner := by
  unfold endRetract; dsimp only; split <;> try split
  all_goals simp
@[simp] theorem endRetract_torque_peak (s : State) : (endRetract s).torque.peak = s.torque.peak := by
  unfold endRetract; dsimp only; split <;> try split
  all_goals simp
@[simp] theorem endRetract_torque_overshoot (s : State) : (endRetract s).torque.overshoot = s.torque.overshoot := by
  unfold endRetract; dsimp only; split <;> try split
  all_goals simp
@[simp] theorem endRetract_flow (s : State) : (endRetract s).flow = s.flow := by
  unfold endRetract; dsimp only; split <;> try split
  all_goals simp
@[simp] theorem endRetract_link_view (s : State) : (endRetract s).link.view = s.link.view := by
  unfold endRetract; dsimp only; split <;> try split
  all_goals simp
@[simp] theorem endRetract_link_recessive (s : State) : (endRetract s).link.recessive = s.link.recessive := by
  unfold endRetract; dsimp only; split <;> try split
  all_goals simp
@[simp] theorem endRetract_link_ownLast (s : State) : (endRetract s).link.ownLast = s.link.ownLast := by
  unfold endRetract; dsimp only; split <;> try split
  all_goals simp
@[simp] theorem endRetract_link_assembly (s : State) : (endRetract s).link.assembly = s.link.assembly := by
  unfold endRetract; dsimp only; split <;> try split
  all_goals simp
@[simp] theorem endRetract_link_tx (s : State) : (endRetract s).link.tx = s.link.tx := by
  unfold endRetract; dsimp only; split <;> try split
  all_goals simp
@[simp] theorem endRetract_link_slot (s : State) : (endRetract s).link.slot = s.link.slot := by
  unfold endRetract; dsimp only; split <;> try split
  all_goals simp
@[simp] theorem endRetract_link_queueOnLine (s : State) : (endRetract s).link.queueOnLine = s.link.queueOnLine := by
  unfold endRetract; dsimp only; split <;> try split
  all_goals simp
@[simp] theorem endRetract_link_mute (s : State) : (endRetract s).link.mute = s.link.mute := by
  unfold endRetract; dsimp only; split <;> try split
  all_goals simp
@[simp] theorem endRetract_link_txFault (s : State) : (endRetract s).link.txFault = s.link.txFault := by
  unfold endRetract; dsimp only; split <;> try split
  all_goals simp
@[simp] theorem endRetract_history_selection (s : State) : (endRetract s).history.selection = s.history.selection := by
  unfold endRetract; dsimp only; split <;> try split
  all_goals simp
@[simp] theorem endRetract_history_pointer (s : State) : (endRetract s).history.pointer = s.history.pointer := by
  unfold endRetract; dsimp only; split <;> try split
  all_goals simp
@[simp] theorem endRetract_host_reply (s : State) : (endRetract s).host.reply = s.host.reply := by
  unfold endRetract; dsimp only; split <;> try split
  all_goals simp
@[simp] theorem endRetract_host_hsdo (s : State) : (endRetract s).host.hsdo = s.host.hsdo := by
  unfold endRetract; dsimp only; split <;> try split
  all_goals simp
@[simp] theorem endRetract_host_config (s : State) : (endRetract s).host.config = s.host.config := by
  unfold endRetract; dsimp only; split <;> try split
  all_goals simp
@[simp] theorem endRetract_host_stack (s : State) : (endRetract s).host.stack = s.host.stack := by
  unfold endRetract; dsimp only; split <;> try split
  all_goals simp
@[simp] theorem endRetract_host_faults (s : State) : (endRetract s).host.faults = s.host.faults := by
  unfold endRetract; dsimp only; split <;> try split
  all_goals simp
@[simp] theorem endRetract_host_watch (s : State) : (endRetract s).host.watch = s.host.watch := by
  unfold endRetract; dsimp only; split <;> try split
  all_goals simp
@[simp] theorem endRetract_freeDraws (s : State) : (endRetract s).freeDraws = s.freeDraws := by
  unfold endRetract; dsimp only; split <;> try split
  all_goals simp

@[simp] theorem strokeTimeout_pending (s : State) : (strokeTimeout s).pending = s.pending := by
  unfold strokeTimeout; dsimp only; split_ifs
  all_goals simp
@[simp] theorem strokeTimeout_resetHeld (s : State) : (strokeTimeout s).resetHeld = s.resetHeld := by
  unfold strokeTimeout; dsimp only; split_ifs
  all_goals simp
@[simp] theorem strokeTimeout_canopySet (s : State) : (strokeTimeout s).canopySet = s.canopySet := by
  unfold strokeTimeout; dsimp only; split_ifs
  all_goals simp
@[simp] theorem strokeTimeout_valveReady (s : State) : (strokeTimeout s).valveReady = s.valveReady := by
  unfold strokeTimeout; dsimp only; split_ifs
  all_goals simp
@[simp] theorem strokeTimeout_cycle_timebase (s : State) : (strokeTimeout s).cycle.timebase = s.cycle.timebase := by
  unfold strokeTimeout; dsimp only; split_ifs
  all_goals simp
@[simp] theorem strokeTimeout_cycle_held (s : State) : (strokeTimeout s).cycle.held = s.cycle.held := by
  unfold strokeTimeout; dsimp only; split_ifs
  all_goals simp
@[simp] theorem strokeTimeout_cycle_holeNumber (s : State) : (strokeTimeout s).cycle.holeNumber = s.cycle.holeNumber := by
  unfold strokeTimeout; dsimp only; split_ifs
  all_goals simp
@[simp] theorem strokeTimeout_cycle_row (s : State) : (strokeTimeout s).cycle.row = s.cycle.row := by
  unfold strokeTimeout; dsimp only; split_ifs
  all_goals simp
@[simp] theorem strokeTimeout_cycle_slot (s : State) : (strokeTimeout s).cycle.slot = s.cycle.slot := by
  unfold strokeTimeout; dsimp only; split_ifs
  all_goals simp
@[simp] theorem strokeTimeout_cycle_planned (s : State) : (strokeTimeout s).cycle.planned = s.cycle.planned := by
  unfold strokeTimeout; dsimp only; split_ifs
  all_goals simp
@[simp] theorem strokeTimeout_sensor (s : State) : (strokeTimeout s).sensor = s.sensor := by
  unfold strokeTimeout; dsimp only; split_ifs
  all_goals simp
@[simp] theorem strokeTimeout_assembler (s : State) : (strokeTimeout s).assembler = s.assembler := by
  unfold strokeTimeout; dsimp only; split_ifs
  all_goals simp
@[simp] theorem strokeTimeout_neighbours_nearVoid (s : State) : (strokeTimeout s).neighbours.nearVoid = s.neighbours.nearVoid := by
  unfold strokeTimeout; dsimp only; split_ifs
  all_goals simp
@[simp] theorem strokeTimeout_anchor (s : State) : (strokeTimeout s).anchor = s.anchor := by
  unfold strokeTimeout; dsimp only; split_ifs
  all_goals simp
@[simp] theorem strokeTimeout_resin_charge (s : State) : (strokeTimeout s).resin.charge = s.resin.charge := by
  unfold strokeTimeout; dsimp only; split_ifs
  all_goals simp
@[simp] theorem strokeTimeout_resin_pushed (s : State) : (strokeTimeout s).resin.pushed = s.resin.pushed := by
  unfold strokeTimeout; dsimp only; split_ifs
  all_goals simp
@[simp] theorem strokeTimeout_resin_band (s : State) : (strokeTimeout s).resin.band = s.resin.band := by
  unfold strokeTimeout; dsimp only; split_ifs
  all_goals simp
@[simp] theorem strokeTimeout_resin_quarterRevs (s : State) : (strokeTimeout s).resin.quarterRevs = s.resin.quarterRevs := by
  unfold strokeTimeout; dsimp only; split_ifs
  all_goals simp
@[simp] theorem strokeTimeout_resin_holdPassed (s : State) : (strokeTimeout s).resin.holdPassed = s.resin.holdPassed := by
  unfold strokeTimeout; dsimp only; split_ifs
  all_goals simp
@[simp] theorem strokeTimeout_torque_target (s : State) : (strokeTimeout s).torque.target = s.torque.target := by
  unfold strokeTimeout; dsimp only; split_ifs
  all_goals simp
@[simp] theorem strokeTimeout_torque_ceiling (s : State) : (strokeTimeout s).torque.ceiling = s.torque.ceiling := by
  unfold strokeTimeout; dsimp only; split_ifs
  all_goals simp
@[simp] theorem strokeTimeout_torque_near (s : State) : (strokeTimeout s).torque.near = s.torque.near := by
  unfold strokeTimeout; dsimp only; split_ifs
  all_goals simp
@[simp] theorem strokeTimeout_torque_entered (s : State) : (strokeTimeout s).torque.entered = s.torque.entered := by
  unfold strokeTimeout; dsimp only; split_ifs
  all_goals simp
@[simp] theorem strokeTimeout_torque_spinner (s : State) : (strokeTimeout s).torque.spinner = s.torque.spinner := by
  unfold strokeTimeout; dsimp only; split_ifs
  all_goals simp
@[simp] theorem strokeTimeout_torque_peak (s : State) : (strokeTimeout s).torque.peak = s.torque.peak := by
  unfold strokeTimeout; dsimp only; split_ifs
  all_goals simp
@[simp] theorem strokeTimeout_torque_overshoot (s : State) : (strokeTimeout s).torque.overshoot = s.torque.overshoot := by
  unfold strokeTimeout; dsimp only; split_ifs
  all_goals simp
@[simp] theorem strokeTimeout_flow (s : State) : (strokeTimeout s).flow = s.flow := by
  unfold strokeTimeout; dsimp only; split_ifs
  all_goals simp
@[simp] theorem strokeTimeout_link_view (s : State) : (strokeTimeout s).link.view = s.link.view := by
  unfold strokeTimeout; dsimp only; split_ifs
  all_goals simp
@[simp] theorem strokeTimeout_link_recessive (s : State) : (strokeTimeout s).link.recessive = s.link.recessive := by
  unfold strokeTimeout; dsimp only; split_ifs
  all_goals simp
@[simp] theorem strokeTimeout_link_ownLast (s : State) : (strokeTimeout s).link.ownLast = s.link.ownLast := by
  unfold strokeTimeout; dsimp only; split_ifs
  all_goals simp
@[simp] theorem strokeTimeout_link_assembly (s : State) : (strokeTimeout s).link.assembly = s.link.assembly := by
  unfold strokeTimeout; dsimp only; split_ifs
  all_goals simp
@[simp] theorem strokeTimeout_link_tx (s : State) : (strokeTimeout s).link.tx = s.link.tx := by
  unfold strokeTimeout; dsimp only; split_ifs
  all_goals simp
@[simp] theorem strokeTimeout_link_slot (s : State) : (strokeTimeout s).link.slot = s.link.slot := by
  unfold strokeTimeout; dsimp only; split_ifs
  all_goals simp
@[simp] theorem strokeTimeout_link_queueOnLine (s : State) : (strokeTimeout s).link.queueOnLine = s.link.queueOnLine := by
  unfold strokeTimeout; dsimp only; split_ifs
  all_goals simp
@[simp] theorem strokeTimeout_link_mute (s : State) : (strokeTimeout s).link.mute = s.link.mute := by
  unfold strokeTimeout; dsimp only; split_ifs
  all_goals simp
@[simp] theorem strokeTimeout_link_txFault (s : State) : (strokeTimeout s).link.txFault = s.link.txFault := by
  unfold strokeTimeout; dsimp only; split_ifs
  all_goals simp
@[simp] theorem strokeTimeout_history_selection (s : State) : (strokeTimeout s).history.selection = s.history.selection := by
  unfold strokeTimeout; dsimp only; split_ifs
  all_goals simp
@[simp] theorem strokeTimeout_history_pointer (s : State) : (strokeTimeout s).history.pointer = s.history.pointer := by
  unfold strokeTimeout; dsimp only; split_ifs
  all_goals simp
@[simp] theorem strokeTimeout_host_reply (s : State) : (strokeTimeout s).host.reply = s.host.reply := by
  unfold strokeTimeout; dsimp only; split_ifs
  all_goals simp
@[simp] theorem strokeTimeout_host_hsdo (s : State) : (strokeTimeout s).host.hsdo = s.host.hsdo := by
  unfold strokeTimeout; dsimp only; split_ifs
  all_goals simp
@[simp] theorem strokeTimeout_host_config (s : State) : (strokeTimeout s).host.config = s.host.config := by
  unfold strokeTimeout; dsimp only; split_ifs
  all_goals simp
@[simp] theorem strokeTimeout_host_stack (s : State) : (strokeTimeout s).host.stack = s.host.stack := by
  unfold strokeTimeout; dsimp only; split_ifs
  all_goals simp
@[simp] theorem strokeTimeout_host_watch (s : State) : (strokeTimeout s).host.watch = s.host.watch := by
  unfold strokeTimeout; dsimp only; split_ifs
  all_goals simp
@[simp] theorem strokeTimeout_freeDraws (s : State) : (strokeTimeout s).freeDraws = s.freeDraws := by
  unfold strokeTimeout; dsimp only; split_ifs
  all_goals simp

@[simp] theorem strokeCounted_pending (s : State) : (strokeCounted s).pending = s.pending := by
  unfold strokeCounted; dsimp only; split_ifs
  all_goals simp
@[simp] theorem strokeCounted_resetHeld (s : State) : (strokeCounted s).resetHeld = s.resetHeld := by
  unfold strokeCounted; dsimp only; split_ifs
  all_goals simp
@[simp] theorem strokeCounted_canopySet (s : State) : (strokeCounted s).canopySet = s.canopySet := by
  unfold strokeCounted; dsimp only; split_ifs
  all_goals simp
@[simp] theorem strokeCounted_valveReady (s : State) : (strokeCounted s).valveReady = s.valveReady := by
  unfold strokeCounted; dsimp only; split_ifs
  all_goals simp
@[simp] theorem strokeCounted_cycle_timebase (s : State) : (strokeCounted s).cycle.timebase = s.cycle.timebase := by
  unfold strokeCounted; dsimp only; split_ifs
  all_goals simp
@[simp] theorem strokeCounted_cycle_held (s : State) : (strokeCounted s).cycle.held = s.cycle.held := by
  unfold strokeCounted; dsimp only; split_ifs
  all_goals simp
@[simp] theorem strokeCounted_cycle_holeNumber (s : State) : (strokeCounted s).cycle.holeNumber = s.cycle.holeNumber := by
  unfold strokeCounted; dsimp only; split_ifs
  all_goals simp
@[simp] theorem strokeCounted_cycle_row (s : State) : (strokeCounted s).cycle.row = s.cycle.row := by
  unfold strokeCounted; dsimp only; split_ifs
  all_goals simp
@[simp] theorem strokeCounted_cycle_slot (s : State) : (strokeCounted s).cycle.slot = s.cycle.slot := by
  unfold strokeCounted; dsimp only; split_ifs
  all_goals simp
@[simp] theorem strokeCounted_cycle_planned (s : State) : (strokeCounted s).cycle.planned = s.cycle.planned := by
  unfold strokeCounted; dsimp only; split_ifs
  all_goals simp
@[simp] theorem strokeCounted_sensor (s : State) : (strokeCounted s).sensor = s.sensor := by
  unfold strokeCounted; dsimp only; split_ifs
  all_goals simp
@[simp] theorem strokeCounted_assembler (s : State) : (strokeCounted s).assembler = s.assembler := by
  unfold strokeCounted; dsimp only; split_ifs
  all_goals simp
@[simp] theorem strokeCounted_neighbours_nearVoid (s : State) : (strokeCounted s).neighbours.nearVoid = s.neighbours.nearVoid := by
  unfold strokeCounted; dsimp only; split_ifs
  all_goals simp
@[simp] theorem strokeCounted_anchor (s : State) : (strokeCounted s).anchor = s.anchor := by
  unfold strokeCounted; dsimp only; split_ifs
  all_goals simp
@[simp] theorem strokeCounted_resin_charge (s : State) : (strokeCounted s).resin.charge = s.resin.charge := by
  unfold strokeCounted; dsimp only; split_ifs
  all_goals simp
@[simp] theorem strokeCounted_resin_holdPassed (s : State) : (strokeCounted s).resin.holdPassed = s.resin.holdPassed := by
  unfold strokeCounted; dsimp only; split_ifs
  all_goals simp
@[simp] theorem strokeCounted_torque_target (s : State) : (strokeCounted s).torque.target = s.torque.target := by
  unfold strokeCounted; dsimp only; split_ifs
  all_goals simp
@[simp] theorem strokeCounted_torque_ceiling (s : State) : (strokeCounted s).torque.ceiling = s.torque.ceiling := by
  unfold strokeCounted; dsimp only; split_ifs
  all_goals simp
@[simp] theorem strokeCounted_torque_near (s : State) : (strokeCounted s).torque.near = s.torque.near := by
  unfold strokeCounted; dsimp only; split_ifs
  all_goals simp
@[simp] theorem strokeCounted_torque_entered (s : State) : (strokeCounted s).torque.entered = s.torque.entered := by
  unfold strokeCounted; dsimp only; split_ifs
  all_goals simp
@[simp] theorem strokeCounted_torque_spinner (s : State) : (strokeCounted s).torque.spinner = s.torque.spinner := by
  unfold strokeCounted; dsimp only; split_ifs
  all_goals simp
@[simp] theorem strokeCounted_torque_peak (s : State) : (strokeCounted s).torque.peak = s.torque.peak := by
  unfold strokeCounted; dsimp only; split_ifs
  all_goals simp
@[simp] theorem strokeCounted_torque_overshoot (s : State) : (strokeCounted s).torque.overshoot = s.torque.overshoot := by
  unfold strokeCounted; dsimp only; split_ifs
  all_goals simp
@[simp] theorem strokeCounted_flow (s : State) : (strokeCounted s).flow = s.flow := by
  unfold strokeCounted; dsimp only; split_ifs
  all_goals simp
@[simp] theorem strokeCounted_link_view (s : State) : (strokeCounted s).link.view = s.link.view := by
  unfold strokeCounted; dsimp only; split_ifs
  all_goals simp
@[simp] theorem strokeCounted_link_recessive (s : State) : (strokeCounted s).link.recessive = s.link.recessive := by
  unfold strokeCounted; dsimp only; split_ifs
  all_goals simp
@[simp] theorem strokeCounted_link_ownLast (s : State) : (strokeCounted s).link.ownLast = s.link.ownLast := by
  unfold strokeCounted; dsimp only; split_ifs
  all_goals simp
@[simp] theorem strokeCounted_link_assembly (s : State) : (strokeCounted s).link.assembly = s.link.assembly := by
  unfold strokeCounted; dsimp only; split_ifs
  all_goals simp
@[simp] theorem strokeCounted_link_tx (s : State) : (strokeCounted s).link.tx = s.link.tx := by
  unfold strokeCounted; dsimp only; split_ifs
  all_goals simp
@[simp] theorem strokeCounted_link_slot (s : State) : (strokeCounted s).link.slot = s.link.slot := by
  unfold strokeCounted; dsimp only; split_ifs
  all_goals simp
@[simp] theorem strokeCounted_link_queueOnLine (s : State) : (strokeCounted s).link.queueOnLine = s.link.queueOnLine := by
  unfold strokeCounted; dsimp only; split_ifs
  all_goals simp
@[simp] theorem strokeCounted_link_mute (s : State) : (strokeCounted s).link.mute = s.link.mute := by
  unfold strokeCounted; dsimp only; split_ifs
  all_goals simp
@[simp] theorem strokeCounted_link_txFault (s : State) : (strokeCounted s).link.txFault = s.link.txFault := by
  unfold strokeCounted; dsimp only; split_ifs
  all_goals simp
@[simp] theorem strokeCounted_history_selection (s : State) : (strokeCounted s).history.selection = s.history.selection := by
  unfold strokeCounted; dsimp only; split_ifs
  all_goals simp
@[simp] theorem strokeCounted_history_pointer (s : State) : (strokeCounted s).history.pointer = s.history.pointer := by
  unfold strokeCounted; dsimp only; split_ifs
  all_goals simp
@[simp] theorem strokeCounted_host_reply (s : State) : (strokeCounted s).host.reply = s.host.reply := by
  unfold strokeCounted; dsimp only; split_ifs
  all_goals simp
@[simp] theorem strokeCounted_host_hsdo (s : State) : (strokeCounted s).host.hsdo = s.host.hsdo := by
  unfold strokeCounted; dsimp only; split_ifs
  all_goals simp
@[simp] theorem strokeCounted_host_config (s : State) : (strokeCounted s).host.config = s.host.config := by
  unfold strokeCounted; dsimp only; split_ifs
  all_goals simp
@[simp] theorem strokeCounted_host_stack (s : State) : (strokeCounted s).host.stack = s.host.stack := by
  unfold strokeCounted; dsimp only; split_ifs
  all_goals simp
@[simp] theorem strokeCounted_host_faults (s : State) : (strokeCounted s).host.faults = s.host.faults := by
  unfold strokeCounted; dsimp only; split_ifs
  all_goals simp
@[simp] theorem strokeCounted_host_watch (s : State) : (strokeCounted s).host.watch = s.host.watch := by
  unfold strokeCounted; dsimp only; split_ifs
  all_goals simp
@[simp] theorem strokeCounted_freeDraws (s : State) : (strokeCounted s).freeDraws = s.freeDraws := by
  unfold strokeCounted; dsimp only; split_ifs
  all_goals simp

@[simp] theorem muteCycle_pending (s : State) : (muteCycle s).pending = s.pending := by
  unfold muteCycle; split <;> try split
  all_goals simp
@[simp] theorem muteCycle_resetHeld (s : State) : (muteCycle s).resetHeld = s.resetHeld := by
  unfold muteCycle; split <;> try split
  all_goals simp
@[simp] theorem muteCycle_canopySet (s : State) : (muteCycle s).canopySet = s.canopySet := by
  unfold muteCycle; split <;> try split
  all_goals simp
@[simp] theorem muteCycle_valveReady (s : State) : (muteCycle s).valveReady = s.valveReady := by
  unfold muteCycle; split <;> try split
  all_goals simp
@[simp] theorem muteCycle_cycle_timebase (s : State) : (muteCycle s).cycle.timebase = s.cycle.timebase := by
  unfold muteCycle; split <;> try split
  all_goals simp
@[simp] theorem muteCycle_cycle_held (s : State) : (muteCycle s).cycle.held = s.cycle.held := by
  unfold muteCycle; split <;> try split
  all_goals simp
@[simp] theorem muteCycle_cycle_pendingVerdict (s : State) : (muteCycle s).cycle.pendingVerdict = s.cycle.pendingVerdict := by
  unfold muteCycle; split <;> try split
  all_goals simp
@[simp] theorem muteCycle_cycle_abortPending (s : State) : (muteCycle s).cycle.abortPending = s.cycle.abortPending := by
  unfold muteCycle; split <;> try split
  all_goals simp
@[simp] theorem muteCycle_cycle_holeNumber (s : State) : (muteCycle s).cycle.holeNumber = s.cycle.holeNumber := by
  unfold muteCycle; split <;> try split
  all_goals simp
@[simp] theorem muteCycle_cycle_row (s : State) : (muteCycle s).cycle.row = s.cycle.row := by
  unfold muteCycle; split <;> try split
  all_goals simp
@[simp] theorem muteCycle_cycle_slot (s : State) : (muteCycle s).cycle.slot = s.cycle.slot := by
  unfold muteCycle; split <;> try split
  all_goals simp
@[simp] theorem muteCycle_cycle_planned (s : State) : (muteCycle s).cycle.planned = s.cycle.planned := by
  unfold muteCycle; split <;> try split
  all_goals simp
@[simp] theorem muteCycle_cycle_collarTimer (s : State) : (muteCycle s).cycle.collarTimer = s.cycle.collarTimer := by
  unfold muteCycle; split <;> try split
  all_goals simp
@[simp] theorem muteCycle_cycle_retractTimer (s : State) : (muteCycle s).cycle.retractTimer = s.cycle.retractTimer := by
  unfold muteCycle; split <;> try split
  all_goals simp
@[simp] theorem muteCycle_sensor (s : State) : (muteCycle s).sensor = s.sensor := by
  unfold muteCycle; split <;> try split
  all_goals simp
@[simp] theorem muteCycle_assembler (s : State) : (muteCycle s).assembler = s.assembler := by
  unfold muteCycle; split <;> try split
  all_goals simp
@[simp] theorem muteCycle_neighbours (s : State) : (muteCycle s).neighbours = s.neighbours := by
  unfold muteCycle; split <;> try split
  all_goals simp
@[simp] theorem muteCycle_anchor (s : State) : (muteCycle s).anchor = s.anchor := by
  unfold muteCycle; split <;> try split
  all_goals simp
@[simp] theorem muteCycle_resin_charge (s : State) : (muteCycle s).resin.charge = s.resin.charge := by
  unfold muteCycle; split <;> try split
  all_goals simp
@[simp] theorem muteCycle_resin_pushed (s : State) : (muteCycle s).resin.pushed = s.resin.pushed := by
  unfold muteCycle; split <;> try split
  all_goals simp
@[simp] theorem muteCycle_resin_strokeTimer (s : State) : (muteCycle s).resin.strokeTimer = s.resin.strokeTimer := by
  unfold muteCycle; split <;> try split
  all_goals simp
@[simp] theorem muteCycle_resin_retry (s : State) : (muteCycle s).resin.retry = s.resin.retry := by
  unfold muteCycle; split <;> try split
  all_goals simp
@[simp] theorem muteCycle_resin_band (s : State) : (muteCycle s).resin.band = s.resin.band := by
  unfold muteCycle; split <;> try split
  all_goals simp
@[simp] theorem muteCycle_resin_quarterRevs (s : State) : (muteCycle s).resin.quarterRevs = s.resin.quarterRevs := by
  unfold muteCycle; split <;> try split
  all_goals simp
@[simp] theorem muteCycle_resin_mixDeadline (s : State) : (muteCycle s).resin.mixDeadline = s.resin.mixDeadline := by
  unfold muteCycle; split <;> try split
  all_goals simp
@[simp] theorem muteCycle_resin_holdDeadline (s : State) : (muteCycle s).resin.holdDeadline = s.resin.holdDeadline := by
  unfold muteCycle; split <;> try split
  all_goals simp
@[simp] theorem muteCycle_resin_holdPassed (s : State) : (muteCycle s).resin.holdPassed = s.resin.holdPassed := by
  unfold muteCycle; split <;> try split
  all_goals simp
@[simp] theorem muteCycle_torque_target (s : State) : (muteCycle s).torque.target = s.torque.target := by
  unfold muteCycle; split <;> try split
  all_goals simp
@[simp] theorem muteCycle_torque_ceiling (s : State) : (muteCycle s).torque.ceiling = s.torque.ceiling := by
  unfold muteCycle; split <;> try split
  all_goals simp
@[simp] theorem muteCycle_torque_near (s : State) : (muteCycle s).torque.near = s.torque.near := by
  unfold muteCycle; split <;> try split
  all_goals simp
@[simp] theorem muteCycle_torque_entered (s : State) : (muteCycle s).torque.entered = s.torque.entered := by
  unfold muteCycle; split <;> try split
  all_goals simp
@[simp] theorem muteCycle_torque_timer (s : State) : (muteCycle s).torque.timer = s.torque.timer := by
  unfold muteCycle; split <;> try split
  all_goals simp
@[simp] theorem muteCycle_torque_spinner (s : State) : (muteCycle s).torque.spinner = s.torque.spinner := by
  unfold muteCycle; split <;> try split
  all_goals simp
@[simp] theorem muteCycle_torque_peak (s : State) : (muteCycle s).torque.peak = s.torque.peak := by
  unfold muteCycle; split <;> try split
  all_goals simp
@[simp] theorem muteCycle_torque_overshoot (s : State) : (muteCycle s).torque.overshoot = s.torque.overshoot := by
  unfold muteCycle; split <;> try split
  all_goals simp
@[simp] theorem muteCycle_flow (s : State) : (muteCycle s).flow = s.flow := by
  unfold muteCycle; split <;> try split
  all_goals simp
@[simp] theorem muteCycle_link (s : State) : (muteCycle s).link = s.link := by
  unfold muteCycle; split <;> try split
  all_goals simp
@[simp] theorem muteCycle_history_free (s : State) : (muteCycle s).history.free = s.history.free := by
  unfold muteCycle; split <;> try split
  all_goals simp
@[simp] theorem muteCycle_history_selection (s : State) : (muteCycle s).history.selection = s.history.selection := by
  unfold muteCycle; split <;> try split
  all_goals simp
@[simp] theorem muteCycle_history_pointer (s : State) : (muteCycle s).history.pointer = s.history.pointer := by
  unfold muteCycle; split <;> try split
  all_goals simp
@[simp] theorem muteCycle_host (s : State) : (muteCycle s).host = s.host := by
  unfold muteCycle; split <;> try split
  all_goals simp
@[simp] theorem muteCycle_freeDraws (s : State) : (muteCycle s).freeDraws = s.freeDraws := by
  unfold muteCycle; split <;> try split
  all_goals simp

@[simp] theorem muteStation_pending (c : MuteCause) (s : State) : (muteStation c s).pending = s.pending := by
  unfold muteStation; split <;> simp
@[simp] theorem muteStation_resetHeld (c : MuteCause) (s : State) : (muteStation c s).resetHeld = s.resetHeld := by
  unfold muteStation; split <;> simp
@[simp] theorem muteStation_canopySet (c : MuteCause) (s : State) : (muteStation c s).canopySet = s.canopySet := by
  unfold muteStation; split <;> simp
@[simp] theorem muteStation_valveReady (c : MuteCause) (s : State) : (muteStation c s).valveReady = s.valveReady := by
  unfold muteStation; split <;> simp
@[simp] theorem muteStation_cycle_timebase (c : MuteCause) (s : State) : (muteStation c s).cycle.timebase = s.cycle.timebase := by
  unfold muteStation; split <;> simp
@[simp] theorem muteStation_cycle_held (c : MuteCause) (s : State) : (muteStation c s).cycle.held = s.cycle.held := by
  unfold muteStation; split <;> simp
@[simp] theorem muteStation_cycle_pendingVerdict (c : MuteCause) (s : State) : (muteStation c s).cycle.pendingVerdict = s.cycle.pendingVerdict := by
  unfold muteStation; split <;> simp
@[simp] theorem muteStation_cycle_abortPending (c : MuteCause) (s : State) : (muteStation c s).cycle.abortPending = s.cycle.abortPending := by
  unfold muteStation; split <;> simp
@[simp] theorem muteStation_cycle_holeNumber (c : MuteCause) (s : State) : (muteStation c s).cycle.holeNumber = s.cycle.holeNumber := by
  unfold muteStation; split <;> simp
@[simp] theorem muteStation_cycle_row (c : MuteCause) (s : State) : (muteStation c s).cycle.row = s.cycle.row := by
  unfold muteStation; split <;> simp
@[simp] theorem muteStation_cycle_slot (c : MuteCause) (s : State) : (muteStation c s).cycle.slot = s.cycle.slot := by
  unfold muteStation; split <;> simp
@[simp] theorem muteStation_cycle_planned (c : MuteCause) (s : State) : (muteStation c s).cycle.planned = s.cycle.planned := by
  unfold muteStation; split <;> simp
@[simp] theorem muteStation_cycle_collarTimer (c : MuteCause) (s : State) : (muteStation c s).cycle.collarTimer = s.cycle.collarTimer := by
  unfold muteStation; split <;> simp
@[simp] theorem muteStation_cycle_retractTimer (c : MuteCause) (s : State) : (muteStation c s).cycle.retractTimer = s.cycle.retractTimer := by
  unfold muteStation; split <;> simp
@[simp] theorem muteStation_sensor (c : MuteCause) (s : State) : (muteStation c s).sensor = s.sensor := by
  unfold muteStation; split <;> simp
@[simp] theorem muteStation_assembler (c : MuteCause) (s : State) : (muteStation c s).assembler = s.assembler := by
  unfold muteStation; split <;> simp
@[simp] theorem muteStation_neighbours (c : MuteCause) (s : State) : (muteStation c s).neighbours = s.neighbours := by
  unfold muteStation; split <;> simp
@[simp] theorem muteStation_anchor (c : MuteCause) (s : State) : (muteStation c s).anchor = s.anchor := by
  unfold muteStation; split <;> simp
@[simp] theorem muteStation_resin_charge (c : MuteCause) (s : State) : (muteStation c s).resin.charge = s.resin.charge := by
  unfold muteStation; split <;> simp
@[simp] theorem muteStation_resin_pushed (c : MuteCause) (s : State) : (muteStation c s).resin.pushed = s.resin.pushed := by
  unfold muteStation; split <;> simp
@[simp] theorem muteStation_resin_strokeTimer (c : MuteCause) (s : State) : (muteStation c s).resin.strokeTimer = s.resin.strokeTimer := by
  unfold muteStation; split <;> simp
@[simp] theorem muteStation_resin_retry (c : MuteCause) (s : State) : (muteStation c s).resin.retry = s.resin.retry := by
  unfold muteStation; split <;> simp
@[simp] theorem muteStation_resin_band (c : MuteCause) (s : State) : (muteStation c s).resin.band = s.resin.band := by
  unfold muteStation; split <;> simp
@[simp] theorem muteStation_resin_quarterRevs (c : MuteCause) (s : State) : (muteStation c s).resin.quarterRevs = s.resin.quarterRevs := by
  unfold muteStation; split <;> simp
@[simp] theorem muteStation_resin_mixDeadline (c : MuteCause) (s : State) : (muteStation c s).resin.mixDeadline = s.resin.mixDeadline := by
  unfold muteStation; split <;> simp
@[simp] theorem muteStation_resin_holdDeadline (c : MuteCause) (s : State) : (muteStation c s).resin.holdDeadline = s.resin.holdDeadline := by
  unfold muteStation; split <;> simp
@[simp] theorem muteStation_resin_holdPassed (c : MuteCause) (s : State) : (muteStation c s).resin.holdPassed = s.resin.holdPassed := by
  unfold muteStation; split <;> simp
@[simp] theorem muteStation_torque_target (c : MuteCause) (s : State) : (muteStation c s).torque.target = s.torque.target := by
  unfold muteStation; split <;> simp
@[simp] theorem muteStation_torque_ceiling (c : MuteCause) (s : State) : (muteStation c s).torque.ceiling = s.torque.ceiling := by
  unfold muteStation; split <;> simp
@[simp] theorem muteStation_torque_near (c : MuteCause) (s : State) : (muteStation c s).torque.near = s.torque.near := by
  unfold muteStation; split <;> simp
@[simp] theorem muteStation_torque_entered (c : MuteCause) (s : State) : (muteStation c s).torque.entered = s.torque.entered := by
  unfold muteStation; split <;> simp
@[simp] theorem muteStation_torque_timer (c : MuteCause) (s : State) : (muteStation c s).torque.timer = s.torque.timer := by
  unfold muteStation; split <;> simp
@[simp] theorem muteStation_torque_spinner (c : MuteCause) (s : State) : (muteStation c s).torque.spinner = s.torque.spinner := by
  unfold muteStation; split <;> simp
@[simp] theorem muteStation_torque_peak (c : MuteCause) (s : State) : (muteStation c s).torque.peak = s.torque.peak := by
  unfold muteStation; split <;> simp
@[simp] theorem muteStation_torque_overshoot (c : MuteCause) (s : State) : (muteStation c s).torque.overshoot = s.torque.overshoot := by
  unfold muteStation; split <;> simp
@[simp] theorem muteStation_flow (c : MuteCause) (s : State) : (muteStation c s).flow = s.flow := by
  unfold muteStation; split <;> simp
@[simp] theorem muteStation_link_view (c : MuteCause) (s : State) : (muteStation c s).link.view = s.link.view := by
  unfold muteStation; split <;> simp
@[simp] theorem muteStation_link_recessive (c : MuteCause) (s : State) : (muteStation c s).link.recessive = s.link.recessive := by
  unfold muteStation; split <;> simp
@[simp] theorem muteStation_link_ownLast (c : MuteCause) (s : State) : (muteStation c s).link.ownLast = s.link.ownLast := by
  unfold muteStation; split <;> simp
@[simp] theorem muteStation_link_assembly (c : MuteCause) (s : State) : (muteStation c s).link.assembly = s.link.assembly := by
  unfold muteStation; split <;> simp
@[simp] theorem muteStation_link_holeDropped (c : MuteCause) (s : State) : (muteStation c s).link.holeDropped = s.link.holeDropped := by
  unfold muteStation; split <;> simp
@[simp] theorem muteStation_link_txFault (c : MuteCause) (s : State) : (muteStation c s).link.txFault = s.link.txFault := by
  unfold muteStation; split <;> simp
@[simp] theorem muteStation_history_free (c : MuteCause) (s : State) : (muteStation c s).history.free = s.history.free := by
  unfold muteStation; split <;> simp
@[simp] theorem muteStation_history_selection (c : MuteCause) (s : State) : (muteStation c s).history.selection = s.history.selection := by
  unfold muteStation; split <;> simp
@[simp] theorem muteStation_history_pointer (c : MuteCause) (s : State) : (muteStation c s).history.pointer = s.history.pointer := by
  unfold muteStation; split <;> simp
@[simp] theorem muteStation_host_reply (c : MuteCause) (s : State) : (muteStation c s).host.reply = s.host.reply := by
  unfold muteStation; split <;> simp
@[simp] theorem muteStation_host_hsdo (c : MuteCause) (s : State) : (muteStation c s).host.hsdo = s.host.hsdo := by
  unfold muteStation; split <;> simp
@[simp] theorem muteStation_host_config (c : MuteCause) (s : State) : (muteStation c s).host.config = s.host.config := by
  unfold muteStation; split <;> simp
@[simp] theorem muteStation_host_raised (c : MuteCause) (s : State) : (muteStation c s).host.raised = s.host.raised := by
  unfold muteStation; split <;> simp
@[simp] theorem muteStation_host_stack (c : MuteCause) (s : State) : (muteStation c s).host.stack = s.host.stack := by
  unfold muteStation; split <;> simp
@[simp] theorem muteStation_host_watch (c : MuteCause) (s : State) : (muteStation c s).host.watch = s.host.watch := by
  unfold muteStation; split <;> simp
@[simp] theorem muteStation_freeDraws (c : MuteCause) (s : State) : (muteStation c s).freeDraws = s.freeDraws := by
  unfold muteStation; split <;> simp

@[simp] theorem torqueSample_pending (q : Nat) (s : State) : (torqueSample q s).pending = s.pending := by
  unfold torqueSample; dsimp only; split_ifs
  all_goals simp
@[simp] theorem torqueSample_resetHeld (q : Nat) (s : State) : (torqueSample q s).resetHeld = s.resetHeld := by
  unfold torqueSample; dsimp only; split_ifs
  all_goals simp
@[simp] theorem torqueSample_canopySet (q : Nat) (s : State) : (torqueSample q s).canopySet = s.canopySet := by
  unfold torqueSample; dsimp only; split_ifs
  all_goals simp
@[simp] theorem torqueSample_valveReady (q : Nat) (s : State) : (torqueSample q s).valveReady = s.valveReady := by
  unfold torqueSample; dsimp only; split_ifs
  all_goals simp
@[simp] theorem torqueSample_cycle_timebase (q : Nat) (s : State) : (torqueSample q s).cycle.timebase = s.cycle.timebase := by
  unfold torqueSample; dsimp only; split_ifs
  all_goals simp
@[simp] theorem torqueSample_cycle_held (q : Nat) (s : State) : (torqueSample q s).cycle.held = s.cycle.held := by
  unfold torqueSample; dsimp only; split_ifs
  all_goals simp
@[simp] theorem torqueSample_cycle_holeNumber (q : Nat) (s : State) : (torqueSample q s).cycle.holeNumber = s.cycle.holeNumber := by
  unfold torqueSample; dsimp only; split_ifs
  all_goals simp
@[simp] theorem torqueSample_cycle_row (q : Nat) (s : State) : (torqueSample q s).cycle.row = s.cycle.row := by
  unfold torqueSample; dsimp only; split_ifs
  all_goals simp
@[simp] theorem torqueSample_cycle_slot (q : Nat) (s : State) : (torqueSample q s).cycle.slot = s.cycle.slot := by
  unfold torqueSample; dsimp only; split_ifs
  all_goals simp
@[simp] theorem torqueSample_cycle_planned (q : Nat) (s : State) : (torqueSample q s).cycle.planned = s.cycle.planned := by
  unfold torqueSample; dsimp only; split_ifs
  all_goals simp
@[simp] theorem torqueSample_sensor (q : Nat) (s : State) : (torqueSample q s).sensor = s.sensor := by
  unfold torqueSample; dsimp only; split_ifs
  all_goals simp
@[simp] theorem torqueSample_assembler (q : Nat) (s : State) : (torqueSample q s).assembler = s.assembler := by
  unfold torqueSample; dsimp only; split_ifs
  all_goals simp
@[simp] theorem torqueSample_neighbours_nearVoid (q : Nat) (s : State) : (torqueSample q s).neighbours.nearVoid = s.neighbours.nearVoid := by
  unfold torqueSample; dsimp only; split_ifs
  all_goals simp
@[simp] theorem torqueSample_anchor (q : Nat) (s : State) : (torqueSample q s).anchor = s.anchor := by
  unfold torqueSample; dsimp only; split_ifs
  all_goals simp
@[simp] theorem torqueSample_resin_charge (q : Nat) (s : State) : (torqueSample q s).resin.charge = s.resin.charge := by
  unfold torqueSample; dsimp only; split_ifs
  all_goals simp
@[simp] theorem torqueSample_resin_pushed (q : Nat) (s : State) : (torqueSample q s).resin.pushed = s.resin.pushed := by
  unfold torqueSample; dsimp only; split_ifs
  all_goals simp
@[simp] theorem torqueSample_resin_retry (q : Nat) (s : State) : (torqueSample q s).resin.retry = s.resin.retry := by
  unfold torqueSample; dsimp only; split_ifs
  all_goals simp
@[simp] theorem torqueSample_resin_band (q : Nat) (s : State) : (torqueSample q s).resin.band = s.resin.band := by
  unfold torqueSample; dsimp only; split_ifs
  all_goals simp
@[simp] theorem torqueSample_resin_quarterRevs (q : Nat) (s : State) : (torqueSample q s).resin.quarterRevs = s.resin.quarterRevs := by
  unfold torqueSample; dsimp only; split_ifs
  all_goals simp
@[simp] theorem torqueSample_resin_holdPassed (q : Nat) (s : State) : (torqueSample q s).resin.holdPassed = s.resin.holdPassed := by
  unfold torqueSample; dsimp only; split_ifs
  all_goals simp
@[simp] theorem torqueSample_flow (q : Nat) (s : State) : (torqueSample q s).flow = s.flow := by
  unfold torqueSample; dsimp only; split_ifs
  all_goals simp
@[simp] theorem torqueSample_link_view (q : Nat) (s : State) : (torqueSample q s).link.view = s.link.view := by
  unfold torqueSample; dsimp only; split_ifs
  all_goals simp
@[simp] theorem torqueSample_link_recessive (q : Nat) (s : State) : (torqueSample q s).link.recessive = s.link.recessive := by
  unfold torqueSample; dsimp only; split_ifs
  all_goals simp
@[simp] theorem torqueSample_link_ownLast (q : Nat) (s : State) : (torqueSample q s).link.ownLast = s.link.ownLast := by
  unfold torqueSample; dsimp only; split_ifs
  all_goals simp
@[simp] theorem torqueSample_link_assembly (q : Nat) (s : State) : (torqueSample q s).link.assembly = s.link.assembly := by
  unfold torqueSample; dsimp only; split_ifs
  all_goals simp
@[simp] theorem torqueSample_link_tx (q : Nat) (s : State) : (torqueSample q s).link.tx = s.link.tx := by
  unfold torqueSample; dsimp only; split_ifs
  all_goals simp
@[simp] theorem torqueSample_link_slot (q : Nat) (s : State) : (torqueSample q s).link.slot = s.link.slot := by
  unfold torqueSample; dsimp only; split_ifs
  all_goals simp
@[simp] theorem torqueSample_link_queueOnLine (q : Nat) (s : State) : (torqueSample q s).link.queueOnLine = s.link.queueOnLine := by
  unfold torqueSample; dsimp only; split_ifs
  all_goals simp
@[simp] theorem torqueSample_link_mute (q : Nat) (s : State) : (torqueSample q s).link.mute = s.link.mute := by
  unfold torqueSample; dsimp only; split_ifs
  all_goals simp
@[simp] theorem torqueSample_link_txFault (q : Nat) (s : State) : (torqueSample q s).link.txFault = s.link.txFault := by
  unfold torqueSample; dsimp only; split_ifs
  all_goals simp
@[simp] theorem torqueSample_history_selection (q : Nat) (s : State) : (torqueSample q s).history.selection = s.history.selection := by
  unfold torqueSample; dsimp only; split_ifs
  all_goals simp
@[simp] theorem torqueSample_history_pointer (q : Nat) (s : State) : (torqueSample q s).history.pointer = s.history.pointer := by
  unfold torqueSample; dsimp only; split_ifs
  all_goals simp
@[simp] theorem torqueSample_host_reply (q : Nat) (s : State) : (torqueSample q s).host.reply = s.host.reply := by
  unfold torqueSample; dsimp only; split_ifs
  all_goals simp
@[simp] theorem torqueSample_host_hsdo (q : Nat) (s : State) : (torqueSample q s).host.hsdo = s.host.hsdo := by
  unfold torqueSample; dsimp only; split_ifs
  all_goals simp
@[simp] theorem torqueSample_host_config (q : Nat) (s : State) : (torqueSample q s).host.config = s.host.config := by
  unfold torqueSample; dsimp only; split_ifs
  all_goals simp
@[simp] theorem torqueSample_host_stack (q : Nat) (s : State) : (torqueSample q s).host.stack = s.host.stack := by
  unfold torqueSample; dsimp only; split_ifs
  all_goals simp
@[simp] theorem torqueSample_host_faults (q : Nat) (s : State) : (torqueSample q s).host.faults = s.host.faults := by
  unfold torqueSample; dsimp only; split_ifs
  all_goals simp
@[simp] theorem torqueSample_host_watch (q : Nat) (s : State) : (torqueSample q s).host.watch = s.host.watch := by
  unfold torqueSample; dsimp only; split_ifs
  all_goals simp
@[simp] theorem torqueSample_freeDraws (q : Nat) (s : State) : (torqueSample q s).freeDraws = s.freeDraws := by
  unfold torqueSample; dsimp only; split_ifs
  all_goals simp

@[simp] theorem drillTests_pending (s : State) : (drillTests s).pending = s.pending := by
  unfold drillTests; split_ifs
  all_goals simp
@[simp] theorem drillTests_resetHeld (s : State) : (drillTests s).resetHeld = s.resetHeld := by
  unfold drillTests; split_ifs
  all_goals simp
@[simp] theorem drillTests_canopySet (s : State) : (drillTests s).canopySet = s.canopySet := by
  unfold drillTests; split_ifs
  all_goals simp
@[simp] theorem drillTests_valveReady (s : State) : (drillTests s).valveReady = s.valveReady := by
  unfold drillTests; split_ifs
  all_goals simp
@[simp] theorem drillTests_cycle_timebase (s : State) : (drillTests s).cycle.timebase = s.cycle.timebase := by
  unfold drillTests; split_ifs
  all_goals simp
@[simp] theorem drillTests_cycle_held (s : State) : (drillTests s).cycle.held = s.cycle.held := by
  unfold drillTests; split_ifs
  all_goals simp
@[simp] theorem drillTests_cycle_pendingVerdict (s : State) : (drillTests s).cycle.pendingVerdict = s.cycle.pendingVerdict := by
  unfold drillTests; split_ifs
  all_goals simp
@[simp] theorem drillTests_cycle_abortPending (s : State) : (drillTests s).cycle.abortPending = s.cycle.abortPending := by
  unfold drillTests; split_ifs
  all_goals simp
@[simp] theorem drillTests_cycle_holeNumber (s : State) : (drillTests s).cycle.holeNumber = s.cycle.holeNumber := by
  unfold drillTests; split_ifs
  all_goals simp
@[simp] theorem drillTests_cycle_row (s : State) : (drillTests s).cycle.row = s.cycle.row := by
  unfold drillTests; split_ifs
  all_goals simp
@[simp] theorem drillTests_cycle_slot (s : State) : (drillTests s).cycle.slot = s.cycle.slot := by
  unfold drillTests; split_ifs
  all_goals simp
@[simp] theorem drillTests_cycle_planned (s : State) : (drillTests s).cycle.planned = s.cycle.planned := by
  unfold drillTests; split_ifs
  all_goals simp
@[simp] theorem drillTests_sensor (s : State) : (drillTests s).sensor = s.sensor := by
  unfold drillTests; split_ifs
  all_goals simp
@[simp] theorem drillTests_neighbours (s : State) : (drillTests s).neighbours = s.neighbours := by
  unfold drillTests; split_ifs
  all_goals simp
@[simp] theorem drillTests_resin_charge (s : State) : (drillTests s).resin.charge = s.resin.charge := by
  unfold drillTests; split_ifs
  all_goals simp
@[simp] theorem drillTests_resin_pushed (s : State) : (drillTests s).resin.pushed = s.resin.pushed := by
  unfold drillTests; split_ifs
  all_goals simp
@[simp] theorem drillTests_resin_strokeTimer (s : State) : (drillTests s).resin.strokeTimer = s.resin.strokeTimer := by
  unfold drillTests; split_ifs
  all_goals simp
@[simp] theorem drillTests_resin_retry (s : State) : (drillTests s).resin.retry = s.resin.retry := by
  unfold drillTests; split_ifs
  all_goals simp
@[simp] theorem drillTests_resin_band (s : State) : (drillTests s).resin.band = s.resin.band := by
  unfold drillTests; split_ifs
  all_goals simp
@[simp] theorem drillTests_resin_quarterRevs (s : State) : (drillTests s).resin.quarterRevs = s.resin.quarterRevs := by
  unfold drillTests; split_ifs
  all_goals simp
@[simp] theorem drillTests_resin_mixDeadline (s : State) : (drillTests s).resin.mixDeadline = s.resin.mixDeadline := by
  unfold drillTests; split_ifs
  all_goals simp
@[simp] theorem drillTests_resin_holdDeadline (s : State) : (drillTests s).resin.holdDeadline = s.resin.holdDeadline := by
  unfold drillTests; split_ifs
  all_goals simp
@[simp] theorem drillTests_resin_holdPassed (s : State) : (drillTests s).resin.holdPassed = s.resin.holdPassed := by
  unfold drillTests; split_ifs
  all_goals simp
@[simp] theorem drillTests_torque_target (s : State) : (drillTests s).torque.target = s.torque.target := by
  unfold drillTests; split_ifs
  all_goals simp
@[simp] theorem drillTests_torque_ceiling (s : State) : (drillTests s).torque.ceiling = s.torque.ceiling := by
  unfold drillTests; split_ifs
  all_goals simp
@[simp] theorem drillTests_torque_near (s : State) : (drillTests s).torque.near = s.torque.near := by
  unfold drillTests; split_ifs
  all_goals simp
@[simp] theorem drillTests_torque_entered (s : State) : (drillTests s).torque.entered = s.torque.entered := by
  unfold drillTests; split_ifs
  all_goals simp
@[simp] theorem drillTests_torque_timer (s : State) : (drillTests s).torque.timer = s.torque.timer := by
  unfold drillTests; split_ifs
  all_goals simp
@[simp] theorem drillTests_torque_spinner (s : State) : (drillTests s).torque.spinner = s.torque.spinner := by
  unfold drillTests; split_ifs
  all_goals simp
@[simp] theorem drillTests_torque_peak (s : State) : (drillTests s).torque.peak = s.torque.peak := by
  unfold drillTests; split_ifs
  all_goals simp
@[simp] theorem drillTests_torque_overshoot (s : State) : (drillTests s).torque.overshoot = s.torque.overshoot := by
  unfold drillTests; split_ifs
  all_goals simp
@[simp] theorem drillTests_flow (s : State) : (drillTests s).flow = s.flow := by
  unfold drillTests; split_ifs
  all_goals simp
@[simp] theorem drillTests_link (s : State) : (drillTests s).link = s.link := by
  unfold drillTests; split_ifs
  all_goals simp
@[simp] theorem drillTests_history_free (s : State) : (drillTests s).history.free = s.history.free := by
  unfold drillTests; split_ifs
  all_goals simp
@[simp] theorem drillTests_history_selection (s : State) : (drillTests s).history.selection = s.history.selection := by
  unfold drillTests; split_ifs
  all_goals simp
@[simp] theorem drillTests_history_pointer (s : State) : (drillTests s).history.pointer = s.history.pointer := by
  unfold drillTests; split_ifs
  all_goals simp
@[simp] theorem drillTests_host (s : State) : (drillTests s).host = s.host := by
  unfold drillTests; split_ifs
  all_goals simp
@[simp] theorem drillTests_freeDraws (s : State) : (drillTests s).freeDraws = s.freeDraws := by
  unfold drillTests; split_ifs
  all_goals simp

@[simp] theorem collarTests_pending (s : State) : (collarTests s).pending = s.pending := by
  unfold collarTests; split_ifs
  all_goals simp
@[simp] theorem collarTests_resetHeld (s : State) : (collarTests s).resetHeld = s.resetHeld := by
  unfold collarTests; split_ifs
  all_goals simp
@[simp] theorem collarTests_canopySet (s : State) : (collarTests s).canopySet = s.canopySet := by
  unfold collarTests; split_ifs
  all_goals simp
@[simp] theorem collarTests_valveReady (s : State) : (collarTests s).valveReady = s.valveReady := by
  unfold collarTests; split_ifs
  all_goals simp
@[simp] theorem collarTests_cycle_timebase (s : State) : (collarTests s).cycle.timebase = s.cycle.timebase := by
  unfold collarTests; split_ifs
  all_goals simp
@[simp] theorem collarTests_cycle_held (s : State) : (collarTests s).cycle.held = s.cycle.held := by
  unfold collarTests; split_ifs
  all_goals simp
@[simp] theorem collarTests_cycle_pendingVerdict (s : State) : (collarTests s).cycle.pendingVerdict = s.cycle.pendingVerdict := by
  unfold collarTests; split_ifs
  all_goals simp
@[simp] theorem collarTests_cycle_abortPending (s : State) : (collarTests s).cycle.abortPending = s.cycle.abortPending := by
  unfold collarTests; split_ifs
  all_goals simp
@[simp] theorem collarTests_cycle_holeNumber (s : State) : (collarTests s).cycle.holeNumber = s.cycle.holeNumber := by
  unfold collarTests; split_ifs
  all_goals simp
@[simp] theorem collarTests_cycle_row (s : State) : (collarTests s).cycle.row = s.cycle.row := by
  unfold collarTests; split_ifs
  all_goals simp
@[simp] theorem collarTests_cycle_slot (s : State) : (collarTests s).cycle.slot = s.cycle.slot := by
  unfold collarTests; split_ifs
  all_goals simp
@[simp] theorem collarTests_cycle_planned (s : State) : (collarTests s).cycle.planned = s.cycle.planned := by
  unfold collarTests; split_ifs
  all_goals simp
@[simp] theorem collarTests_sensor (s : State) : (collarTests s).sensor = s.sensor := by
  unfold collarTests; split_ifs
  all_goals simp
@[simp] theorem collarTests_neighbours (s : State) : (collarTests s).neighbours = s.neighbours := by
  unfold collarTests; split_ifs
  all_goals simp
@[simp] theorem collarTests_resin_charge (s : State) : (collarTests s).resin.charge = s.resin.charge := by
  unfold collarTests; split_ifs
  all_goals simp
@[simp] theorem collarTests_resin_pushed (s : State) : (collarTests s).resin.pushed = s.resin.pushed := by
  unfold collarTests; split_ifs
  all_goals simp
@[simp] theorem collarTests_resin_strokeTimer (s : State) : (collarTests s).resin.strokeTimer = s.resin.strokeTimer := by
  unfold collarTests; split_ifs
  all_goals simp
@[simp] theorem collarTests_resin_retry (s : State) : (collarTests s).resin.retry = s.resin.retry := by
  unfold collarTests; split_ifs
  all_goals simp
@[simp] theorem collarTests_resin_band (s : State) : (collarTests s).resin.band = s.resin.band := by
  unfold collarTests; split_ifs
  all_goals simp
@[simp] theorem collarTests_resin_quarterRevs (s : State) : (collarTests s).resin.quarterRevs = s.resin.quarterRevs := by
  unfold collarTests; split_ifs
  all_goals simp
@[simp] theorem collarTests_resin_mixDeadline (s : State) : (collarTests s).resin.mixDeadline = s.resin.mixDeadline := by
  unfold collarTests; split_ifs
  all_goals simp
@[simp] theorem collarTests_resin_holdDeadline (s : State) : (collarTests s).resin.holdDeadline = s.resin.holdDeadline := by
  unfold collarTests; split_ifs
  all_goals simp
@[simp] theorem collarTests_resin_holdPassed (s : State) : (collarTests s).resin.holdPassed = s.resin.holdPassed := by
  unfold collarTests; split_ifs
  all_goals simp
@[simp] theorem collarTests_torque_target (s : State) : (collarTests s).torque.target = s.torque.target := by
  unfold collarTests; split_ifs
  all_goals simp
@[simp] theorem collarTests_torque_ceiling (s : State) : (collarTests s).torque.ceiling = s.torque.ceiling := by
  unfold collarTests; split_ifs
  all_goals simp
@[simp] theorem collarTests_torque_near (s : State) : (collarTests s).torque.near = s.torque.near := by
  unfold collarTests; split_ifs
  all_goals simp
@[simp] theorem collarTests_torque_entered (s : State) : (collarTests s).torque.entered = s.torque.entered := by
  unfold collarTests; split_ifs
  all_goals simp
@[simp] theorem collarTests_torque_timer (s : State) : (collarTests s).torque.timer = s.torque.timer := by
  unfold collarTests; split_ifs
  all_goals simp
@[simp] theorem collarTests_torque_spinner (s : State) : (collarTests s).torque.spinner = s.torque.spinner := by
  unfold collarTests; split_ifs
  all_goals simp
@[simp] theorem collarTests_torque_peak (s : State) : (collarTests s).torque.peak = s.torque.peak := by
  unfold collarTests; split_ifs
  all_goals simp
@[simp] theorem collarTests_torque_overshoot (s : State) : (collarTests s).torque.overshoot = s.torque.overshoot := by
  unfold collarTests; split_ifs
  all_goals simp
@[simp] theorem collarTests_flow (s : State) : (collarTests s).flow = s.flow := by
  unfold collarTests; split_ifs
  all_goals simp
@[simp] theorem collarTests_link (s : State) : (collarTests s).link = s.link := by
  unfold collarTests; split_ifs
  all_goals simp
@[simp] theorem collarTests_history_free (s : State) : (collarTests s).history.free = s.history.free := by
  unfold collarTests; split_ifs
  all_goals simp
@[simp] theorem collarTests_history_selection (s : State) : (collarTests s).history.selection = s.history.selection := by
  unfold collarTests; split_ifs
  all_goals simp
@[simp] theorem collarTests_history_pointer (s : State) : (collarTests s).history.pointer = s.history.pointer := by
  unfold collarTests; split_ifs
  all_goals simp
@[simp] theorem collarTests_host (s : State) : (collarTests s).host = s.host := by
  unfold collarTests; split_ifs
  all_goals simp
@[simp] theorem collarTests_freeDraws (s : State) : (collarTests s).freeDraws = s.freeDraws := by
  unfold collarTests; split_ifs
  all_goals simp

@[simp] theorem mixPulse_pending (s : State) : (mixPulse s).pending = s.pending := by
  unfold mixPulse; dsimp only; split <;> simp
@[simp] theorem mixPulse_resetHeld (s : State) : (mixPulse s).resetHeld = s.resetHeld := by
  unfold mixPulse; dsimp only; split <;> simp
@[simp] theorem mixPulse_canopySet (s : State) : (mixPulse s).canopySet = s.canopySet := by
  unfold mixPulse; dsimp only; split <;> simp
@[simp] theorem mixPulse_valveReady (s : State) : (mixPulse s).valveReady = s.valveReady := by
  unfold mixPulse; dsimp only; split <;> simp
@[simp] theorem mixPulse_cycle_timebase (s : State) : (mixPulse s).cycle.timebase = s.cycle.timebase := by
  unfold mixPulse; dsimp only; split <;> simp
@[simp] theorem mixPulse_cycle_held (s : State) : (mixPulse s).cycle.held = s.cycle.held := by
  unfold mixPulse; dsimp only; split <;> simp
@[simp] theorem mixPulse_cycle_pendingVerdict (s : State) : (mixPulse s).cycle.pendingVerdict = s.cycle.pendingVerdict := by
  unfold mixPulse; dsimp only; split <;> simp
@[simp] theorem mixPulse_cycle_abortPending (s : State) : (mixPulse s).cycle.abortPending = s.cycle.abortPending := by
  unfold mixPulse; dsimp only; split <;> simp
@[simp] theorem mixPulse_cycle_holeNumber (s : State) : (mixPulse s).cycle.holeNumber = s.cycle.holeNumber := by
  unfold mixPulse; dsimp only; split <;> simp
@[simp] theorem mixPulse_cycle_row (s : State) : (mixPulse s).cycle.row = s.cycle.row := by
  unfold mixPulse; dsimp only; split <;> simp
@[simp] theorem mixPulse_cycle_slot (s : State) : (mixPulse s).cycle.slot = s.cycle.slot := by
  unfold mixPulse; dsimp only; split <;> simp
@[simp] theorem mixPulse_cycle_planned (s : State) : (mixPulse s).cycle.planned = s.cycle.planned := by
  unfold mixPulse; dsimp only; split <;> simp
@[simp] theorem mixPulse_cycle_collarTimer (s : State) : (mixPulse s).cycle.collarTimer = s.cycle.collarTimer := by
  unfold mixPulse; dsimp only; split <;> simp
@[simp] theorem mixPulse_cycle_retractTimer (s : State) : (mixPulse s).cycle.retractTimer = s.cycle.retractTimer := by
  unfold mixPulse; dsimp only; split <;> simp
@[simp] theorem mixPulse_sensor (s : State) : (mixPulse s).sensor = s.sensor := by
  unfold mixPulse; dsimp only; split <;> simp
@[simp] theorem mixPulse_assembler (s : State) : (mixPulse s).assembler = s.assembler := by
  unfold mixPulse; dsimp only; split <;> simp
@[simp] theorem mixPulse_neighbours (s : State) : (mixPulse s).neighbours = s.neighbours := by
  unfold mixPulse; dsimp only; split <;> simp
@[simp] theorem mixPulse_anchor (s : State) : (mixPulse s).anchor = s.anchor := by
  unfold mixPulse; dsimp only; split <;> simp
@[simp] theorem mixPulse_resin_charge (s : State) : (mixPulse s).resin.charge = s.resin.charge := by
  unfold mixPulse; dsimp only; split <;> simp
@[simp] theorem mixPulse_resin_pushed (s : State) : (mixPulse s).resin.pushed = s.resin.pushed := by
  unfold mixPulse; dsimp only; split <;> simp
@[simp] theorem mixPulse_resin_strokeTimer (s : State) : (mixPulse s).resin.strokeTimer = s.resin.strokeTimer := by
  unfold mixPulse; dsimp only; split <;> simp
@[simp] theorem mixPulse_resin_retry (s : State) : (mixPulse s).resin.retry = s.resin.retry := by
  unfold mixPulse; dsimp only; split <;> simp
@[simp] theorem mixPulse_resin_band (s : State) : (mixPulse s).resin.band = s.resin.band := by
  unfold mixPulse; dsimp only; split <;> simp
@[simp] theorem mixPulse_torque_target (s : State) : (mixPulse s).torque.target = s.torque.target := by
  unfold mixPulse; dsimp only; split <;> simp
@[simp] theorem mixPulse_torque_ceiling (s : State) : (mixPulse s).torque.ceiling = s.torque.ceiling := by
  unfold mixPulse; dsimp only; split <;> simp
@[simp] theorem mixPulse_torque_near (s : State) : (mixPulse s).torque.near = s.torque.near := by
  unfold mixPulse; dsimp only; split <;> simp
@[simp] theorem mixPulse_torque_entered (s : State) : (mixPulse s).torque.entered = s.torque.entered := by
  unfold mixPulse; dsimp only; split <;> simp
@[simp] theorem mixPulse_torque_timer (s : State) : (mixPulse s).torque.timer = s.torque.timer := by
  unfold mixPulse; dsimp only; split <;> simp
@[simp] theorem mixPulse_torque_spinner (s : State) : (mixPulse s).torque.spinner = s.torque.spinner := by
  unfold mixPulse; dsimp only; split <;> simp
@[simp] theorem mixPulse_torque_peak (s : State) : (mixPulse s).torque.peak = s.torque.peak := by
  unfold mixPulse; dsimp only; split <;> simp
@[simp] theorem mixPulse_torque_overshoot (s : State) : (mixPulse s).torque.overshoot = s.torque.overshoot := by
  unfold mixPulse; dsimp only; split <;> simp
@[simp] theorem mixPulse_flow (s : State) : (mixPulse s).flow = s.flow := by
  unfold mixPulse; dsimp only; split <;> simp
@[simp] theorem mixPulse_link (s : State) : (mixPulse s).link = s.link := by
  unfold mixPulse; dsimp only; split <;> simp
@[simp] theorem mixPulse_history_free (s : State) : (mixPulse s).history.free = s.history.free := by
  unfold mixPulse; dsimp only; split <;> simp
@[simp] theorem mixPulse_history_selection (s : State) : (mixPulse s).history.selection = s.history.selection := by
  unfold mixPulse; dsimp only; split <;> simp
@[simp] theorem mixPulse_history_pointer (s : State) : (mixPulse s).history.pointer = s.history.pointer := by
  unfold mixPulse; dsimp only; split <;> simp
@[simp] theorem mixPulse_host (s : State) : (mixPulse s).host = s.host := by
  unfold mixPulse; dsimp only; split <;> simp
@[simp] theorem mixPulse_freeDraws (s : State) : (mixPulse s).freeDraws = s.freeDraws := by
  unfold mixPulse; dsimp only; split <;> simp

@[simp] theorem torquePulse_pending (s : State) : (torquePulse s).pending = s.pending := by
  unfold torquePulse; dsimp only; split <;> simp
@[simp] theorem torquePulse_resetHeld (s : State) : (torquePulse s).resetHeld = s.resetHeld := by
  unfold torquePulse; dsimp only; split <;> simp
@[simp] theorem torquePulse_canopySet (s : State) : (torquePulse s).canopySet = s.canopySet := by
  unfold torquePulse; dsimp only; split <;> simp
@[simp] theorem torquePulse_valveReady (s : State) : (torquePulse s).valveReady = s.valveReady := by
  unfold torquePulse; dsimp only; split <;> simp
@[simp] theorem torquePulse_cycle_timebase (s : State) : (torquePulse s).cycle.timebase = s.cycle.timebase := by
  unfold torquePulse; dsimp only; split <;> simp
@[simp] theorem torquePulse_cycle_held (s : State) : (torquePulse s).cycle.held = s.cycle.held := by
  unfold torquePulse; dsimp only; split <;> simp
@[simp] theorem torquePulse_cycle_holeNumber (s : State) : (torquePulse s).cycle.holeNumber = s.cycle.holeNumber := by
  unfold torquePulse; dsimp only; split <;> simp
@[simp] theorem torquePulse_cycle_row (s : State) : (torquePulse s).cycle.row = s.cycle.row := by
  unfold torquePulse; dsimp only; split <;> simp
@[simp] theorem torquePulse_cycle_slot (s : State) : (torquePulse s).cycle.slot = s.cycle.slot := by
  unfold torquePulse; dsimp only; split <;> simp
@[simp] theorem torquePulse_cycle_planned (s : State) : (torquePulse s).cycle.planned = s.cycle.planned := by
  unfold torquePulse; dsimp only; split <;> simp
@[simp] theorem torquePulse_sensor (s : State) : (torquePulse s).sensor = s.sensor := by
  unfold torquePulse; dsimp only; split <;> simp
@[simp] theorem torquePulse_assembler (s : State) : (torquePulse s).assembler = s.assembler := by
  unfold torquePulse; dsimp only; split <;> simp
@[simp] theorem torquePulse_neighbours_nearVoid (s : State) : (torquePulse s).neighbours.nearVoid = s.neighbours.nearVoid := by
  unfold torquePulse; dsimp only; split <;> simp
@[simp] theorem torquePulse_anchor (s : State) : (torquePulse s).anchor = s.anchor := by
  unfold torquePulse; dsimp only; split <;> simp
@[simp] theorem torquePulse_resin_charge (s : State) : (torquePulse s).resin.charge = s.resin.charge := by
  unfold torquePulse; dsimp only; split <;> simp
@[simp] theorem torquePulse_resin_pushed (s : State) : (torquePulse s).resin.pushed = s.resin.pushed := by
  unfold torquePulse; dsimp only; split <;> simp
@[simp] theorem torquePulse_resin_retry (s : State) : (torquePulse s).resin.retry = s.resin.retry := by
  unfold torquePulse; dsimp only; split <;> simp
@[simp] theorem torquePulse_resin_band (s : State) : (torquePulse s).resin.band = s.resin.band := by
  unfold torquePulse; dsimp only; split <;> simp
@[simp] theorem torquePulse_resin_quarterRevs (s : State) : (torquePulse s).resin.quarterRevs = s.resin.quarterRevs := by
  unfold torquePulse; dsimp only; split <;> simp
@[simp] theorem torquePulse_resin_holdPassed (s : State) : (torquePulse s).resin.holdPassed = s.resin.holdPassed := by
  unfold torquePulse; dsimp only; split <;> simp
@[simp] theorem torquePulse_torque_target (s : State) : (torquePulse s).torque.target = s.torque.target := by
  unfold torquePulse; dsimp only; split <;> simp
@[simp] theorem torquePulse_torque_ceiling (s : State) : (torquePulse s).torque.ceiling = s.torque.ceiling := by
  unfold torquePulse; dsimp only; split <;> simp
@[simp] theorem torquePulse_torque_near (s : State) : (torquePulse s).torque.near = s.torque.near := by
  unfold torquePulse; dsimp only; split <;> simp
@[simp] theorem torquePulse_torque_entered (s : State) : (torquePulse s).torque.entered = s.torque.entered := by
  unfold torquePulse; dsimp only; split <;> simp
@[simp] theorem torquePulse_torque_peak (s : State) : (torquePulse s).torque.peak = s.torque.peak := by
  unfold torquePulse; dsimp only; split <;> simp
@[simp] theorem torquePulse_torque_overshoot (s : State) : (torquePulse s).torque.overshoot = s.torque.overshoot := by
  unfold torquePulse; dsimp only; split <;> simp
@[simp] theorem torquePulse_flow (s : State) : (torquePulse s).flow = s.flow := by
  unfold torquePulse; dsimp only; split <;> simp
@[simp] theorem torquePulse_link_view (s : State) : (torquePulse s).link.view = s.link.view := by
  unfold torquePulse; dsimp only; split <;> simp
@[simp] theorem torquePulse_link_recessive (s : State) : (torquePulse s).link.recessive = s.link.recessive := by
  unfold torquePulse; dsimp only; split <;> simp
@[simp] theorem torquePulse_link_ownLast (s : State) : (torquePulse s).link.ownLast = s.link.ownLast := by
  unfold torquePulse; dsimp only; split <;> simp
@[simp] theorem torquePulse_link_assembly (s : State) : (torquePulse s).link.assembly = s.link.assembly := by
  unfold torquePulse; dsimp only; split <;> simp
@[simp] theorem torquePulse_link_tx (s : State) : (torquePulse s).link.tx = s.link.tx := by
  unfold torquePulse; dsimp only; split <;> simp
@[simp] theorem torquePulse_link_slot (s : State) : (torquePulse s).link.slot = s.link.slot := by
  unfold torquePulse; dsimp only; split <;> simp
@[simp] theorem torquePulse_link_queueOnLine (s : State) : (torquePulse s).link.queueOnLine = s.link.queueOnLine := by
  unfold torquePulse; dsimp only; split <;> simp
@[simp] theorem torquePulse_link_mute (s : State) : (torquePulse s).link.mute = s.link.mute := by
  unfold torquePulse; dsimp only; split <;> simp
@[simp] theorem torquePulse_link_txFault (s : State) : (torquePulse s).link.txFault = s.link.txFault := by
  unfold torquePulse; dsimp only; split <;> simp
@[simp] theorem torquePulse_history_selection (s : State) : (torquePulse s).history.selection = s.history.selection := by
  unfold torquePulse; dsimp only; split <;> simp
@[simp] theorem torquePulse_history_pointer (s : State) : (torquePulse s).history.pointer = s.history.pointer := by
  unfold torquePulse; dsimp only; split <;> simp
@[simp] theorem torquePulse_host_reply (s : State) : (torquePulse s).host.reply = s.host.reply := by
  unfold torquePulse; dsimp only; split <;> simp
@[simp] theorem torquePulse_host_hsdo (s : State) : (torquePulse s).host.hsdo = s.host.hsdo := by
  unfold torquePulse; dsimp only; split <;> simp
@[simp] theorem torquePulse_host_config (s : State) : (torquePulse s).host.config = s.host.config := by
  unfold torquePulse; dsimp only; split <;> simp
@[simp] theorem torquePulse_host_stack (s : State) : (torquePulse s).host.stack = s.host.stack := by
  unfold torquePulse; dsimp only; split <;> simp
@[simp] theorem torquePulse_host_faults (s : State) : (torquePulse s).host.faults = s.host.faults := by
  unfold torquePulse; dsimp only; split <;> simp
@[simp] theorem torquePulse_host_watch (s : State) : (torquePulse s).host.watch = s.host.watch := by
  unfold torquePulse; dsimp only; split <;> simp
@[simp] theorem torquePulse_freeDraws (s : State) : (torquePulse s).freeDraws = s.freeDraws := by
  unfold torquePulse; dsimp only; split <;> simp


end Sys2Proof.Machine
end

