-- ==== Sys2Proof/Laws/Event.lean ====
section
/-! SUPPORT. What the end of an event makes true, said once: the flow figures agree with the state reached, FLOW_REQ follows
its conditions, the setpoints are those of the state, and the pausable timers run only in their phases. -/

namespace Sys2Proof.Machine

/-! ### Figures that read only some fields -/

theorem heldNow_congr {s t : State} (hc : t.cycle.state = s.cycle.state) (hi : t.flow.interlock = s.flow.interlock) :
    heldNow t = heldNow s := by
  simp only [heldNow, hc, hi]

theorem nearVoidNow_congr {s t : State} (hc : t.cycle.state = s.cycle.state) (ha : t.assembler.cell = s.assembler.cell)
    (hp : t.neighbours.predicted = s.neighbours.predicted) : nearVoidNow t = nearVoidNow s := by
  simp only [nearVoidNow, hc, ha, hp]

theorem ownDemand_congr {s t : State} (hc : t.cycle.state = s.cycle.state) (hh : t.host.config = s.host.config) :
    ownDemand t = ownDemand s := by
  simp only [ownDemand, State.cfg, hc, hh]

theorem ownMinimum_congr {s t : State} (hc : t.cycle.state = s.cycle.state) (hh : t.host.config = s.host.config) :
    ownMinimum t = ownMinimum s := by
  simp only [ownMinimum, State.cfg, hc, hh]

theorem allowanceNow_congr {s t : State} (hc : t.cycle.state = s.cycle.state) (hh : t.host.config = s.host.config)
    (hp : t.flow.peers = s.flow.peers) : allowanceNow t = allowanceNow s := by
  simp only [allowanceNow, ownClass, ownDemand, State.cfg, hc, hh, hp]

theorem mayFlow_congr {s t : State} (hc : t.cycle.state = s.cycle.state) (hh : t.host.config = s.host.config)
    (hf : t.flow.allowance = s.flow.allowance) (hp : t.canopySet = s.canopySet) : mayFlow t = mayFlow s := by
  unfold mayFlow
  rw [ownMinimum_congr hc hh, hc, hf, hp]

theorem setpointsNow_congr {s t : State} (hc : t.cycle.state = s.cycle.state) (hi : t.flow.interlock = s.flow.interlock)
    (hf : t.flow.allowance = s.flow.allowance) (hn : t.neighbours.nearVoid = s.neighbours.nearVoid) :
    setpointsNow t = setpointsNow s := by
  simp only [setpointsNow, hc, hi, hf, hn]

theorem phaseRuns_congr {s t : State} (hc : t.cycle.state = s.cycle.state) (hh : t.cycle.held = s.cycle.held) (p : Phase) :
    phaseRuns t p = phaseRuns s p := by
  simp only [phaseRuns, hc, hh]

/-! ### What settling an event makes true -/

theorem settle_held (s : State) : (settle s).cycle.held = heldNow (settle s) := by
  rw [heldNow_congr (s := actInterlock (recomputeAllowance (setNearVoid s))) (by simp) (by simp [settle])]
  simp [settle, setHeld, State.onCycle]

theorem settle_nearVoid (s : State) : (settle s).neighbours.nearVoid = nearVoidNow (settle s) := by
  rw [nearVoidNow_congr (s := s) (by simp) (by simp) (by simp)]
  simp [settle, setNearVoid, State.onNeighbours]

theorem settle_allowance (s : State) : (settle s).flow.allowance = allowanceNow (settle s) := by
  rw [allowanceNow_congr (s := setNearVoid s) (by simp) (by simp) (by simp)]
  simp [settle, recomputeAllowance, State.onFlow]

theorem settle_flowCut (s : State) :
    (settle s).flow.flowCut = decide ((settle s).flow.allowance < ownDemand (settle s)) := by
  rw [ownDemand_congr (s := setNearVoid s) (by simp) (by simp)]
  simp [settle, recomputeAllowance, State.onFlow]

/-- The interlock after settling is the one `actInterlock` leaves. -/
theorem settle_interlock (s : State) :
    (settle s).flow.interlock = (actInterlock (recomputeAllowance (setNearVoid s))).flow.interlock := by
  simp [settle]

theorem settle_mayFlow (s : State) : mayFlow (settle s) = mayFlow (recomputeAllowance (setNearVoid s)) :=
  mayFlow_congr (by simp) (by simp) (by simp [settle]) (by simp)

/-- FLOW_REQ is high after the interlock acts only where its conditions hold (08 R131, R133). -/
theorem actInterlock_flowReq (s : State) (h : (actInterlock s).flowReq = true) : mayFlow s = true := by
  simp only [State.flowReq, actInterlock, State.onFlow] at h
  by_contra hm
  cases hi : s.flow.interlock <;> simp [hi, hm] at h <;> split at h <;> simp_all

/-- The interlock does not stay OFF where FLOW_REQ may be high (08 R131). -/
theorem actInterlock_raises (s : State) (h : mayFlow s = true) : (actInterlock s).flow.interlock ≠ .off := by
  simp only [actInterlock, State.onFlow]
  cases hi : s.flow.interlock <;> simp [h, hi]
  split <;> simp

theorem settle_flowReq (s : State) (h : (settle s).flowReq = true) : mayFlow (settle s) = true := by
  rw [settle_mayFlow]
  refine actInterlock_flowReq _ ?_
  simpa only [State.flowReq, settle_interlock] using h

theorem settle_raised (s : State) (h : mayFlow (settle s) = true) : (settle s).flow.interlock ≠ .off := by
  rw [settle_mayFlow] at h
  rw [settle_interlock]
  exact actInterlock_raises _ h

/-! ### The setpoint record -/

theorem sendSetpoints_setpoints (s : State) : (sendSetpoints s).flow.setpoints = setpointsNow s := by
  simp only [sendSetpoints, State.onFlow]
  split <;> rfl

/-- An idle VTX has sent the setpoints of the moment (08 R129). -/
theorem sendSetpoints_sent (s : State) (h : (sendSetpoints s).flow.onLine = false) :
    (sendSetpoints s).flow.lastSent.map SetpointRecord.setpoints = some (sendSetpoints s).flow.setpoints := by
  simp only [sendSetpoints, State.onFlow] at h ⊢
  split at h
  · rename_i hc
    simp_all
  · simp at h

theorem event_setpoints (old s : State) : (event old s).flow.setpoints = setpointsNow (event old s) := by
  rw [setpointsNow_congr (s := placeDemandIf ((settle s).cycle.state != old.cycle.state) (settle s))
    (by simp) (by simp [event, finish]) (by simp [event, finish]) (by simp [event, finish])]
  simp [event, finish, sendSetpoints_setpoints]

/-! ### The watch -/

/-- After one evaluation Y is the value of the expression on the inputs (11 R196). -/
theorem HostBlock.evaluate_y (h : HostBlock) (w : WatchInputs) : (h.evaluate w).watch.y = h.watch.value w := by
  unfold HostBlock.evaluate
  dsimp only
  split <;> try split
  all_goals rfl

/-- An evaluation keeps the expression. -/
theorem HostBlock.evaluate_expression (h : HostBlock) (w : WatchInputs) :
    (h.evaluate w).watch.mask = h.watch.mask ∧ (h.evaluate w).watch.activeFalse = h.watch.activeFalse
      ∧ (h.evaluate w).watch.isAnd = h.watch.isAnd := by
  unfold HostBlock.evaluate
  dsimp only
  split <;> try split
  all_goals exact ⟨rfl, rfl, rfl⟩

/-! ### Timers -/

/-- A timer that runs after its sync should run. -/
theorem Timer.sync_running {t : Timer} {should : Bool} {now d : Time} (h : t.sync should now = .running d) :
    should = true := by
  cases should
  · simp only [Timer.sync, Bool.false_eq_true, if_false, Timer.pause] at h
    split at h <;> simp_all
  · rfl

/-- A part that is not held by RESET_N takes the event. -/
theorem unlessHeld_next {φ ρ : Type} (s new : State) :
    (unlessHeld s new : Host.Outcome State φ ρ) = .next (if s.resetHeld then s else new) := rfl

end Sys2Proof.Machine
end

