-- ==== Sys2Proof/Laws/Effects.lean ====
section
/-! SUPPORT. What an event leaves, in the terms of the statements: the flow figures, the notice, a completed hole, a
suspended phase. -/

namespace Sys2Proof.Machine

/-! ### Every event -/

theorem event_held (old s : State) : (event old s).cycle.held = heldNow (event old s) := by
  rw [heldNow_congr (s := settle s) (by simp) (by simp [event, finish])]
  simpa [event, finish] using settle_held s

theorem event_allowance (old s : State) : (event old s).flow.allowance = allowanceNow (event old s) := by
  rw [allowanceNow_congr (s := settle s) (by simp) (by simp) (by simp)]
  simpa [event, finish] using settle_allowance s

theorem event_flowCut (old s : State) :
    (event old s).flow.flowCut = decide ((event old s).flow.allowance < ownDemand (event old s)) := by
  rw [ownDemand_congr (s := settle s) (by simp) (by simp)]
  simpa [event, finish] using settle_flowCut s

theorem event_mayFlow (old s : State) : mayFlow (event old s) = mayFlow (settle s) :=
  mayFlow_congr (by simp) (by simp) (by simp [event, finish]) (by simp)

theorem event_flowReq (old s : State) (h : (event old s).flowReq = true) : mayFlow (event old s) = true := by
  rw [event_mayFlow]
  refine settle_flowReq s ?_
  simpa [State.flowReq, event, finish] using h

theorem event_raised (old s : State) (h : mayFlow (event old s) = true) : (event old s).flow.interlock ≠ .off := by
  rw [event_mayFlow] at h
  simpa [event, finish] using settle_raised s h

theorem event_nearVoid (old s : State) : (event old s).neighbours.nearVoid = nearVoidNow (event old s) := by
  rw [nearVoidNow_congr (s := settle s) (by simp) (by simp) (by simp)]
  simpa [event, finish] using settle_nearVoid s

theorem event_flowFollows (old s : State) : FlowFollows (event old s) :=
  ⟨event_allowance old s, event_flowCut old s, event_flowReq old s, event_held old s, event_setpoints old s⟩

/-- A change of the cycle state to any state but UNCONFIGURED places its notice (08 R137, R139). -/
theorem event_noticePlaced {old s : State} (h : s.cycle.state ≠ old.cycle.state) (hu : s.cycle.state ≠ .unconfigured) :
    NoticePlaced (event old s) := by
  intro hm
  have hm' : (settle s).muted = false := by simpa [State.muted] using hm
  have hd : ownDemand (event old s) = ownDemand (settle s) := ownDemand_congr (by simp) (by simp)
  rw [hd]
  have hp : mayPlace (settle s) = true := by simp [mayPlace, hm', hu]
  have hs : (event old s).link.slot = some ⟨demandNotice (settle s), false⟩ := by
    simp [event, finish, placeDemandIf, State.onLink, hp, h]
  rw [hs]
  simp [demandNotice, ownClass]

/-! ### States without flow -/

theorem startStroke_of_not_due {s : State} (h : strokeDue s = false) : (startStroke s).resin = s.resin := by
  simp [startStroke, State.onResin, h]

theorem syncTimers_collarTimer (s : State) :
    (syncTimers s).cycle.collarTimer = s.cycle.collarTimer.sync (phaseRuns s .collar) s.now := rfl

theorem syncTimers_retractTimer (s : State) :
    (syncTimers s).cycle.retractTimer = s.cycle.retractTimer.sync (phaseRuns s .retract) s.now := rfl

theorem syncTimers_stallWindow (s : State) :
    (syncTimers s).assembler.stallWindow = s.assembler.stallWindow.sync (phaseRuns s .drill) s.now := rfl

theorem syncTimers_strokeTimer (s : State) :
    (syncTimers s).resin.strokeTimer =
      s.resin.strokeTimer.sync (phaseRuns s .insert && s.resin.stroke == .inProgress) s.now := rfl

theorem syncTimers_torqueTimer (s : State) :
    (syncTimers s).torque.timer = s.torque.timer.sync (phaseRuns s .torque) s.now := rfl

/-- No stroke starts outside INSERT. -/
theorem settle_stroke {s : State} (h : s.cycle.state ≠ .active .insert) : (settle s).resin.stroke = s.resin.stroke := by
  have hr : ∀ t : State, t.cycle.state = s.cycle.state → strokeDue t = false := by
    intro t ht
    simp [strokeDue, phaseRuns, ht, h]
  unfold settle
  rw [startStroke_of_not_due (hr _ (by simp))]
  simp

/-- An event that ends in a state that is not an active phase, with no stroke in progress, leaves the part at rest. -/
theorem event_atRest {old s : State} (h : s.cycle.state.isActive = false) (hs : s.resin.stroke ≠ .inProgress) :
    AtRest (event old s) := by
  have hst : (event old s).cycle.state = s.cycle.state := by simp
  have hni : s.cycle.state ≠ .active .insert := by
    intro hc
    simp [hc, CycleState.isActive] at h
  refine ⟨?_, ?_, ?_, ?_⟩
  · rw [event_setpoints]
    unfold setpointsNow
    rw [hst]
    cases hc : s.cycle.state <;> simp [hc, CycleState.isActive] at h ⊢ <;> rfl
  · by_contra hf
    have := event_flowReq old s (by simpa using hf)
    simp [mayFlow, h] at this
  · have : (event old s).resin.stroke = s.resin.stroke := by simpa [event, finish] using settle_stroke hni
    simp [State.strokeOut, this, hs]
  · rw [event_held, heldNow, hst, h]
    rfl

/-! ### Timers at the end of an event -/

theorem sync_disarmed (b : Bool) (now : Time) : Timer.sync .disarmed b now = .disarmed := by cases b <;> rfl

theorem settle_timers_disarmed {s : State} :
    (s.cycle.collarTimer = .disarmed → (settle s).cycle.collarTimer = .disarmed)
      ∧ (s.cycle.retractTimer = .disarmed → (settle s).cycle.retractTimer = .disarmed)
      ∧ (s.assembler.stallWindow = .disarmed → (settle s).assembler.stallWindow = .disarmed)
      ∧ (s.torque.timer = .disarmed → (settle s).torque.timer = .disarmed) := by
  refine ⟨?_, ?_, ?_, ?_⟩ <;> intro h <;>
    simp [settle, syncTimers_collarTimer, syncTimers_retractTimer, syncTimers_stallWindow, syncTimers_torqueTimer, h,
      sync_disarmed]

/-- Outside INSERT a disarmed stroke timer stays disarmed. -/
theorem settle_strokeTimer_disarmed {s : State} (hn : s.cycle.state ≠ .active .insert)
    (h : s.resin.strokeTimer = .disarmed) : (settle s).resin.strokeTimer = .disarmed := by
  have hd : strokeDue (syncTimers (setHeld (actInterlock (recomputeAllowance (setNearVoid s))))) = false := by
    simp [strokeDue, phaseRuns, hn]
  unfold settle
  rw [startStroke_of_not_due hd, syncTimers_strokeTimer]
  simp [h, sync_disarmed]

/-- A pausable timer that runs at the end of an event has its phase running (01 R4). -/
theorem settle_collarTimer_running {s : State} {d : Time} (h : (settle s).cycle.collarTimer = .running d) :
    phaseRuns (settle s) .collar = true := by
  rw [phaseRuns_congr (s := setHeld (actInterlock (recomputeAllowance (setNearVoid s)))) (by simp) (by simp [settle])]
  refine Timer.sync_running (now := s.now) (d := d) (t := s.cycle.collarTimer) ?_
  rw [← h]
  simp [settle, syncTimers_collarTimer, State.now]

theorem settle_retractTimer_running {s : State} {d : Time} (h : (settle s).cycle.retractTimer = .running d) :
    phaseRuns (settle s) .retract = true := by
  rw [phaseRuns_congr (s := setHeld (actInterlock (recomputeAllowance (setNearVoid s)))) (by simp) (by simp [settle])]
  refine Timer.sync_running (now := s.now) (d := d) (t := s.cycle.retractTimer) ?_
  rw [← h]
  simp [settle, syncTimers_retractTimer, State.now]

theorem settle_stallWindow_running {s : State} {d : Time} (h : (settle s).assembler.stallWindow = .running d) :
    phaseRuns (settle s) .drill = true := by
  rw [phaseRuns_congr (s := setHeld (actInterlock (recomputeAllowance (setNearVoid s)))) (by simp) (by simp [settle])]
  refine Timer.sync_running (now := s.now) (d := d) (t := s.assembler.stallWindow) ?_
  rw [← h]
  simp [settle, syncTimers_stallWindow, State.now]

theorem settle_torqueTimer_running {s : State} {d : Time} (h : (settle s).torque.timer = .running d) :
    phaseRuns (settle s) .torque = true := by
  rw [phaseRuns_congr (s := setHeld (actInterlock (recomputeAllowance (setNearVoid s)))) (by simp) (by simp [settle])]
  refine Timer.sync_running (now := s.now) (d := d) (t := s.torque.timer) ?_
  rw [← h]
  simp [settle, syncTimers_torqueTimer, State.now]

theorem settle_strokeTimer_running {s : State} {d : Time} (h : (settle s).resin.strokeTimer = .running d) :
    phaseRuns (settle s) .insert = true ∧ (settle s).resin.stroke = .inProgress := by
  rw [phaseRuns_congr (s := syncTimers (setHeld (actInterlock (recomputeAllowance (setNearVoid s))))) (by simp)
    (by simp [settle])]
  by_cases hd : strokeDue (syncTimers (setHeld (actInterlock (recomputeAllowance (setNearVoid s))))) = true
  · refine ⟨?_, by simp [settle, startStroke, State.onResin, hd]⟩
    simp only [strokeDue, Bool.and_eq_true] at hd
    exact hd.1.1.1.1
  · have hs : Timer.sync s.resin.strokeTimer
        (phaseRuns (setHeld (actInterlock (recomputeAllowance (setNearVoid s)))) .insert && s.resin.stroke == .inProgress)
        s.now = .running d := by
      rw [← h, settle, startStroke_of_not_due (by simpa using hd), syncTimers_strokeTimer]
      simp [State.now]
    have := Timer.sync_running hs
    simp only [Bool.and_eq_true, beq_iff_eq] at this
    refine ⟨?_, by rw [settle, startStroke_of_not_due (by simpa using hd)]; simpa using this.2⟩
    rw [phaseRuns_congr (s := setHeld (actInterlock (recomputeAllowance (setNearVoid s)))) (by simp) (by simp)]
    exact this.1

/-! ### A completed hole -/

theorem complete_state (v : Verdict) (s : State) : (complete v s).cycle.state = .idle := by simp [complete]

theorem complete_records (v : Verdict) (s : State) :
    (complete v s).history.records = onOpen (fun r => { r with verdict := some v }) s.history.records := by
  simp [complete, HistoryBlock.finish, onOpen]

theorem complete_free (v : Verdict) (s : State) :
    (complete v s).history.free = s.history.free + unusedCells s.history.records := by
  simp [complete, HistoryBlock.finish, unusedCells]

/-- The own notice goes into the table and the queue (04 R66, 09 R158). -/
theorem insertInto_getLast (e : HoleNotice) (entries : List HoleNotice) : (insertInto e entries).1.getLast? = some e := by
  unfold insertInto
  split_ifs <;> simp

theorem announceHole_entry {v : Verdict} {r : HoleRecord} {s : State} (h : ¬(v = .aborted ∧ r.cells = [])) :
    (announceHole v (some r) s).neighbours.entries.getLast? = some (composeNotice s.cfg.station v r) := by
  simp [announceHole, h, insertNotice, State.onNeighbours, insertInto_getLast]

theorem announceHole_queue {v : Verdict} {r : HoleRecord} {s : State} (h : ¬(v = .aborted ∧ r.cells = [])) :
    (s.muted = true → (announceHole v (some r) s).link.queue = s.link.queue)
      ∧ (s.muted = false →
        (announceHole v (some r) s).link.queue.getLast? = some (composeNotice s.cfg.station v r)) := by
  refine ⟨fun hm => ?_, fun hm => ?_⟩
  · have hm' : s.link.mute.isSome = true := hm
    simp [announceHole, h, queueHole, State.onLink, hm']
  · have hm' : s.link.mute.isSome = false := hm
    by_cases hq : s.link.queue.length < 4 <;> simp [announceHole, h, queueHole, State.onLink, hm', hq]

theorem announceHole_none {v : Verdict} {r : HoleRecord} {s : State} (hv : v = .aborted) (hc : r.cells = []) :
    announceHole v (some r) s = s := by
  simp [announceHole, hv, hc]

/-- The work on the blocks that a completion does before the notice. -/
theorem event_complete (old w : State) (v : Verdict) :
    Completed w w.history.records v (event old (complete v w)) := by
  have hst := complete_state v w
  have hni : (complete v w).cycle.state ≠ .active .insert := by simp [hst]
  have ht := @settle_timers_disarmed (complete v w)
  have hsi : (complete v w).resin.stroke = .idle := by simp [complete]
  have hm : (event old (complete v w)).muted = w.muted := by simp [State.muted]
  refine
    { state := by simp [hst]
      items := by simp [complete]
      timers := ?_
      strokeIdle := by simpa [event, finish, hsi] using settle_stroke hni
      torqueNear := by simp [complete]
      rest := event_atRest (by simp [hst, CycleState.isActive]) (by simp [hsi])
      verdict := by simp [complete_records]
      free := by simp [complete_free]
      holeDone := ?_
      noNotice := ?_
      ownEntry := ?_
      queued := ?_ }
  · refine ⟨?_, ?_, ?_, ?_, by simp [complete], by simp [complete], by simp [complete]⟩
    · simpa [event, finish] using ht.1 (by simp [complete])
    · simpa [event, finish] using ht.2.1 (by simp [complete])
    · simpa [event, finish] using settle_strokeTimer_disarmed hni (by simp [complete])
    · simpa [event, finish] using ht.2.2.2 (by simp [complete])
  · simp [complete, raiseSource, State.onHost, Raised.set]
  · intro r hr hv hc
    have ho : w.openRecord = some r := hr
    simp [complete, ho, announceHole_none hv hc]
  · intro r hr hv
    have ho : w.openRecord = some r := hr
    simp only [event_neighbours_entries, complete, ho, raiseSource_neighbours, State.onCycle_neighbours]
    rw [announceHole_entry hv]
    simp [State.cfg]
  · intro r hr hv
    have ho : w.openRecord = some r := hr
    rw [hm]
    have := announceHole_queue (v := v) (r := r) (s := ((w.onResin fun r =>
      { r with stroke := .idle, strokeTimer := .disarmed, gap := none, mixDeadline := none,
               holdDeadline := none }).onTorque fun t => { t with timer := .disarmed, torqueNear := false }).onHistory
        fun h => h.finish v false) hv
    simp only [event_link_queue, complete, ho, raiseSource_link, State.onCycle_link]
    exact this

/-! ### A suspended phase -/

theorem suspend_state {s : State} {p : Phase} (h : s.cycle.state = .active p) (c : Cause) :
    (suspend c s).cycle.state = .suspended := by
  simp [suspend, h]

theorem suspend_records {s : State} {p : Phase} (h : s.cycle.state = .active p) (c : Cause) :
    (suspend c s).history.records =
      onOpen (fun r => { r with flags := { r.flags with mixShort := r.flags.mixShort || p == .mix } }) s.history.records := by
  simp [suspend, h, writeOpen, State.onHistory, onOpen]

/-- A suspension with any work before it that leaves the phase and the stroke as they were. Only INSERT has a stroke in
progress (`hs`; 06 R88). -/
theorem event_suspend (old w : State) (p : Phase) (c : Cause) (h : w.cycle.state = .active p)
    (hs : w.resin.stroke = .inProgress → p = .insert) : Suspended w p c (event old (suspend c w)) := by
  have hst := suspend_state h c
  have hni : (suspend c w).cycle.state ≠ .active .insert := by simp [hst]
  have hstroke : (suspend c w).resin.stroke ≠ .inProgress := by
    simp only [suspend, h, writeOpen_resin, State.onTorque_resin, State.onResin_resin, ResinBlock.withdraw]
    split
    · simp
    · rename_i hn
      simp only [State.onCycle_resin] at hn ⊢
      intro hi
      exact hn ⟨hs hi, hi⟩
  have hrun : ∀ q, phaseRuns (settle (suspend c w)) q = false := by
    intro q
    simp [phaseRuns, hst]
  refine
    { state := by simp [hst]
      remembered := by simp [suspend, h]
      rest := event_atRest (by simp [hst, CycleState.isActive]) hstroke
      demand := by simp [ownDemand, ownClass, hst, CycleState.flowClass]
      paused := ?_
      gel := by simp
      torqueNear := by simp [suspend, h]
      nearVoid := by rw [event_nearVoid]; simp [nearVoidNow, hst]
      stroke := ?_
      records := by simp [suspend_records h] }
  · have hr : ∀ (u : State) (q : Phase), u.cycle.state = .suspended → phaseRuns u q = false := by
      intro u q hu
      simp [phaseRuns, hu]
    have hd : strokeDue (syncTimers (setHeld (actInterlock (recomputeAllowance (setNearVoid (suspend c w)))))) = false := by
      simp [strokeDue, hr _ _ (show (syncTimers (setHeld (actInterlock (recomputeAllowance (setNearVoid
        (suspend c w)))))).cycle.state = .suspended by simp [hst])]
    have hq : ∀ q, phaseRuns (setHeld (actInterlock (recomputeAllowance (setNearVoid (suspend c w))))) q = false :=
      fun q => hr _ q (by simp [hst])
    refine ⟨?_, ?_, ?_, ?_, ?_⟩
    · simp [event, finish, settle, syncTimers_collarTimer, Timer.sync, hq, State.now]
    · simp [event, finish, settle, syncTimers_retractTimer, Timer.sync, hq, State.now]
    · simp [event, finish, settle, syncTimers_stallWindow, Timer.sync, hq, State.now]
    · simp only [event, finish, watchAfter_resin, sendSetpoints_resin, placeDemandIf_resin, settle]
      rw [startStroke_of_not_due hd, syncTimers_strokeTimer]
      simp [Timer.sync, hq, State.now]
    · simp [event, finish, settle, syncTimers_torqueTimer, Timer.sync, hq, State.now]
  · intro hp hi
    have hw : (suspend c w).resin = w.resin.withdraw p w.now := by simp [suspend, h]
    refine ⟨?_, ?_⟩
    · have := settle_stroke hni
      simp [event, finish, this, hw, ResinBlock.withdraw, hp, hi]
    · simp [hw, ResinBlock.withdraw, hp, hi]

/-! ### What HELD does to the pausable timers (01 R4) -/

/-- A timer that follows its phase already is left as it is. -/
theorem Timer.sync_of_follows {t : Timer} {runs : Bool} {now : Time} (h : t.follows runs = true) : t.sync runs now = t := by
  cases t <;> cases runs <;> simp_all [Timer.follows, Timer.sync, Timer.run, Timer.pause]

/-- The pausable timers but the stroke timer, at the end of any event. -/
theorem event_timers (old w : State) :
    (event old w).cycle.collarTimer = w.cycle.collarTimer.sync (phaseRuns (event old w) .collar) w.now
      ∧ (event old w).cycle.retractTimer = w.cycle.retractTimer.sync (phaseRuns (event old w) .retract) w.now
      ∧ (event old w).assembler.stallWindow = w.assembler.stallWindow.sync (phaseRuns (event old w) .drill) w.now
      ∧ (event old w).torque.timer = w.torque.timer.sync (phaseRuns (event old w) .torque) w.now := by
  have hp : ∀ p, phaseRuns (event old w) p
      = phaseRuns (setHeld (actInterlock (recomputeAllowance (setNearVoid w)))) p :=
    fun p => phaseRuns_congr (by simp) (by simp [event, finish, settle]) p
  simp only [hp]
  simp [event, finish, settle, syncTimers_collarTimer, syncTimers_retractTimer, syncTimers_stallWindow,
    syncTimers_torqueTimer, State.now]

/-- An event that ends with HELD pauses the stroke timer and starts no stroke. -/
theorem event_stroke_of_held (old w : State) (h : (event old w).cycle.held = true) :
    (event old w).resin.strokeTimer = w.resin.strokeTimer.pause w.now
      ∧ (event old w).resin.stroke = w.resin.stroke := by
  have hh : (setHeld (actInterlock (recomputeAllowance (setNearVoid w)))).cycle.held = true := by
    simpa [event, finish, settle] using h
  have hp : ∀ p, phaseRuns (setHeld (actInterlock (recomputeAllowance (setNearVoid w)))) p = false :=
    fun p => by simp [phaseRuns, hh]
  have hd : strokeDue (syncTimers (setHeld (actInterlock (recomputeAllowance (setNearVoid w))))) = false := by
    have : phaseRuns (syncTimers (setHeld (actInterlock (recomputeAllowance (setNearVoid w))))) .insert = false := by
      rw [phaseRuns_congr (s := setHeld (actInterlock (recomputeAllowance (setNearVoid w)))) (by simp) (by simp), hp]
    simp [strokeDue, this]
  constructor
  · simp only [event, finish, watchAfter_resin, sendSetpoints_resin, placeDemandIf_resin, settle]
    rw [startStroke_of_not_due hd, syncTimers_strokeTimer]
    simp [Timer.sync, hp, State.now]
  · simp only [event, finish, watchAfter_resin, sendSetpoints_resin, placeDemandIf_resin, settle]
    rw [startStroke_of_not_due hd]
    simp

/-- An event that changes nothing the interlock reads leaves HELD. -/
theorem event_held_of_flowSound (old s w : State) (sound : FlowSound s) (hc : w.cycle.state = s.cycle.state)
    (hh : w.host.config = s.host.config) (hf : w.flow = s.flow) (hp : w.canopySet = s.canopySet) :
    (event old w).cycle.held = s.cycle.held := by
  have hm : mayFlow (recomputeAllowance (setNearVoid w)) = mayFlow s := by
    refine mayFlow_congr (by simp [hc]) (by simp [hh]) ?_ (by simp [hp])
    rw [sound.allowance]
    simp only [recomputeAllowance, State.onFlow]
    exact allowanceNow_congr (by simp [hc]) (by simp [hh]) (by simp [hf])
  have hi : (event old w).flow.interlock = s.flow.interlock := by
    have : (event old w).flow.interlock = (settle w).flow.interlock := by simp [event, finish]
    rw [this, settle_interlock]
    have h0 : (recomputeAllowance (setNearVoid w)).flow.interlock = s.flow.interlock := by
      simp [recomputeAllowance, State.onFlow, hf]
    simp only [actInterlock, State.onFlow]
    rw [h0, hm]
    cases hi : s.flow.interlock <;> simp
    · by_cases h : mayFlow s = true
      · exact absurd hi (sound.raised h)
      · simp [h, hi, hf]
    · rw [if_pos (sound.flowReq (by simp [State.flowReq, hi]))]; simp [hf, hi]
    · rw [if_pos (sound.flowReq (by simp [State.flowReq, hi]))]; simp [hf, hi]
    · simp [hf, hi]
  rw [event_held, sound.held]
  exact heldNow_congr (by simp [hc]) hi

/-- A phase entered with LINK_UP true is not suspended at its entry (01 R19). -/
theorem enterPhase_of_linkUp {p : Phase} {s : State} (h : s.sensor.live.linkUp = true) :
    enterPhase p s = enterState (.active p) s := by simp [enterPhase, h]

/-! ### The blocks an event of the cycle leaves alone -/

/-- An event frames what its work frames. -/
theorem event_cycleFrame {old s w : State} (h : CycleFrame s w) : CycleFrame s (event old w) := by
  obtain ⟨h1, h2, h3, h4, h5, h6, h7, h8, h9⟩ := h
  exact ⟨by simpa using h1, by simpa using h2, by simpa using h3, by simpa using h4, by simpa using h5, by simpa using h6,
    by simpa using h7, by simpa using h8, by simpa using h9⟩

end Sys2Proof.Machine
end

