-- ==== Sys2Proof/Laws/Frames.lean ====
section
/-! SUPPORT. The frames and payloads: sums that come to 0, and fields that read back as they were written. -/

namespace Sys2Proof

theorem byteSum_append (a b : List Byte) : byteSum (a ++ b) = byteSum a + byteSum b := by
  induction a with
  | nil => simp [byteSum]
  | cons x a ih =>
    simp only [List.cons_append, byteSum, List.foldr_cons] at ih ⊢
    rw [ih, BitVec.add_assoc]

/-- Bytes followed by their check byte sum to 0 modulo 256. -/
theorem byteSum_checked (bytes : List Byte) : byteSum (bytes ++ [checkByte bytes]) = 0 := by
  rw [byteSum_append]
  simp [byteSum, checkByte]

theorem byteSum_commandFrame (code : Byte) (args : List Byte) : byteSum (commandFrame code args) = 0 :=
  byteSum_checked _

/-- A command frame is taken as its command, whatever bytes follow its check byte (11 R178, R179). -/
theorem hostEvent_commandFrame {host : Transaction} {rise : Bool} {code : Byte} {args : List Byte} {c : Instr}
    (padding : List Byte) (hc : code ≠ 255) (hl : args.length < 256) (hh : hostCommand host rise code args = some c) :
    hostEvent host rise (commandFrame code args ++ padding) = some c := by
  have hlen : (BitVec.ofNat 8 args.length).toNat = args.length := by simp; omega
  have htake : ∀ x : Byte, (args ++ [x] ++ padding).take (args.length + 1) = args ++ [x] := by
    intro x; rw [List.take_left']; simp
  have htake2 : ∀ x : Byte, (args ++ [x] ++ padding).take args.length = args := by
    intro x; rw [List.append_assoc, List.take_left']; rfl
  have hs := byteSum_commandFrame code args
  simp only [commandFrame] at hs
  simp only [commandFrame, hostEvent, List.cons_append, hc, if_false, hlen]
  simp only [htake, htake2]
  rw [if_neg (by simp), if_neg (by simpa using hs), hh]
  rfl

/-! ### Bits -/

@[simp] theorem length_bitsOf {w : Nat} (x : BitVec w) : (bitsOf x).length = w := by simp [bitsOf]

@[simp] theorem length_flatMap_bitsOf (bytes : List Byte) : (bytes.flatMap bitsOf).length = 8 * bytes.length := by
  induction bytes with
  | nil => rfl
  | cons b bytes ih => simp only [List.flatMap_cons, List.length_append, length_bitsOf, ih, List.length_cons]; omega

/-- The bits of a field spell its number (09 R140). -/
@[simp] theorem valueOf_bitsOf {w : Nat} (x : BitVec w) : valueOf (bitsOf x) = x.toNat := by
  have key : ∀ k, k ≤ w → valueOf ((List.range k).map x.getMsbD) = x.toNat / 2 ^ (w - k) := by
    intro k
    induction k with
    | zero =>
      intro _
      have := x.isLt
      simp [valueOf, Nat.div_eq_of_lt this]
    | succ k ih =>
      intro hk
      have ih := ih (by omega)
      simp only [valueOf] at ih ⊢
      rw [List.range_succ, List.map_append, List.foldl_append, ih]
      have hb : x.getMsbD k = x.toNat.testBit (w - 1 - k) := by
        simp [BitVec.getMsbD, BitVec.getLsbD]; omega
      have h1 : w - k = w - (k + 1) + 1 := by omega
      have h2 : w - 1 - k = w - (k + 1) := by omega
      simp only [List.map_cons, List.map_nil, List.foldl_cons, List.foldl_nil, hb, h1, h2, Nat.pow_succ, ← Nat.div_div_eq_div_mul]
      generalize w - (k + 1) = m
      have : (x.toNat.testBit m).toNat = x.toNat / 2 ^ m % 2 := by
        rw [Nat.testBit_eq_decide_div_mod_eq]
        rcases Nat.mod_two_eq_zero_or_one (x.toNat / 2 ^ m) with h | h <;> simp [h]
      rw [this]
      omega
  have := key w (le_refl w)
  simpa [bitsOf] using this

/-- The bytes of a run of bits are those it was written from, whatever follows (11 R178). -/
theorem wholeBytes_flatMap (bytes : List Byte) (padding : List Bool) :
    wholeBytes (bytes.flatMap bitsOf ++ padding) = bytes ++ wholeBytes padding := by
  induction bytes with
  | nil => rfl
  | cons b bytes ih =>
    have hb : bitsOf b = [b.getMsbD 0, b.getMsbD 1, b.getMsbD 2, b.getMsbD 3, b.getMsbD 4, b.getMsbD 5, b.getMsbD 6,
      b.getMsbD 7] := rfl
    have hv : BitVec.ofNat 8 (valueOf (bitsOf b)) = b := by rw [valueOf_bitsOf]; simp
    rw [hb] at hv
    simp only [List.flatMap_cons, hb, List.cons_append, List.nil_append, wholeBytes]
    rw [hv, ih]

end Sys2Proof

namespace Sys2Proof.Machine

theorem byteSum_replyFrame (r : Reply) : Sys2Proof.byteSum (replyFrame r) = 0 := Sys2Proof.byteSum_checked _

theorem byteSum_setpointBytes (r : SetpointRecord) : Sys2Proof.byteSum (setpointBytes r) = 0 :=
  Sys2Proof.byteSum_checked _

/-- Every code reads back as the value it stands for (12 R200). -/
theorem CycleState.ofCode_code (c : CycleState) : CycleState.ofCode c.code = some c := by
  cases c with
  | active p => cases p <;> rfl
  | _ => rfl

theorem CycleState.code_lt (c : CycleState) : c.code < 256 := by
  cases c with
  | active p => cases p <;> decide
  | _ => decide

theorem FlowClass.ofCode_code (c : FlowClass) : FlowClass.ofCode c.code = some c := by cases c <;> rfl

theorem FlowClass.code_lt (c : FlowClass) : c.code < 256 := by cases c <;> decide

theorem Verdict.ofCode_code (v : Verdict) : Verdict.ofCode v.code = some v := by cases v <;> rfl

/-- A number below 256 stands in one byte. -/
theorem toNat_u8 {n : Nat} (h : n < 256) : (BitVec.ofNat 8 n).toNat = n := by
  simp only [BitVec.toNat_ofNat]
  omega

/-- A value in its shortest form reads back, whatever follows it (09 R146). -/
theorem decodeVar_encodeVar {v : Nat} (h : v < 16384) (rest : List Byte) :
    decodeVar (encodeVar v ++ rest) = some (v, rest) := by
  unfold encodeVar
  split
  · rename_i hv
    simp only [u8, List.cons_append, List.nil_append, decodeVar, toNat_u8 (show v < 256 by omega)]
    simp [hv]
  · rename_i hv
    have h1 : v % 128 + 128 < 256 := by omega
    have h2 : v / 128 < 256 := by omega
    simp only [List.cons_append, List.nil_append, decodeVar, toNat_u8 h1, toNat_u8 h2]
    rw [if_neg (by omega), if_pos (by omega)]
    congr 2
    omega

/-! ### The bits of a frame (09 R140, R141, R143) -/

/-- A field is read where it was written. -/
theorem bitField_append {w : Nat} (before : List Bool) (x : BitVec w) (rest : List Bool) (start : Nat)
    (hs : start = before.length) : bitField (before ++ (bitsOf x ++ rest)) start w = x.toNat := by
  subst hs
  simp [bitField]

theorem length_frameBits (f : LinkFrame) : (frameBits f).length = 29 + 8 * f.payload.length := by
  simp only [frameBits, checkedBits, List.length_cons, List.length_append, length_bitsOf, length_flatMap_bitsOf]
  omega

/-- The fields of a frame, one after another. -/
theorem frameBits_eq (f : LinkFrame) :
    frameBits f = [false] ++ (bitsOf f.kind ++ (bitsOf f.station ++ (bitsOf (BitVec.ofNat 6 f.payload.length)
      ++ (f.payload.flatMap bitsOf ++ bitsOf f.crc)))) := by
  simp [frameBits, checkedBits]

/-- The header of a frame gives its length from the 13th bit on (09 R143). -/
theorem lengthRead_prefix {f : LinkFrame} (hf : f.payload.length < 64) {read rest : List Bool}
    (h : read ++ rest = frameBits f) (h13 : 13 ≤ read.length) : lengthRead read = f.payload.length := by
  have h1 : lengthRead read = lengthRead (read ++ rest) := by
    simp only [lengthRead, bitField]
    rw [List.drop_append_of_le_length (by omega), List.take_append_of_le_length (by simp; omega)]
  have h2 : lengthRead (frameBits f) = (BitVec.ofNat 6 f.payload.length).toNat := by
    rw [frameBits_eq, ← List.append_assoc, ← List.append_assoc]
    exact bitField_append _ _ _ 7 (by simp)
  rw [h1, h, h2]
  simp
  omega

/-- The bits read are a whole frame exactly when none of the frame's bits is missing. -/
theorem frameWhole_prefix {f : LinkFrame} (hf : f.payload.length < 64) {read rest : List Bool}
    (h : read ++ rest = frameBits f) : frameWhole read = rest.isEmpty := by
  have hl : read.length + rest.length = 29 + 8 * f.payload.length := by
    rw [← List.length_append, h, length_frameBits]
  rw [Bool.eq_iff_iff]
  simp only [frameWhole, Bool.and_eq_true, decide_eq_true_eq, beq_iff_eq, List.isEmpty_iff, ← List.length_eq_zero_iff]
  constructor
  · rintro ⟨h13, he⟩
    rw [lengthRead_prefix hf h h13] at he
    omega
  · intro hr
    refine ⟨by omega, ?_⟩
    rw [lengthRead_prefix hf h (by omega)]
    omega

/-- A frame is read from its bits as it was written (09 R140, R143). -/
theorem frameRead_frameBits {f : LinkFrame} (hf : f.payload.length < 64) : frameRead (frameBits f) = f := by
  have hn : lengthRead (frameBits f) = f.payload.length :=
    lengthRead_prefix hf (rest := []) (by simp) (by rw [length_frameBits]; omega)
  have hk : bitField (frameBits f) 1 3 = f.kind.toNat := by
    rw [frameBits_eq]
    exact bitField_append _ _ _ 1 rfl
  have hs : bitField (frameBits f) 4 3 = f.station.toNat := by
    rw [frameBits_eq, ← List.append_assoc]
    exact bitField_append _ _ _ 4 (by simp)
  have hc : bitField (frameBits f) (13 + 8 * f.payload.length) 16 = f.crc.toNat := by
    rw [frameBits_eq, ← List.append_nil (bitsOf f.crc)]
    simp only [← List.append_assoc]
    rw [List.append_assoc _ (bitsOf f.crc)]
    exact bitField_append _ _ _ _ (by simp; omega)
  have hp : ∀ i, (hi : i < f.payload.length) → bitField (frameBits f) (13 + 8 * i) 8 = (f.payload[i]).toNat := by
    intro i hi
    have hsplit : f.payload = f.payload.take i ++ f.payload[i] :: f.payload.drop (i + 1) := by simp
    have hbits : f.payload.flatMap bitsOf =
        (f.payload.take i).flatMap bitsOf ++ (bitsOf f.payload[i] ++ (f.payload.drop (i + 1)).flatMap bitsOf) := by
      rw [← List.flatMap_cons, ← List.flatMap_append, ← hsplit]
    rw [frameBits_eq, hbits]
    simp only [List.append_assoc]
    simp only [← List.append_assoc]
    rw [List.append_assoc _ _ (bitsOf f.crc), List.append_assoc _ (bitsOf f.payload[i])]
    exact bitField_append _ _ _ _ (by simp; omega)
  cases f with
  | mk kind station payload crc =>
    simp only [frameRead, hn, hk, hs, hc, LinkFrame.mk.injEq]
    refine ⟨by simp, by simp, ?_, by simp⟩
    apply List.ext_getElem
    · simp
    · intro i h1 h2
      simp [hp i h2]

/-! ### HSDO (11 R178, R179) -/

/-- A transaction clocks out one bit in each of its periods: the reply frame's, and 1 after its check byte. -/
theorem length_clockedOut (clocks : Nat) (r : Reply) : (clockedOut clocks r).length = clocks := by
  simp only [clockedOut, List.length_append, List.length_take, List.length_replicate]
  omega

theorem getElem?_clockedOut {clocks k : Nat} (h : k < clocks) (r : Reply) :
    (clockedOut clocks r)[k]? = some (((replyFrame r).flatMap bitsOf).getD k true) := by
  simp only [clockedOut]
  generalize (replyFrame r).flatMap bitsOf = frame
  by_cases hk : k < frame.length
  · rw [List.getElem?_append_left (by simp; omega)]
    simp [h, hk]
  · rw [List.getElem?_append_right (by simp; omega), List.getElem?_replicate]
    simp only [List.length_take]
    rw [if_pos (by omega)]
    simp [List.getElem?_eq_none (show frame.length ≤ k by omega)]

end Sys2Proof.Machine
end

