-- ==== Sys2Proof/Laws/Layout.lean ====
section
/-! SUPPORT. The byte fields of a reply as fields of a layout (12 R200, R204): each byte operation of Operands is a run of
fields, so that a reply's data is the layout of its fields. -/

namespace Sys2Proof.Machine

theorem layout_nil : layout [] = [] := rfl

theorem layout_cons (f : Nat × Nat) (fields : List (Nat × Nat)) :
    layout (f :: fields) = fieldBytes f.1 f.2 ++ layout fields := rfl

theorem layout_append (a b : List (Nat × Nat)) : layout (a ++ b) = layout a ++ layout b := by simp [layout]

theorem layout_flatMap {α : Type} (items : List α) (fields : α → List (Nat × Nat)) :
    layout (items.flatMap fields) = items.flatMap fun x => layout (fields x) := by
  induction items with
  | nil => rfl
  | cons x items ih => simp [layout_append, ih]

theorem length_fieldBytes (width value : Nat) : (fieldBytes width value).length = width := by simp [fieldBytes]

theorem fieldBytes_one (n : Nat) : fieldBytes 1 n = u8 n := by simp [fieldBytes, u8]

theorem fieldBytes_two (n : Nat) : fieldBytes 2 n = u16 n := by simp [fieldBytes, u16, List.range_succ]

theorem fieldBytes_three (n : Nat) : fieldBytes 3 n = u24 n := by simp [fieldBytes, u24, u16, List.range_succ]

theorem fieldBytes_four (n : Nat) : fieldBytes 4 n = u32 n := by simp [fieldBytes, u32, u24, u16, List.range_succ]

/-- A field of zeros. -/
theorem fieldBytes_zero (width : Nat) : fieldBytes width 0 = List.replicate width 0 := by
  simp [fieldBytes, List.map_const']

theorem flag_eq_u8 (b : Bool) : flag b = u8 b.toNat := by cases b <;> rfl

theorem memberSet_cons (m : Bool) (members : List Bool) : memberSet (m :: members) = m.toNat + 2 * memberSet members := by
  simp only [memberSet, List.zipIdx_cons', List.map_cons, List.sum_cons, List.map_map, pow_zero, mul_one,
    ← List.sum_map_mul_left]
  congr 2
  refine List.map_congr_left fun x _ => ?_
  simp [pow_succ]
  ring

/-- The byte of a set of members (12 R200). -/
theorem setByte_eq (members : List Bool) : setByte members = BitVec.ofNat 8 (memberSet members) := by
  induction members with
  | nil => rfl
  | cons m members ih =>
    rw [memberSet_cons, BitVec.ofNat_add, BitVec.ofNat_mul, ← ih]
    cases m <;> simp [setByte, mul_comm, add_comm]

/-- A marked item is its mark and its field (12 R200). -/
theorem marked_eq_layout {width : Nat} {bytes : Nat → List Byte} (h : ∀ n, bytes n = fieldBytes width n)
    (item : Option Nat) : marked width (item.map bytes) = layout (markedField width item) := by
  cases item <;> simp [marked, markedField, layout, fieldBytes_one, u8, h, fieldBytes_zero]

end Sys2Proof.Machine
end

