-- ==== Sys2Proof/Laws/Line.lean ====
section
/-! SUPPORT. What a run of bit periods of the rig link does: the first bit of an own frame, a frame followed to its end, a
frame that passes a SEEKING station, and an own frame read back (09 R141 to R143, R149, R151). -/

namespace Sys2Proof.Machine

/-! ### The start of an own frame -/

/-- A station starts only in a GAP (09 R149). -/
theorem LinkBlock.starts_of_view {l : LinkBlock} (h : l.view ≠ .gap) : l.starts = false := by
  simp [LinkBlock.starts, h]

/-- A station that does not start only reads the bit. -/
theorem takeBit_of_idle {s : State} (h : s.link.starts = false) (b : Bool) : takeBit s b = readLine s b := by
  simp [takeBit, beginBit, h]

/-- Outside a GAP a station only reads the bit. -/
theorem takeBit_of_view {s : State} (h : s.link.view ≠ .gap) (b : Bool) : takeBit s b = readLine s b :=
  takeBit_of_idle (LinkBlock.starts_of_view h) b

/-- A station with a notice to send chooses a frame and sends it (09 R149, R150). -/
theorem startFrame_of_notice {s : State} (h : s.link.hasNotice = true) :
    ∃ frame fromSlot, chooseFrame (ownStation s) s.link = some (frame, fromSlot) ∧
      startFrame s =
        s.onLink fun l => { l.markOnLine fromSlot with view := .frame, assembly := [], tx := some frame } := by
  have hc : (chooseFrame (ownStation s) s.link).isSome = true := by
    rcases hs : s.link.slot with _ | d
    · rcases hq : s.link.queue with _ | ⟨n, rest⟩
      · simp [LinkBlock.hasNotice, hs, hq] at h
      · simp_all [LinkBlock.hasNotice, chooseFrame]
    · simp [chooseFrame, hs]
  obtain ⟨⟨frame, fromSlot⟩, hc⟩ := Option.isSome_iff_exists.1 hc
  exact ⟨frame, fromSlot, hc, by simp [startFrame, State.onLink, hc]⟩

/-- The bits of a station that starts in the first of their periods are those of the frame it has started (09 R149). -/
theorem foldl_takeBit_starts {s : State} (h : s.link.starts = true) {bits : List Bool} (hb : bits ≠ []) :
    bits.foldl takeBit s = bits.foldl takeBit (startFrame s) := by
  obtain ⟨b, rest, rfl⟩ := List.exists_cons_of_ne_nil hb
  have hn : s.link.hasNotice = true := by
    simp only [LinkBlock.starts, Bool.and_eq_true] at h
    exact h.2
  obtain ⟨frame, fromSlot, -, he⟩ := startFrame_of_notice hn
  have hv : (startFrame s).link.view ≠ .gap := by simp [he]
  rw [List.foldl_cons, List.foldl_cons, takeBit_of_view hv, takeBit, beginBit, if_pos h]

/-- Recessive bits in a GAP in which the station does not start are counted (09 R141). -/
theorem foldl_takeBit_waits (n : Nat) : ∀ {s : State}, s.link.view = .gap →
    (∀ k, k < n → ({ s.link with recessive := s.link.recessive + k } : LinkBlock).starts = false) →
    (List.replicate n true).foldl takeBit s = s.onLink fun l => { l with recessive := l.recessive + n } := by
  induction n with
  | zero => intro s _ _; simp [State.onLink]
  | succ n ih =>
    intro s hv hn
    have h0 : s.link.starts = false := by simpa using hn 0 (by omega)
    have hb : takeBit s true = s.onLink fun l => { l with recessive := l.recessive + 1 } := by
      simp [takeBit_of_idle h0, readLine, hv, LinkBlock.gapBit]
    rw [List.replicate_succ, List.foldl_cons, hb, ih (by simpa using hv)]
    · simp [State.onLink, Nat.add_assoc, Nat.add_comm 1]
    · intro k hk
      simpa [Nat.add_assoc, Nat.add_comm 1] using hn (k + 1) (by omega)

/-! ### Receiving -/

/-- What the end of the frame `f` does to a station that followed it (09 R143, R144). -/
theorem endFrame_whole {f : LinkFrame} {s : State} (hf : f.payload.length < 64) (h : s.link.assembly = frameBits f) :
    endFrame s =
      if crcGood f then checkFrame f (s.onLink fun l => l.endReceived true) else s.onLink fun l => l.endReceived false := by
  have hw : frameWhole (frameBits f) = true := frameWhole_prefix hf (rest := []) (by simp)
  simp only [endFrame, h, hw, if_true, frameRead_frameBits hf]
  cases crcGood f <;> rfl

/-- A receiver's bits before the last one of a frame only join its assembly. -/
theorem foldl_takeBit_part {f : LinkFrame} (hf : f.payload.length < 64) (bits : List Bool) :
    ∀ {s : State} {rest : List Bool}, s.link.view = .frame → s.link.tx = none →
      s.link.assembly ++ (bits ++ rest) = frameBits f → rest ≠ [] →
      bits.foldl takeBit s = s.onLink fun l => { l with assembly := l.assembly ++ bits } := by
  induction bits with
  | nil => intro s rest _ _ _ _; simp [State.onLink]
  | cons b bits ih =>
    intro s rest hv ht h hr
    have hw : frameWhole (s.link.assembly ++ [b]) = false := by
      rw [frameWhole_prefix hf (rest := bits ++ rest) (by simpa using h)]
      simp [hr]
    have hb : takeBit s b = s.onLink fun l => { l with assembly := l.assembly ++ [b] } := by
      simp [takeBit_of_view (s := s) (by simp [hv]), readLine, hv, ht, followBit, endFrame, State.onLink, hw]
    rw [List.foldl_cons, hb, ih (rest := rest) (by simpa using hv) (by simpa using ht) (by simpa using h) hr]
    simp [State.onLink]

/-- The bit periods that bring a frame to its last bit do what its end does (09 R143, R144). -/
theorem foldl_takeBit_brings {f : LinkFrame} {s : State} {bits : List Bool} (h : BringsFrame s bits f) :
    bits.foldl takeBit s =
      if crcGood f then checkFrame f (s.onLink fun l => l.endReceived true) else s.onLink fun l => l.endReceived false := by
  have follow : ∀ (u : State) (more : List Bool), u.link.view = .frame → u.link.tx = none → more ≠ [] →
      u.link.assembly ++ more = frameBits f →
      more.foldl takeBit u =
        if crcGood f then checkFrame f (u.onLink fun l => l.endReceived true)
        else u.onLink fun l => l.endReceived false := by
    intro u more hv ht hm hb
    obtain ⟨front, last, rfl⟩ : ∃ front last, more = front ++ [last] :=
      ⟨more.dropLast, more.getLast hm, (List.dropLast_append_getLast hm).symm⟩
    rw [List.foldl_append, foldl_takeBit_part h.1 front hv ht hb (by simp)]
    rw [List.foldl_cons, List.foldl_nil, takeBit_of_view (by simp [hv])]
    simp only [readLine, State.onLink_link, hv, ht, followBit]
    rw [endFrame_whole h.1 (by simpa using hb)]
    rfl
  obtain ⟨hf, ht, ⟨hv, hi, rfl⟩ | ⟨hv, hm, hb⟩⟩ := h
  · have hlead : takeBit s false = s.onLink fun l => { l with view := .frame, assembly := [false] } := by
      simp [takeBit_of_idle hi, readLine, hv, LinkBlock.gapBit]
    have htail : frameBits f = false :: (checkedBits f.kind f.station f.payload ++ bitsOf f.crc) := rfl
    have hne : checkedBits f.kind f.station f.payload ++ bitsOf f.crc ≠ [] := by
      intro hc
      have := congrArg List.length hc
      simp [checkedBits] at this
    rw [htail, List.foldl_cons, hlead, follow _ _ (by simp) (by simpa using ht) hne (by simp [htail])]
    rfl
  · exact follow s bits hv ht hm hb

/-- A receiver's good frame that passes the length and station checks is routed from the GAP it ends in (09 R144, R148). -/
theorem foldl_takeBit_good {f : LinkFrame} {s : State} {bits : List Bool} (h : BringsFrame s bits f)
    (hc : crcGood f = true) (hl : f.payload.length ≤ 40) (hst : f.station.toNat ≤ 5) :
    bits.foldl takeBit s = routeFrame f (s.onLink fun l => l.endReceived true) := by
  have hn : ¬(40 < f.payload.length ∨ 5 < f.station.toNat) := by omega
  simp [foldl_takeBit_brings h, hc, checkFrame, hn]

/-- A bad CRC only sends the view to SEEKING (09 R143). -/
theorem foldl_takeBit_bad {f : LinkFrame} {s : State} {bits : List Bool} (h : BringsFrame s bits f)
    (hc : crcGood f = false) : bits.foldl takeBit s = s.onLink fun l => l.endReceived false := by
  simp [foldl_takeBit_brings h, hc]

/-- While OFF the line is not read (09 R141, R161). -/
theorem foldl_takeBit_off (bits : List Bool) {s : State} (h : s.link.view = .off) : bits.foldl takeBit s = s := by
  induction bits with
  | nil => rfl
  | cons b bits ih => rw [List.foldl_cons, show takeBit s b = s by simp [takeBit_of_view (s := s) (by simp [h]), readLine, h], ih]

/-- Fewer than 544 bits after a dominant one leave a SEEKING station with the recessive bits at their end (09 R141). -/
theorem foldl_takeBit_seeking (bits : List Bool) {s : State} (h : s.link.view = .seeking) (h0 : s.link.recessive = 0)
    (hl : bits.length < 544) :
    bits.foldl takeBit s = s.onLink fun l => { l with recessive := trailingRecessive bits } := by
  have hle : ∀ l : List Bool, trailingRecessive l ≤ l.length := by
    intro l
    have := (List.takeWhile_sublist (p := id) (l := l.reverse)).length_le
    simpa [trailingRecessive] using this
  induction bits using List.reverseRecOn with
  | nil => simp [State.onLink, trailingRecessive, ← h0]
  | append_singleton front last ih =>
    simp only [List.length_append, List.length_cons, List.length_nil] at hl
    have hf := hle front
    rw [List.foldl_append, ih (by omega)]
    have hn : ¬(544 ≤ trailingRecessive front + 1) := by omega
    rw [List.foldl_cons, List.foldl_nil, takeBit_of_view (by simp [h])]
    cases last
    · simp [readLine, State.onLink, h, LinkBlock.seekBit, trailingRecessive]
    · simp [readLine, State.onLink, h, LinkBlock.seekBit, trailingRecessive]
      simpa [trailingRecessive] using hn

/-- A frame that passes a SEEKING station leaves it with the recessive bits at the frame's end (09 R141, R142). -/
theorem foldl_takeBit_passing {f : LinkFrame} (hf : f.payload.length < 64) {s : State} (h : s.link.view = .seeking) :
    (frameBits f).foldl takeBit s = s.onLink fun l => { l with recessive := trailingRecessive (frameBits f) } := by
  have htail : frameBits f = false :: (frameBits f).tail := rfl
  have hlen : (frameBits f).tail.length < 544 := by
    rw [List.length_tail, length_frameBits]
    omega
  have h1 : takeBit s false = s.onLink fun l => { l with recessive := 0 } := by
    simp [takeBit_of_view (s := s) (by simp [h]), readLine, h, LinkBlock.seekBit]
  have h2 : trailingRecessive (frameBits f) = trailingRecessive (frameBits f).tail := by
    conv_lhs => rw [htail]
    generalize (frameBits f).tail = rest
    simp only [trailingRecessive, List.reverse_cons]
    rw [List.takeWhile_append]
    split
    · rename_i hw
      simp [hw]
    · rfl
  rw [h2]
  conv_lhs => rw [htail]
  rw [List.foldl_cons, h1, foldl_takeBit_seeking _ (by simpa using h) (by simp) hlen]
  simp [State.onLink]

/-! ### An own frame read back -/

/-- A sender's bits that match what it sent, before the last one, only join its assembly (09 R151). -/
theorem foldl_takeBit_matching {f : LinkFrame} (bits : List Bool) :
    ∀ {s : State} {rest : List Bool}, s.link.view = .frame → s.link.tx = some f →
      s.link.assembly ++ (bits ++ rest) = frameBits f → rest ≠ [] →
      bits.foldl takeBit s = s.onLink fun l => { l with assembly := l.assembly ++ bits } := by
  induction bits with
  | nil => intro s rest _ _ _ _; simp [State.onLink]
  | cons b bits ih =>
    intro s rest hv ht h hr
    have hk : (frameBits f)[s.link.assembly.length]? = some b := by
      rw [← h]
      simp
    have hn : s.link.assembly.length + 1 ≠ (frameBits f).length := by
      have := List.length_pos_iff.2 hr
      rw [← h]
      simp only [List.length_append, List.length_cons]
      omega
    have hb : takeBit s b = s.onLink fun l => { l with assembly := l.assembly ++ [b] } := by
      simp [takeBit_of_view (s := s) (by simp [hv]), readLine, hv, ht, readBack, hk, hn]
    rw [List.foldl_cons, hb, ih (rest := rest) (by simpa using hv) (by simpa using ht) (by simpa using h) hr]
    simp [State.onLink]

/-- The own frame read back to its last bit has been sent (09 R153). -/
theorem foldl_takeBit_sent {f : LinkFrame} {s : State} {bits : List Bool} (hv : s.link.view = .frame)
    (ht : s.link.tx = some f) (hb : bits ≠ []) (h : s.link.assembly ++ bits = frameBits f) :
    bits.foldl takeBit s = endSent s := by
  obtain ⟨front, last, rfl⟩ : ∃ front last, bits = front ++ [last] :=
    ⟨bits.dropLast, bits.getLast hb, (List.dropLast_append_getLast hb).symm⟩
  rw [List.foldl_append, foldl_takeBit_matching front hv ht h (by simp)]
  have hk : (frameBits f)[(s.link.assembly ++ front).length]? = some last := by
    rw [← h, ← List.append_assoc]
    simp
  have hn : (s.link.assembly ++ front).length + 1 = (frameBits f).length := by
    rw [← h]
    simp
    omega
  simp only [List.length_append] at hk hn
  rw [List.foldl_cons, List.foldl_nil, takeBit_of_view (by simp [hv])]
  simp [readLine, hv, ht, readBack, hk, hn, endSent, LinkBlock.dropSent, State.onLink]

end Sys2Proof.Machine
end

