-- ==== Sys2Proof/Laws/PerInstr.lean ====
section
/-! SUPPORT. The family HostFrame: one lemma for each command. -/

namespace Sys2Proof.Laws.HostFrame

/-- The frame the host sends for a command is a fetch or sums to 0 modulo 256 (11 R178). -/
def Statement (i : Instr) : Prop := ∀ bytes, hostFrame i = some bytes → bytes = [255] ∨ byteSum bytes = 0

/-- A command that is no host transaction has no frame. -/
theorem of_none {i : Instr} (h : hostFrame i = none) : Statement i := by
  intro bytes hb
  rw [h] at hb
  cases hb

/-- A command frame sums to 0. -/
theorem of_command {i : Instr} {code : Byte} {args : List Byte} (h : hostFrame i = some (commandFrame code args)) :
    Statement i := by
  intro bytes hb
  rw [h] at hb
  cases hb
  exact Or.inr (byteSum_commandFrame code args)

theorem powerOn (levels : InputLevels) : Statement (.powerOn levels) := of_none rfl
theorem resetLine : Statement .resetLine := of_none rfl
theorem resetNRise (levels : InputLevels) : Statement (.resetNRise levels) := of_none rfl
theorem sampleRecord (bits : List Bool) : Statement (.sampleRecord bits) := of_none rfl
theorem linkDeadlineExpiry : Statement .linkDeadlineExpiry := of_none rfl
theorem rotPulse : Statement .rotPulse := of_none rfl
theorem pulseDeadlineExpiry : Statement .pulseDeadlineExpiry := of_none rfl
theorem canopySetFall : Statement .canopySetFall := of_none rfl
theorem valveReadyRise : Statement .valveReadyRise := of_none rfl
theorem valveReadyFall : Statement .valveReadyFall := of_none rfl
theorem strokeDone : Statement .strokeDone := of_none rfl
theorem fetch (host : Transaction) : Statement (.fetch host) := by
  intro bytes h
  cases h
  exact Or.inl rfl
theorem badFrame (host : Transaction) : Statement (.badFrame host) := of_none rfl
theorem configure (record : List Byte) (host : Transaction) : Statement (.configure record host) := of_command rfl
theorem startHole (row : BitVec 16) (slot : Byte) (planned : Byte) (rise : Bool) (host : Transaction) :
    Statement (.startHole row slot planned rise host) := of_command rfl
theorem abort (rise : Bool) (host : Transaction) : Statement (.abort rise host) := of_command rfl
theorem resume (rise : Bool) (host : Transaction) : Statement (.resume rise host) := of_command rfl
theorem proceed (rise : Bool) (host : Transaction) : Statement (.proceed rise host) := of_command rfl
theorem abandon (host : Transaction) : Statement (.abandon host) := of_command rfl
theorem readState (host : Transaction) : Statement (.readState host) := of_command rfl
theorem readAttention (host : Transaction) : Statement (.readAttention host) := of_command rfl
theorem serviceDone (host : Transaction) : Statement (.serviceDone host) := of_command rfl
theorem setWatch (mask : Byte) (sense : Byte) (combination : Byte) (host : Transaction) :
    Statement (.setWatch mask sense combination host) := of_command rfl
theorem readSensors (host : Transaction) : Statement (.readSensors host) := of_command rfl
theorem unlatch (host : Transaction) : Statement (.unlatch host) := of_command rfl
theorem readFlow (host : Transaction) : Statement (.readFlow host) := of_command rfl
theorem readNeighbours (index : Byte) (host : Transaction) : Statement (.readNeighbours index host) := of_command rfl
theorem readLink (host : Transaction) : Statement (.readLink host) := of_command rfl
theorem selectHole (number : HoleNo) (host : Transaction) : Statement (.selectHole number host) := of_command rfl
theorem readCells (count : Byte) (direction : Byte) (host : Transaction) :
    Statement (.readCells count direction host) := of_command rfl
theorem collarTimerExpiry : Statement .collarTimerExpiry := of_none rfl
theorem retractTimerExpiry : Statement .retractTimerExpiry := of_none rfl
theorem stallWindowExpiry : Statement .stallWindowExpiry := of_none rfl
theorem strokeTimerExpiry : Statement .strokeTimerExpiry := of_none rfl
theorem strokeGapExpiry : Statement .strokeGapExpiry := of_none rfl
theorem mixDeadlineExpiry : Statement .mixDeadlineExpiry := of_none rfl
theorem holdDeadlineExpiry : Statement .holdDeadlineExpiry := of_none rfl
theorem torqueTimerExpiry : Statement .torqueTimerExpiry := of_none rfl
theorem releaseDeadlineExpiry : Statement .releaseDeadlineExpiry := of_none rfl
theorem demandScheduleExpiry : Statement .demandScheduleExpiry := of_none rfl
theorem staleDeadlineExpiry (station : Nat) : Statement (.staleDeadlineExpiry station) := of_none rfl
theorem removalDeadlineExpiry (station : Nat) : Statement (.removalDeadlineExpiry station) := of_none rfl
theorem demandFrameReceived (bits : List Bool) : Statement (.demandFrameReceived bits) := of_none rfl
theorem holeFrameReceived (bits : List Bool) : Statement (.holeFrameReceived bits) := of_none rfl
theorem seekingComplete : Statement .seekingComplete := of_none rfl
theorem frameStart (recessive : Nat) : Statement (.frameStart recessive) := of_none rfl
theorem frameSent : Statement .frameSent := of_none rfl
theorem arbitrationLost (bit : Nat) : Statement (.arbitrationLost bit) := of_none rfl
theorem transmitFault (bit : Nat) : Statement (.transmitFault bit) := of_none rfl
theorem duplicateOverridden (bit : Nat) : Statement (.duplicateOverridden bit) := of_none rfl
theorem setpointRecordEnd : Statement .setpointRecordEnd := of_none rfl
theorem timebaseTick : Statement .timebaseTick := of_none rfl

end Sys2Proof.Laws.HostFrame
end

