-- ==== Sys2Proof/Laws/Srx.lean ====
section
/-! SUPPORT. What a run of bit periods of SRX does: a gap, a byte, and a whole good record (02 R29). -/

namespace Sys2Proof.Machine

/-- A byte on SRX has eight data bits. -/
theorem length_dataBits (value : Byte) : (bitsOf value).reverse.length = 8 := by simp [bitsOf]

/-- The eight data bits of a byte, the low one first, give its value back. -/
theorem srxValue_dataBits (value : Byte) : srxValue (bitsOf value).reverse = value := by
  rw [srxValue, List.reverse_reverse, valueOf_bitsOf]
  simp

/-- A gap that keeps the record in assembly only advances the count (02 R29). -/
theorem foldl_takeSrxBit_gap (n : Nat) : ∀ {s : State}, s.sensor.receiver = .idle → s.sensor.gap + n < 461 →
    ∃ gap, (List.replicate n true).foldl takeSrxBit s = s.onSensor fun p => { p with gap := gap } := by
  induction n with
  | zero => intro s _ _; exact ⟨s.sensor.gap, by simp [State.onSensor]⟩
  | succ n ih =>
    intro s hr hg
    have hn : ¬srxGapLimit ≤ s.sensor.gap + 1 := by simp [srxGapLimit]; omega
    by_cases ha : s.sensor.assembly = []
    · have hb : takeSrxBit s true = s := by simp [takeSrxBit, hr, SensorBlock.highBit, ha, State.onSensor]
      rw [List.replicate_succ, List.foldl_cons, hb]
      exact ih hr (by omega)
    · have hb : takeSrxBit s true = s.onSensor fun p => { p with gap := p.gap + 1 } := by
        simp [takeSrxBit, hr, SensorBlock.highBit, ha, hn, State.onSensor]
      obtain ⟨gap, h⟩ := ih (s := takeSrxBit s true) (by simp [hb, hr]) (by simp [hb]; omega)
      exact ⟨gap, by rw [List.replicate_succ, List.foldl_cons, h, hb]; simp [State.onSensor]⟩

/-- While hunting a gap changes nothing (02 R29). -/
theorem foldl_takeSrxBit_quiet (n : Nat) {s : State} (hr : s.sensor.receiver = .idle) (ha : s.sensor.assembly = []) :
    (List.replicate n true).foldl takeSrxBit s = s := by
  have hb : takeSrxBit s true = s := by simp [takeSrxBit, hr, SensorBlock.highBit, ha, State.onSensor]
  induction n with
  | zero => rfl
  | succ n ih => rw [List.replicate_succ, List.foldl_cons, hb, ih]

/-- A gap of 461 bit periods discards the record in assembly (02 R29). -/
theorem foldl_takeSrxBit_discards (n : Nat) : ∀ {s : State}, s.sensor.receiver = .idle → s.sensor.assembly ≠ [] →
    s.sensor.gap < 461 → 461 ≤ s.sensor.gap + n →
    (List.replicate n true).foldl takeSrxBit s = s.onSensor fun p => { p with assembly := [], gap := 0 } := by
  induction n with
  | zero => intro s _ _ h1 h2; omega
  | succ n ih =>
    intro s hr ha h1 h2
    rw [List.replicate_succ, List.foldl_cons]
    by_cases hl : srxGapLimit ≤ s.sensor.gap + 1
    · have hb : takeSrxBit s true = s.onSensor fun p => { p with assembly := [], gap := 0 } := by
        simp [takeSrxBit, hr, SensorBlock.highBit, ha, hl, State.onSensor]
      rw [hb, foldl_takeSrxBit_quiet n (by simpa using hr) (by simp)]
    · have hb : takeSrxBit s true = s.onSensor fun p => { p with gap := p.gap + 1 } := by
        simp [takeSrxBit, hr, SensorBlock.highBit, ha, hl, State.onSensor]
      have hlt : s.sensor.gap + 1 < 461 := Nat.lt_of_not_le hl
      rw [hb, ih (by simpa using hr) (by simpa using ha) hlt (by simp; omega)]
      simp [State.onSensor]

/-- The start bit and up to eight data bits stand in the receiver (02 R29). -/
theorem foldl_takeSrxBit_data (data : List Bool) : ∀ {s : State} {before : List Bool},
    s.sensor.receiver = .byte before → before.length + data.length ≤ 8 →
    data.foldl takeSrxBit s = s.onSensor fun p => { p with receiver := .byte (before ++ data) } := by
  induction data with
  | nil => intro s before hr _; simp [State.onSensor, ← hr]
  | cons b data ih =>
    intro s before hr hl
    simp only [List.length_cons] at hl
    have hb : takeSrxBit s b = s.onSensor fun p => { p with receiver := .byte (before ++ [b]) } := by
      have : before.length < 8 := by omega
      simp [takeSrxBit, hr, this]
    rw [List.foldl_cons, hb, ih (before := before ++ [b]) (by simp) (by simp; omega)]
    simp [State.onSensor]

/-- A byte between its gap and its stop bit is taken by its value (02 R29). -/
theorem foldl_takeSrxBit_byte {s : State} (hr : s.sensor.receiver = .idle) (value : Byte) (stopHigh : Bool) :
    (serialBits value stopHigh).foldl takeSrxBit s =
      takeByte value stopHigh (s.onSensor fun p => { p with receiver := .byte (bitsOf value).reverse, gap := 0 }) := by
  have hs : takeSrxBit s false = s.onSensor fun p => { p with receiver := .byte [], gap := 0 } := by
    simp [takeSrxBit, hr]
  have hl := length_dataBits value
  have hv := srxValue_dataBits value
  unfold serialBits
  generalize (bitsOf value).reverse = data at hl hv ⊢
  rw [List.foldl_cons, hs, List.foldl_append,
    foldl_takeSrxBit_data data (before := []) (by simp) (by simp [hl])]
  simp [takeSrxBit, hl, hv, State.onSensor]

/-- The bytes of a record after its first ones: the port takes them up to the last, which completes the record (02 R29). -/
theorem foldl_takeSrxBit_tail (bytes : List SrxByte) : ∀ {s : State}, s.sensor.receiver = .idle → s.sensor.gap = 0 →
    s.sensor.assembly ≠ [] → s.sensor.assembly.length + bytes.length = 12 → bytes ≠ [] →
    (∀ b ∈ bytes, b.stopHigh = true) → (∀ b ∈ bytes, b.gap < 461) →
    byteSum (s.sensor.assembly ++ bytes.map SrxByte.value) = 0 →
    (srxLine bytes).foldl takeSrxBit s =
      takeRecord (s.sensor.assembly ++ bytes.map SrxByte.value)
        (s.onSensor fun p => { p with receiver := .idle, gap := 0, assembly := [] }) := by
  induction bytes with
  | nil => intro s _ _ _ _ h; exact absurd rfl h
  | cons b bytes ih =>
    intro s hr hg ha hl _ hstop hgap hsum
    obtain ⟨gap, hq⟩ := foldl_takeSrxBit_gap b.gap hr (by simpa [hg] using hgap b (by simp))
    have hline : srxLine (b :: bytes) = List.replicate b.gap true ++ (serialBits b.value b.stopHigh
        ++ srxLine bytes) := by simp [srxLine, SrxByte.bits]
    have hb := hstop b (by simp)
    rw [hline, List.foldl_append, hq, List.foldl_append, foldl_takeSrxBit_byte (by simpa using hr), hb]
    simp only [List.length_cons] at hl
    rcases bytes with _ | ⟨c, rest⟩
    · have h12 : (s.sensor.assembly ++ [b.value]).length = 12 := by simpa using hl
      have hs0 : byteSum (s.sensor.assembly ++ [b.value]) = 0 := by simpa using hsum
      have hl11 : s.sensor.assembly.length = 11 := by simpa using hl
      simp [takeByte, feedSrx, ha, hl11, hs0, srxLine, State.onSensor]
    · have h12 : s.sensor.assembly.length ≠ 11 := by simp only [List.length_cons] at hl; omega
      have he : takeByte b.value true
          ((s.onSensor fun p => { p with gap := gap }).onSensor fun p =>
            { p with receiver := .byte (bitsOf b.value).reverse, gap := 0 }) =
          s.onSensor fun p => { p with receiver := .idle, gap := 0, assembly := p.assembly ++ [b.value] } := by
        simp [takeByte, feedSrx, ha, h12, State.onSensor]
      rw [he, ih (by simp) (by simp) (by simp) (by simp only [List.length_cons] at hl; simp; omega) (by simp)
        (fun x hx => hstop x (by simp [hx])) (fun x hx => hgap x (by simp [hx])) (by simpa using hsum)]
      simp [State.onSensor]

/-- A whole good record that finds the port hunting is taken as one record (02 R29, R31). -/
theorem foldl_takeSrxBit_good {s : State} {bytes : List SrxByte} (hh : Hunting s bytes) (hg : goodRecord bytes = true) :
    (srxLine bytes).foldl takeSrxBit s =
      takeRecord (bytes.map SrxByte.value)
        (s.onSensor fun p => { p with receiver := .idle, gap := 0, assembly := [] }) := by
  simp only [goodRecord, Bool.and_eq_true, beq_iff_eq, List.all_eq_true, decide_eq_true_eq] at hg
  obtain ⟨⟨⟨⟨hlen, hstop⟩, hgap⟩, hsync⟩, hsum⟩ := hg
  obtain ⟨b, rest, rfl⟩ : ∃ b rest, bytes = b :: rest := List.exists_cons_of_ne_nil (by rintro rfl; simp at hlen)
  simp only [List.length_cons, List.map_cons, List.head?_cons, Option.some.injEq, List.tail_cons] at hlen hsync hsum hgap
  obtain ⟨hr, hh⟩ := hh
  obtain ⟨gap, hq⟩ : ∃ gap, (List.replicate b.gap true).foldl takeSrxBit s =
      s.onSensor fun p => { p with assembly := [], gap := gap } := by
    by_cases ha : s.sensor.assembly = []
    · exact ⟨s.sensor.gap, by rw [foldl_takeSrxBit_quiet _ hr ha]; simp [State.onSensor, ← ha]⟩
    · obtain ⟨h1, h2⟩ := hh.resolve_left ha
      exact ⟨0, foldl_takeSrxBit_discards _ hr ha h1 (h2 b rfl)⟩
  have hline : srxLine (b :: rest) = List.replicate b.gap true ++ (serialBits b.value b.stopHigh
      ++ srxLine rest) := by simp [srxLine, SrxByte.bits]
  have he : takeByte b.value true
      ((s.onSensor fun p => { p with assembly := [], gap := gap }).onSensor fun p =>
        { p with receiver := .byte (bitsOf b.value).reverse, gap := 0 }) =
      s.onSensor fun p => { p with receiver := .idle, gap := 0, assembly := [b.value] } := by
    simp [takeByte, feedSrx, hsync, sampleSync, State.onSensor]
  rw [hline, List.foldl_append, hq, List.foldl_append, foldl_takeSrxBit_byte (by simpa using hr), hstop b (by simp), he,
    foldl_takeSrxBit_tail rest (by simp) (by simp) (by simp) (by simp; omega) (by rintro rfl; simp at hlen)
      (fun x hx => hstop x (by simp [hx])) hgap (by simpa using hsum)]
  simp [State.onSensor]

end Sys2Proof.Machine
end

