-- ==== Sys2Proof/Tests/Slice0.lean ====
section
/-! SUPPORT. Own tests: the checks of WellFormed, the manual's worked examples, single steps on small states, and for each
statement with hypotheses a state and operands that meet them. -/

namespace Sys2Proof.Tests

open Sys2Proof Sys2Proof.Machine

/-- A transaction of 80 bytes, not cut. -/
def host : Transaction := ⟨640, false⟩

/-! ### WellFormed refuses an ill-formed term for each of its checks -/

theorem test_wf_sampleRecord_bits : (Instr.sampleRecord []).WellFormed = false := by decide
theorem test_wf_configure_length : (Instr.configure [1, 0] host).WellFormed = false := by decide
theorem test_wf_staleDeadline_station : (Instr.staleDeadlineExpiry 6).WellFormed = false := by decide
theorem test_wf_removalDeadline_station : (Instr.removalDeadlineExpiry 6).WellFormed = false := by decide
theorem test_wf_host_clocks :
    (Instr.fetch ⟨7, false⟩).WellFormed = false ∧ (Instr.badFrame ⟨7, false⟩).WellFormed = false
      ∧ (Instr.configure (List.replicate 69 0) ⟨575, false⟩).WellFormed = false
      ∧ (Instr.startHole 0 0 0 false ⟨55, false⟩).WellFormed = false ∧ (Instr.abort false ⟨23, false⟩).WellFormed = false
      ∧ (Instr.resume false ⟨23, false⟩).WellFormed = false ∧ (Instr.proceed false ⟨23, false⟩).WellFormed = false
      ∧ (Instr.abandon ⟨23, false⟩).WellFormed = false ∧ (Instr.readState ⟨23, false⟩).WellFormed = false
      ∧ (Instr.readAttention ⟨23, false⟩).WellFormed = false ∧ (Instr.serviceDone ⟨23, false⟩).WellFormed = false
      ∧ (Instr.setWatch 0 0 0 ⟨47, false⟩).WellFormed = false ∧ (Instr.readSensors ⟨23, false⟩).WellFormed = false
      ∧ (Instr.unlatch ⟨23, false⟩).WellFormed = false ∧ (Instr.readFlow ⟨23, false⟩).WellFormed = false
      ∧ (Instr.readNeighbours 0 ⟨31, false⟩).WellFormed = false ∧ (Instr.readLink ⟨23, false⟩).WellFormed = false
      ∧ (Instr.selectHole 0 ⟨39, false⟩).WellFormed = false ∧ (Instr.readCells 0 0 ⟨39, false⟩).WellFormed = false := by
  decide
theorem test_shortest_transactions :
    (Instr.fetch).WellFormed = true ∧ (Instr.startHole 0 0 0 false).WellFormed = true ∧ (Instr.abort false).WellFormed = true
      ∧ (Instr.setWatch 0 0 0).WellFormed = true ∧ (Instr.readCells 0 0).WellFormed = true := by decide
set_option maxRecDepth 4000 in
theorem test_wf_demandFrame_bits :
    (Instr.demandFrameReceived []).WellFormed = false
      ∧ (Instr.demandFrameReceived (List.replicate 534 true)).WellFormed = false := by decide
set_option maxRecDepth 4000 in
theorem test_wf_holeFrame_bits :
    (Instr.holeFrameReceived []).WellFormed = false
      ∧ (Instr.holeFrameReceived (List.replicate 534 true)).WellFormed = false := by decide
theorem test_wf_arbitrationLost_bit :
    (Instr.arbitrationLost 0).WellFormed = false ∧ (Instr.arbitrationLost 7).WellFormed = false := by decide
theorem test_wf_transmitFault_bit : (Instr.transmitFault 333).WellFormed = false := by decide
theorem test_wf_duplicateOverridden_bit :
    (Instr.duplicateOverridden 6).WellFormed = false ∧ (Instr.duplicateOverridden 333).WellFormed = false := by decide

/-! ### The manual's worked examples -/

/-- 03 sections 3.5 to 3.8. -/
theorem test_energy_shale :
    cellRecord (defaultConfiguration 0) { State.reset.assembler with cell := some 0, n := 250, rotary := 9000000, thrust := 25000 }
      = ⟨.medium, 250, 2085, 1821, 100, false⟩ ∧ specificEnergyOf .mm35 2085 = 1084 := by
  norm_num [cellRecord, rotaryEnergy, thrustEnergy, specificEnergyOf, BitSize.volumeConstant, cellClass, rockClass,
    defaultConfiguration, State.reset]
theorem test_energy_void :
    cellRecord (defaultConfiguration 0) { State.reset.assembler with cell := some 0, n := 12, rotary := 108000, thrust := 180 }
      = ⟨.void, 12, 53, 46, 15, false⟩ := by decide
theorem test_energy_capped :
    cellRecord (defaultConfiguration 0)
        { State.reset.assembler with cell := some 0, n := 4095, rotary := 184275000, thrust := 327600, capped := true }
      = ⟨.hard, 4095, 38757, 33846, 80, true⟩ := by
  norm_num [cellRecord, rotaryEnergy, thrustEnergy, specificEnergyOf, BitSize.volumeConstant, cellClass, rockClass,
    defaultConfiguration, State.reset]
theorem test_void_edges :
    cellClass (defaultConfiguration 0) false 20 0 (399 / 20) = .void
      ∧ cellClass (defaultConfiguration 0) false 20 0 (400 / 20) = .soft
      ∧ cellClass (defaultConfiguration 0) false 21 0 (380 / 21) = .soft
      ∧ thrustEnergy 399 20 = 40 ∧ thrustEnergy 380 20 = 38 ∧ thrustEnergy 380 21 = 36 := by decide

/-- A peer entry with the figures the allowance uses. -/
def peer (station : Nat) (cls : FlowClass) (demand : Nat) : Peer :=
  ⟨station, .idle, cls, demand, .fresh, 0, some 750, 2750⟩

/-- 08 sections 8.4 and 8.5. -/
theorem test_allowance_fourBooms :
    allowanceOf 120 .normal 45 [peer 1 .critical 40, peer 2 .firm 30, peer 3 .normal 45] = 25
      ∧ allowanceOf 120 .normal 45 [peer 1 .firm 8, peer 2 .firm 30, peer 3 .normal 45] = 41
      ∧ allowanceOf 100 .normal 45 [peer 1 .normal 45, peer 2 .normal 45] = 33
      ∧ allowanceOf 100 .normal 45 [peer 1 .critical 40, peer 2 .firm 30] = 30 := by decide
theorem test_split_drill :
    split .drill 25 false = ⟨.forward, 9, 16, 0⟩ ∧ split .drill 25 true = ⟨.forward, 4, 16, 0⟩
      ∧ split .drill 41 false = ⟨.forward, 14, 27, 0⟩ := by decide
theorem test_torque_figures : ceilingOf 333 = 382 ∧ nearOf 333 = 299 ∧ ceilingOf 800 = 920 := by decide

/-- 12 R201, R202, R204. -/
theorem test_sample_record :
    rawSample [165, 7, 0, 100, 0, 90, 1, 144, 11, 194, 94, 218] = some ⟨7, 100, 90, 400, 3010, 14⟩
      ∧ byteSum [165, 7, 0, 100, 0, 90, 1, 144, 11, 194, 94, 218] = 0 := by decide
theorem test_setpoint_records :
    setpointBytes ⟨0, zeroSetpoints⟩ = [90, 0, 0, 0, 0, 0, 166]
      ∧ setpointBytes ⟨12, ⟨.forward, 9, 16, 0⟩⟩ = [90, 12, 0, 9, 16, 0, 129] := by decide
theorem test_host_frames :
    hostFrame (.startHole 12 3 60 false host) = some [2, 4, 0, 12, 3, 60, 175]
      ∧ replyFrame ⟨.ok, u16 17⟩ = [0, 2, 0, 17, 237] ∧ replyFrame ⟨.none, []⟩ = [9, 0, 247] := by decide
theorem test_cell_bytes :
    cellBytes 40 ⟨.void, 12, 53, 46, 15, false⟩ = [40, 2, 0, 12, 0, 0, 53, 0, 0, 46, 0, 15] := by decide

/-- 12 R203: the DEMAND payload of a station in DRILL, and the HOLE payload of the ten runs of 04 section 4.3. -/
theorem test_demand_payload : encodeDemand ⟨.active .drill, .normal, 45⟩ = [3, 2, 45] := by decide
theorem test_hole_payload :
    encodeHole ⟨3, 12, 3, 1200, .anchored,
        [⟨180, 20⟩, ⟨280, 60⟩, ⟨420, 20⟩, ⟨500, 20⟩, ⟨660, 40⟩, ⟨800, 20⟩, ⟨940, 20⟩, ⟨1040, 40⟩]⟩
      = [12, 49, 176, 9, 8, 180, 1, 20, 152, 2, 60, 164, 3, 20, 244, 3, 20, 148, 5, 40, 160, 6, 20, 172, 7, 20, 144, 8, 40] := by
  decide
set_option maxRecDepth 8000 in
theorem test_frame_header :
    (frameBits (buildFrame 2 3 (List.replicate 29 0))).take 13 =
        [false, false, true, false, false, true, true, false, true, true, true, false, true]
      ∧ (frameBits (buildFrame 2 3 (List.replicate 29 0))).length = 261 := by decide

/-- 11 R179: the cases of a transaction, from the bits on HSDI; a partial byte is dropped. -/
def event? (bytes : List Byte) (partialByte : List Bool) : Option Instr :=
  hostTransaction true false (bytes.flatMap bitsOf ++ partialByte)

theorem test_transactions :
    event? [] [true, true, true, true, true, true, true] = none ∧ event? [255, 1] [] = some (.fetch ⟨16, false⟩)
      ∧ event? [3] [] = some (.badFrame ⟨8, false⟩) ∧ event? [3, 0] [true] = some (.badFrame ⟨17, false⟩)
      ∧ event? [3, 0, 252] [] = some (.badFrame ⟨24, false⟩)
      ∧ event? [3, 0, 253, 255] [true, false] = some (.abort true ⟨34, false⟩)
      ∧ event? [99, 0, 157] [] = some (.badFrame ⟨24, false⟩)
      ∧ event? [3, 1, 0, 252] [] = some (.badFrame ⟨32, false⟩) := by
  decide

/-- 11 R178, R179: the empty reply 9, 0, 247 clocked out whole, with a byte of 255 and a bit after it, and cut short. -/
theorem test_hsdo :
    clockedOut 33 ⟨.none, []⟩ = ([9, 0, 247, 255] : List Byte).flatMap bitsOf ++ [true]
      ∧ clockedOut 12 ⟨.none, []⟩ = bitsOf (9 : Byte) ++ [false, false, false, false]
      ∧ State.reset.hsdoLevel true 0 = none ∧ State.reset.hsdoLevel false 4 = some true := by decide
/-- 08 R128, 12 R202: the reset record on VTX, its sync byte 90 with its start and stop bit first, and the line idle after 70
bit periods. -/
theorem test_vtx :
    (List.range 10).map State.reset.vtxLevel = [false, false, true, false, true, true, false, true, false, true]
      ∧ (setpointBits ⟨0, zeroSetpoints⟩).length = 70 ∧ State.reset.flow.onLine = true
      ∧ (State.reset.vtxLevel 60, State.reset.vtxLevel 61, State.reset.vtxLevel 69, State.reset.vtxLevel 70)
          = (false, false, true, true) := by decide
/-- 12 R200: a field's bytes, an absent item, and a set. -/
theorem test_layout :
    layout ([(4, 66051), (2, 17)] ++ markedField 2 none ++ markedField 1 (some 5) ++ [(1, memberSet [true, false, true])])
      = [0, 1, 2, 3, 0, 17, 0, 0, 0, 1, 5, 5] := by decide

/-! ### Small states -/

/-- A part with the default configuration of station 0 in a given cycle state, its hole 0 of 30 planned cells OPEN, its sample
link up, CANOPY_SET high, and the figures of the flow share unit those of the state. -/
def rig (st : CycleState) : State :=
  sendSetpoints (settle { State.reset with
    canopySet := true
    cycle := { State.reset.cycle with state := st, holeNumber := some 0, row := 1, slot := 1, planned := 30 }
    sensor := { State.reset.sensor with linkDeadline := some 20, live := ⟨true, true, false, false⟩ }
    flow := { State.reset.flow with schedule := some 250 }
    link := { State.reset.link with view := .gap, recessive := 11 }
    history := { State.reset.history with records := [newRecord 0 1 1 30], free := 994 }
    host := { State.reset.host with config := some (defaultConfiguration 0) } })

/-- The same part drilling in a cell. -/
def rigIn (p : Phase) (k : Nat) : State :=
  let s := rig (.active p)
  { s with
    assembler := { s.assembler with cell := some k, maxDepth := 200 * k }
    history := { s.history with
      records := [{ newRecord 0 1 1 30 with cells := List.replicate k ⟨.medium, 10, 100, 500, 50, false⟩ }] } }

/-- The same part suspended. -/
def rigOut (p : Phase) (c : Cause) : State :=
  let s := rig .suspended
  { s with cycle := { s.cycle with remembered := some p, cause := some c } }

/-- The same part between holes. -/
def rigIdle : State :=
  let s := rig .idle
  { s with history := { s.history with records := [], free := 1024 } }

/-- The bytes of a good sample record. -/
def srx (thrust torque speed feed : Nat) (temperature : Byte) : List SrxByte :=
  let bytes := [165, 7] ++ u16 thrust ++ u16 torque ++ u16 speed ++ u16 feed ++ [temperature]
  (bytes ++ [checkByte bytes]).map fun b => ⟨0, b, true⟩

/-- The state a command answers. -/
def next (c : Instr) (s : State) : State :=
  match exec c s with
  | .next t => t
  | _ => s

/-- The part with a sync byte in assembly and a gap since, and with all of a record but its check byte. -/
def rigMid (gap : Nat) : State :=
  { rig .idle with sensor := { (rig .idle).sensor with gap := gap, assembly := [165] } }
def rigEnd : State :=
  { rig .idle with sensor := { (rig .idle).sensor with assembly := ((srx 0 0 0 0 0).take 11).map SrxByte.value } }

/-- A cycle state of the answer to a command. -/
def goesTo (c : Instr) (s : State) : CycleState := (next c s).cycle.state

/-- The configuration record of 69 bytes with every default written out, for station 1. -/
def record69 : List Byte :=
  [0, 1, 0, 120, 25, 45, 35, 15, 40, 8, 30, 10, 15, 10, 6, 12, 3, 10, 27, 0, 1, 144, 0, 7, 208, 20, 0, 20, 1, 3, 8, 1, 44, 0,
    200, 25, 8]
    ++ [1, 44, 2, 88, 0, 250, 1, 194, 0, 200, 1, 94, 0, 160, 0, 250, 0, 130, 0, 180, 0, 100, 0, 140, 0, 80, 0, 110, 0, 70, 0,
      90]

theorem test_configure_defaults : parseConfiguration record69 = some (defaultConfiguration 1) := by decide
theorem test_configure_range :
    parseConfiguration (record69.set 1 6) = none ∧ parseConfiguration (record69.set 18 30) = none
      ∧ parseConfiguration (record69.set 33 2) = none := by decide
/-- The use-defaults mark with a station and without one, and a mark that is neither (11 R184). -/
theorem test_configure_marks :
    parseConfiguration (1 :: 5 :: List.replicate 67 0) = some (defaultConfiguration 5)
      ∧ parseConfiguration (1 :: 6 :: List.replicate 67 0) = none
      ∧ parseConfiguration (record69.set 0 2) = none := by decide

/-! ### Single steps -/

theorem test_configure_goes_idle :
    goesTo (.configure record69 host) State.reset = .idle
      ∧ (next (.configure record69 host) State.reset).link.slot = some ⟨⟨.idle, .none, 0⟩, false⟩ := by decide
theorem test_startHole_first :
    goesTo (.startHole 12 3 60 false host) rigIdle = .active .collar
      ∧ (next (.startHole 12 3 60 false host) rigIdle).host.reply = ⟨.ok, [0, 1]⟩
      ∧ (next (.startHole 12 3 60 false host) rigIdle).history.free = 964 := by decide
set_option maxRecDepth 20000 in
theorem test_collar_to_drill : goesTo (.sampleRecord (srxLine (srx 100 90 400 600 94))) (rigIn .collar 2) = .active .drill := by
  decide
set_option maxRecDepth 20000 in
theorem test_drill_crosses :
    ((next (.sampleRecord (srxLine (srx 100 90 400 1050 94))) (rigIn .drill 4)).history.records.map fun r =>
      r.cells.length) = [5] := by
  decide
set_option maxRecDepth 20000 in
theorem test_retract_ends : goesTo (.sampleRecord (srxLine (srx 0 0 0 99 94))) (rig (.active .retract)) = .active .insert := by
  decide
theorem test_resume_hold : goesTo (.resume false host) (rigOut .mix .canopy) = .active .hold := by decide
theorem test_abort_suspended_torque : goesTo (.abort false host) (rigOut .torque .canopy) = .idle := by decide
theorem test_fault_overflow :
    joinFault .stall [⟨.stall, false⟩, ⟨.stall, false⟩, ⟨.stall, false⟩, ⟨.injector, false⟩]
      = [⟨.stall, false⟩, ⟨.stall, false⟩, ⟨.stall, false⟩, ⟨.stall, true⟩] := by decide
/-- 10 section 10.3: 64 free cells and eight records of 120 cells evict one record for a hole of 90 cells. -/
theorem test_eviction :
    (evictFor 90 (List.replicate 8 { newRecord 0 0 0 120 with
      verdict := some .short, cells := List.replicate 120 (emptyCell .soft) }) 64).2.1 = 184 := by
  simp [evictFor, HoleRecord.reserved, newRecord, List.replicate]
theorem test_wrap_safe : expired 5 4294967290 = false ∧ expired 4294967290 5 = true ∧ after 4294967290 11 = 5 := by decide
theorem test_read_state_length : (stateData State.reset).length = 86 := by decide
theorem test_no_word_spells : State.reset.withFetchWord 16 0 = State.reset := by decide

/-! ### Witnesses: a state and operands that meet the hypotheses of each statement -/

theorem wit_stepRuns : ({ State.reset with pending := [.fetch host] } : State).pending = .fetch host :: [] ∧ State.reset.pending = [] := by
  decide
theorem wit_heldPart : (next .resetLine State.reset).resetHeld = true ∧ (∀ l, Instr.fetch host ≠ .powerOn l)
    ∧ Instr.fetch host ≠ .resetLine ∧ (∀ l, Instr.fetch host ≠ .resetNRise l) ∧ Instr.fetch host ≠ .timebaseTick
    ∧ (Instr.abort true ⟨24, true⟩).transaction = some ⟨24, true⟩ ∧ State.reset.resetHeld = false :=
  ⟨by decide, by simp, by decide, by simp, by decide, by decide, by decide⟩
theorem wit_resetNRise : (next .resetLine State.reset).resetHeld = true := by decide
theorem wit_deadlines : expired 1 0 = false ∧ expired 2147483647 0 = false ∧ expired 0 0 = true ∧ expired 2147483648 0 = true := by
  decide
theorem wit_timers : expired 20000 0 = false := by decide
theorem wit_goodRecord :
    (rig .idle).resetHeld = false ∧ (rig .idle).sensor.receiver = .idle ∧ (rig .idle).sensor.assembly = []
      ∧ goodRecord (srx 601 1024 1023 30000 40) = true
      ∧ rawSample ((srx 601 1024 1023 30000 40).map SrxByte.value) = some ⟨7, 601, 1024, 1023, 30000, -40⟩
      ∧ (rig .idle).cycle.state = .idle := by decide
set_option maxRecDepth 20000 in
theorem wit_records :
    byteSum (((srx 0 0 0 0 0).map SrxByte.value).set 11 0) ≠ 0 ∧ ((srx 0 0 0 0 0).map SrxByte.value).head? = some 165
      ∧ (rig .idle).sensor.receiver = .idle ∧ (rig .idle).sensor.assembly = []
      ∧ ((rigMid 460).sensor.receiver, (rigMid 460).sensor.gap, (rigMid 460).sensor.assembly) = (.idle, 460, [165])
      ∧ (rigEnd.sensor.receiver, rigEnd.sensor.assembly.length) = (.idle, 11)
      ∧ (next (.sampleRecord (srxLine [⟨0, 165, false⟩])) (rig .idle)).sensor.receiver = .low
      ∧ (next (.sampleRecord [false, true]) (rig .idle)).sensor.receiver = .byte [true] := by decide
/-- A record in assembly that the gap before the next byte discards, at its last position and at its first. -/
theorem wit_hunting :
    Hunting (rig .idle) (srx 601 1024 1023 30000 40) ∧ Hunting (rigMid 460) [⟨1, 165, true⟩]
      ∧ Hunting (rigMid 0) [⟨461, 165, true⟩] ∧ ¬Hunting (rigMid 460) [⟨0, 165, true⟩] :=
  ⟨⟨by decide, .inl (by decide)⟩, ⟨by decide, .inr ⟨by decide, by simp [rigMid]⟩⟩,
    ⟨by decide, .inr ⟨by decide, by simp⟩⟩, by
      rintro ⟨_, none | ⟨_, late⟩⟩
      · exact absurd none (by decide)
      · exact absurd (late _ rfl) (by decide)⟩
set_option maxRecDepth 20000 in
/-- 460 bit periods between two bytes keep the record in assembly, and 461 discard it (02 R29). -/
theorem test_srxGap :
    (next (.sampleRecord (srxLine [⟨0, 165, true⟩] ++ List.replicate 3 true)) (rig .idle)).sensor = (rigMid 3).sensor
      ∧ (next (.sampleRecord (srxLine [⟨460, 7, true⟩])) (rigMid 0)).sensor.assembly = [165, 7]
      ∧ (next (.sampleRecord (srxLine [⟨461, 7, true⟩])) (rigMid 0)).sensor.assembly = []
      ∧ (next (.sampleRecord [true]) (rigMid 460)).sensor.assembly = []
      ∧ (next (.sampleRecord (srxLine [⟨0, 7, true⟩])) (rigMid 460)).sensor.assembly = [165, 7]
      ∧ (next (.sampleRecord (srxLine [⟨0, 7, true⟩])) (rigMid 460)).sensor.gap = 0 := by decide
set_option maxRecDepth 20000 in
/-- The byte 165 on SRX, start bit, data bits and stop bit, and what the receiver makes of a low stop bit (02 R29, log 29). -/
theorem test_srxFraming :
    srxLine [⟨0, 165, true⟩] = [false, true, false, true, false, false, true, false, true, true]
      ∧ srxValue [true, true, true, false, false, false, false, false] = 7
      ∧ (next (.sampleRecord (srxLine [⟨0, 7, false⟩])) (rigMid 0)).sensor.assembly = []
      ∧ (next (.sampleRecord ([false, false, true] ++ srxLine [⟨0, 165, true⟩]))
          (next (.sampleRecord (srxLine [⟨0, 7, false⟩])) (rigMid 0))).sensor.assembly = [165] := by decide
theorem wit_pulse :
    (rig (.active .mix)).resetHeld = false ∧ (rig (.active .mix)).cycle.state = .active .mix
      ∧ (rig (.active .mix)).resin.quarterRevs + 1 < 4 * (rig (.active .mix)).cfg.mixRevolutions
      ∧ 4 * (rig (.active .mix)).cfg.mixRevolutions ≤ 99 + 1 ∧ 4 * (rig (.active .torque)).cfg.spinnerLimit ≤ 31 + 1
      ∧ (rig (.active .torque)).cycle.state = .active .torque
      ∧ (rig .idle).sensor.latched = false ∧ (rig .idle).sensor.live.pulseActive = false
      ∧ (next .rotPulse (rig .idle)).sensor.latched = true := by decide
theorem wit_pulseDeadline :
    deadlineDue (some 0) 0 = true ∧ deadlineDue none 0 = false
      ∧ (next .rotPulse (rig .idle)).sensor.live.pulseActive = true ∧ (next .rotPulse (rig .idle)).sensor.latched = true
      ∧ (rig .idle).sensor.latched = false := by decide
theorem wit_linkDeadline :
    let s := { rigIn .drill 3 with sensor := { (rigIn .drill 3).sensor with linkDeadline := some 0 } }
    s.resetHeld = false ∧ CycleSound s ∧ deadlineDue s.sensor.linkDeadline s.now = true ∧ s.assembler.cell.isSome = true
      ∧ s.cycle.state = .active .drill ∧ Phase.drill.needsLink = true ∧ s.sensor.latched = false
      ∧ s.sensor.live.linkUp = true ∧ (next .rotPulse s).sensor.latched = true :=
  ⟨by decide, by constructor <;> decide, by decide, by decide, by decide, by decide, by decide, by decide, by decide⟩
theorem wit_linkDeadline_otherPhase :
    let s := { rig (.active .mix) with sensor := { (rig (.active .mix)).sensor with linkDeadline := some 0 } }
    CycleSound s ∧ deadlineDue s.sensor.linkDeadline s.now = true ∧ s.assembler.cell = none ∧ Phase.mix.needsLink = false :=
  ⟨by constructor <;> decide, by decide, by decide, by decide⟩

/-- The last feed position of a cell, and of a hole of 30 cells, and the first beyond. -/
theorem wit_sampleIsAccumulated :
    (rigIn .drill 4).resetHeld = false ∧ (rigIn .drill 4).sensor.receiver = .idle
      ∧ (rigIn .drill 4).sensor.assembly = [] ∧ goodRecord (srx 100 90 400 999 94) = true
      ∧ rawSample ((srx 100 90 400 999 94).map SrxByte.value) = some ⟨7, 100, 90, 400, 999, 14⟩
      ∧ (rigIn .drill 4).cycle.state = .active .drill ∧ (rigIn .drill 4).assembler.cell = some 4 ∧ 999 < (4 + 1) * 200
      ∧ 999 < (rigIn .drill 4).cycle.planned * 200
      ∧ (rigIn .drill 4).assembler.maxDepth < (rigIn .drill 4).cycle.planned * 200 := by decide
/-- The same part drilling in cell 4 with a reference of the stall window. -/
def rigStall (reference : Nat) : State :=
  { rigIn .drill 4 with
    assembler := { (rigIn .drill 4).assembler with stallRef := reference, stallWindow := .paused 1500 } }

/-- The maximum depth 9 and 10 above the reference of the stall window. -/
theorem wit_sampleIsAccumulated_stall :
    FlowSound (rigStall 990) ∧ TimersSound (rigStall 990)
      ∧ max (rigStall 990).assembler.maxDepth 999 < (rigStall 990).assembler.stallRef + 10
      ∧ (rigStall 989).assembler.stallRef + 10 ≤ max (rigStall 989).assembler.maxDepth 999 :=
  ⟨by constructor <;> decide, by constructor <;> decide, by decide, by decide⟩
theorem wit_sampleIsAccumulated_collar :
    (rigIn .collar 2).cycle.state = .active .collar ∧ (rigIn .collar 2).assembler.cell = some 2
      ∧ max (rigIn .collar 2).assembler.maxDepth 599 < 600 := by decide
theorem wit_crossing :
    goodRecord (srx 100 90 400 1000 94) = true ∧ (5 : Nat) = 1000 / 200 ∧ 4 < 5 ∧ 5 < (rigIn .drill 4).cycle.planned
      ∧ (∀ r ∈ (rigIn .drill 4).history.records,
          r.isOpen = true → r.cells.length = 4 ∧ r.planned = (rigIn .drill 4).cycle.planned) := by decide
/-- A COLLAR sample over a boundary below 600, and one that reaches 600 from the last cell COLLAR opens. -/
theorem wit_crossing_collar :
    (rigIn .collar 1).assembler.cell = some 1 ∧ max (rigIn .collar 1).assembler.maxDepth 599 < 600 ∧ (2 : Nat) = 599 / 200
      ∧ FlowSound (rigIn .collar 1) ∧ TimersSound (rigIn .collar 1)
      ∧ (rigIn .collar 2).assembler.cell = some 2 ∧ 600 ≤ max (rigIn .collar 2).assembler.maxDepth 600
      ∧ (3 : Nat) = 600 / 200 :=
  ⟨by decide, by decide, by decide, by constructor <;> decide, by constructor <;> decide, by decide, by decide, by decide⟩
/-- A DRILL sample over the boundary at 1,000 with the maximum depth 9 and 10 above the reference of the stall window. -/
theorem wit_crossing_stall :
    FlowSound (rigStall 991) ∧ TimersSound (rigStall 991)
      ∧ max (rigStall 991).assembler.maxDepth 1000 < (rigStall 991).assembler.stallRef + 10
      ∧ (rigStall 990).assembler.stallRef + 10 ≤ max (rigStall 990).assembler.maxDepth 1000 :=
  ⟨by constructor <;> decide, by constructor <;> decide, by decide, by decide⟩
set_option maxRecDepth 20000 in
/-- The full stall window at the entry to DRILL and at a crossing 10 above the reference, and the window left at 9. -/
theorem test_crossing_timers :
    let sample := Instr.sampleRecord (srxLine (srx 100 90 400 1000 94))
    let ends := next (.sampleRecord (srxLine (srx 100 90 400 600 94)))
      { rigIn .collar 2 with cycle := { (rigIn .collar 2).cycle with collarTimer := .paused 1500 } }
    let window := fun (s : State) => (s.assembler.stallRef, s.assembler.stallWindow)
    ends.cycle.collarTimer = .disarmed ∧ window ends = (600, .paused 2000)
      ∧ window (next sample (rigStall 990)) = (1000, .paused 2000) ∧ window (next sample (rigStall 991)) = (991, .paused 1500) := by
  decide
theorem wit_plannedDepth :
    goodRecord (srx 100 90 400 6000 94) = true ∧ (rigIn .drill 4).cycle.planned * 200 ≤ 6000
      ∧ (rigIn .drill 4).history.records.filter HoleRecord.isOpen = (rigIn .drill 4).history.records
      ∧ ((rigIn .drill 4).history.records.map fun r => (r.cells.length, r.planned)) = [(4, 30)]
      ∧ 30 ≤ (rigIn .drill 4).cycle.planned := by decide
theorem wit_energy : 1 ≤ 4095 ∧ 4285536255 ≤ 4095 * (1023 * 1023) ∧ 2457000 ≤ 4095 * 600 := by decide
theorem wit_evaluation :
    (List.replicate 30 (emptyCell .void)).length = 30 ∧ (defaultConfiguration 0).inRange = true := by decide
theorem wit_retract :
    (rig (.active .retract)).resetHeld = false ∧ (rig (.active .retract)).cycle.state = .active .retract
      ∧ (rig (.active .retract)).sensor.receiver = .idle ∧ (rig (.active .retract)).sensor.assembly = []
      ∧ (rig (.active .retract)).resin.stroke ≠ .inProgress ∧ (rig (.active .retract)).cycle.pendingVerdict = none
      ∧ rawSample ((srx 0 0 0 99 94).map SrxByte.value) = some ⟨7, 0, 0, 0, 99, 14⟩
      ∧ goodRecord (srx 0 0 0 99 94) = true ∧ goodRecord (srx 0 0 0 100 94) = true := by decide
set_option maxRecDepth 20000 in
/-- INSERT entered with two cartridges to push, while the valve flows and while it does not. -/
theorem wit_retract_firstStroke :
    let s := { rig (.active .retract) with anchor := ⟨0, 0, 0, .charge, some 2, some 300⟩ }
    s.anchor.outcome ≠ .reject ∧ 0 < s.anchor.charge.getD 0 ∧ s.cycle.abortPending = false
      ∧ (next (.sampleRecord (srxLine (srx 0 0 0 99 94))) (next .valveReadyRise s)).cycle.held = false
      ∧ (next (.sampleRecord (srxLine (srx 0 0 0 99 94))) s).cycle.held = true := by decide
theorem wit_drillingTimeouts :
    let s := { rigIn .collar 1 with cycle := { (rigIn .collar 1).cycle with collarTimer := .running 0 } }
    s.resetHeld = false ∧ CycleSound s ∧ s.cycle.state = .active .collar ∧ s.cycle.collarTimer.due s.now = true :=
  ⟨by decide, by constructor <;> decide, by decide, by decide⟩
theorem wit_stall :
    let s := { rigIn .drill 5 with assembler := { (rigIn .drill 5).assembler with stallWindow := .running 0 } }
    s.resetHeld = false ∧ CycleSound s ∧ s.cycle.state = .active .drill ∧ s.assembler.stallWindow.due s.now = true :=
  ⟨by decide, by constructor <;> decide, by decide, by decide⟩
theorem wit_timeouts :
    let s := { rig (.active .retract) with cycle := { (rig (.active .retract)).cycle with retractTimer := .running 0 } }
    s.resetHeld = false ∧ CycleSound s ∧ s.cycle.state = .active .retract ∧ s.cycle.retractTimer.due s.now = true
      ∧ (rig (.active .torque)).cycle.state = .active .torque ∧ (Timer.running 0).due 0 = true :=
  ⟨by decide, by constructor <;> decide, by decide, by decide, by decide, by decide⟩
theorem wit_canopyFall :
    (rig (.active .insert)).resetHeld = false ∧ CycleSound (rig (.active .insert)) ∧ (rig (.active .insert)).canopySet = true
      ∧ (rig (.active .insert)).cycle.state = .active .insert ∧ (rig (.active .insert)).cycle.abortPending = false :=
  ⟨by decide, by constructor <;> decide, by decide, by decide, by decide⟩

/-- The same part with a stroke in progress. -/
def rigStroke (abort retry : Bool) : State :=
  let s := rig (.active .insert)
  { s with
    cycle := { s.cycle with abortPending := abort }
    resin := { s.resin with
      charge := some 2, pushed := 1, stroke := .inProgress, strokeTimer := .running 0, retry := retry } }

theorem wit_canopyFall_abortPending :
    CycleSound (rigStroke true false) ∧ (rigStroke true false).canopySet = true
      ∧ (rigStroke true false).cycle.state = .active .insert ∧ (rigStroke true false).cycle.abortPending = true :=
  ⟨by constructor <;> decide, by decide, by decide, by decide⟩

theorem flowSound_rig (p : Phase) : FlowSound (rig (.active p)) := by cases p <;> constructor <;> decide

theorem wit_valveReady :
    FlowSound (rig (.active .drill)) ∧ (rig (.active .drill)).valveReady = false
      ∧ (rig (.active .drill)).flow.interlock = .waitReady
      ∧ FlowSound (next .valveReadyRise (rig (.active .drill)))
      ∧ (next .valveReadyRise (rig (.active .drill))).flow.interlock = .flowing
      ∧ (next .valveReadyRise (rig (.active .drill))).valveReady = true
      ∧ (next .canopySetFall (next .valveReadyRise (rig (.active .drill)))).flow.interlock = .releasing :=
  ⟨flowSound_rig .drill, by decide, by decide, by constructor <;> decide, by decide, by decide, by decide⟩
/-- A state with two cartridges to push and a stroke. -/
def withStroke (s : State) (stroke : StrokeState) (timer : Timer) : State :=
  { s with resin := { s.resin with charge := some 2, stroke := stroke, strokeTimer := timer } }

/-- INSERT in WAIT_READY: no stroke started yet, one interrupted, and one in progress that the fall paused. -/
theorem wit_valveReady_insert :
    let at_ := withStroke (rig (.active .insert))
    FlowSound (at_ .idle .disarmed) ∧ FlowSound (at_ .interrupted (.paused 1500)) ∧ FlowSound (at_ .inProgress (.paused 1500))
      ∧ (at_ .idle .disarmed).flow.interlock = .waitReady ∧ (at_ .idle .disarmed).cycle.state = .active .insert
      ∧ (at_ .idle .disarmed).cycle.abortPending = false ∧ (at_ .idle .disarmed).resin.gap = none
      ∧ (at_ .idle .disarmed).resin.pushed < (at_ .idle .disarmed).resin.charge.getD 0 :=
  ⟨by constructor <;> decide, by constructor <;> decide, by constructor <;> decide, by decide, by decide, by decide,
    by decide, by decide⟩
/-- DRILL with the stall window paused in WAIT_READY, and running in FLOWING, to its target and past it. -/
def rigWindow (timer : Timer) : State :=
  { rig (.active .drill) with assembler := { (rig (.active .drill)).assembler with stallWindow := timer } }
def rigFlowing (now : Time) : State :=
  let s := next .valveReadyRise (rigWindow (.paused 1500))
  { s with cycle := { s.cycle with timebase := now } }

theorem wit_valveReady_timers :
    FlowSound (rigWindow (.paused 1500)) ∧ FlowSound (rigFlowing 600) ∧ FlowSound (rigFlowing 1500)
      ∧ (rigFlowing 600).assembler.stallWindow = .running 1500 ∧ expired 1500 (rigFlowing 600).now = false
      ∧ expired 1500 (rigFlowing 1500).now = true
      ∧ (next .valveReadyFall (rigFlowing 600)).assembler.stallWindow = .paused 900
      ∧ (next .valveReadyFall (rigFlowing 1500)).assembler.stallWindow = .paused 0 :=
  ⟨by constructor <;> decide, by constructor <;> decide, by constructor <;> decide, by decide, by decide, by decide, by decide,
    by decide⟩
theorem wit_recordEnd :
    (rig (.active .drill)).flow.onLine = true
      ∧ (rig (.active .drill)).flow.lastSent.map SetpointRecord.setpoints = some (setpointsNow (rig (.active .drill)))
      ∧ (next .valveReadyRise (rig (.active .drill))).flow.lastSent.map SetpointRecord.setpoints
          ≠ some (setpointsNow (next .valveReadyRise (rig (.active .drill)))) := by decide
theorem wit_allowance :
    40 + peerSum .critical [peer 1 .critical 80] ≤ 120
      ∧ 30 + peerSum .critical [peer 1 .critical 80] + peerSum .firm [peer 1 .critical 80] ≤ 120
      ∧ (rig .idle).cycle.state.isActive = false := by decide
theorem wit_strokeDone :
    (rigStroke false false).resetHeld = false ∧ CycleSound (rigStroke false false)
      ∧ (rigStroke false false).resin.stroke = .inProgress ∧ (rigStroke false false).cycle.abortPending = false
      ∧ (rigStroke false false).resin.charge = some ((rigStroke false false).resin.pushed + 1)
      ∧ (rigStroke true false).cycle.abortPending = true :=
  ⟨by decide, by constructor <;> decide, by decide, by decide, by decide, by decide⟩
theorem wit_strokeTimeout :
    CycleSound (rigStroke false true) ∧ (rigStroke false true).resin.strokeTimer.due (rigStroke false true).now = true
      ∧ (rigStroke false true).resin.retry = true ∧ (rigStroke false false).resin.retry = false :=
  ⟨by constructor <;> decide, by decide, by decide, by decide⟩
theorem wit_gap_interrupted :
    let s := next .valveReadyRise { rig (.active .insert) with
      resin := { (rig (.active .insert)).resin with
        charge := some 2, gap := some 0, stroke := .interrupted, strokeTimer := .paused 1500 } }
    FlowSound s ∧ CycleSound s ∧ deadlineDue s.resin.gap s.now = true ∧ s.cycle.held = false
      ∧ s.resin.stroke = .interrupted ∧ s.resin.strokeTimer = .paused 1500 ∧ (rig .idle).resin.stroke ≠ .inProgress :=
  ⟨by constructor <;> decide, by constructor <;> decide, by decide, by decide, by decide, by decide, by decide⟩
theorem wit_gap :
    let s := next .valveReadyRise { rig (.active .insert) with
      resin := { (rig (.active .insert)).resin with charge := some 2, gap := some 0 } }
    FlowSound s ∧ CycleSound s ∧ deadlineDue s.resin.gap s.now = true ∧ s.cycle.state = .active .insert ∧ s.cycle.held = false
      ∧ s.cycle.abortPending = false ∧ s.resin.pushed < s.resin.charge.getD 0 ∧ s.resin.stroke = .idle :=
  ⟨by constructor <;> decide, by constructor <;> decide, by decide, by decide, by decide, by decide, by decide, by decide⟩
theorem wit_gelDeadlines :
    deadlineDue (some 0) 0 = true ∧ (rig (.active .mix)).cycle.state = .active .mix ∧ (rig (.active .mix)).resetHeld = false
      ∧ (rigOut .hold .canopy).cycle.state = .suspended ∧ (rigOut .hold .canopy).cycle.remembered = some .hold
      ∧ (rig (.active .hold)).cycle.state = .active .hold ∧ (rig (.active .hold)).resin.stroke ≠ .inProgress
      ∧ (rig (.active .hold)).sensor.live.linkUp = true := by decide

/-- The same part in TORQUE with the figures of the target 300. -/
def rigTorque : State :=
  let s := rig (.active .torque)
  { s with torque := { s.torque with
      target := some 300, ceiling := some 345, near := some 270, entered := true, timer := .paused 15000 } }

theorem wit_torqueFigures : 50 ≤ 50 ∧ 800 ≤ 800 ∧ nearOf 50 < 50 ∧ 50 < ceilingOf 50 := by decide
theorem wit_torqueSample :
    rigTorque.resetHeld = false ∧ rigTorque.sensor.receiver = .idle ∧ rigTorque.sensor.assembly = []
      ∧ goodRecord (srx 0 300 0 0 94) = true
      ∧ rawSample ((srx 0 300 0 0 94).map SrxByte.value) = some ⟨7, 0, 300, 0, 0, 14⟩
      ∧ rawSample ((srx 0 299 0 0 94).map SrxByte.value) = some ⟨7, 0, 299, 0, 0, 14⟩
      ∧ rigTorque.cycle.state = .active .torque ∧ rigTorque.torque.target = some 300 ∧ rigTorque.torque.ceiling = some 345
      ∧ rigTorque.torque.near = some 270 ∧ rigTorque.resin.stroke ≠ .inProgress := by decide
theorem wit_configure :
    FlowSound State.reset ∧ TimersSound State.reset ∧ host.cut = false ∧ record69.length = 69
      ∧ State.reset.cycle.state = .unconfigured ∧ State.reset.resetHeld = false
      ∧ parseConfiguration record69 = some (defaultConfiguration 1) ∧ (Status.badState : Status) ≠ .ok :=
  ⟨by constructor <;> decide, by constructor <;> decide, by decide, by decide, by decide, by decide, by decide, by decide⟩
/-- The default record is admitted, and one with a bit size of 30 is not. -/
theorem wit_recordAdmitted :
    RecordAdmitted (fun i => (record69.getD i 0).toNat) ∧ (record69.getD 0 0).toNat = 0
      ∧ ¬RecordAdmitted (fun i => ((record69.set 18 30).getD i 0).toNat) ∧ ((record69.set 18 30).getD 0 0).toNat = 0 :=
  ⟨by constructor <;> decide, by decide, fun admitted => absurd admitted.bitSize (by decide), by decide⟩

theorem historySound_rigIdle : HistorySound rigIdle := by constructor <;> decide

theorem wit_startHole :
    rigIdle.resetHeld = false ∧ HistorySound rigIdle ∧ rigIdle.cycle.state = .idle ∧ (4095#16).toNat ≤ 4095
      ∧ (7#8).toNat ≤ 7 ∧ 30 ≤ (30#8).toNat ∧ (128#8).toNat ≤ 128 ∧ (rigIdle.canopySet || false) = true
      ∧ rigIdle.muted = false ∧ (1 : HoleNo) = (match rigIdle.cycle.holeNumber with | none => 0 | some m => m + 1) :=
  ⟨by decide, historySound_rigIdle, by decide, by decide, by decide, by decide, by decide, by decide, by decide, by decide⟩

/-- The same part between holes with a full ring, the oldest record selected. -/
def rigFullRing : State :=
  { rigIdle with
    cycle := { rigIdle.cycle with holeNumber := some 15 }
    history := { rigIdle.history with
      records := (List.range 16).map fun n => { newRecord (BitVec.ofNat 16 n) 1 1 30 with
        verdict := some .short, cells := List.replicate 5 ⟨.medium, 10, 100, 500, 50, false⟩ }
      free := 944, selection := .hole 0 } }

set_option maxRecDepth 8000 in
theorem wit_startHole_evicts :
    HistorySound rigFullRing ∧ rigFullRing.cycle.state = .idle ∧ rigFullRing.history.selection = .hole 0
      ∧ (next (.startHole 1 1 30 false host) rigFullRing).history.selection = .gone 0
      ∧ (next (.startHole 1 1 30 false host) rigFullRing).history.records.length = 16 :=
  ⟨by constructor <;> decide, by decide, by decide, by decide, by decide⟩
theorem wit_startHole_refused :
    (rig (.active .drill)).cycle.state ≠ .idle ∧ 4095 < (4096#16).toNat ∧ 7 < (8#8).toNat ∧ (29#8).toNat < 30
      ∧ 128 < (129#8).toNat := by decide
theorem wit_abort :
    CycleSound (rig (.active .collar)) ∧ CycleSound (rigStroke false false) ∧ CycleSound (rig (.active .retract))
      ∧ CycleSound (rig .decide) ∧ (rig .decide).cycle.state = .decide ∧ rigIdle.cycle.state = .idle :=
  ⟨by constructor <;> decide, by constructor <;> decide, by constructor <;> decide, by constructor <;> decide, by decide,
    by decide⟩
/-- A drilling hole with samples in the fifth cell. -/
theorem wit_abort_drilling :
    let s := { rigIn .drill 4 with assembler := { (rigIn .drill 4).assembler with n := 3, rotary := 30, thrust := 30 } }
    CycleSound s ∧ s.cycle.state = .active .drill ∧ s.assembler.cell.isSome = true ∧ 0 < s.assembler.n
      ∧ (s.history.records.map fun r => (r.isOpen, decide (r.cells.length < r.planned))) = [(true, true)] :=
  ⟨by constructor <;> decide, by decide, by decide, by decide, by decide⟩
theorem wit_abortSuspended :
    CycleSound (rigOut .retract .stuck) ∧ (rigOut .retract .stuck).cycle.state = .suspended
      ∧ (rigOut .retract .stuck).cycle.remembered = some .retract ∧ (rigOut .retract .stuck).muted = false
      ∧ (rigOut .retract .stuck).canopySet = true ∧ (rigOut .retract .stuck).sensor.live.linkUp = true
      ∧ CycleSound (rigOut .collar .canopy) ∧ CycleSound (rigOut .torque .canopy) :=
  ⟨by constructor <;> decide, by decide, by decide, by decide, by decide, by decide, by constructor <;> decide,
    by constructor <;> decide⟩
theorem wit_resume :
    CycleSound (rigOut .drill .sensor) ∧ TimersSound (rigOut .drill .sensor)
      ∧ (rigOut .drill .sensor).cycle.state = .suspended ∧ (rigOut .drill .sensor).cycle.remembered = some .drill
      ∧ ((rigOut .drill .sensor).canopySet || false) = true ∧ (rigOut .drill .sensor).sensor.live.linkUp = true
      ∧ (rigOut .drill .sensor).muted = false ∧ (rigOut .drill .sensor).torque.timer ≠ .paused 0 :=
  ⟨by constructor <;> decide, by constructor <;> decide, by decide, by decide, by decide, by decide, by decide, by decide⟩

/-- A remembered INSERT with a stroke still to start, and with one interrupted. -/
theorem wit_resume_insert :
    let at_ := withStroke (rigOut .insert .canopy)
    CycleSound (at_ .idle .disarmed) ∧ TimersSound (at_ .idle .disarmed) ∧ CycleSound (at_ .interrupted (.paused 1500))
      ∧ TimersSound (at_ .interrupted (.paused 1500)) ∧ (at_ .idle .disarmed).resin.gap = none
      ∧ (at_ .idle .disarmed).resin.pushed < (at_ .idle .disarmed).resin.charge.getD 0 :=
  ⟨by constructor <;> decide, by constructor <;> decide, by constructor <;> decide, by constructor <;> decide, by decide,
    by decide⟩

/-- A remembered TORQUE entered before, with what was left of its timer, and a remembered HOLD that passed before TORQUE was
entered. -/
theorem wit_resume_torque :
    let again := { rigOut .torque .canopy with
      torque := { rigTorque.torque with timer := .paused 5000, spinner := 3, peak := 250 } }
    let first := { rigOut .hold .canopy with
      anchor := ⟨0, 0, 0, .charge, some 2, some 300⟩
      resin := { (rigOut .hold .canopy).resin with holdPassed := true } }
    CycleSound again ∧ TimersSound again ∧ again.torque.entered = true ∧ again.sensor.live.linkUp = true
      ∧ CycleSound first ∧ TimersSound first ∧ first.torque.entered = false
      ∧ (next (.resume false host) again).torque.timer = .paused 5000
      ∧ (next (.resume false host) first).torque =
          ⟨some 300, some 345, some 270, true, .paused 15000, 0, 0, false, false⟩ :=
  ⟨by constructor <;> decide, by constructor <;> decide, by decide, by decide, by constructor <;> decide,
    by constructor <;> decide, by decide, by decide, by decide⟩

/-- A suspended part whose timers ran out in the millisecond of the suspension, with the interlock back at OFF and
VALVE_READY high. -/
def rigZero (p : Phase) (retry : Bool) : State :=
  let s := rigOut p .canopy
  { s with
    valveReady := true
    torque := { s.torque with entered := true, timer := .paused 0 }
    resin := { s.resin with
      charge := some 2, pushed := 1, stroke := .interrupted, strokeTimer := .paused 0, retry := retry } }

theorem wit_resume_zero :
    CycleSound (rigZero .torque false) ∧ FlowSound (rigZero .torque false)
      ∧ flowsAtOnce (rigZero .torque false) .torque = true ∧ (rigZero .torque false).torque.timer = .paused 0
      ∧ CycleSound (rigZero .insert true) ∧ FlowSound (rigZero .insert true)
      ∧ flowsAtOnce (rigZero .insert true) .insert = true ∧ (rigZero .insert true).resin.gap = none
      ∧ flowsAtOnce { rigZero .insert false with valveReady := false } .insert = false :=
  ⟨by constructor <;> decide, by constructor <;> decide, by decide, by decide, by constructor <;> decide,
    by constructor <;> decide, by decide, by decide, by decide⟩
/-- A hole that a remainder of 0 completes leaves the interlock RELEASING, with no setpoint record sent (log 31). -/
theorem test_resume_zero_interlock :
    let flow := fun (s : State) => (s.flow.interlock, s.flow.releaseDeadline, s.flow.lastSent, s.flow.sequence)
    let before := rigZero .torque false
    flow (next (.resume false host) before) = (.releasing, some 500, before.flow.lastSent, before.flow.sequence)
      ∧ flow (next (.resume false host) (rigZero .insert true))
          = (.releasing, some 500, before.flow.lastSent, before.flow.sequence) := by decide
theorem wit_decide : (rig .decide).resetHeld = false ∧ (rig .decide).cycle.state = .decide
    ∧ ((rig .decide).canopySet || false) = true ∧ (rig .decide).muted = false ∧ (rig .decide).cycle.abortPending = false
    ∧ (next (.proceed false host) { rig .decide with valveReady := true }).cycle.held = false
    ∧ (next (.proceed false host) (rig .decide)).cycle.held = true := by decide
theorem wit_reads : (rig .idle).resetHeld = false ∧ (rig .idle).host.stack.length ≤ 5 ∧ 15 < (16#8).toNat
    ∧ ¬15 < (15#8).toNat := by decide
theorem wit_unlatch :
    let s := next (.readSensors host) (next .rotPulse (rig .idle))
    s.sensor.latched = true ∧ s.sensor.readMark = true ∧ s.sensor.live = s.sensor.snapshot
      ∧ (next .linkDeadlineExpiry { s with sensor := { s.sensor with linkDeadline := some 0 } }).sensor.live
          ≠ s.sensor.snapshot := by decide

/-- The same part with three finished records, numbers 65,535, 0 and 1. -/
def rigRing (sel : Selection) (pointer : Nat) : State :=
  let done := fun (n : HoleNo) => { newRecord n 1 1 30 with
    verdict := some .short, cells := List.replicate 5 ⟨.medium, 10, 100, 500, 50, false⟩ }
  { rigIdle with
    history := { records := [done 65535, done 0, done 1], free := 1009, selection := sel, pointer := pointer } }

theorem wit_selectHole :
    (rigRing .none 0).history.records.head?.map HoleRecord.number = some 65535
      ∧ ((rigRing .none 0).history.records[((1 : HoleNo) - 65535).toNat]?).isSome = true
      ∧ (rigRing .none 0).history.records.length ≤ ((2 : HoleNo) - 65535).toNat
      ∧ (rigRing .none 0).history.records.length ≤ ((65534 : HoleNo) - 65535).toNat
      ∧ rigIdle.history.records = [] := by decide
theorem wit_readCells :
    (rigRing (.hole 0) 5).history.selection = .hole 0 ∧ ((rigRing (.hole 0) 5).history.present 0).isSome = true
      ∧ (((rigRing (.hole 0) 5).history.present 0).map fun r => r.cells.length) = some 5 ∧ (8#8).toNat ≤ 8
      ∧ 1 ≤ (1#8).toNat ∧ (0#8).toNat < 1 ∧ 8 < (9#8).toNat ∧ 1 < (2#8).toNat := by decide

/-- The same part with pending sources and a stack. -/
def rigAttention (stack : List Source) (faults : List FaultEntry) (raised : Raised) : State :=
  { rigRing .none 0 with host := { rigIdle.host with stack := stack, faults := faults, raised := raised } }

theorem wit_attention :
    (rigAttention [.history] [⟨.stall, false⟩] ⟨true, true, true, true⟩).host.isPending .fault = true
      ∧ Source.fault.priority < Source.history.priority
      ∧ (rigAttention [.holeDone] [] ⟨true, false, false, true⟩).host.isPending .decide = true
      ∧ (rigAttention [] [] ⟨false, true, false, true⟩).host.isPending .holeDone = true
      ∧ (rigAttention [] [] ⟨false, false, true, true⟩).host.isPending .watch = true
      ∧ (rigAttention [] [] ⟨false, false, false, true⟩).host.isPending .history = true
      ∧ (rigAttention [.fault] [] ⟨false, true, false, true⟩).attnLow = false
      ∧ (rigAttention [] [] ⟨false, false, false, true⟩).cycle.holeNumber = some 0 := by decide
theorem wit_setWatch : 1 < (2#8).toNat ∧ (1#8).toNat ≤ 1
    ∧ (Watch.ofBytes 8 0 0 (watchInputs (rig .idle))).y
        = (Watch.ofBytes 8 0 0 (watchInputs (rig .idle))).value (watchInputs (rig .idle)) := by decide
theorem wit_watchEvent :
    watchInputs (event rigTorque { rigTorque with torque := { rigTorque.torque with torqueNear := true } })
        ≠ watchInputs rigTorque
      ∧ watchInputs (event rigTorque rigTorque) = watchInputs rigTorque := by decide
theorem wit_flowDeadlines :
    let s := { rig .idle with flow := { (rig .idle).flow with
      interlock := .releasing, releaseDeadline := some 0, schedule := some 0
      peers := [{ peer 1 .firm 8 with staleDeadline := some 0, removalDeadline := 0 }] } }
    s.resetHeld = false ∧ s.flow.interlock = .releasing ∧ deadlineDue s.flow.releaseDeadline s.now = true
      ∧ s.flow.schedule = some 0 ∧ expired 0 s.now = true
      ∧ (s.flow.peers.map fun p => (p.station, expired p.removalDeadline s.now)) = [(1, true)] := by decide

/-- Good frames of stations 3 and 0, and their discarded forms. -/
def demandOf (station : Nat) : LinkFrame := buildFrame 1 station [3, 2, 45]
def holeOf (station : Nat) : LinkFrame := buildFrame 2 station [1, 17, 100, 1, 40, 20]

/-- The same part after 20 bits of a frame of station 3, which it follows. -/
def rigFollowing : State := next (.demandFrameReceived ((frameBits (demandOf 3)).take 20)) (rig .idle)

/-- The same part in a phase with a full neighbour table, of which the oldest entry alone qualifies. -/
def rigFullTable (p : Phase) : State :=
  { rig (.active p) with
    neighbours := { (rig (.active p)).neighbours with
      entries := (List.range 16).map fun i => ⟨3, 1 + 100 * i, 1, 100, .anchored, [⟨40, 20⟩]⟩ } }

/-- A hole of station 3 far from the present one, by its row. -/
def farHole (row : Nat) : HoleNotice := ⟨3, row, 1, 100, .anchored, []⟩

set_option maxRecDepth 20000 in
theorem wit_goodFrames :
    (rig .idle).resetHeld = false ∧ crcGood (demandOf 3) = true ∧ (demandOf 3).payload.length ≤ 40
      ∧ (demandOf 3).station.toNat ≤ 5 ∧ (demandOf 3).station.toNat ≠ (rig .idle).cfg.station
      ∧ decodeDemand (demandOf 3).payload = some ⟨.active .drill, .normal, 45⟩
      ∧ (rig .idle).flow.peers = [] ∧ crcGood (holeOf 3) = true
      ∧ decodeHole 3 (holeOf 3).payload = some ⟨3, 1, 1, 100, .anchored, [⟨40, 20⟩]⟩
      ∧ qualifies 1 1 ⟨3, 1, 1, 100, .anchored, [⟨40, 20⟩]⟩ = true := by decide
set_option maxRecDepth 20000 in
theorem wit_bringsFrame :
    BringsFrame (rig .idle) (frameBits (demandOf 3)) (demandOf 3) ∧ rigFollowing.link.view = .frame
      ∧ BringsFrame rigFollowing ((frameBits (demandOf 3)).drop 20) (demandOf 3)
      ∧ BringsFrame (rig (.active .drill)) (frameBits (demandOf 0)) (demandOf 0) :=
  ⟨⟨by decide, by decide, .inl ⟨by decide, by decide, rfl⟩⟩, by decide, ⟨by decide, by decide, .inr ⟨by decide, by decide, by decide⟩⟩,
    ⟨by decide, by decide, .inl ⟨by decide, by decide, rfl⟩⟩⟩
set_option maxRecDepth 20000 in
theorem wit_fullTable :
    (rigFullTable .drill).neighbours.entries.length = 16 ∧ (rigFullTable .collar).cycle.state = .active .collar
      ∧ (rigFullTable .drill).cycle.state = .active .drill
      ∧ (∀ x ∈ (rigFullTable .drill).neighbours.entries, ¬(x.row = 4000 ∧ x.slot = 1))
      ∧ qualifies 1 1 (farHole 4000) = false
      ∧ ((rigFullTable .drill).neighbours.entries.map (qualifies 1 1)) = true :: List.replicate 15 false
      ∧ (∃ x ∈ (rigFullTable .drill).neighbours.entries, x.row = 101 ∧ x.slot = 1)
      ∧ decodeHole 3 (encodeHole (farHole 4000)) = some (farHole 4000)
      ∧ BringsFrame (rigFullTable .drill) (frameBits (buildFrame 2 3 (encodeHole (farHole 4000))))
          (buildFrame 2 3 (encodeHole (farHole 4000))) :=
  ⟨by decide, by decide, by decide, by decide, by decide, by decide, by decide, by decide,
    by decide, by decide, .inl ⟨by decide, by decide, rfl⟩⟩
set_option maxRecDepth 20000 in
theorem test_oldestRebuilds :
    (next (.holeFrameReceived (frameBits (buildFrame 2 3 (encodeHole (farHole 4000)))))
        { rigFullTable .drill with
          neighbours := { (rigFullTable .drill).neighbours with predicted := [2] } }).neighbours.predicted = [] := by
  decide
set_option maxRecDepth 20000 in
theorem wit_otherFrames :
    crcGood { demandOf 3 with crc := 0 } = false ∧ crcGood (buildFrame 1 3 (List.replicate 41 0)) = true
      ∧ 5 < (demandOf 6).station.toNat ∧ (buildFrame 3 3 []).kind ≠ 1 ∧ (buildFrame 3 3 []).kind ≠ 2
      ∧ decodeDemand [11, 0, 0] = none ∧ decodeHole 3 [1, 17, 100, 9] = none ∧ State.reset.link.view = .off
      ∧ rigFollowing.link.tx = none ∧ rigFollowing.link.assembly = (frameBits (demandOf 3)).take 20
      ∧ (next (.configure record69 host) State.reset).link.view = .seeking
      ∧ (0 : Nat) < 544 ∧ (544 : Nat) ≤ 0 + 544 := by decide

/-- The same part with a notice in the slot or in the queue, and while it sends. -/
def rigSlot : State := { rig .idle with link := { (rig .idle).link with slot := some ⟨⟨.idle, .none, 0⟩, false⟩ } }
def rigQueue : State :=
  { rig .idle with link := { (rig .idle).link with queue := [⟨0, 1, 1, 100, .anchored, []⟩] } }
def rigSending : State := next (.frameStart 0) rigSlot

/-- The frame it sends, and a prefix of it with its last bit read otherwise than sent. -/
def ownFrame : LinkFrame := buildFrame 1 0 (encodeDemand ⟨.idle, .none, 0⟩)
def flippedAt (k : Nat) : List Bool :=
  (frameBits ownFrame).take k ++ ((frameBits ownFrame)[k]?.map fun level => !level).toList

set_option maxRecDepth 20000 in
theorem wit_ownFrames :
    rigSlot.link.view = .gap ∧ 11 ≤ rigSlot.link.recessive + 0 ∧ rigSlot.link.ownLast = false ∧ rigSlot.link.mute = none
      ∧ rigSlot.link.slot.isSome = true ∧ rigQueue.link.slot = none ∧ rigQueue.link.queue.length = 1
      ∧ rigQueue.link.queueOnLine = false ∧ rigSending.link.view = .frame ∧ rigSending.link.tx = some ownFrame
      ∧ (rig .idle).ltx = true ∧ rigSlot.ltx = false ∧ rigSending.link.assembly = [] ∧ rigSending.ltx = false
      ∧ (frameBits ownFrame)[3]? = some true ∧ (frameBits ownFrame)[0]? = some false := by decide
/-- The count of 11 becomes 19 after an own frame. -/
theorem wit_ownLast :
    let s := next .frameSent rigSending
    let again := { s with link := { s.link with slot := rigSlot.link.slot } }
    again.link.view = .gap ∧ again.link.ownLast = true ∧ again.link.recessive = 0
      ∧ (next (.frameStart 18) again).link.view = .gap ∧ (next (.frameStart 19) again).link.view = .frame := by decide
set_option maxRecDepth 20000 in
/-- The own frame starts in the first bit period in which R149 allows it, be it read recessive or with another station's lead
bit in it, and FRAME_START lets no more recessive periods pass than the start needs. -/
theorem test_startsAtTheFirstPeriod :
    let new := { rigSlot with link := { rigSlot.link with recessive := 0 } }
    let bits := fun (b : List Bool) => (next (.demandFrameReceived b) new).link
    (bits (List.replicate 11 true)).tx = none ∧ (bits (List.replicate 11 true)).recessive = 11
      ∧ (bits (List.replicate 11 true ++ [false])).tx = some ownFrame
      ∧ (bits (List.replicate 11 true ++ [false])).assembly = [false]
      ∧ (bits (List.replicate 12 true)).txFault = true ∧ (bits (List.replicate 10 true ++ [false])).tx = none
      ∧ (next (.frameStart 10) new).link = new.link ∧ (next (.frameStart 30) new).link.recessive = 11
      ∧ (next (.frameStart 30) new).link.tx = some ownFrame := by decide
set_option maxRecDepth 20000 in
/-- The premises on a run of recessive bits in which the station starts no frame. -/
theorem wit_recessiveRun :
    (∀ k, k < 30 → ({ (rig .idle).link with recessive := (rig .idle).link.recessive + k } : LinkBlock).starts = false)
      ∧ (∀ k, k < 11 → ({ rigSlot.link with recessive := 0 + k } : LinkBlock).starts = false)
      ∧ (∀ k, 544 ≤ k → k < 550 → ({ State.reset.link with view := .gap, recessive := k } : LinkBlock).starts = false)
      ∧ rigSlot.link.starts = true ∧ rigSlot.link.hasNotice = true ∧ rigQueue.link.starts = true :=
  ⟨by decide,
    by decide, fun _ _ _ => by simp [LinkBlock.starts, LinkBlock.hasNotice, State.reset], by decide, by decide, by decide⟩
set_option maxRecDepth 20000 in
theorem wit_readBack :
    (frameBits ownFrame).length = 53 ∧ rigSending.link.assembly ++ frameBits ownFrame = frameBits ownFrame
      ∧ (next (.demandFrameReceived (frameBits ownFrame)) rigSending).link.ownLast = true
      ∧ (next (.demandFrameReceived (flippedAt 0)) rigSending).link.txFault = true
      ∧ (next (.demandFrameReceived (flippedAt 3)) rigSending).link.view = .frame
      ∧ (next (.demandFrameReceived (flippedAt 3)) rigSending).link.mute = none
      ∧ (next (.demandFrameReceived (flippedAt 12)) rigSending).link.mute = some .overridden
      ∧ (next (.demandFrameReceived ((frameBits ownFrame).take 30)) rigSending).link.assembly.length = 30 := by decide

theorem linkSound_readBack_silent (s : State) (silent : s.link.tx = none) :
    ∀ f, s.link.tx = some f → f.payload.length ≤ 38 ∧ crcGood f = true
      ∧ s.link.assembly.isPrefixOf (frameBits f) = true ∧ s.link.assembly.length < (frameBits f).length := by
  simp [silent]

set_option maxRecDepth 20000 in
theorem linkSound_rigSending : LinkSound rigSending := by
  constructor
  case readBack =>
    intro f sent
    have : rigSending.link.tx = some ownFrame := by decide
    obtain rfl : ownFrame = f := by simpa [this] using sent
    decide
  all_goals decide

set_option maxRecDepth 20000 in
theorem wit_duplicate :
    rigSending.resetHeld = false ∧ CycleSound rigSending ∧ FlowSound rigSending ∧ TimersSound rigSending
      ∧ LinkSound rigSending ∧ (frameBits ownFrame)[12]? = some true ∧ 12 + 1 ≠ (frameBits ownFrame).length
      ∧ rigSending.muted = false :=
  ⟨by decide, by constructor <;> decide, by constructor <;> decide, by constructor <;> decide, linkSound_rigSending,
    by decide, by decide, by decide⟩
set_option maxRecDepth 20000 in
theorem wit_duplicate_heard :
    CycleSound (rig (.active .drill)) ∧ FlowSound (rig (.active .drill)) ∧ TimersSound (rig (.active .drill))
      ∧ LinkSound (rig (.active .drill)) ∧ crcGood (demandOf 0) = true
      ∧ (demandOf 0).station.toNat = (rig (.active .drill)).cfg.station ∧ (rig (.active .drill)).cfg.station ≤ 5
      ∧ (decodeDemand (demandOf 0).payload).isSome = true ∧ (decodeHole 0 (holeOf 0).payload).isSome = true := by
  refine ⟨by constructor <;> decide, by constructor <;> decide, by constructor <;> decide, ?_, by decide, by decide, by decide,
    by decide, by decide⟩
  constructor
  case readBack => exact linkSound_readBack_silent _ (by decide)
  all_goals decide
theorem wit_hostFrames :
    (Instr.configure record69 host).WellFormed = true ∧ (hostFrame (.configure record69 host)).isSome = true
      ∧ hostFrame (.abort true ⟨27, false⟩) = some [3, 0, 253] ∧ (Instr.abort true ⟨27, false⟩).WellFormed = true
      ∧ (Instr.abort true ⟨27, false⟩).transaction = some ⟨8 * [3, 0, 253].length + [true, true, false].length, false⟩ := by
  decide
theorem wit_notices :
    (⟨3, 4095, 7, 16383, .faulted, List.replicate 8 ⟨16383, 16383⟩⟩ : HoleNotice).row ≤ 4095
      ∧ (List.replicate 8 (⟨16383, 16383⟩ : VoidInterval)).length ≤ 8 := by decide
/-- Two cells of a run, and nine runs of which the list holds the eight deepest. -/
theorem wit_voidRun :
    VoidRun [emptyCell .soft, emptyCell .void, emptyCell .void] 1 2
      ∧ voidList [emptyCell .soft, emptyCell .void, emptyCell .void] = [⟨20, 40⟩]
      ∧ (voidList ((List.replicate 9 [emptyCell .void, emptyCell .soft]).flatten)).head? = some ⟨40, 20⟩ :=
  ⟨⟨by decide, by decide, by decide, by intro k h; obtain rfl : k = 0 := by omega
                                        decide⟩, by decide, by decide⟩

end Sys2Proof.Tests
end

