-- ==== Sys2Proof/Proofs/Deadlines.lean ====
section
/-! PROOFS. Deadlines and pausable timers (01 R1 to R4). -/

namespace Sys2Proof.Machine

/-! ### Deadlines as numbers (01 R2) -/

/-- The test of R2 on the distance from the present to the target. -/
theorem expired_iff (target now : Time) :
    expired target now = true ↔ (target - now).toNat = 0 ∨ 2147483648 ≤ (target - now).toNat := by
  simp [expired]

theorem not_expired_iff (target now : Time) :
    expired target now = false ↔ 1 ≤ (target - now).toNat ∧ (target - now).toNat ≤ 2147483647 := by
  rw [← Bool.not_eq_true, expired_iff]
  omega

theorem toNat_after (now : Time) (ms : Nat) : (after now ms).toNat = (now.toNat + ms) % 4294967296 := by
  simp [after, BitVec.toNat_add, BitVec.toNat_ofNat]

theorem after_zero (now : Time) : after now 0 = now := by simp [after]

/-- Two moments counted from one origin, the later one less than half the timebase ahead. -/
theorem not_expired_after {now : Time} {k ms : Nat} (hk : k < ms) (hms : ms < 2147483648) :
    expired (after now ms) (after now k) = false := by
  rw [not_expired_iff, BitVec.toNat_sub, toNat_after, toNat_after]
  omega

theorem expired_self (now : Time) : expired now now = true := by simp [expired]

/-- Waiting out the time left to a target leads to the target. -/
theorem after_sub_toNat (target now : Time) : after now (target - now).toNat = target := by
  apply BitVec.eq_of_toNat_eq
  rw [toNat_after, BitVec.toNat_sub]
  have := target.isLt
  have := now.isLt
  omega

/-! ### Periodic deadlines (01 R3) -/

/-- How long ago an expired target was: at most half the timebase. -/
theorem elapsed_le_of_expired {target now : Time} (h : expired target now = true) :
    (now - target).toNat ≤ 2147483648 := by
  rw [expired_iff, BitVec.toNat_sub] at h
  rw [BitVec.toNat_sub]
  have := target.isLt
  have := now.isLt
  omega

/-- A target moved on by `ms` is in the future exactly if `ms` exceeds the time since it. -/
theorem expired_after_elapsed {target now : Time} {ms : Nat} (he : (now - target).toNat ≤ 2147483648)
    (hms : ms < (now - target).toNat + 2147483648) :
    expired (after target ms) now = decide (ms ≤ (now - target).toNat) := by
  have h := target.isLt
  have h' := now.isLt
  rw [BitVec.toNat_sub] at he hms ⊢
  by_cases hle : ms ≤ (4294967296 - target.toNat + now.toNat) % 4294967296
  · rw [decide_eq_true hle, expired_iff, BitVec.toNat_sub, toNat_after]
    omega
  · rw [decide_eq_false hle, not_expired_iff, BitVec.toNat_sub, toNat_after]
    omega

/-- R3's re-arming: the least whole number of periods that exceeds the time since the target. -/
theorem rearmPeriodic_least {target now : Time} {period : Nat} (hp : 0 < period) (hlt : period < 2147483648)
    (h : expired target now = true) :
    ∃ k, 1 ≤ k ∧ rearmPeriodic target now period = after target (period * k)
      ∧ expired (rearmPeriodic target now period) now = false
      ∧ ∀ j, 1 ≤ j → j < k → expired (after target (period * j)) now = true := by
  have he := elapsed_le_of_expired h
  have hover := Nat.lt_mul_div_succ (now - target).toNat hp
  have hunder := Nat.mul_div_le (now - target).toNat period
  refine ⟨(now - target).toNat / period + 1, Nat.le_add_left 1 _, rfl, ?_, fun j _ hj => ?_⟩
  · rw [rearmPeriodic, expired_after_elapsed he (by rw [Nat.mul_succ]; omega)]
    exact decide_eq_false (by omega)
  · have hle : period * j ≤ (now - target).toNat := le_trans (Nat.mul_le_mul_left period (by omega)) hunder
    rw [expired_after_elapsed he (by omega), decide_eq_true hle]

/-! ### Pausable timers (01 R4) -/

/-- A timer still in the future pauses with the time left to its target. -/
theorem remaining_of_not_expired {d now : Time} (h : expired d now = false) : remaining d now = (d - now).toNat := by
  simp [remaining, h]

/-- What is left to a target is below half the timebase. -/
theorem remaining_lt (d now : Time) : remaining d now < 2147483648 := by
  cases h : expired d now
  · rw [remaining_of_not_expired h]
    rw [not_expired_iff] at h
    omega
  · simp [remaining, h]

/-- A pause within one millisecond costs no time. -/
theorem run_pause_of_not_expired {d now : Time} (h : expired d now = false) :
    ((Timer.running d).pause now).run now = .running d := by
  simp only [Timer.pause, Timer.run, remaining_of_not_expired h, after_sub_toNat]

/-! ### The statements -/

/-- Settles O7. -/
theorem timebaseTickAdvancesTheCount : Obligations.TimebaseTickAdvancesTheCount := by
  intro s
  refine ⟨rfl, fun h => ?_⟩
  rw [h]
  rfl

/-- Settles O8: the first four clauses are R2's test read as a distance, the last is R3's least multiple. -/
theorem deadlinesExpireAndKeepTheirPhase : Obligations.DeadlinesExpireAndKeepTheirPhase :=
  ⟨not_expired_iff, fun _ _ hms => ⟨fun _ hk => not_expired_after hk hms, expired_self _⟩, fun _ => rfl, fun _ _ => rfl,
    fun _ _ _ hp hlt h => rearmPeriodic_least hp hlt h⟩

/-- Settles O9. -/
theorem pausableTimerKeepsItsRemainder : Obligations.PausableTimerKeepsItsRemainder := by
  refine ⟨fun d now h => ?_, fun _ _ => rfl, fun _ _ => rfl, fun d now h => run_pause_of_not_expired h⟩
  rw [Timer.pause, remaining_of_not_expired h]

end Sys2Proof.Machine
end

