-- ==== Sys2Proof/Proofs/Settling.lean ====
section
/-! PROOFS. What an event's end does to the pausable timers and the stroke, and what keeps the cycle
sound (01 R4 to R7, 06 R88). -/

namespace Sys2Proof.Machine

/-! ### Timers that run and pause with a phase (01 R4) -/

/-- A paused timer's remainder is below half the timebase. -/
def Timer.bounded : Timer → Bool
  | .paused left => left < 2147483648
  | _ => true

theorem Timer.bounded_of_follows {t : Timer} {runs : Bool} (h : t.follows runs = true) : t.bounded = true := by
  cases t with
  | disarmed => rfl
  | paused left =>
    simp only [Timer.follows, Bool.and_eq_true] at h
    exact h.2
  | running d => rfl

/-- Once synchronised with its phase, a timer follows it. -/
theorem Timer.sync_follows {t : Timer} {runs : Bool} {now : Time} (h : t.bounded = true) :
    (t.sync runs now).follows runs = true := by
  cases runs <;> cases t <;>
    simp_all [Timer.sync, Timer.run, Timer.pause, Timer.follows, Timer.bounded, remaining_lt]

theorem sync_paused (left : Nat) (runs : Bool) (now : Time) :
    Timer.sync (.paused left) runs now = if runs then .running (after now left) else .paused left := by
  cases runs <;> rfl

/-! ### The timers and the stroke when an event has settled -/

/-- HELD and the cycle state, which decide whether a phase runs, are settled before the timers are synchronised. -/
theorem phaseRuns_setHeld (w : State) (p : Phase) :
    phaseRuns (setHeld (actInterlock (recomputeAllowance (setNearVoid w)))) p = phaseRuns (settle w) p :=
  phaseRuns_congr (by simp) (by simp [settle]) p

/-- The pausable timers but the stroke timer, once an event has settled. -/
theorem settle_timers (w : State) :
    (settle w).cycle.collarTimer = w.cycle.collarTimer.sync (phaseRuns (settle w) .collar) w.now
      ∧ (settle w).cycle.retractTimer = w.cycle.retractTimer.sync (phaseRuns (settle w) .retract) w.now
      ∧ (settle w).assembler.stallWindow = w.assembler.stallWindow.sync (phaseRuns (settle w) .drill) w.now
      ∧ (settle w).torque.timer = w.torque.timer.sync (phaseRuns (settle w) .torque) w.now := by
  simp only [← phaseRuns_setHeld]
  simp [settle, syncTimers_collarTimer, syncTimers_retractTimer, syncTimers_stallWindow, syncTimers_torqueTimer, State.now]

/-- R88's conditions of a stroke's start but that INSERT runs. -/
def strokeReady (s : State) : Bool :=
  s.resin.stroke != .inProgress && (s.resin.charge.any fun c => s.resin.pushed < c) && !s.cycle.abortPending
    && s.resin.gap.isNone

theorem strokeReady_iff (s : State) : strokeReady s = true ↔ s.resin.stroke ≠ .inProgress
    ∧ s.resin.pushed < s.resin.charge.getD 0 ∧ s.cycle.abortPending = false ∧ s.resin.gap = none := by
  cases h : s.resin.charge <;> simp [strokeReady, h, and_assoc]

theorem strokeDue_sync (w : State) :
    strokeDue (syncTimers (setHeld (actInterlock (recomputeAllowance (setNearVoid w)))))
      = (phaseRuns (settle w) .insert && strokeReady w) := by
  rw [← phaseRuns_setHeld, strokeDue, strokeReady,
    phaseRuns_congr (s := setHeld (actInterlock (recomputeAllowance (setNearVoid w)))) (by simp) (by simp)]
  simp [Bool.and_assoc] <;> rfl

/-- Where INSERT runs, a stroke that is ready starts: afresh from IDLE, from what is left of it otherwise (06 R88). -/
theorem settle_starts {w : State} (hi : phaseRuns (settle w) .insert = true) (hr : strokeReady w = true) :
    (settle w).resin.stroke = .inProgress
      ∧ (settle w).resin.strokeTimer =
          if w.resin.stroke = .idle then .running (after w.now 3000) else (w.resin.strokeTimer.pause w.now).run w.now := by
  have hd := strokeDue_sync w
  rw [hi, hr, Bool.true_and] at hd
  have hn : (w.resin.stroke == .inProgress) = false := by simpa using ((strokeReady_iff w).1 hr).1
  rw [settle, startStroke, State.onResin_resin, if_pos hd]
  refine ⟨rfl, ?_⟩
  dsimp only
  rw [syncTimers_strokeTimer]
  simp [hn, Timer.sync, State.now]

/-- Elsewhere no stroke starts, and the stroke timer runs only for a stroke in progress (06 R88, R92). -/
theorem settle_starts_not {w : State} (h : phaseRuns (settle w) .insert = false ∨ strokeReady w = false) :
    (settle w).resin.stroke = w.resin.stroke
      ∧ (settle w).resin.strokeTimer =
          w.resin.strokeTimer.sync (phaseRuns (settle w) .insert && w.resin.stroke == .inProgress) w.now := by
  have hd : strokeDue (syncTimers (setHeld (actInterlock (recomputeAllowance (setNearVoid w))))) = false := by
    rw [strokeDue_sync]
    rcases h with h | h <;> simp [h]
  rw [← phaseRuns_setHeld, settle, startStroke_of_not_due hd, syncTimers_strokeTimer]
  simp [State.now]

/-- The two cases of a stroke's start. -/
theorem stroke_cases (w : State) : (phaseRuns (settle w) .insert = true ∧ strokeReady w = true)
    ∨ (phaseRuns (settle w) .insert = false ∨ strokeReady w = false) := by
  cases phaseRuns (settle w) .insert <;> cases strokeReady w <;> simp

/-! ### CycleSound and a settled event -/

theorem linkServes_congr {s t : State} (hc : t.cycle.state = s.cycle.state)
    (hl : s.sensor.live.linkUp = true → t.sensor.live.linkUp = true) (h : linkServes s = true) : linkServes t = true := by
  revert h
  simp only [linkServes, hc]
  cases s.cycle.state <;> simp_all
  exact Or.imp_right hl

/-- Only a held part is UNCONFIGURED while RESET_N is low, so a part elsewhere is not held. -/
theorem CycleSound.awake {s : State} (h : CycleSound s) (hc : s.cycle.state ≠ .unconfigured) : s.resetHeld = false := by
  by_contra hr
  exact hc (h.onHold (by simpa using hr))

theorem CycleSound.no_stroke {s : State} (h : CycleSound s) (hc : s.cycle.state ≠ .active .insert) :
    s.resin.stroke ≠ .inProgress := fun hs => hc (h.stroke hs).1

theorem CycleSound.no_abort {s : State} (h : CycleSound s) (hs : s.resin.stroke ≠ .inProgress) :
    s.cycle.abortPending = false := by
  by_contra ha
  exact hs (h.abortPending (by simpa using ha))

theorem CycleSound.no_torqueNear {s : State} (h : CycleSound s) (hc : s.cycle.state ≠ .active .torque) :
    s.torque.torqueNear = false := by
  by_contra ht
  exact hc (h.torqueNear (by simpa using ht))

theorem settle_cycleSound {w : State} (h : CycleSound w) : CycleSound (settle w) := by
  refine
    { remembered := by simpa using h.remembered
      cause := by simpa using h.cause
      canopy := by simpa using h.canopy
      sampleLink := linkServes_congr (by simp) (by simp) h.sampleLink
      onHold := by simpa using h.onHold
      stroke := ?_
      pushed := by simpa using h.pushed
      gap := ?_
      abortPending := ?_
      torqueNear := by simpa using h.torqueNear }
  all_goals rcases stroke_cases w with ⟨hi, hr⟩ | hn
  · obtain ⟨-, hp, -, -⟩ := (strokeReady_iff w).1 hr
    simp only [phaseRuns, settle_cycle_state, Bool.and_eq_true, beq_iff_eq] at hi
    simpa using fun _ => And.intro hi.1 hp
  · simpa [(settle_starts_not hn).1] using h.stroke
  · simp [((strokeReady_iff w).1 hr).2.2.2]
  · simpa [(settle_starts_not hn).1] using h.gap
  · simp [((strokeReady_iff w).1 hr).2.2.1]
  · simpa [(settle_starts_not hn).1] using h.abortPending

/-! ### TimersSound and a settled event -/

/-- The armed pausable timers that are paused keep remainders below half the timebase. -/
structure TimersBounded (s : State) : Prop where
  collar : s.cycle.collarTimer.bounded = true
  retract : s.cycle.retractTimer.bounded = true
  stall : s.assembler.stallWindow.bounded = true
  stroke : s.resin.strokeTimer.bounded = true
  torque : s.torque.timer.bounded = true

theorem TimersSound.bounded {s : State} (h : TimersSound s) : TimersBounded s :=
  ⟨Timer.bounded_of_follows h.collar, Timer.bounded_of_follows h.retract, Timer.bounded_of_follows h.stall,
    Timer.bounded_of_follows h.stroke, Timer.bounded_of_follows h.torque⟩

theorem Timer.run_follows_true {t : Timer} {now : Time} (h : t.bounded = true) : (t.run now).follows true = true := by
  simpa [Timer.sync] using Timer.sync_follows (runs := true) (now := now) h

theorem Timer.pause_bounded {t : Timer} {now : Time} (h : t.bounded = true) : (t.pause now).bounded = true := by
  have := Timer.sync_follows (runs := false) (now := now) h
  exact Timer.bounded_of_follows (by simpa [Timer.sync] using this)

/-- Whatever an event's work has left of the timers, the end of the event brings them in step with their phases. -/
theorem settle_timersSound {w : State} (h : TimersBounded w) : TimersSound (settle w) := by
  obtain ⟨hc, hr, hs, ht⟩ := settle_timers w
  refine
    { collar := by rw [hc]; exact Timer.sync_follows h.collar
      retract := by rw [hr]; exact Timer.sync_follows h.retract
      stall := by rw [hs]; exact Timer.sync_follows h.stall
      stroke := ?_
      torque := by rw [ht]; exact Timer.sync_follows h.torque }
  rcases stroke_cases w with ⟨hi, hready⟩ | hn
  · obtain ⟨hp, htimer⟩ := settle_starts hi hready
    rw [hp, htimer, hi]
    split
    · rfl
    · exact Timer.run_follows_true (Timer.pause_bounded h.stroke)
  · obtain ⟨hp, htimer⟩ := settle_starts_not hn
    rw [hp, htimer]
    exact Timer.sync_follows h.stroke

end Sys2Proof.Machine
end

