-- ==== Sys2Proof/Proofs/PhaseItems.lean ====
section
/-! PROOFS. What each operation of the cycle does to CycleSound, the timers' remainders and ChargeSound. -/

namespace Sys2Proof.Machine

/-! ### Which phase the cycle is in -/

theorem inPhase_of_active {s : State} {q : Phase} (h : s.cycle.state = .active q) (p : Phase) :
    inPhase s p = (q == p) := by
  rw [Bool.eq_iff_iff]
  simp [inPhase, h]

theorem inPhase_of_suspended {s : State} {q : Phase} (h : s.cycle.state = .suspended)
    (hr : s.cycle.remembered = some q) (p : Phase) : inPhase s p = (q == p) := by simp [inPhase, h, hr]

/-- Entering a phase leads to it, or to SUSPENDED with it remembered while LINK_UP is false (01 R19). -/
theorem enterPhase_cases (p : Phase) (s : State) :
    (enterPhase p s = enterState (.active p) s ∧ (p.needsLink = false ∨ s.sensor.live.linkUp = true))
      ∨ (s.sensor.live.linkUp = false ∧ enterPhase p s = suspend .sensor (enterState (.active p) s)) := by
  unfold enterPhase
  split
  · rename_i h
    simp only [Bool.and_eq_true, Bool.not_eq_true'] at h
    exact Or.inr ⟨h.2, rfl⟩
  · rename_i h
    refine Or.inl ⟨rfl, ?_⟩
    cases hl : s.sensor.live.linkUp <;> simp_all

@[simp] theorem enterState_state (c : CycleState) (s : State) : (enterState c s).cycle.state = c := rfl

@[simp] theorem enterState_now (c : CycleState) (s : State) : (enterState c s).now = s.now := rfl

/-- What a suspension leaves of the cycle. -/
theorem suspend_cycle {s : State} {p : Phase} (h : s.cycle.state = .active p) (c : Cause) :
    (suspend c s).cycle = { s.cycle with state := .suspended, remembered := some p, cause := some c } := by
  simp [suspend, h]

theorem suspend_resin {s : State} {p : Phase} (h : s.cycle.state = .active p) (c : Cause) :
    (suspend c s).resin = s.resin.withdraw p s.now := by simp [suspend, h]

theorem suspend_torqueNear {s : State} {p : Phase} (h : s.cycle.state = .active p) (c : Cause) :
    (suspend c s).torque.torqueNear = false := by simp [suspend, h]

theorem withdraw_of_not_inProgress {r : ResinBlock} (h : r.stroke ≠ .inProgress) (p : Phase) (now : Time) :
    r.withdraw p now = r := by simp [ResinBlock.withdraw, h]

/-- A suspension leaves no stroke in progress where only INSERT had one. -/
theorem withdraw_stroke {r : ResinBlock} {p : Phase} (h : r.stroke = .inProgress → p = .insert) (now : Time) :
    (r.withdraw p now).stroke ≠ .inProgress := by
  unfold ResinBlock.withdraw
  split
  · simp
  · rename_i hn
    exact fun hs => hn ⟨h hs, hs⟩

theorem inPhase_enterPhase (p q : Phase) (s : State) : inPhase (enterPhase p s) q = (p == q) := by
  have ha := enterState_state (.active p) s
  rcases enterPhase_cases p s with ⟨h, -⟩ | ⟨-, h⟩ <;> rw [h]
  · exact inPhase_of_active ha q
  · exact inPhase_of_suspended (suspend_state ha _) (by rw [suspend_cycle ha]) q

theorem enterPhase_state_ne (p : Phase) (s : State) {c : CycleState} (h1 : c ≠ .active p) (h2 : c ≠ .suspended) :
    (enterPhase p s).cycle.state ≠ c := by
  have ha := enterState_state (.active p) s
  rcases enterPhase_cases p s with ⟨h, -⟩ | ⟨-, h⟩ <;> rw [h]
  · exact h1.symm
  · rw [suspend_state ha]
    exact h2.symm

/-! ### CycleSound after each operation -/

/-- What a state must give a phase that is entered: no stroke is in progress at any entry. -/
structure ReadyToEnter (s : State) : Prop where
  awake : s.resetHeld = false
  canopy : s.canopySet = true
  stroke : s.resin.stroke ≠ .inProgress
  pushed : s.resin.pushed ≤ s.resin.charge.getD 0
  abortPending : s.cycle.abortPending = false
  torqueNear : s.torque.torqueNear = false

/-- A part that is at rest, or in a phase without a stroke or the near mark, is ready to enter a phase. -/
theorem CycleSound.ready {s : State} (h : CycleSound s) (hu : s.cycle.state ≠ .unconfigured) (hp : s.canopySet = true)
    (hi : s.cycle.state ≠ .active .insert) (ht : s.cycle.state ≠ .active .torque) : ReadyToEnter s :=
  ⟨h.awake hu, hp, h.no_stroke hi, h.pushed, h.no_abort (h.no_stroke hi), h.no_torqueNear ht⟩

theorem enterPhase_cycleSound {p : Phase} {s : State} (h : ReadyToEnter s) : CycleSound (enterPhase p s) := by
  rcases enterPhase_cases p s with ⟨he, hl⟩ | ⟨-, he⟩
  · have hst : (enterPhase p s).cycle.state = .active p := by rw [he]; rfl
    have hr : (enterPhase p s).resin = s.resin := by rw [he]; rfl
    refine
      { remembered := by rw [he]; rfl
        cause := by rw [he]; rfl
        canopy := by simp [h.canopy]
        sampleLink := by simp only [linkServes, hst]; rcases hl with hl | hl <;> simp [hl]
        onHold := by simp [h.awake]
        stroke := by simp [hr, h.stroke]
        pushed := by simpa using h.pushed
        gap := by simp [hr, h.stroke]
        abortPending := by simp [h.abortPending]
        torqueNear := by rw [he]; simp [h.torqueNear] }
  · have ha : (enterState (.active p) s).cycle.state = .active p := rfl
    have hr : (enterPhase p s).resin = s.resin := by
      rw [he, suspend_resin ha, enterState_resin, withdraw_of_not_inProgress h.stroke]
    have hc := congrArg State.cycle he
    rw [suspend_cycle ha] at hc
    refine
      { remembered := by simp [hc]
        cause := by simp [hc]
        canopy := by simp [hc, CycleState.isActive]
        sampleLink := by simp [linkServes, hc]
        onHold := by simp [h.awake]
        stroke := by simp [hr, h.stroke]
        pushed := by simpa using h.pushed
        gap := by simp [hr, h.stroke]
        abortPending := by simp [h.abortPending]
        torqueNear := by rw [he]; simp [suspend_torqueNear ha] }

/-- A suspension reads little of the state it leaves, so that it may follow a fall of CANOPY_SET or LINK_UP. -/
theorem suspend_cycleSound_of {s : State} {p : Phase} {c : Cause} (hp : s.cycle.state = .active p)
    (hawake : s.resetHeld = false) (hstroke : s.resin.stroke = .inProgress → p = .insert)
    (hpushed : s.resin.pushed ≤ s.resin.charge.getD 0) (habort : s.cycle.abortPending = false) :
    CycleSound (suspend c s) := by
  have hc := suspend_cycle hp c
  have hstroke : (suspend c s).resin.stroke ≠ .inProgress := by
    rw [suspend_resin hp]
    exact withdraw_stroke hstroke _
  exact
    { remembered := by simp [hc]
      cause := by simp [hc]
      canopy := by simp [hc, CycleState.isActive]
      sampleLink := by simp [linkServes, hc]
      onHold := by simp [hawake]
      stroke := fun hs => absurd hs hstroke
      pushed := by simpa using hpushed
      gap := fun _ => hstroke
      abortPending := by simp [habort]
      torqueNear := by simp [suspend_torqueNear hp] }

theorem CycleSound.stroke_insert {s : State} {p : Phase} (h : CycleSound s) (hp : s.cycle.state = .active p)
    (hs : s.resin.stroke = .inProgress) : p = .insert := by simpa [hp] using (h.stroke hs).1

theorem suspend_cycleSound {s : State} {p : Phase} {c : Cause} (h : CycleSound s) (hp : s.cycle.state = .active p)
    (ha : s.cycle.abortPending = false) : CycleSound (suspend c s) :=
  suspend_cycleSound_of hp (h.awake (by simp [hp])) (h.stroke_insert hp) h.pushed ha

theorem complete_cycleSound {v : Verdict} {s : State} (h : s.resin.pushed ≤ s.resin.charge.getD 0)
    (hr : s.resetHeld = false) : CycleSound (complete v s) := by
  have hc := complete_state v s
  exact
    { remembered := by simp [complete]
      cause := by simp [complete]
      canopy := by simp [hc, CycleState.isActive]
      sampleLink := by simp [linkServes, hc]
      onHold := by simp [hr]
      stroke := by simp [complete]
      pushed := by simpa using h
      gap := by simp [complete]
      abortPending := by simp [complete]
      torqueNear := by simp [complete] }

/-! ### ChargeSound after each operation -/

/-- The phases from INSERT on need the charge and the target (06 R87). -/
def Phase.charged : Phase → Bool
  | .insert => true
  | .mix => true
  | .hold => true
  | .torque => true
  | _ => false

/-- The torque monitor holds the figures of the anchor's target (07 R105, R106). -/
def torqueFigures (s : State) : Prop :=
  s.torque.entered = true ∧ s.torque.target = s.anchor.target ∧ s.torque.ceiling = s.anchor.target.map ceilingOf
    ∧ s.torque.near = s.anchor.target.map nearOf

/-- Resin control runs on the anchor's charge (06 R87). -/
def resinCharged (s : State) : Prop :=
  s.resin.charge = s.anchor.charge ∧ s.anchor.charge.isSome = true ∧ s.anchor.target.isSome = true

/-- The anchor's choice by itself (05 R79, R80, R84). -/
structure AnchorSound (a : AnchorBlock) : Prop where
  outcome : a.outcome = .charge → a.charge.isSome = true ∧ a.target.isSome = true
  range : ∀ n, a.charge = some n → 1 ≤ n ∧ n ≤ 3

/-- The figures that the phase `p` runs on. -/
structure FiguresFor (p : Phase) (s : State) : Prop where
  anchor : AnchorSound s.anchor
  retract : p = .retract → s.cycle.pendingVerdict = none → s.anchor.outcome ≠ .none
  charged : p.charged = true → resinCharged s
  torque : p = .torque → torqueFigures s
  notEntered : p ≠ .torque → s.torque.entered = false

theorem ChargeSound.anchorSound {s : State} (h : ChargeSound s) : AnchorSound s.anchor := ⟨h.outcome, h.range⟩

theorem ChargeSound.figures {s : State} {p : Phase} (h : ChargeSound s) (hp : inPhase s p = true) : FiguresFor p s where
  anchor := h.anchorSound
  retract := by rintro rfl; exact h.retract hp
  charged := fun hc => h.charged p (by cases p <;> simp_all [Phase.charged]) hp
  torque := by rintro rfl; exact h.torque hp
  notEntered := fun hn => h.notEntered p hn hp

/-- Conversely, the figures of the one phase that the cycle is in are all that ChargeSound asks for. -/
theorem FiguresFor.chargeSound {s : State} {p : Phase} (h : FiguresFor p s) (hp : ∀ q, inPhase s q = (p == q))
    (hd : s.cycle.state ≠ .decide) : ChargeSound s where
  outcome := h.anchor.outcome
  range := h.anchor.range
  retract := by simpa [hp] using h.retract
  charged := by
    intro q hq hin
    obtain rfl : p = q := by simpa [hp] using hin
    exact h.charged (by rcases hq with rfl | rfl | rfl | rfl <;> rfl)
  torque := by simpa [hp, torqueFigures] using h.torque
  notEntered := by
    intro q hq hin
    obtain rfl : p = q := by simpa [hp] using hin
    exact h.notEntered hq
  decide := fun hs => absurd hs hd

/-- Outside the phases and DECIDE only the anchor's choice matters. -/
theorem AnchorSound.chargeSound {s : State} (h : AnchorSound s.anchor) (hp : ∀ q, inPhase s q = false)
    (hd : s.cycle.state = .decide → s.torque.entered = false) : ChargeSound s where
  outcome := h.outcome
  range := h.range
  retract := by simp [hp]
  charged := by simp [hp]
  torque := by simp [hp]
  notEntered := by simp [hp]
  decide := hd

/-- The figures, where neither the anchor, the charge nor the torque monitor's figures changed. -/
theorem FiguresFor.congr {s t : State} {p : Phase} (h : FiguresFor p s) (ha : t.anchor = s.anchor)
    (hc : t.resin.charge = s.resin.charge) (he : t.torque.entered = s.torque.entered)
    (ht : t.torque.target = s.torque.target) (hl : t.torque.ceiling = s.torque.ceiling)
    (hn : t.torque.near = s.torque.near) (hv : t.cycle.pendingVerdict = none → s.cycle.pendingVerdict = none) :
    FiguresFor p t where
  anchor := ha ▸ h.anchor
  retract := fun hp hnone => ha ▸ h.retract hp (hv hnone)
  charged := by simpa only [resinCharged, ha, hc] using h.charged
  torque := by simpa only [torqueFigures, ha, he, ht, hl, hn] using h.torque
  notEntered := by simpa only [he] using h.notEntered

theorem enterPhase_chargeSound {p : Phase} {s : State} (h : FiguresFor p s) : ChargeSound (enterPhase p s) :=
  (h.congr (t := enterPhase p s) (by simp) (by simp) (by simp) (by simp) (by simp) (by simp) (by simp)).chargeSound
    (inPhase_enterPhase p · s) (enterPhase_state_ne p s (by simp) (by simp))

theorem complete_chargeSound {v : Verdict} {s : State} (h : AnchorSound s.anchor) : ChargeSound (complete v s) :=
  AnchorSound.chargeSound (by simpa using h) (fun q => by simp [inPhase, complete_state])
    (by simp [complete_state])

/-- ChargeSound reads the cycle only through the phase it is in, the pending verdict and DECIDE. -/
theorem ChargeSound.congr {s t : State} (h : ChargeSound s) (hp : ∀ q, inPhase t q = inPhase s q)
    (hd : t.cycle.state = .decide → s.cycle.state = .decide) (ha : t.anchor = s.anchor)
    (hc : t.resin.charge = s.resin.charge) (he : t.torque.entered = s.torque.entered)
    (ht : t.torque.target = s.torque.target) (hl : t.torque.ceiling = s.torque.ceiling)
    (hn : t.torque.near = s.torque.near) (hv : t.cycle.pendingVerdict = none → s.cycle.pendingVerdict = none) :
    ChargeSound t where
  outcome := ha ▸ h.outcome
  range := ha ▸ h.range
  retract := fun hin hnone => ha ▸ h.retract (hp _ ▸ hin) (hv hnone)
  charged := by simpa only [hp, hc, ha] using h.charged
  torque := by simpa only [hp, he, ht, hl, hn, ha] using h.torque
  notEntered := by simpa only [hp, he] using h.notEntered
  decide := fun hs => he ▸ h.decide (hd hs)

theorem suspend_chargeSound {s : State} {p : Phase} {c : Cause} (h : ChargeSound s) (hp : s.cycle.state = .active p) :
    ChargeSound (suspend c s) :=
  h.congr
    (fun q => by rw [inPhase_of_suspended (q := p) (suspend_state hp c) (by simp [suspend_cycle hp]), inPhase_of_active hp])
    (by simp [suspend_state hp]) (by simp) (by simp) (by simp) (by simp) (by simp) (by simp) (by simp)

theorem settle_chargeSound {s : State} (h : ChargeSound s) : ChargeSound (settle s) :=
  h.congr (by simp [inPhase]) (by simp) (by simp) (by simp) (by simp) (by simp) (by simp) (by simp) (by simp)

end Sys2Proof.Machine
end

