-- ==== Sys2Proof/Proofs/Works.lean ====
section
/-! PROOFS. The works of the cycle's events keep CycleSound, the timers' bounds and ChargeSound. -/

namespace Sys2Proof.Machine

/-! ### What an event's work keeps -/

/-- The configured base charge is 1 or 2 cartridges (11 R184). -/
def BaseInRange (s : State) : Prop := 1 ≤ s.cfg.baseCartridges ∧ s.cfg.baseCartridges ≤ 2

theorem ConfigSound.baseInRange {s : State} (h : ConfigSound s) : BaseInRange s := by
  cases hc : s.host.config with
  | none => simp [BaseInRange, State.cfg, hc, defaultConfiguration]
  | some c =>
    have hr := (h.inRange c hc).1
    simp only [Configuration.inRange, within, Bool.and_eq_true, decide_eq_true_eq] at hr
    simp only [BaseInRange, State.cfg, hc, Option.getD_some]
    omega

theorem BaseInRange.congr {s t : State} (h : BaseInRange s) (hc : t.host.config = s.host.config) : BaseInRange t := by
  simpa only [BaseInRange, State.cfg, hc] using h

/-- The work of an event leads from `s`, in which CycleSound holds, to `w`, before the event settles: what it keeps of the
three invariants. -/
structure WorkKeeps (s w : State) : Prop where
  cycle : CycleSound w
  timers : TimersBounded s → TimersBounded w
  charge : BaseInRange s → ChargeSound s → ChargeSound w
  base : BaseInRange s → BaseInRange w

/-- A whole event leads from `s`, in which CycleSound holds, to `t`. -/
structure EventKeeps (s t : State) : Prop where
  cycle : CycleSound t
  timers : TimersSound s → TimersSound t
  charge : BaseInRange s → ChargeSound s → ChargeSound t
  base : BaseInRange s → BaseInRange t

theorem WorkKeeps.trans {s t u : State} (h : WorkKeeps s t) (k : WorkKeeps t u) : WorkKeeps s u :=
  ⟨k.cycle, fun hs => k.timers (h.timers hs), fun hb hs => k.charge (h.base hb) (h.charge hb hs),
    fun hb => k.base (h.base hb)⟩

theorem EventKeeps.trans {s t u : State} (h : EventKeeps s t) (k : EventKeeps t u) : EventKeeps s u :=
  ⟨k.cycle, fun hs => k.timers (h.timers hs), fun hb hs => k.charge (h.base hb) (h.charge hb hs),
    fun hb => k.base (h.base hb)⟩

theorem WorkKeeps.refl {s : State} (h : CycleSound s) : WorkKeeps s s := ⟨h, id, fun _ => id, id⟩

theorem EventKeeps.refl {s : State} (h : CycleSound s) : EventKeeps s s := ⟨h, id, fun _ => id, id⟩

/-- A run of events keeps what each of them keeps. -/
theorem EventKeeps.foldl {α : Type} {f : State → α → State} (hf : ∀ s a, CycleSound s → EventKeeps s (f s a)) (l : List α) :
    ∀ {s}, CycleSound s → EventKeeps s (l.foldl f s) := by
  induction l with
  | nil => exact EventKeeps.refl
  | cons a l ih => exact fun h => (hf _ a h).trans (ih (hf _ a h).cycle)

theorem WorkKeeps.ite {s t u : State} {c : Prop} [Decidable c] (h : WorkKeeps s t) (k : WorkKeeps s u) :
    WorkKeeps s (if c then t else u) := by split_ifs <;> assumption

/-! ### What changes none of the items -/

/-- The items CycleSound reads are the same, but that CANOPY_SET or LINK_UP may have come up. -/
structure SameItems (s t : State) : Prop where
  resetHeld : t.resetHeld = s.resetHeld
  canopy : s.canopySet = true → t.canopySet = true
  linkUp : s.sensor.live.linkUp = true → t.sensor.live.linkUp = true
  state : t.cycle.state = s.cycle.state
  remembered : t.cycle.remembered = s.cycle.remembered
  cause : t.cycle.cause = s.cycle.cause
  abortPending : t.cycle.abortPending = s.cycle.abortPending
  stroke : t.resin.stroke = s.resin.stroke
  pushed : t.resin.pushed = s.resin.pushed
  charge : t.resin.charge = s.resin.charge
  gap : t.resin.gap = s.resin.gap
  torqueNear : t.torque.torqueNear = s.torque.torqueNear

theorem SameItems.cycleSound {s t : State} (e : SameItems s t) (h : CycleSound s) : CycleSound t where
  remembered := by rw [e.remembered, e.state]; exact h.remembered
  cause := by rw [e.cause, e.state]; exact h.cause
  canopy := by rw [e.state]; exact fun ha => e.canopy (h.canopy ha)
  sampleLink := linkServes_congr e.state e.linkUp h.sampleLink
  onHold := by rw [e.resetHeld, e.state]; exact h.onHold
  stroke := by rw [e.stroke, e.state, e.pushed, e.charge]; exact h.stroke
  pushed := by rw [e.pushed, e.charge]; exact h.pushed
  gap := by rw [e.gap, e.stroke]; exact h.gap
  abortPending := by rw [e.abortPending, e.stroke]; exact h.abortPending
  torqueNear := by rw [e.torqueNear, e.state]; exact h.torqueNear

theorem inPhase_congr {s t : State} (hs : t.cycle.state = s.cycle.state) (hr : t.cycle.remembered = s.cycle.remembered)
    (p : Phase) : inPhase t p = inPhase s p := by simp only [inPhase, hs, hr]

/-- Nothing that the invariants read has changed, but that CANOPY_SET or LINK_UP may have come up. -/
structure Untouched (s t : State) : Prop where
  resetHeld : t.resetHeld = s.resetHeld
  canopy : s.canopySet = true → t.canopySet = true
  linkUp : s.sensor.live.linkUp = true → t.sensor.live.linkUp = true
  cycle : t.cycle = s.cycle
  stall : t.assembler.stallWindow = s.assembler.stallWindow
  anchor : t.anchor = s.anchor
  resin : t.resin = s.resin
  torque : t.torque = s.torque
  config : t.host.config = s.host.config

namespace Untouched

variable {s t : State}

theorem sameItems (e : Untouched s t) : SameItems s t :=
  ⟨e.resetHeld, e.canopy, e.linkUp, by rw [e.cycle], by rw [e.cycle], by rw [e.cycle], by rw [e.cycle], by rw [e.resin],
    by rw [e.resin], by rw [e.resin], by rw [e.resin], by rw [e.torque]⟩

theorem chargeSound (e : Untouched s t) (h : ChargeSound s) : ChargeSound t :=
  h.congr (inPhase_congr e.sameItems.state e.sameItems.remembered) (by rw [e.cycle]; exact id) e.anchor (by rw [e.resin])
    (by rw [e.torque]) (by rw [e.torque]) (by rw [e.torque]) (by rw [e.torque]) (by rw [e.cycle]; exact id)

theorem work (e : Untouched s t) (h : CycleSound s) : WorkKeeps s t where
  cycle := e.sameItems.cycleSound h
  timers := fun ⟨h1, h2, h3, h4, h5⟩ =>
    ⟨by rwa [e.cycle], by rwa [e.cycle], by rwa [e.stall], by rwa [e.resin], by rwa [e.torque]⟩
  charge := fun _ => e.chargeSound
  base := fun h => h.congr e.config

theorem event (e : Untouched s t) (h : CycleSound s) : EventKeeps s t where
  cycle := e.sameItems.cycleSound h
  timers := by
    intro ⟨h1, h2, h3, h4, h5⟩
    have hr : ∀ p, phaseRuns t p = phaseRuns s p := fun p => by simp only [phaseRuns, e.cycle]
    exact ⟨by rwa [hr, e.cycle], by rwa [hr, e.cycle], by rwa [hr, e.stall], by rwa [hr, e.resin], by rwa [hr, e.torque]⟩
  charge := fun _ => e.chargeSound
  base := fun h => h.congr e.config

end Untouched

/-! ### The end of an event -/

theorem WorkKeeps.settle {s w : State} (h : WorkKeeps s w) : EventKeeps s (settle w) where
  cycle := settle_cycleSound h.cycle
  timers := fun hs => settle_timersSound (h.timers hs.bounded)
  charge := fun hb hs => settle_chargeSound (h.charge hb hs)
  base := fun hb => (h.base hb).congr (by simp)

theorem finish_untouched (old s : State) : Untouched s (finish old s) :=
  ⟨by simp, by simp, by simp, by simp, by simp, by simp, by simp, by simp, by simp⟩

theorem EventKeeps.finish {s t : State} (h : EventKeeps s t) (old : State) : EventKeeps s (finish old t) :=
  h.trans ((finish_untouched old t).event h.cycle)

theorem WorkKeeps.event {s w : State} (h : WorkKeeps s w) (old : State) : EventKeeps s (event old w) :=
  h.settle.finish old

theorem setReply_untouched (status : Status) (data : List Byte) (s : State) : Untouched s (setReply status data s) :=
  ⟨by simp, by simp, by simp, by simp, by simp, by simp, by simp, by simp, by simp⟩

theorem EventKeeps.setReply {s t : State} (h : EventKeeps s t) (status : Status) (data : List Byte) :
    EventKeeps s (setReply status data t) := h.trans ((setReply_untouched status data t).event h.cycle)

theorem WorkKeeps.accept {s w : State} (h : WorkKeeps s w) (old : State) (data : List Byte) :
    EventKeeps s (accept old w data) := (h.event old).setReply _ _

theorem queueFault_untouched (code : FaultCode) (s : State) : Untouched s (queueFault code s) :=
  ⟨by simp, by simp, by simp, by simp, by simp, by simp, by simp, by simp, by simp⟩

/-! ### Suspending, completing, entering -/

theorem suspend_timersBounded {c : Cause} {s : State} : TimersBounded s → TimersBounded (suspend c s) :=
  fun ⟨h1, h2, h3, h4, h5⟩ => ⟨by simpa, by simpa, by simpa, by simpa, by simpa⟩

theorem suspend_work {s : State} {p : Phase} {c : Cause} (h : CycleSound s) (hp : s.cycle.state = .active p)
    (ha : s.cycle.abortPending = false) : WorkKeeps s (suspend c s) where
  cycle := suspend_cycleSound h hp ha
  timers := suspend_timersBounded
  charge := fun _ h => suspend_chargeSound h hp
  base := fun h => h.congr (by simp)

/-- Only INSERT has an abort pending. -/
theorem CycleSound.no_abort_of_ne {s : State} {p : Phase} (h : CycleSound s) (hp : s.cycle.state = .active p)
    (hi : p ≠ .insert) : s.cycle.abortPending = false := h.no_abort (h.no_stroke (by simpa [hp] using hi))

theorem complete_timersBounded {v : Verdict} {s : State} (h : TimersBounded s) : TimersBounded (complete v s) :=
  ⟨by simp [complete, Timer.bounded], by simp [complete, Timer.bounded], by simpa using h.stall,
    by simp [complete, Timer.bounded], by simp [complete, Timer.bounded]⟩

theorem complete_work {s : State} {v : Verdict} (h : CycleSound s) (hu : s.cycle.state ≠ .unconfigured) :
    WorkKeeps s (complete v s) where
  cycle := complete_cycleSound h.pushed (h.awake hu)
  timers := complete_timersBounded
  charge := fun _ h => complete_chargeSound h.anchorSound
  base := fun h => h.congr (by simp)

theorem enterPhase_timersBounded {p : Phase} {s : State} : TimersBounded s → TimersBounded (enterPhase p s) :=
  fun ⟨h1, h2, h3, h4, h5⟩ => ⟨by simpa, by simpa, by simpa, by simpa, by simpa⟩

/-- A phase entered after some work `w` on the state `s`. -/
theorem enterPhase_work {p : Phase} {s w : State} (hr : ReadyToEnter w) (ht : TimersBounded s → TimersBounded w)
    (hf : BaseInRange s → ChargeSound s → FiguresFor p w) (hc : w.host.config = s.host.config) :
    WorkKeeps s (enterPhase p w) where
  cycle := enterPhase_cycleSound hr
  timers := fun h => enterPhase_timersBounded (ht h)
  charge := fun hb hs => enterPhase_chargeSound (hf hb hs)
  base := fun h => h.congr (by simpa using hc)

theorem ReadyToEnter.congr {s t : State} (h : ReadyToEnter s) (h1 : t.resetHeld = s.resetHeld)
    (h2 : t.canopySet = s.canopySet) (h3 : t.resin.stroke = s.resin.stroke) (h4 : t.resin.pushed = s.resin.pushed)
    (h5 : t.resin.charge = s.resin.charge) (h6 : t.cycle.abortPending = s.cycle.abortPending)
    (h7 : t.torque.torqueNear = s.torque.torqueNear) : ReadyToEnter t :=
  ⟨h1 ▸ h.awake, h2 ▸ h.canopy, h3 ▸ h.stroke, h4 ▸ h5 ▸ h.pushed, h6 ▸ h.abortPending, h7 ▸ h.torqueNear⟩

/-- A phase without a stroke and without the near mark, running or suspended, is ready to be left for another. -/
theorem CycleSound.ready_of_inPhase {s : State} {p : Phase} (h : CycleSound s) (hp : inPhase s p = true)
    (hn : p ≠ .insert ∧ p ≠ .torque) (hc : s.canopySet = true) : ReadyToEnter s := by
  have hs : s.cycle.state = .active p ∨ s.cycle.state = .suspended := by
    simp only [inPhase, Bool.or_eq_true, Bool.and_eq_true, beq_iff_eq] at hp
    exact hp.imp_right And.left
  refine h.ready ?_ hc ?_ ?_ <;> rcases hs with hs | hs <;> simp [hs, hn]

theorem inPhase_active {s : State} {p : Phase} (hp : s.cycle.state = .active p) : inPhase s p = true := by
  simp [inPhase, hp]

theorem CycleSound.canopySet {s : State} {p : Phase} (h : CycleSound s) (hp : s.cycle.state = .active p) :
    s.canopySet = true := h.canopy (by simp [hp, CycleState.isActive])

/-! ### Drilling -/

/-- RETRACT entered afresh, after some work. -/
theorem enterRetractFresh_work {s w : State} (hr : ReadyToEnter w) (ht : TimersBounded s → TimersBounded w)
    (hf : BaseInRange s → ChargeSound s → FiguresFor .retract w) (hc : w.host.config = s.host.config) :
    WorkKeeps s (enterRetractFresh w) :=
  enterPhase_work (hr.congr rfl rfl rfl rfl rfl rfl rfl)
    (fun h => ⟨rfl, rfl, rfl, (ht h).stroke, (ht h).torque⟩)
    (fun hb hs => (hf hb hs).congr rfl rfl rfl rfl rfl rfl id) (by simpa using hc)

/-- The evaluation's choice is 1 to 3 cartridges with a target, and it decides (05 R77 to R80). -/
theorem evaluation_anchorSound {c : Configuration} (hb : 1 ≤ c.baseCartridges ∧ c.baseCartridges ≤ 2) (planned : Nat)
    (cells : List CellRecord) :
    AnchorSound (evaluation c planned cells) ∧ (evaluation c planned cells).outcome ≠ .none := by
  unfold evaluation
  dsimp only
  split
  · exact ⟨⟨by simp, by simp⟩, by simp⟩
  · refine ⟨⟨by simp, fun n hn => ?_⟩, by simp⟩
    simp only [Option.some.injEq] at hn
    split at hn <;> omega

theorem evaluateAnchor_anchor (s : State) :
    (evaluateAnchor s).anchor = evaluation s.cfg s.cycle.planned (openCells s) := by simp [evaluateAnchor]

theorem restartStall_work {s : State} (h : CycleSound s) : WorkKeeps s (restartStall s) where
  cycle := SameItems.cycleSound (s := s) ⟨rfl, id, id, rfl, rfl, rfl, rfl, rfl, rfl, rfl, rfl, rfl⟩ h
  timers := fun ⟨h1, h2, _, h4, h5⟩ => ⟨h1, h2, rfl, h4, h5⟩
  charge := fun _ h => h.congr (fun _ => rfl) id rfl rfl rfl rfl rfl rfl id
  base := id

theorem drillTests_work {s : State} (h : CycleSound s) (hp : inPhase s .drill = true) (hc : s.canopySet = true) :
    WorkKeeps s (drillTests s) := by
  unfold drillTests
  split_ifs
  · refine enterRetractFresh_work ((h.ready_of_inPhase hp (by simp) hc).congr (by simp) (by simp) (by simp) (by simp)
      (by simp) (by simp) (by simp)) (fun ⟨h1, h2, h3, h4, h5⟩ => ?_) (fun hb hs => ?_) (by simp)
    · exact ⟨by simpa, by simpa, by simpa, by simpa, by simpa⟩
    · obtain ⟨ha, ho⟩ := evaluation_anchorSound hb s.cycle.planned (openCells s)
      rw [← evaluateAnchor_anchor] at ha ho
      exact ⟨ha, fun _ _ => ho, by simp [Phase.charged], by simp, by simpa using hs.notEntered .drill (by simp) hp⟩
  · exact restartStall_work h
  · exact .refl h

/-- DRILL entered from COLLAR (01 R10). -/
theorem enterDrill_work {s : State} (h : CycleSound s) (hp : s.cycle.state = .active .collar) :
    WorkKeeps s (enterPhase .drill (restartStall (s.onCycle fun c => { c with collarTimer := .disarmed }))) := by
  refine enterPhase_work ((h.ready_of_inPhase (inPhase_active hp) (by simp) (h.canopySet hp)).congr rfl rfl rfl rfl rfl rfl
    rfl) (fun ⟨_, h2, _, h4, h5⟩ => ⟨rfl, h2, rfl, h4, h5⟩) (fun hb hs => ?_) rfl
  obtain ⟨ha, -, -, -, he⟩ := hs.figures (inPhase_active hp)
  exact ⟨ha, by simp, by simp [Phase.charged], by simp, fun _ => he (by simp)⟩

theorem collarTests_work {s : State} (h : CycleSound s) (hp : s.cycle.state = .active .collar) :
    WorkKeeps s (collarTests s) := by
  unfold collarTests
  split_ifs
  · have hd := enterDrill_work h hp
    exact hd.trans (drillTests_work hd.cycle (by simp [inPhase_enterPhase]) (by simpa using h.canopySet hp))
  · exact .refl h

@[simp] theorem AssemblerBlock.accumulate_stallWindow (a : AssemblerBlock) (x : Sample) :
    (a.accumulate x).stallWindow = a.stallWindow := by
  unfold AssemblerBlock.accumulate
  split <;> rfl

@[simp] theorem AssemblerBlock.openCell_stallWindow (a : AssemblerBlock) (k : Nat) :
    (a.openCell k).stallWindow = a.stallWindow := rfl

@[simp] theorem placeSample_assembler_stallWindow (x : Sample) (s : State) :
    (placeSample x s).assembler.stallWindow = s.assembler.stallWindow := by
  simp only [placeSample]
  split <;> try split_ifs
  all_goals simp

theorem placeSample_untouched (x : Sample) (s : State) : Untouched s (placeSample x s) :=
  ⟨by simp, by simp, by simp, by simp, by simp, by simp, by simp, by simp, by simp⟩

/-! ### The end of RETRACT -/

theorem disarmRetract_work {s : State} (h : CycleSound s) :
    WorkKeeps s (s.onCycle fun c => { c with retractTimer := .disarmed }) where
  cycle := SameItems.cycleSound (s := s) ⟨rfl, id, id, rfl, rfl, rfl, rfl, rfl, rfl, rfl, rfl, rfl⟩ h
  timers := fun ⟨h1, _, h3, h4, h5⟩ => ⟨h1, rfl, h3, h4, h5⟩
  charge := fun _ h => h.congr (fun _ => rfl) id rfl rfl rfl rfl rfl rfl id
  base := id

/-- INSERT entered from RETRACT or DECIDE takes over the charge chosen (06 R87). -/
theorem enterInsert_work {s w : State} (hr : ReadyToEnter w) (ht : TimersBounded s → TimersBounded w)
    (hf : BaseInRange s → ChargeSound s → AnchorSound w.anchor ∧ w.anchor.charge.isSome = true
      ∧ w.anchor.target.isSome = true ∧ w.torque.entered = false) (hc : w.host.config = s.host.config) :
    WorkKeeps s (enterInsert w) := by
  refine enterPhase_work ⟨hr.awake, hr.canopy, by simp, Nat.zero_le _, hr.abortPending, hr.torqueNear⟩
    (fun h => ⟨(ht h).collar, (ht h).retract, (ht h).stall, (ht h).stroke, (ht h).torque⟩) (fun hb hs => ?_)
    (by simpa using hc)
  obtain ⟨ha, hcharge, htarget, he⟩ := hf hb hs
  exact ⟨ha, by simp, fun _ => ⟨rfl, hcharge, htarget⟩, by simp, fun _ => he⟩

theorem enterDecide_work {s : State} (h : CycleSound s) (hp : s.cycle.state = .active .retract) :
    WorkKeeps s (enterDecide s) where
  cycle :=
    { remembered := rfl
      cause := rfl
      canopy := by simp [enterDecide, CycleState.isActive]
      sampleLink := rfl
      onHold := by simp [h.awake (s := s) (by simp [hp])]
      stroke := fun hs => absurd hs (h.no_stroke (by simp [hp]))
      pushed := h.pushed
      gap := h.gap
      abortPending := h.abortPending
      torqueNear := by simp [h.no_torqueNear (s := s) (by simp [hp])] }
  timers := fun ⟨h1, h2, h3, h4, h5⟩ => ⟨h1, h2, h3, h4, h5⟩
  charge := fun _ h => AnchorSound.chargeSound h.anchorSound (fun q => rfl)
    fun _ => h.notEntered .retract (by simp) (inPhase_active hp)
  base := id

/-- A RETRACT without a pending verdict that is not rejected has its charge and target (01 R13). -/
theorem ChargeSound.chosen {s : State} (h : ChargeSound s) (hp : s.cycle.state = .active .retract)
    (hv : s.cycle.pendingVerdict = none) (ho : s.anchor.outcome ≠ .reject) :
    s.anchor.charge.isSome = true ∧ s.anchor.target.isSome = true := by
  have hnone := h.retract (inPhase_active hp) hv
  refine h.outcome ?_
  cases hoc : s.anchor.outcome
  · exact absurd hoc hnone
  · rfl
  · exact absurd hoc ho

theorem endRetract_work {s : State} (h : CycleSound s) (hp : s.cycle.state = .active .retract) :
    WorkKeeps s (endRetract s) := by
  have hd := disarmRetract_work h
  unfold endRetract
  dsimp only
  split
  · exact hd.trans (complete_work hd.cycle (by simp [hp]))
  · exact hd.trans (complete_work hd.cycle (by simp [hp]))
  · rename_i hv
    split_ifs with ho
    · exact hd.trans (enterDecide_work hd.cycle (by simp [hp]))
    · refine enterInsert_work ((h.ready_of_inPhase (inPhase_active hp) (by simp) (h.canopySet hp)).congr rfl rfl rfl rfl rfl
        rfl rfl) hd.timers (fun _ hs => ?_) rfl
      obtain ⟨hc, ht⟩ := hs.chosen hp hv ho
      exact ⟨hs.anchorSound, hc, ht, hs.notEntered .retract (by simp) (inPhase_active hp)⟩

/-! ### Mixing, hold and torque -/

/-- In TORQUE the monitor's counters and marks may change, but for the figures of the target. -/
theorem torqueCount_work {s t : State} (h : CycleSound s) (hp : s.cycle.state = .active .torque)
    (e : t = { s with torque := t.torque, history := t.history }) (ht : t.torque.target = s.torque.target)
    (hc : t.torque.ceiling = s.torque.ceiling) (hn : t.torque.near = s.torque.near)
    (he : t.torque.entered = s.torque.entered) (htm : t.torque.timer = s.torque.timer) : WorkKeeps s t := by
  rw [e]
  exact
    { cycle := ⟨h.remembered, h.cause, h.canopy, h.sampleLink, h.onHold, h.stroke, h.pushed, h.gap, h.abortPending, fun _ => hp⟩
      timers := fun ⟨h1, h2, h3, h4, h5⟩ => ⟨h1, h2, h3, h4, htm ▸ h5⟩
      charge := fun _ h => h.congr (fun _ => rfl) id rfl rfl he ht hc hn id
      base := id }

theorem torqueSample_work {s : State} (h : CycleSound s) (hp : s.cycle.state = .active .torque) (q : Nat) :
    WorkKeeps s (torqueSample q s) := by
  have hw : ∀ f, WorkKeeps s (writeOpen f (s.onTorque fun t =>
      { t with peak := max t.peak q, overshoot := t.overshoot || s.torque.ceiling.any fun c => c < q })) :=
    fun f => torqueCount_work h hp rfl rfl rfl rfl rfl rfl
  exact .ite ((hw _).trans (complete_work (hw _).cycle (by simp [hp]))) (torqueCount_work h hp rfl rfl rfl rfl rfl rfl)

theorem torquePulse_work {s : State} (h : CycleSound s) (hp : s.cycle.state = .active .torque) :
    WorkKeeps s (torquePulse s) := by
  have hw : WorkKeeps s (s.onTorque fun t => { t with spinner := s.torque.spinner + 1 }) :=
    torqueCount_work h hp rfl rfl rfl rfl rfl rfl
  unfold torquePulse
  dsimp only
  split_ifs
  · exact hw.trans (complete_work hw.cycle (by simp [hp]))
  · exact hw

/-- The charge, the stroke and its timer are as they were in resin control. -/
structure SameStroke (r q : ResinBlock) : Prop where
  charge : q.charge = r.charge
  pushed : q.pushed = r.pushed
  stroke : q.stroke = r.stroke
  strokeTimer : q.strokeTimer = r.strokeTimer

/-- A phase without a stroke left for MIX or HOLD, after work on the rest of resin control and the record. -/
theorem enterAfterResin_work {s w : State} {p q : Phase} (h : CycleSound s) (hp : inPhase s p = true)
    (hn : p ≠ .insert ∧ p ≠ .torque) (hc : s.canopySet = true) (e : w = { s with resin := w.resin, history := w.history })
    (hs : SameStroke s.resin w.resin) (hf : BaseInRange s → ChargeSound s → FiguresFor q s) :
    WorkKeeps s (enterPhase q w) := by
  obtain ⟨hcharge, hpushed, hstroke, htimer⟩ := hs
  rw [e]
  exact enterPhase_work ((h.ready_of_inPhase hp hn hc).congr rfl rfl hstroke hpushed hcharge rfl rfl)
    (fun ⟨h1, h2, h3, h4, h5⟩ => ⟨h1, h2, h3, htimer ▸ h4, h5⟩)
    (fun hb hs => (hf hb hs).congr rfl hcharge rfl rfl rfl rfl id) rfl

/-- MIX, HOLD and INSERT run on the same figures. -/
theorem FiguresFor.next {s : State} {p q : Phase} (h : FiguresFor p s) (hp : p.charged = true ∧ p ≠ .torque)
    (hq : q.charged = true ∧ q ≠ .torque) : FiguresFor q s where
  anchor := h.anchor
  retract := by rintro rfl; exact absurd hq.1 (by decide)
  charged := fun _ => h.charged hp.1
  torque := fun hc => absurd hc hq.2
  notEntered := fun _ => h.notEntered hp.2

theorem enterHold_work {s w : State} {p : Phase} (h : CycleSound s) (hp : inPhase s p = true) (hpm : p = .mix ∨ p = .hold)
    (hc : s.canopySet = true) (e : w = { s with resin := w.resin, history := w.history })
    (hs : SameStroke s.resin w.resin) : WorkKeeps s (enterHold w) :=
  enterAfterResin_work h hp (by rcases hpm with rfl | rfl <;> simp) hc (by rw [e]; rfl)
    ⟨hs.charge, hs.pushed, hs.stroke, hs.strokeTimer⟩
    fun _ hcs => (hcs.figures hp).next (by rcases hpm with rfl | rfl <;> simp [Phase.charged]) (by simp [Phase.charged])

theorem mixPulse_work {s : State} (h : CycleSound s) (hp : s.cycle.state = .active .mix) : WorkKeeps s (mixPulse s) := by
  unfold mixPulse
  dsimp only
  split_ifs
  · exact enterHold_work h (inPhase_active hp) (.inl rfl) (h.canopySet hp) rfl ⟨rfl, rfl, rfl, rfl⟩
  · exact
      { cycle := SameItems.cycleSound (s := s) ⟨rfl, id, id, rfl, rfl, rfl, rfl, rfl, rfl, rfl, rfl, rfl⟩ h
        timers := fun ⟨h1, h2, h3, h4, h5⟩ => ⟨h1, h2, h3, h4, h5⟩
        charge := fun _ h => h.congr (fun _ => rfl) id rfl rfl rfl rfl rfl rfl id
        base := id }

/-- The first entry to TORQUE gives the monitor the figures of the anchor's target (07 R105). -/
theorem enterTorqueFirst_work {s w : State} {p : Phase} (hr : ReadyToEnter s) (hp : inPhase s p = true)
    (hch : p.charged = true) (e : w = { s with resin := w.resin }) (hs : SameStroke s.resin w.resin) :
    WorkKeeps s (enterTorqueFirst w) := by
  obtain ⟨hcharge, hpushed, hstroke, htimer⟩ := hs
  rw [e]
  refine enterPhase_work ⟨hr.awake, hr.canopy, ?_, ?_, hr.abortPending, rfl⟩
    (fun ⟨h1, h2, h3, h4, _⟩ => ⟨h1, h2, h3, htimer ▸ h4, rfl⟩) (fun _ hs => ?_) rfl
  · exact hstroke ▸ hr.stroke
  · exact hpushed ▸ hcharge ▸ hr.pushed
  · have hf := hs.figures hp
    exact ⟨hf.anchor, by simp, fun _ => ⟨hcharge ▸ (hf.charged hch).1, (hf.charged hch).2⟩, fun _ => ⟨rfl, rfl, rfl, rfl⟩,
      by simp⟩

/-! ### Strokes -/

/-- A stroke in progress that ends: the stroke is IDLE, its timer disarmed, and at most the charge has been pushed. -/
theorem strokeEnd_work {s w : State} (h : CycleSound s) (e : w = { s with resin := w.resin, history := w.history })
    (hs : w.resin.stroke ≠ .inProgress) (ht : w.resin.strokeTimer = .disarmed) (hc : w.resin.charge = s.resin.charge)
    (hp : w.resin.pushed ≤ w.resin.charge.getD 0) (ha : s.cycle.abortPending = false) : WorkKeeps s w := by
  rw [e]
  exact
    { cycle := ⟨h.remembered, h.cause, h.canopy, h.sampleLink, h.onHold, fun hi => absurd hi hs, hp, fun _ => hs,
        by simp [ha], h.torqueNear⟩
      timers := fun ⟨h1, h2, h3, _, h5⟩ => ⟨h1, h2, h3, by simp [ht, Timer.bounded], h5⟩
      charge := fun _ h => h.congr (fun _ => rfl) id rfl hc rfl rfl rfl rfl id
      base := id }

/-- A hole completes on work that changed only resin control and the record. -/
theorem complete_afterResin_work {s w : State} {v : Verdict} (h : CycleSound s) (hu : s.cycle.state ≠ .unconfigured)
    (e : w = { s with resin := w.resin, history := w.history }) (hp : w.resin.pushed ≤ w.resin.charge.getD 0) :
    WorkKeeps s (complete v w) where
  cycle := complete_cycleSound hp (by rw [e]; exact h.awake hu)
  timers := fun h => by
    rw [e]
    exact ⟨by simp [complete, Timer.bounded], by simp [complete, Timer.bounded], by simpa using h.stall,
      by simp [complete, Timer.bounded], by simp [complete, Timer.bounded]⟩
  charge := fun _ h => complete_chargeSound (by rw [e]; exact h.anchorSound)
  base := fun h => h.congr (by rw [e]; simp)

theorem strokeTimeout_work {s : State} (h : CycleSound s) (hs : s.resin.stroke = .inProgress) :
    WorkKeeps s (strokeTimeout s) := by
  have hp := (h.stroke hs).1
  unfold strokeTimeout
  dsimp only
  split_ifs with h1 h2
  · exact complete_afterResin_work h (by simp [hp]) rfl h.pushed
  · have ha : s.cycle.abortPending = false := by simpa using h1
    have hw : WorkKeeps s (s.onResin fun r => { r with stroke := .idle, strokeTimer := .disarmed }) :=
      strokeEnd_work h rfl (by simp) rfl rfl h.pushed ha
    have hq := (queueFault_untouched .injector _).work hw.cycle
    exact hw.trans (hq.trans (complete_work hq.cycle (by simp [hp])))
  all_goals
    have ha : s.cycle.abortPending = false := by simpa using h1
    have hw : WorkKeeps s ((s.onResin fun r => { r with stroke := .idle, strokeTimer := .disarmed }).onResin fun r =>
        { r with retry := true, gap := some (after s.now 100) }) :=
      strokeEnd_work h rfl (by simp) rfl rfl h.pushed ha
  · exact hw.trans (suspend_work hw.cycle (p := .insert) (by simp [hp]) ha)
  · exact hw

theorem strokeCounted_work {s : State} (h : CycleSound s) (hs : s.resin.stroke = .inProgress) :
    WorkKeeps s (strokeCounted s) := by
  obtain ⟨hp, hlt⟩ := h.stroke hs
  unfold strokeCounted
  dsimp only
  split_ifs with h1 h2
  · exact complete_afterResin_work h (by simp [hp]) rfl hlt
  · have ha : s.cycle.abortPending = false := by simpa using h1
    have hn := h.no_torqueNear (s := s) (by simp [hp])
    refine enterPhase_work ⟨h.awake (s := s) (by simp [hp]), h.canopySet hp, by simp, hlt, ha, hn⟩
      (fun ⟨h1, h2, h3, _, h5⟩ => ⟨h1, h2, h3, rfl, h5⟩) (fun _ hs => ?_) rfl
    exact ((hs.figures (inPhase_active hp)).next (by simp [Phase.charged]) (by simp [Phase.charged])).congr rfl rfl rfl rfl rfl
      rfl id
  all_goals
    have ha : s.cycle.abortPending = false := by simpa using h1
    have hw : WorkKeeps s ((writeOpen (fun r => { r with pushed := s.resin.pushed + 1 }) (s.onResin fun r =>
        { r with stroke := .idle, strokeTimer := .disarmed, pushed := s.resin.pushed + 1, retry := false })).onResin fun r =>
        { r with gap := some (after s.now 100) }) :=
      strokeEnd_work h rfl (by simp) rfl rfl hlt ha
  · exact hw.trans (suspend_work hw.cycle (p := .insert) (by simp [hp]) ha)
  · exact hw

end Sys2Proof.Machine
end

