-- ==== Sys2Proof/Proofs/Events.lean ====
section
/-! PROOFS. Every command keeps CycleSound, TimersSound and ChargeSound. -/

namespace Sys2Proof.Machine

/-! ### Updates that touch none of the items -/

theorem onLink_untouched (s : State) (f : LinkBlock → LinkBlock) : Untouched s (s.onLink f) :=
  ⟨rfl, id, id, rfl, rfl, rfl, rfl, rfl, rfl⟩

theorem onFlow_untouched (s : State) (f : FlowBlock → FlowBlock) : Untouched s (s.onFlow f) :=
  ⟨rfl, id, id, rfl, rfl, rfl, rfl, rfl, rfl⟩

theorem onHistory_untouched (s : State) (f : HistoryBlock → HistoryBlock) : Untouched s (s.onHistory f) :=
  ⟨rfl, id, id, rfl, rfl, rfl, rfl, rfl, rfl⟩

theorem onSensor_untouched {s : State} {f : SensorBlock → SensorBlock}
    (h : s.sensor.live.linkUp = true → (f s.sensor).live.linkUp = true) : Untouched s (s.onSensor f) :=
  ⟨rfl, id, h, rfl, rfl, rfl, rfl, rfl, rfl⟩

theorem onHost_untouched {s : State} {f : HostBlock → HostBlock} (h : (f s.host).config = s.host.config) :
    Untouched s (s.onHost f) := ⟨rfl, id, id, rfl, rfl, rfl, rfl, rfl, h⟩

theorem noteCanopy_untouched (s : State) (rise : Bool) : Untouched s (s.noteCanopy rise) :=
  ⟨rfl, fun h => by simp [State.noteCanopy, h], id, rfl, rfl, rfl, rfl, rfl, rfl⟩

theorem insertNotice_untouched (n : HoleNotice) (s : State) : Untouched s (insertNotice n s) :=
  ⟨rfl, id, id, rfl, rfl, rfl, rfl, rfl, rfl⟩

theorem sendSetpoints_untouched (s : State) : Untouched s (sendSetpoints s) := onFlow_untouched s _

theorem placeDemandIf_untouched (wanted : Bool) (s : State) : Untouched s (placeDemandIf wanted s) := onLink_untouched s _

theorem Untouched.refl (s : State) : Untouched s s := ⟨rfl, id, id, rfl, rfl, rfl, rfl, rfl, rfl⟩

theorem Untouched.trans {s t u : State} (h : Untouched s t) (k : Untouched t u) : Untouched s u :=
  ⟨k.resetHeld.trans h.resetHeld, fun hc => k.canopy (h.canopy hc), fun hl => k.linkUp (h.linkUp hl),
    k.cycle.trans h.cycle, k.stall.trans h.stall, k.anchor.trans h.anchor, k.resin.trans h.resin, k.torque.trans h.torque,
    k.config.trans h.config⟩

/-- A reply on top of what touched none of the items. -/
theorem Untouched.reply {s t : State} (h : Untouched s t) (status : Status) (data : List Byte) :
    Untouched s (setReply status data t) := h.trans (setReply_untouched status data t)

theorem EventKeeps.ite {s t u : State} {c : Prop} [Decidable c] (h : c → EventKeeps s t) (k : ¬c → EventKeeps s u) :
    EventKeeps s (if c then t else u) := by split_ifs with hc; exacts [h hc, k hc]

/-! ### A command as an event -/

/-- A held part takes no event. -/
theorem EventKeeps.of_unlessHeld {s t new : State} (hs : CycleSound s) (h : s.resetHeld = false → EventKeeps s new)
    (e : (unlessHeld s new : Host.Outcome State Fault Refusal) = .next t) : EventKeeps s t := by
  rw [unlessHeld_next, Host.Outcome.next.injEq] at e
  subst e
  split_ifs with hr
  · exact .refl hs
  · exact h (by simpa using hr)

theorem EventKeeps.transacted {s t : State} (h : EventKeeps s t) (hs : CycleSound s) (host : Transaction) :
    EventKeeps s (transacted host s t) := by
  unfold Machine.transacted
  split
  · exact .refl hs
  · exact h.trans ((onHost_untouched rfl).event h.cycle)

/-! ### Sample records and pulses -/

theorem handSample_keeps (x : Sample) {s : State} (h : CycleSound s) : EventKeeps s (handSample x s) := by
  have hplace := (placeSample_untouched x s).work h
  unfold handSample
  split
  · rename_i hp
    exact (hplace.trans (collarTests_work hplace.cycle (by simpa using hp))).event s
  · rename_i hp
    refine (hplace.trans (drillTests_work hplace.cycle (inPhase_active (by simpa using hp)) ?_)).event s
    simpa using h.canopySet hp
  · rename_i hp
    exact .ite (fun _ => (endRetract_work h hp).event s) fun _ => .refl h
  · rename_i hp
    exact (torqueSample_work h hp _).event s
  · exact .refl h

theorem takeRecord_keeps (record : List Byte) {s : State} (h : CycleSound s) : EventKeeps s (takeRecord record s) := by
  unfold takeRecord
  split
  · rename_i raw _
    have hu : EventKeeps s (storeSample raw s) := (onSensor_untouched fun _ => by simp).event h
    exact hu.trans (handSample_keeps _ hu.cycle)
  · exact .refl h

theorem takeByte_keeps (value : Byte) (stopHigh : Bool) {s : State} (h : CycleSound s) :
    EventKeeps s (takeByte value stopHigh s) := by
  have hu : EventKeeps s (s.onSensor fun p =>
      { p with receiver := if stopHigh then .idle else .low, assembly := (feedSrx s.sensor.assembly value stopHigh).1 }) :=
    (onSensor_untouched id).event h
  unfold takeByte
  dsimp only
  split
  · exact hu.trans (takeRecord_keeps _ hu.cycle)
  · exact hu

theorem SensorBlock.highBit_live (p : SensorBlock) : p.highBit.live = p.live := by
  unfold SensorBlock.highBit
  split_ifs <;> rfl

theorem takeSrxBit_keeps (s : State) (bit : Bool) (h : CycleSound s) : EventKeeps s (takeSrxBit s bit) := by
  unfold takeSrxBit
  split
  · refine (onSensor_untouched fun hl => ?_).event h
    split_ifs
    · rwa [SensorBlock.highBit_live]
    · exact hl
  · exact .ite (fun _ => (onSensor_untouched id).event h) fun _ => takeByte_keeps _ _ h
  · exact .ite (fun _ => (onSensor_untouched id).event h) fun _ => .refl h

theorem handPulse_keeps {s : State} (h : CycleSound s) : EventKeeps s (handPulse s) := by
  unfold handPulse
  split
  · rename_i hp
    exact (mixPulse_work h hp).event s
  · rename_i hp
    exact (torquePulse_work h hp).event s
  · exact .refl h

/-- A fall of LINK_UP suspends a phase that needs it, so that no phase runs on without its link (01 R18). -/
theorem linkFall_work {s : State} (h : CycleSound s) : WorkKeeps s (linkFall s) := by
  generalize hw : taintCell (queueFault .sensorLost
    (s.onSensor fun p => ({ p with linkDeadline := none }).takeLive { p.live with linkUp := false })) = w
  have ht : TimersBounded s → TimersBounded w := by
    rw [← hw]
    exact fun ⟨h1, h2, h3, h4, h5⟩ => ⟨by simpa, by simpa, by simpa, by simpa, by simpa⟩
  have hc : w.host.config = s.host.config := by simp [← hw]
  have hch : ChargeSound s → ChargeSound w := fun h =>
    h.congr (inPhase_congr (by simp [← hw]) (by simp [← hw])) (by simp [← hw]) (by simp [← hw]) (by simp [← hw])
      (by simp [← hw]) (by simp [← hw]) (by simp [← hw]) (by simp [← hw]) (by simp [← hw])
  have hcy : w.cycle = s.cycle := by simp [← hw]
  have hr : w.resin = s.resin := by simp [← hw]
  have hheld : w.resetHeld = s.resetHeld := by simp [← hw]
  have hstay : linkServes w = true → WorkKeeps s w := fun hl =>
    ⟨⟨hcy ▸ h.remembered, hcy ▸ h.cause, by simpa [← hw] using h.canopy, hl, by simpa [← hw] using h.onHold,
      hcy ▸ hr ▸ h.stroke, hr ▸ h.pushed, hr ▸ h.gap, hcy ▸ hr ▸ h.abortPending, by simpa [← hw] using h.torqueNear⟩,
      ht, fun _ => hch, fun hb => hb.congr hc⟩
  rw [linkFall, hw, sensorSuspension]
  split
  · rename_i p hp
    have hps : s.cycle.state = .active p := hcy ▸ hp
    split_ifs with hn
    · have hi : p ≠ .insert := by rintro rfl; simp [Phase.needsLink] at hn
      exact
        { cycle := suspend_cycleSound_of hp (hheld ▸ h.awake (s := s) (by simp [hps]))
            (by rw [hr]; exact h.stroke_insert hps) (by rw [hr]; exact h.pushed)
            (by rw [hcy]; exact h.no_abort_of_ne hps hi)
          timers := fun hs => suspend_timersBounded (ht hs)
          charge := fun _ hs => suspend_chargeSound (hch hs) hp
          base := fun hb => hb.congr (by simpa using hc) }
    · exact hstay (by simp [linkServes, hp, hn])
  · rename_i hno
    refine hstay ?_
    unfold linkServes
    split
    · rename_i p hp
      exact absurd hp (hno p)
    · rfl

/-! ### The input pins -/

/-- A fall of CANOPY_SET leaves no phase active (01 R17, R24). -/
theorem canopyFall_keeps {s : State} (h : CycleSound s) : EventKeeps s (canopyFall { s with canopySet := false }) := by
  generalize hw : queueFault .canopyLost { s with canopySet := false } = w
  have hcy : w.cycle = s.cycle := by simp [← hw]
  have hr : w.resin = s.resin := by simp [← hw]
  have hheld : w.resetHeld = s.resetHeld := by simp [← hw]
  have hc : w.host.config = s.host.config := by simp [← hw]
  have ht : TimersBounded s → TimersBounded w := by
    rw [← hw]
    exact fun ⟨h1, h2, h3, h4, h5⟩ => ⟨h1, h2, h3, h4, h5⟩
  have hch : ChargeSound s → ChargeSound w := by
    rw [← hw]
    exact fun h => h.congr (fun _ => rfl) id rfl rfl rfl rfl rfl rfl id
  unfold canopyFall
  split
  · rename_i p hp
    have hps : s.cycle.state = .active p := hp
    have hawake : w.resetHeld = false := hheld ▸ h.awake (s := s) (by simp [hps])
    rw [hw]
    refine WorkKeeps.event ?_ _
    split_ifs with ha
    · exact
        { cycle := complete_cycleSound (by rw [hr]; exact h.pushed) hawake
          timers := fun hs => complete_timersBounded (ht hs)
          charge := fun _ hs => complete_chargeSound (hch hs).anchorSound
          base := fun hb => hb.congr (by simpa using hc) }
    · have habort : w.cycle.abortPending = false := by
        rw [hcy]
        by_cases hi : p = .insert
        · simpa [hi] using ha
        · exact h.no_abort_of_ne hps hi
      exact
        { cycle := suspend_cycleSound_of (hcy ▸ hps) hawake (by rw [hr]; exact h.stroke_insert hps)
            (by rw [hr]; exact h.pushed) habort
          timers := fun hs => suspend_timersBounded (ht hs)
          charge := fun _ hs => suspend_chargeSound (hch hs) (hcy ▸ hps)
          base := fun hb => hb.congr (by simpa using hc) }
  · rename_i hno
    have hna : s.cycle.state.isActive = false := by
      cases hs : s.cycle.state with
      | active p => exact absurd hs (hno p)
      | _ => rfl
    exact
      { cycle := ⟨h.remembered, h.cause, fun ha => by simp [hna] at ha, h.sampleLink, h.onHold, h.stroke, h.pushed, h.gap,
          h.abortPending, h.torqueNear⟩
        timers := fun ⟨h1, h2, h3, h4, h5⟩ => ⟨h1, h2, h3, h4, h5⟩
        charge := fun _ h => h.congr (fun _ => rfl) id rfl rfl rfl rfl rfl rfl id
        base := id }

theorem valveFall_keeps (old : State) {s : State} (h : CycleSound s) : EventKeeps s (valveFall old s) := by
  unfold valveFall
  split
  · exact ((onFlow_untouched s _).work h).event old
  · exact ((onFlow_untouched s _).work h).event old
  · exact .refl h

/-! ### The expiries -/

theorem setPendingVerdict_ne_none (v : PendingVerdict) (s : State) : (setPendingVerdict v s).cycle.pendingVerdict ≠ none := by
  simp only [setPendingVerdict, State.onCycle_cycle]
  split <;> simp

theorem setPendingVerdict_keeps {v : PendingVerdict} {s : State} (h : CycleSound s) :
    EventKeeps s (setPendingVerdict v s) where
  cycle := SameItems.cycleSound (s := s) ⟨rfl, id, id, rfl, rfl, rfl, rfl, rfl, rfl, rfl, rfl, rfl⟩ h
  timers := fun ⟨h1, h2, h3, h4, h5⟩ => ⟨h1, h2, h3, h4, h5⟩
  charge := fun _ h => h.congr (fun _ => rfl) id rfl rfl rfl rfl rfl rfl
    fun hn => absurd hn (setPendingVerdict_ne_none v s)
  base := id

@[simp] theorem shortEnd_stallWindow (s : State) : (shortEnd s).assembler.stallWindow = .disarmed := rfl

@[simp] theorem shortEnd_cell (s : State) : (shortEnd s).assembler.cell = none := rfl

theorem shortEnd_work {s : State} (h : CycleSound s) : WorkKeeps s (shortEnd s) where
  cycle := SameItems.cycleSound (s := s) ⟨by simp, by simp, by simp, by simp, by simp, by simp, by simp, by simp, by simp,
    by simp, by simp, by simp⟩ h
  timers := fun ⟨h1, h2, _, h4, h5⟩ => ⟨by simpa, by simpa, rfl, by simpa, by simpa⟩
  charge := fun _ h => h.congr (inPhase_congr (by simp) (by simp)) (by simp) (by simp) (by simp) (by simp) (by simp) (by simp)
    (by simp) (by simp)
  base := fun h => h.congr (by simp)

/-- RETRACT entered afresh with a verdict pending, from COLLAR, DRILL or RETRACT: the work `w` has set the verdict and has
left the rest of the cycle's items. -/
theorem retractWithVerdict_work {s w : State} {p : Phase} (hr : ReadyToEnter s) (hp : inPhase s p = true) (hn : p ≠ .torque)
    (hv : w.cycle.pendingVerdict ≠ none) (h1 : w.resetHeld = s.resetHeld) (h2 : w.canopySet = s.canopySet)
    (h3 : w.resin = s.resin) (h4 : w.cycle.abortPending = s.cycle.abortPending) (h5 : w.torque = s.torque)
    (h6 : w.anchor = s.anchor) (h7 : w.host.config = s.host.config) (ht : TimersBounded s → TimersBounded w) :
    WorkKeeps s (enterRetractFresh w) ∧ WorkKeeps s (enterPhase .retract w) := by
  have hready : ReadyToEnter w := hr.congr h1 h2 (by rw [h3]) (by rw [h3]) (by rw [h3]) h4 (by rw [h5])
  have hf : BaseInRange s → ChargeSound s → FiguresFor .retract w := fun _ hs =>
    ⟨h6 ▸ hs.anchorSound, fun _ hnone => absurd hnone hv, by simp [Phase.charged], by simp,
      fun _ => by rw [h5]; exact hs.notEntered p hn hp⟩
  exact ⟨enterRetractFresh_work hready ht hf h7, enterPhase_work hready ht hf h7⟩

theorem collarTimeout_work {s : State} (h : CycleSound s) (hp : s.cycle.state = .active .collar) :
    WorkKeeps s (enterRetractFresh (shortEnd (setPendingVerdict .short (queueFault .collarTimeout s)))) :=
  (retractWithVerdict_work (h.ready_of_inPhase (inPhase_active hp) (by simp) (h.canopySet hp)) (inPhase_active hp) (by simp)
    (by rw [shortEnd_cycle]; exact setPendingVerdict_ne_none _ _) (by simp) (by simp) (by simp) (by simp) (by simp) (by simp)
    (by simp) fun ⟨h1, h2, _, h4, h5⟩ => ⟨by simpa, by simpa, rfl, by simpa, by simpa⟩).1

theorem stallTimeout_work {s : State} (h : CycleSound s) (hp : s.cycle.state = .active .drill) :
    WorkKeeps s (enterRetractFresh (setPendingVerdict .short (queueFault .stall (shortEnd s)))) :=
  (retractWithVerdict_work (h.ready_of_inPhase (inPhase_active hp) (by simp) (h.canopySet hp)) (inPhase_active hp) (by simp)
    (setPendingVerdict_ne_none _ _) (by simp) (by simp) (by simp) (by simp) (by simp) (by simp)
    (by simp) fun ⟨h1, h2, _, h4, h5⟩ => ⟨by simpa, by simpa, rfl, by simpa, by simpa⟩).1

/-- The stuck RETRACT's timer is left with nothing to run. -/
theorem stuckTimer_work {s : State} (h : CycleSound s) :
    WorkKeeps s ((queueFault .retractStuck s).onCycle fun c => { c with retractTimer := .paused 0 }) where
  cycle := SameItems.cycleSound (s := s) ⟨rfl, id, id, rfl, rfl, rfl, rfl, rfl, rfl, rfl, rfl, rfl⟩ h
  timers := fun ⟨h1, _, h3, h4, h5⟩ => ⟨h1, rfl, h3, h4, h5⟩
  charge := fun _ h => h.congr (fun _ => rfl) id rfl rfl rfl rfl rfl rfl id
  base := id

/-- Resin control's deadlines and marks may change, but for a gap that is armed. -/
structure SameMarks (s t : State) : Prop where
  only : t = { s with resin := t.resin }
  stroke : SameStroke s.resin t.resin
  gap : t.resin.gap.isSome = true → s.resin.gap.isSome = true

namespace SameMarks

variable {s t : State}

theorem cycleSound (e : SameMarks s t) (h : CycleSound s) : CycleSound t := by
  obtain ⟨e, ⟨hcharge, hpushed, hstroke, -⟩, hg⟩ := e
  rw [e]
  exact ⟨h.remembered, h.cause, h.canopy, h.sampleLink, h.onHold, by simpa only [hstroke, hpushed, hcharge] using h.stroke,
    by simpa only [hpushed, hcharge] using h.pushed, fun hgap => by simpa only [hstroke] using h.gap (hg hgap),
    by simpa only [hstroke] using h.abortPending, h.torqueNear⟩

theorem chargeSound (e : SameMarks s t) (h : ChargeSound s) : ChargeSound t := by
  rw [e.only]
  exact h.congr (fun _ => rfl) id rfl e.stroke.charge rfl rfl rfl rfl id

theorem work (e : SameMarks s t) (h : CycleSound s) : WorkKeeps s t where
  cycle := e.cycleSound h
  timers := fun ⟨h1, h2, h3, h4, h5⟩ => by
    rw [e.only]
    exact ⟨h1, h2, h3, e.stroke.strokeTimer ▸ h4, h5⟩
  charge := fun _ => e.chargeSound
  base := fun h => h.congr (by rw [e.only])

theorem event (e : SameMarks s t) (h : CycleSound s) : EventKeeps s t where
  cycle := e.cycleSound h
  timers := fun ⟨h1, h2, h3, h4, h5⟩ => by
    rw [e.only]
    refine ⟨h1, h2, h3, ?_, h5⟩
    simp only [e.stroke.stroke, e.stroke.strokeTimer]
    exact h4
  charge := fun _ => e.chargeSound
  base := fun h => h.congr (by rw [e.only])

end SameMarks

theorem mixDeadline_keeps {s : State} (h : CycleSound s) :
    EventKeeps s (if s.cycle.state = .active .mix then event s (enterHold (markMixShort s))
      else s.onResin fun r => { r with mixDeadline := none }) := by
  split_ifs with hp
  · refine WorkKeeps.event ?_ s
    exact enterHold_work h (inPhase_active hp) (.inl rfl) (h.canopySet hp) rfl ⟨rfl, rfl, rfl, rfl⟩
  · exact SameMarks.event ⟨rfl, ⟨rfl, rfl, rfl, rfl⟩, id⟩ h

theorem holdDeadline_keeps {s : State} (h : CycleSound s) :
    EventKeeps s
      (let disarmed := s.onResin fun r => { r with holdDeadline := none }
      if s.cycle.state = .active .hold then event s (enterTorqueFirst disarmed)
      else if s.cycle.state = .suspended ∧ s.cycle.remembered = some .hold then
        disarmed.onResin fun r => { r with holdPassed := true }
      else disarmed) := by
  dsimp only
  split_ifs with hp
  · refine WorkKeeps.event ?_ s
    exact enterTorqueFirst_work (h.ready_of_inPhase (inPhase_active hp) (by simp) (h.canopySet hp)) (inPhase_active hp) rfl rfl
      ⟨rfl, rfl, rfl, rfl⟩
  · exact SameMarks.event ⟨rfl, ⟨rfl, rfl, rfl, rfl⟩, id⟩ h
  · exact SameMarks.event ⟨rfl, ⟨rfl, rfl, rfl, rfl⟩, id⟩ h

/-! ### START_HOLE and CONFIGURE -/

/-- START_HOLE gives every block its items afresh, so nothing of the hole before can disturb them (01 R9). -/
theorem startedHole_work {s : State} (h : CycleSound s) (hi : s.cycle.state = .idle) (hc : s.canopySet = true)
    (row slot planned : Nat) : WorkKeeps s (startedHole row slot planned s) := by
  refine enterPhase_work ⟨?_, ?_, ?_, ?_, ?_, ?_⟩ (fun ⟨_, h2, h3, _, _⟩ => ⟨rfl, ?_, ?_, rfl, rfl⟩) (fun _ _ => ?_) ?_
  · simpa [freshHole] using h.awake (by simp [hi])
  · simpa [freshHole] using hc
  · simp [freshHole, State.reset]
  · simp [freshHole, State.reset]
  · simp [freshHole]
  · simp [freshHole, State.reset]
  · simpa [freshHole] using h2
  · simpa [freshHole] using h3
  · exact ⟨⟨by simp [freshHole, State.reset], by simp [freshHole, State.reset]⟩, by simp, by simp [Phase.charged], by simp,
      by simp [freshHole, State.reset]⟩
  · simp [freshHole]

theorem parseConfiguration_base {record : List Byte} {c : Configuration} (h : parseConfiguration record = some c) :
    1 ≤ c.baseCartridges ∧ c.baseCartridges ≤ 2 := by
  unfold parseConfiguration at h
  split at h
  · split at h
    · split at h
      · rename_i hr
        simp only [Option.some.injEq] at h
        subst h
        simp only [Configuration.inRange, within, Bool.and_eq_true, decide_eq_true_eq] at hr
        omega
      · cases h
    · cases h
  · split at h
    · simp only [Option.some.injEq] at h
      subst h
      simp [defaultConfiguration]
    · cases h
  · cases h

theorem configured_work {s : State} {c : Configuration} (h : CycleSound s) (hu : s.cycle.state = .unconfigured)
    (hr : s.resetHeld = false) (hb : 1 ≤ c.baseCartridges ∧ c.baseCartridges ≤ 2) : WorkKeeps s (configured c s) where
  cycle :=
    { remembered := (hu ▸ h.remembered : s.cycle.remembered.isSome = (CycleState.unconfigured == .suspended))
      cause := (hu ▸ h.cause : s.cycle.cause.isSome = (CycleState.unconfigured == .suspended))
      canopy := by simp [configured, CycleState.isActive]
      sampleLink := rfl
      onHold := fun hh => absurd (hr ▸ hh : false = true) (by simp)
      stroke := fun hs => absurd hs (h.no_stroke (by simp [hu]))
      pushed := h.pushed
      gap := h.gap
      abortPending := h.abortPending
      torqueNear := fun ht => absurd (h.torqueNear ht) (by simp [hu]) }
  timers := fun ⟨h1, h2, h3, h4, h5⟩ => ⟨h1, h2, h3, h4, h5⟩
  charge := fun _ hs => AnchorSound.chargeSound hs.anchorSound (fun _ => rfl) (by simp [configured])
  base := fun _ => hb

/-! ### ABORT -/

/-- ABORT of drilling, running or suspended. -/
theorem abortDrilling_work {s : State} {p : Phase} (h : CycleSound s) (hp : inPhase s p = true) (hn : p = .collar ∨ p = .drill)
    (hc : s.canopySet = true) : WorkKeeps s (abortDrilling s) :=
  (retractWithVerdict_work (h.ready_of_inPhase hp (by rcases hn with rfl | rfl <;> simp) hc) hp
    (by rcases hn with rfl | rfl <;> simp)
    (by rw [shortEnd_cycle]; exact setPendingVerdict_ne_none _ _) (by simp) (by simp) (by simp) (by simp) (by simp) (by simp)
    (by simp) fun ⟨h1, h2, _, h4, h5⟩ => ⟨by simpa, by simpa, rfl, by simpa, by simpa⟩).1

/-- ABORT of a suspended RETRACT: the state is retracted on with its own timer, or afresh after STUCK (01 R25). -/
theorem abortRetract_work {s : State} (h : CycleSound s) (hp : inPhase s .retract = true) (hc : s.canopySet = true) :
    WorkKeeps s (enterRetractFresh (setPendingVerdict .aborted s))
      ∧ WorkKeeps s (enterPhase .retract (setPendingVerdict .aborted s)) :=
  retractWithVerdict_work (h.ready_of_inPhase hp (by simp) hc) hp (by simp) (setPendingVerdict_ne_none _ _) (by simp) (by simp)
    (by simp) (by simp) (by simp) (by simp) (by simp) fun ⟨h1, h2, h3, h4, h5⟩ => ⟨h1, h2, h3, h4, h5⟩

theorem abortSuspended_work {s : State} (h : CycleSound s) (hs : s.cycle.state = .suspended) :
    WorkKeeps s (abortSuspended s) := by
  have hd := shortEnd_work h
  have hin : ∀ p, s.cycle.remembered = some p → inPhase s p = true := fun p hp => by simp [inPhase, hs, hp]
  have hcan : ¬(s.muted || !s.canopySet || !s.sensor.live.linkUp) = true → s.canopySet = true := fun hn => by
    simp only [Bool.or_eq_true, Bool.not_eq_true', not_or, Bool.not_eq_false] at hn
    exact hn.1.2
  unfold abortSuspended
  dsimp only
  split
  · rename_i hp
    split_ifs with hc
    · exact hd.trans (complete_work hd.cycle (by simp [hs]))
    · exact abortDrilling_work h (hin _ hp) (.inl rfl) (hcan hc)
  · rename_i hp
    split_ifs with hc
    · exact hd.trans (complete_work hd.cycle (by simp [hs]))
    · exact abortDrilling_work h (hin _ hp) (.inr rfl) (hcan hc)
  · rename_i hp
    split_ifs with hc hcause
    · exact complete_work h (by simp [hs])
    · exact (abortRetract_work h (hin _ hp) (hcan hc)).1
    · exact (abortRetract_work h (hin _ hp) (hcan hc)).2
  · exact complete_work h (by simp [hs])

/-- The abort-pending mark stands for a stroke in progress (01 R24). -/
theorem markAbort_keeps {s : State} (h : CycleSound s) (hs : s.resin.stroke = .inProgress) :
    EventKeeps s (s.onCycle fun c => { c with abortPending := true }) where
  cycle := ⟨h.remembered, h.cause, h.canopy, h.sampleLink, h.onHold, h.stroke, h.pushed, h.gap, fun _ => hs, h.torqueNear⟩
  timers := fun ⟨h1, h2, h3, h4, h5⟩ => ⟨h1, h2, h3, h4, h5⟩
  charge := fun _ h => h.congr (fun _ => rfl) id rfl rfl rfl rfl rfl rfl id
  base := id

theorem abort_keeps {s : State} (h : CycleSound s) : EventKeeps s (abort s) := by
  unfold abort
  split
  · exact (setReply_untouched _ _ s).event h
  · exact (setReply_untouched _ _ s).event h
  · rename_i hp
    exact (abortDrilling_work h (inPhase_active hp) (.inl rfl) (h.canopySet hp)).accept s []
  · rename_i hp
    exact (abortDrilling_work h (inPhase_active hp) (.inr rfl) (h.canopySet hp)).accept s []
  · exact (setPendingVerdict_keeps h).setReply _ _
  · rename_i hp
    split_ifs with hs
    · exact (markAbort_keeps h hs).setReply _ _
    · exact (complete_work h (by simp [hp])).accept s []
  · rename_i hp
    exact (abortSuspended_work h hp).accept s []
  · rename_i hu _ _ _ _ _ _
    exact (complete_work h hu).accept s []

/-! ### RESUME -/

/-- The phase RESUME would enter, by R22's table. -/
theorem resumeTarget_eq {s : State} {p : Phase} (h : s.cycle.remembered = some p) :
    resumeTarget s = some (if p = .mix then .hold else if p = .hold ∧ s.resin.holdPassed = true then .torque else p) := by
  cases p <;> simp [resumeTarget, h, apply_ite]

/-- No cause holds for the target: CANOPY_SET is high, the link is up where it is needed, and MUTE is not held where class
NORMAL would flow (01 R22). -/
theorem causePresent_eq_false {target : Phase} {s : State} : causePresent target s = false ↔ s.canopySet = true
    ∧ (target.needsLink = true → s.sensor.live.linkUp = true) ∧ (target.flowClass = .normal → s.muted = false) := by
  unfold causePresent
  cases s.canopySet <;> cases s.sensor.live.linkUp <;> cases s.muted <;> simp

/-- The target is the remembered phase, but HOLD after a MIX and TORQUE after a HOLD that has passed (01 R22). -/
theorem resumeTarget_cases {s : State} {target : Phase} (h : resumeTarget s = some target) :
    s.cycle.remembered = some target ∨ (s.cycle.remembered = some .mix ∧ target = .hold)
      ∨ (s.cycle.remembered = some .hold ∧ target = .torque) := by
  cases hp : s.cycle.remembered with
  | none => simp [resumeTarget, hp] at h
  | some p =>
    rw [resumeTarget_eq hp, Option.some.injEq] at h
    subst h
    split_ifs <;> simp_all

/-- TORQUE entered by RESUME, after a HOLD that has passed or a suspended TORQUE. -/
theorem enterTorqueAgain_work {s : State} {p : Phase} (hr : ReadyToEnter s) (hin : inPhase s p = true)
    (hp : p = .hold ∨ p = .torque) : WorkKeeps s (enterTorqueAgain s) := by
  unfold enterTorqueAgain
  dsimp only
  split_ifs with he
  · refine enterPhase_work (hr.congr rfl rfl rfl rfl rfl rfl hr.torqueNear.symm)
      (fun ⟨h1, h2, h3, h4, h5⟩ => ⟨h1, h2, h3, h4, h5⟩) (fun _ hs => ?_) rfl
    rcases hp with rfl | rfl
    · exact absurd (he : s.torque.entered = true) (by simp [hs.notEntered .hold (by simp) hin])
    · exact (hs.figures hin).congr rfl rfl rfl rfl rfl rfl id
  · exact enterTorqueFirst_work hr hin (by rcases hp with rfl | rfl <;> rfl) rfl ⟨rfl, rfl, rfl, rfl⟩

/-- A target that is the remembered phase, or HOLD or TORQUE after it, is entered on the figures the hole has. -/
theorem reenter_work {s : State} {target : Phase} (h : CycleSound s) (hs : s.cycle.state = .suspended)
    (ht : resumeTarget s = some target) (hc : s.canopySet = true) : WorkKeeps s (reenter target s) := by
  have hin : ∀ {p}, s.cycle.remembered = some p → inPhase s p = true := fun hp => by simp [inPhase, hs, hp]
  have hr : ReadyToEnter s := h.ready (by simp [hs]) hc (by simp [hs]) (by simp [hs])
  have hsame : target ≠ .hold ∧ target ≠ .torque → BaseInRange s → ChargeSound s → FiguresFor target s := by
    intro hn _ hcs
    rcases resumeTarget_cases ht with hp | ⟨-, rfl⟩ | ⟨-, rfl⟩
    · exact hcs.figures (hin hp)
    · exact absurd rfl hn.1
    · exact absurd rfl hn.2
  unfold reenter
  cases target with
  | collar =>
    exact enterPhase_work (hr.congr rfl rfl rfl rfl rfl rfl rfl) (fun ⟨h1, h2, h3, h4, h5⟩ => ⟨h1, h2, h3, h4, h5⟩)
      (fun hb hcs => (hsame (by simp) hb hcs).congr rfl rfl rfl rfl rfl rfl id) rfl
  | drill =>
    exact enterPhase_work (hr.congr rfl rfl rfl rfl rfl rfl rfl) (fun ⟨h1, h2, _, h4, h5⟩ => ⟨h1, h2, rfl, h4, h5⟩)
      (fun hb hcs => (hsame (by simp) hb hcs).congr rfl rfl rfl rfl rfl rfl id) rfl
  | retract => exact .ite (enterRetractFresh_work hr id (hsame (by simp)) rfl) (enterPhase_work hr id (hsame (by simp)) rfl)
  | insert => exact enterPhase_work hr id (hsame (by simp)) rfl
  | mix => exact .refl h
  | hold =>
    have hpc : ∃ p, (p = .mix ∨ p = .hold) ∧ inPhase s p = true := by
      rcases resumeTarget_cases ht with hp | ⟨hp, -⟩ | ⟨-, hc⟩
      · exact ⟨_, .inr rfl, hin hp⟩
      · exact ⟨_, .inl rfl, hin hp⟩
      · cases hc
    obtain ⟨p, hpc, hp⟩ := hpc
    refine .ite (enterHold_work h hp hpc hc rfl ⟨rfl, rfl, rfl, rfl⟩)
      (enterAfterResin_work h hp (by rcases hpc with rfl | rfl <;> simp) hc rfl ⟨rfl, rfl, rfl, rfl⟩ fun _ hcs => ?_)
    exact (hcs.figures hp).next (by rcases hpc with rfl | rfl <;> simp [Phase.charged]) (by simp [Phase.charged])
  | torque =>
    rcases resumeTarget_cases ht with hp | ⟨-, hc⟩ | ⟨hp, -⟩
    · exact enterTorqueAgain_work hr (hin hp) (.inr rfl)
    · cases hc
    · exact enterTorqueAgain_work hr (hin hp) (.inl rfl)

theorem zeroRemainder_keeps {s : State} (h : CycleSound s) : EventKeeps s (zeroRemainder s) :=
  .ite (fun hc => (complete_work h (by simp [hc.1])).settle) fun _ =>
    .ite (fun hc => (strokeTimeout_work h hc.1).settle) fun _ => .refl h

theorem resume_keeps {s : State} (h : CycleSound s) : EventKeeps s (resume s) := by
  have hreply := fun status => (setReply_untouched status [] s).event h
  unfold resume
  split_ifs with hs
  · exact hreply _
  · split
    · exact hreply _
    · rename_i target ht
      split_ifs with hc
      · exact hreply _
      · have hcan := (causePresent_eq_false.1 (by simpa using hc)).1
        have hw := (reenter_work h (by simpa using hs) ht hcan).settle
        exact ((hw.trans (zeroRemainder_keeps hw.cycle)).finish s).setReply _ _

/-! ### PROCEED and ABANDON -/

/-- PROCEED takes 3 cartridges and the soft target (05 R84). -/
theorem proceed_work {s : State} (h : CycleSound s) (hd : s.cycle.state = .decide) (hc : s.canopySet = true) :
    WorkKeeps s (enterInsert (proceedAnchor s)) := by
  refine enterInsert_work ((h.ready (by simp [hd]) hc (by simp [hd]) (by simp [hd])).congr (by simp) (by simp) (by simp)
    (by simp) (by simp) (by simp) (by simp)) (fun ⟨h1, h2, h3, h4, h5⟩ => ⟨by simpa, by simpa, by simpa, by simpa, by simpa⟩)
    (fun _ hcs => ⟨⟨fun _ => ⟨rfl, rfl⟩, ?_⟩, rfl, rfl, hcs.decide hd⟩) (by simp)
  rintro n hn
  obtain rfl : 3 = n := by simpa [proceedAnchor] using hn
  simp

theorem proceed_keeps {s : State} (h : CycleSound s) : EventKeeps s (proceed s) := by
  have hreply := fun status => (setReply_untouched status [] s).event h
  unfold proceed
  split_ifs with hd hc
  · exact hreply _
  · exact hreply _
  · exact hreply _
  · exact (proceed_work h (by simpa using hd) (by simpa using hc)).accept s []

/-! ### The rig link -/

theorem muteCycle_work {s : State} (h : CycleSound s) : WorkKeeps s (muteCycle s) := by
  unfold muteCycle
  split
  · rename_i hp
    exact suspend_work h hp (h.no_abort_of_ne hp (by simp))
  · rename_i hp
    exact suspend_work h hp (h.no_abort_of_ne hp (by simp))
  · rename_i hp
    exact suspend_work h hp (h.no_abort_of_ne hp (by simp))
  · rename_i hp
    split_ifs with hs
    · exact .refl h
    · exact suspend_work h hp (h.no_abort hs)
  · exact .refl h

theorem muteStation_work (cause : MuteCause) {s : State} (h : CycleSound s) : WorkKeeps s (muteStation cause s) := by
  unfold muteStation
  split_ifs
  · exact .refl h
  · have hu : Untouched s (queueFault .duplicate (s.onLink fun l =>
        { l with tx := none, slot := none, queue := [], queueOnLine := false, mute := some cause })) :=
      (onLink_untouched s _).trans (queueFault_untouched _ _)
    exact (hu.work h).trans (muteCycle_work (hu.work h).cycle)

theorem routeFrame_keeps (f : LinkFrame) {s : State} (h : CycleSound s) : EventKeeps s (routeFrame f s) := by
  have hmute := (muteStation_work .heard h).event s
  refine .ite (fun _ => ?_) fun _ => .ite (fun _ => ?_) fun _ => .refl h
  · split
    · exact .refl h
    · exact .ite (fun _ => hmute) fun _ => ((onFlow_untouched s _).work h).event s
  · split
    · exact .refl h
    · exact .ite (fun _ => hmute) fun _ => ((insertNotice_untouched _ s).work h).event s

theorem endFrame_keeps {s : State} (h : CycleSound s) : EventKeeps s (endFrame s) := by
  have hu := (onLink_untouched s fun l => l.endReceived (crcGood (frameRead s.link.assembly))).event h
  refine .ite (fun _ => .ite (fun _ => hu.trans ?_) fun _ => hu) fun _ => .refl h
  exact .ite (fun _ => .refl hu.cycle) fun _ => routeFrame_keeps _ hu.cycle

theorem overridden_keeps (f : LinkFrame) (bit : Nat) {s : State} (h : CycleSound s) : EventKeeps s (overridden f bit s) := by
  have hu := onLink_untouched s fun l => l.follow f bit
  unfold overridden
  dsimp only
  split_ifs
  · exact hu.event h
  · have hw := ((hu.work h).trans (muteStation_work .overridden (hu.work h).cycle)).event s
    exact hw.trans (endFrame_keeps hw.cycle)

theorem startFrame_untouched (s : State) : Untouched s (startFrame s) := onLink_untouched s _

theorem beginBit_untouched (s : State) : Untouched s (beginBit s) := by
  unfold beginBit
  split_ifs
  · exact startFrame_untouched s
  · exact .refl s

theorem readBack_keeps (f : LinkFrame) (bit : Bool) {s : State} (h : CycleSound s) : EventKeeps s (readBack f bit s) := by
  unfold readBack
  dsimp only
  split_ifs
  · exact (onLink_untouched s _).event h
  · exact (onLink_untouched s _).event h
  · exact (onLink_untouched s _).event h
  · exact overridden_keeps f _ h

theorem readLine_keeps (bit : Bool) {s : State} (h : CycleSound s) : EventKeeps s (readLine s bit) := by
  unfold readLine
  split
  · exact .refl h
  · exact (onLink_untouched s _).event h
  · exact (onLink_untouched s _).event h
  · split
    · have hu := (onLink_untouched s fun l => { l with assembly := l.assembly ++ [bit] }).event h
      exact hu.trans (endFrame_keeps hu.cycle)
    · exact readBack_keeps _ bit h

theorem takeBit_keeps (s : State) (bit : Bool) (h : CycleSound s) : EventKeeps s (takeBit s bit) :=
  let hb := (beginBit_untouched s).event h
  hb.trans (readLine_keeps bit hb.cycle)

/-! ### The starting events -/

/-- A part in which no block holds a hole is sound. -/
theorem startingSound {t : State} (hc : t.cycle.state = .unconfigured ∧ t.cycle.remembered = none ∧ t.cycle.cause = none
      ∧ t.cycle.abortPending = false ∧ t.cycle.collarTimer = .disarmed ∧ t.cycle.retractTimer = .disarmed)
    (ha : t.assembler = State.reset.assembler) (hn : t.anchor = State.reset.anchor) (hr : t.resin = State.reset.resin)
    (ht : t.torque = State.reset.torque) (s : State) (hcfg : t.host.config = none) : EventKeeps s t := by
  obtain ⟨h1, h2, h3, h4, h5, h6⟩ := hc
  exact
    { cycle :=
        { remembered := by rw [h1, h2]; rfl
          cause := by rw [h1, h3]; rfl
          canopy := by simp [h1, CycleState.isActive]
          sampleLink := by simp [linkServes, h1]
          onHold := fun _ => h1
          stroke := by simp [hr, State.reset]
          pushed := by simp [hr, State.reset]
          gap := by simp [hr, State.reset]
          abortPending := by simp [h4]
          torqueNear := by simp [ht, State.reset] }
      timers := fun _ => ⟨by rw [h5]; rfl, by rw [h6]; rfl, by rw [ha]; rfl, by rw [hr]; rfl, by rw [ht]; rfl⟩
      charge := fun _ _ => AnchorSound.chargeSound (by rw [hn]; exact ⟨by simp [State.reset], by simp [State.reset]⟩)
        (fun q => by simp [inPhase, h1]) (by simp [h1])
      base := fun _ => by simp [BaseInRange, State.cfg, hcfg, defaultConfiguration] }

end Sys2Proof.Machine
end

