-- ==== Sys2Proof/Proofs/CycleSound.lean ====
section
/-! PROOFS. O55: every step keeps the cycle sound. -/

namespace Sys2Proof.Machine

/-- A rise of RESET_N ends a hold, in which the part is UNCONFIGURED (11 R187). -/
theorem resetNRise_keeps {s t : State} (levels : InputLevels) (h : CycleSound s)
    (e : execResetNRise levels s = .next t) : EventKeeps s t := by
  rw [execResetNRise, Host.Outcome.next.injEq] at e
  subst e
  refine .ite (fun hr => ?_) fun _ => .refl h
  have hu := h.onHold hr
  exact
    { cycle := ⟨h.remembered, h.cause, fun ha => absurd ha (by simp [hu, CycleState.isActive]), h.sampleLink, fun _ => hu,
        h.stroke, h.pushed, h.gap, h.abortPending, h.torqueNear⟩
      timers := fun ⟨h1, h2, h3, h4, h5⟩ => ⟨h1, h2, h3, h4, h5⟩
      charge := fun _ h => h.congr (fun _ => rfl) id rfl rfl rfl rfl rfl rfl id
      base := id }

theorem tick_keeps {s : State} (h : CycleSound s) :
    EventKeeps s (s.onCycle fun c => { c with timebase := c.timebase + 1 }) where
  cycle := ⟨h.remembered, h.cause, h.canopy, h.sampleLink, h.onHold, h.stroke, h.pushed, h.gap, h.abortPending, h.torqueNear⟩
  timers := fun ⟨h1, h2, h3, h4, h5⟩ => ⟨h1, h2, h3, h4, h5⟩
  charge := fun _ h => h.congr (fun _ => rfl) id rfl rfl rfl rfl rfl rfl id
  base := id

/-- A source taken leaves the configuration (11 R191). -/
theorem takeSource_config (src : Source) (b : HostBlock) : (takeSource src b).config = b.config := by cases src <;> rfl

theorem takeSource_untouched (s : State) (src : Source) (draws : Nat) :
    Untouched s { s.onHost (takeSource src) with freeDraws := draws } :=
  ⟨rfl, id, id, rfl, rfl, rfl, rfl, rfl, takeSource_config src s.host⟩

/-- The top of the stack removed leaves the configuration (11 R192). -/
theorem serviced_config (b : HostBlock) (top : Source) (rest : List Source) : (b.serviced top rest).config = b.config := by
  unfold HostBlock.serviced HostBlock.rearmWatch
  dsimp only
  split_ifs <;> rfl

theorem unlatch_live (p : SensorBlock) : p.unlatch.live = p.live := by
  unfold SensorBlock.unlatch
  split <;> rfl

section Commands

variable {s t : State} (h : CycleSound s)
include h

/-- A host command that only reads, or writes what the invariants do not read. -/
theorem EventKeeps.of_inTransaction {new : State} {host : Transaction} (hn : s.resetHeld = false → EventKeeps s new)
    (e : (inTransaction host s new : Host.Outcome State Fault Refusal) = .next t) : EventKeeps s t :=
  .of_unlessHeld h (fun hr => (hn hr).transacted h host) e

theorem EventKeeps.of_untouched {new : State} {host : Transaction} (hn : Untouched s new)
    (e : (inTransaction host s new : Host.Outcome State Fault Refusal) = .next t) : EventKeeps s t :=
  .of_inTransaction h (fun _ => hn.event h) e

/-- A host command that may bring a rise of CANOPY_SET. -/
theorem EventKeeps.of_rise {f : State → State} {rise : Bool} {host : Transaction}
    (hf : ∀ u, CycleSound u → EventKeeps u (f u))
    (e : (unlessHeld s (Machine.transacted host (s.noteCanopy rise) (f (s.noteCanopy rise))) : Host.Outcome State Fault Refusal)
      = .next t) : EventKeeps s t := by
  refine .of_unlessHeld h (fun _ => ?_) e
  have hu := (noteCanopy_untouched s rise).event h
  exact hu.trans ((hf _ hu.cycle).transacted hu.cycle host)

theorem startHole_keeps (row slot planned : Nat) : EventKeeps s (startHole row slot planned s) := by
  have hreply := fun status => (setReply_untouched status [] s).event h
  unfold startHole
  split_ifs with hi ha hc
  · exact hreply _
  · exact hreply _
  · exact hreply _
  · exact hreply _
  · exact (startedHole_work h (by simpa using hi) (by simpa using hc) row slot planned).accept s _

theorem configure_keeps (record : List Byte) (host : Transaction) (e : execConfigure record s host = .next t) :
    EventKeeps s t := by
  refine .of_inTransaction h (fun hr => ?_) e
  have hreply := fun status => (setReply_untouched status [] s).event h
  refine .ite (fun _ => hreply _) fun _ => .ite (fun _ => hreply _) fun hu => ?_
  split
  · exact hreply _
  · rename_i c hc
    exact (configured_work h (by simpa using hu) hr (parseConfiguration_base hc)).accept s []

theorem readCells_keeps (count direction : Byte) (host : Transaction) (e : execReadCells count direction s host = .next t) :
    EventKeeps s t := by
  have hreply := fun status data => (setReply_untouched status data s).event h
  refine .of_inTransaction h (fun _ => .ite (fun _ => hreply _ _) fun _ => ?_) e
  split
  · exact hreply _ _
  · exact hreply _ _
  · split
    · refine .ite (fun _ => ?_) fun _ => ?_ <;> exact ((onHistory_untouched s _).reply _ _).event h
    · exact hreply _ _

/-- Every command keeps the three invariants: each is an event whose work keeps them, or touches none of their items. -/
theorem exec_keeps (c : Instr) (e : exec c s = .next t) : EventKeeps s t := by
  cases c with
  | powerOn levels =>
    obtain rfl := Host.Outcome.next.inj e
    refine startingSound ?_ ?_ ?_ ?_ ?_ s ?_
    exacts [⟨rfl, rfl, rfl, rfl, rfl, rfl⟩, rfl, rfl, rfl, rfl, rfl]
  | resetLine =>
    obtain rfl := Host.Outcome.next.inj e
    refine startingSound ?_ ?_ ?_ ?_ ?_ s ?_
    exacts [⟨rfl, rfl, rfl, rfl, rfl, rfl⟩, rfl, rfl, rfl, rfl, rfl]
  | resetNRise levels => exact resetNRise_keeps levels h e
  | timebaseTick =>
    obtain rfl := Host.Outcome.next.inj e
    exact tick_keeps h
  | sampleRecord bits => exact .of_unlessHeld h (fun _ => .foldl takeSrxBit_keeps bits h) e
  | linkDeadlineExpiry =>
    exact .of_unlessHeld h (fun _ => .ite (fun _ => (linkFall_work h).event s) fun _ => .refl h) e
  | rotPulse =>
    refine .of_unlessHeld h (fun _ => ?_) e
    have hu : EventKeeps s (notePulse s) := (onSensor_untouched fun hl => by simpa using hl).event h
    exact hu.trans (handPulse_keeps hu.cycle)
  | pulseDeadlineExpiry =>
    exact .of_unlessHeld h
      (fun _ => .ite (fun _ => (onSensor_untouched fun hl => by simpa using hl).event h) fun _ => .refl h) e
  | canopySetFall => exact .of_unlessHeld h (fun _ => .ite (fun _ => canopyFall_keeps h) fun _ => .refl h) e
  | valveReadyRise =>
    have hu : ∀ b, Untouched s { s with valveReady := b } := fun _ => ⟨rfl, id, id, rfl, rfl, rfl, rfl, rfl, rfl⟩
    exact .of_unlessHeld h (fun _ => .ite (fun _ => (((hu true).trans (onFlow_untouched _ _)).work h).event s)
      fun _ => (hu true).event h) e
  | valveReadyFall =>
    have hu : Untouched s { s with valveReady := false } := ⟨rfl, id, id, rfl, rfl, rfl, rfl, rfl, rfl⟩
    exact .of_unlessHeld h
      (fun _ => .ite (fun _ => (hu.event h).trans (valveFall_keeps s (hu.event h).cycle)) fun _ => .refl h) e
  | strokeDone =>
    exact .of_unlessHeld h (fun _ => .ite (fun hs => (strokeCounted_work h hs).event s) fun _ => .refl h) e
  | fetch host => exact .of_untouched h (setReply_untouched _ _ s) e
  | badFrame host => exact .of_untouched h (setReply_untouched _ _ s) e
  | configure record host => exact configure_keeps h record host e
  | startHole row slot planned rise host =>
    exact .of_rise h (fun u hu => startHole_keeps hu row.toNat slot.toNat planned.toNat) e
  | abort rise host => exact .of_rise h (fun _ => abort_keeps) e
  | resume rise host => exact .of_rise h (fun _ => resume_keeps) e
  | proceed rise host => exact .of_rise h (fun _ => proceed_keeps) e
  | abandon host =>
    refine .of_inTransaction h (fun _ => .ite (fun _ => (setReply_untouched _ _ s).event h) fun hd => ?_) e
    exact (complete_work h (by simp [not_not.1 hd])).accept s []
  | readState host => exact .of_untouched h (setReply_untouched _ _ s) e
  | readAttention host =>
    refine .of_inTransaction h (fun _ => ?_) e
    split
    · exact (setReply_untouched _ _ s).event h
    · exact (takeSource_untouched s _ _ |>.reply _ _).event h
  | serviceDone host =>
    refine .of_inTransaction h (fun _ => ?_) e
    split
    · exact (setReply_untouched _ _ s).event h
    · rename_i top rest _
      exact ((onHost_untouched (serviced_config s.host top rest)).reply _ _).event h
  | setWatch mask sense combination host =>
    refine .of_inTransaction h (fun _ => .ite (fun _ => ?_) fun _ => ?_) e
    · exact (setReply_untouched _ _ s).event h
    · exact ((onHost_untouched rfl).reply _ _).event h
  | readSensors host => exact .of_untouched h (.reply (onSensor_untouched id) _ _) e
  | unlatch host =>
    refine .of_inTransaction h (fun _ => .ite (fun _ => ?_) fun _ => .ite (fun _ => ?_) fun _ => ?_) e
    · exact (setReply_untouched _ _ s).event h
    · exact (setReply_untouched _ _ s).event h
    · exact ((onSensor_untouched fun hl => by rwa [unlatch_live]).reply _ _).event h
  | readFlow host => exact .of_untouched h (setReply_untouched _ _ s) e
  | readNeighbours index host =>
    refine .of_inTransaction h (fun _ => .ite (fun _ => ?_) fun _ => ?_) e <;> exact (setReply_untouched _ _ s).event h
  | readLink host => exact .of_untouched h (.reply (onLink_untouched s _) _ _) e
  | selectHole number host =>
    refine .of_inTransaction h (fun _ => ?_) e
    split <;> exact ((onHistory_untouched s _).reply _ _).event h
  | readCells count direction host => exact readCells_keeps h count direction host e
  | collarTimerExpiry =>
    exact .of_unlessHeld h (fun _ => .ite (fun hc => (collarTimeout_work h hc.1).event s) fun _ => .refl h) e
  | retractTimerExpiry =>
    refine .of_unlessHeld h (fun _ => .ite (fun hc => ?_) fun _ => .refl h) e
    have hw := stuckTimer_work h
    exact (hw.trans (suspend_work hw.cycle hc.1 (hw.cycle.no_abort_of_ne hc.1 (by simp)))).event s
  | stallWindowExpiry =>
    exact .of_unlessHeld h (fun _ => .ite (fun hc => (stallTimeout_work h hc.1).event s) fun _ => .refl h) e
  | strokeTimerExpiry =>
    exact .of_unlessHeld h (fun _ => .ite (fun hc => (strokeTimeout_work h hc.1).event s) fun _ => .refl h) e
  | strokeGapExpiry =>
    refine .of_unlessHeld h (fun _ => .ite (fun _ => WorkKeeps.event ?_ s) fun _ => .refl h) e
    exact SameMarks.work ⟨rfl, ⟨rfl, rfl, rfl, rfl⟩, by simp⟩ h
  | mixDeadlineExpiry => exact .of_unlessHeld h (fun _ => .ite (fun _ => mixDeadline_keeps h) fun _ => .refl h) e
  | holdDeadlineExpiry => exact .of_unlessHeld h (fun _ => .ite (fun _ => holdDeadline_keeps h) fun _ => .refl h) e
  | torqueTimerExpiry =>
    exact .of_unlessHeld h (fun _ => .ite (fun hc => (complete_work h (by simp [hc.1])).event s) fun _ => .refl h) e
  | releaseDeadlineExpiry =>
    exact .of_unlessHeld h
      (fun _ => .ite (fun _ => ((queueFault_untouched _ s).trans (onFlow_untouched _ _)).event h) fun _ => .refl h) e
  | demandScheduleExpiry =>
    refine .of_unlessHeld h (fun _ => ?_) e
    split
    · exact .ite (fun _ => ((onFlow_untouched s _).trans (placeDemandIf_untouched true _)).event h) fun _ => .refl h
    · exact .refl h
  | staleDeadlineExpiry station => exact .of_unlessHeld h (fun _ => (onFlow_untouched s _).event h) e
  | removalDeadlineExpiry station =>
    exact .of_unlessHeld h (fun _ => .ite (fun _ => ((onFlow_untouched s _).work h).event s) fun _ => .refl h) e
  | demandFrameReceived bits => exact .of_unlessHeld h (fun _ => .foldl takeBit_keeps bits h) e
  | holeFrameReceived bits => exact .of_unlessHeld h (fun _ => .foldl takeBit_keeps bits h) e
  | seekingComplete => exact .of_unlessHeld h (fun _ => .ite (fun _ => (onLink_untouched s _).event h) fun _ => .refl h) e
  | frameStart recessive =>
    have hu := onLink_untouched s fun l => l.await recessive
    exact .of_unlessHeld h (fun _ => .ite (fun _ => (hu.trans (startFrame_untouched _)).event h) fun _ => .refl h) e
  | frameSent => exact .of_unlessHeld h (fun _ => .ite (fun _ => (onLink_untouched s _).event h) fun _ => .refl h) e
  | arbitrationLost bit =>
    refine .of_unlessHeld h (fun _ => ?_) e
    split
    · exact .ite (fun _ => overridden_keeps _ bit h) fun _ => .refl h
    · exact .refl h
  | transmitFault bit =>
    refine .of_unlessHeld h (fun _ => ?_) e
    split
    · exact .ite (fun _ => (onLink_untouched s _).event h) fun _ => .refl h
    · exact .refl h
  | duplicateOverridden bit =>
    refine .of_unlessHeld h (fun _ => ?_) e
    split
    · exact .ite (fun _ => overridden_keeps _ bit h) fun _ => .refl h
    · exact .refl h
  | setpointRecordEnd =>
    exact .of_unlessHeld h
      (fun _ => .ite (fun _ => ((onFlow_untouched s _).trans (sendSetpoints_untouched _)).event h) fun _ => .refl h) e

end Commands

/-- Taking the front command off the queue touches none of the items. -/
theorem step_keeps {s t : State} (h : CycleSound s) (e : step s = .next t) : EventKeeps s t := by
  unfold step at e
  split at e
  · obtain rfl := Host.Outcome.next.inj e
    exact .refl h
  · rename_i c rest _
    have hu : Untouched s { s with pending := rest } := ⟨rfl, id, id, rfl, rfl, rfl, rfl, rfl, rfl⟩
    exact (hu.event h).trans (exec_keeps (hu.event h).cycle c e)

/-- Settles O55: each command is an event whose work keeps the three invariants, and the end of an event brings the timers
and the stroke in step with the phase reached. -/
theorem stepsKeepTheCycleSound : Obligations.StepsKeepTheCycleSound := by
  intro s t e h
  have hk := step_keeps h e
  exact ⟨hk.cycle, hk.timers, fun hc => hk.charge hc.baseInRange⟩

end Sys2Proof.Machine
end

