-- ==== Sys2Proof/Proofs/EventResults.lean ====
section
/-! PROOFS. What the events of the cycle leave, in the words of the statements: RETRACT entered, a hole completed, a phase
suspended, a host command answered. -/

namespace Sys2Proof.Machine

/-! ### The ring -/

theorem onOpen_congr {f g : HoleRecord → HoleRecord} {records : List HoleRecord}
    (h : ∀ r ∈ records, r.isOpen = true → f r = g r) : onOpen f records = onOpen g records := by
  refine List.map_congr_left fun r hr => ?_
  split_ifs with ho
  · exact h r hr ho
  · rfl

/-- Two writes one after the other are one, where the first leaves the record OPEN. -/
theorem onOpen_onOpen {f g : HoleRecord → HoleRecord} (hf : ∀ r, (f r).isOpen = r.isOpen) (records : List HoleRecord) :
    onOpen g (onOpen f records) = onOpen (fun r => g (f r)) records := by
  simp only [onOpen, List.map_map]
  refine List.map_congr_left fun r _ => ?_
  by_cases ho : r.isOpen = true <;> simp [ho, hf]

theorem writeOpen_records (f : HoleRecord → HoleRecord) (s : State) :
    (writeOpen f s).history.records = onOpen f s.history.records := rfl

theorem mem_onOpen {f : HoleRecord → HoleRecord} {records : List HoleRecord} {r : HoleRecord} (hr : r ∈ records)
    (ho : r.isOpen = true) : f r ∈ onOpen f records :=
  List.mem_map.2 ⟨r, hr, if_pos ho⟩

/-- Cells appended below the planned number all stand in the record (10 R164). -/
theorem foldl_append_cells (cells : List CellRecord) :
    ∀ r : HoleRecord, r.cells.length + cells.length ≤ r.planned →
      cells.foldl HoleRecord.append r = { r with cells := r.cells ++ cells } := by
  induction cells with
  | nil => intro r _; simp
  | cons c cells ih =>
    intro r h
    simp only [List.length_cons] at h
    have ha : r.append c = { r with cells := r.cells ++ [c] } := if_pos (by omega)
    rw [List.foldl_cons, ha, ih _ (by simp; omega)]
    simp

theorem foldl_append_isOpen (cells : List CellRecord) (r : HoleRecord) :
    (cells.foldl HoleRecord.append r).isOpen = r.isOpen := by
  induction cells generalizing r with
  | nil => rfl
  | cons c cells ih =>
    rw [List.foldl_cons, ih]
    unfold HoleRecord.append
    split <;> rfl

/-- The scan for LOST cells in one record (05 R81). -/
def HoleRecord.scanned (r : HoleRecord) : HoleRecord :=
  { r with flags := { r.flags with lostCells := r.flags.lostCells || r.cells.any fun c => c.cls == .lost } }

theorem scanLost_records (s : State) : (scanLost s).history.records = onOpen HoleRecord.scanned s.history.records := rfl

theorem handOn_records (cells : List CellRecord) (s : State) :
    (handOn cells s).history.records = onOpen (fun r => cells.foldl HoleRecord.append r) s.history.records := rfl

/-- An end short of the planned depth closes its cells into the OPEN record and scans it (02 R43, 05 R81). -/
theorem shortEnd_records (s : State) : (shortEnd s).history.records =
    onOpen (fun r => ((shortEndCells s).foldl HoleRecord.append r).scanned) s.history.records := by
  rw [shortEnd, scanLost_records, State.onAssembler_history, handOn_records,
    onOpen_onOpen (foldl_append_isOpen (shortEndCells s))]

/-- The cell in assembly, unless it is empty and untainted. -/
theorem shortEndCells_eq (s : State) : shortEndCells s =
    if s.assembler.cell.isSome = true ∧ (0 < s.assembler.n ∨ s.assembler.tainted = true) then
      [cellRecord s.cfg s.assembler] else [] := by
  simp [shortEndCells]

theorem shortEnd_mem {s : State} {r : HoleRecord} (hr : r ∈ s.history.records) (ho : r.isOpen = true)
    (hl : r.cells.length < r.planned) :
    HoleRecord.scanned { r with cells := r.cells ++ shortEndCells s } ∈ (shortEnd s).history.records := by
  have hlen : (shortEndCells s).length ≤ 1 := by
    rw [shortEndCells_eq]
    split <;> simp
  rw [shortEnd_records, ← foldl_append_cells (shortEndCells s) r (by omega)]
  exact mem_onOpen hr ho

@[simp] theorem shortEnd_maxDepth (s : State) : (shortEnd s).assembler.maxDepth = s.assembler.maxDepth := by simp [shortEnd]

/-! ### RETRACT entered -/

/-- A phase whose sample link is up is entered at once. -/
theorem enterRetractFresh_of_linkUp {u : State} (h : u.sensor.live.linkUp = true) :
    enterRetractFresh u = enterState (.active .retract)
      ((u.onCycle fun c => { c with retractTimer := .paused 20000, collarTimer := .disarmed }).onAssembler fun a =>
        { a with stallWindow := .disarmed }) := by
  rw [enterRetractFresh, enterPhase_of_linkUp (by simpa using h)]

/-- The timer of the phase entered runs with what is left of it, unless the phase is HELD (01 R4, R7). -/
theorem sync_phaseRuns {t : State} {p : Phase} (h : t.cycle.state = .active p) (left : Nat) (now : Time) :
    Timer.sync (.paused left) (phaseRuns t p) now = if t.cycle.held = true then .paused left else .running (after now left) := by
  cases hh : t.cycle.held <;> simp [sync_paused, phaseRuns, h, hh]

/-- RETRACT has been entered afresh in `t`, from a state with the clock and the ring of `u` (01 R12). -/
structure RetractEntered (u t : State) : Prop where
  state : t.cycle.state = .active .retract
  suspension : t.cycle.remembered = none ∧ t.cycle.cause = none
  retractTimer : t.cycle.retractTimer = (if t.cycle.held = true then .paused 20000 else .running (after u.now 20000))
  collarTimer : t.cycle.collarTimer = .disarmed
  stallWindow : t.assembler.stallWindow = .disarmed
  nearVoid : t.neighbours.nearVoid = false
  history : t.history = u.history
  flow : FlowFollows t

theorem event_enterRetractFresh (old : State) {u : State} (h : u.sensor.live.linkUp = true) :
    RetractEntered u (event old (enterRetractFresh u)) := by
  have he := enterRetractFresh_of_linkUp h
  have hst : (enterRetractFresh u).cycle.state = .active .retract := by rw [he]; rfl
  obtain ⟨hc, hr, hs, -⟩ := event_timers old (enterRetractFresh u)
  exact
    { state := by simp [hst]
      suspension := by rw [event_cycle_remembered, event_cycle_cause, he]; exact ⟨rfl, rfl⟩
      retractTimer := by
        rw [hr, show (enterRetractFresh u).cycle.retractTimer = .paused 20000 by rw [he]; rfl,
          sync_phaseRuns (by simp [hst])]
        simp [State.now]
      collarTimer := by
        rw [hc, show (enterRetractFresh u).cycle.collarTimer = .disarmed by rw [he]; rfl, sync_disarmed]
      stallWindow := by
        rw [hs, show (enterRetractFresh u).assembler.stallWindow = .disarmed by rw [he]; rfl, sync_disarmed]
      nearVoid := by rw [event_nearVoid]; simp [nearVoidNow, hst]
      history := by rw [event_history, he]; rfl
      flow := event_flowFollows old _ }

theorem CycleSound.linkUp {s : State} {p : Phase} (h : CycleSound s) (hp : s.cycle.state = .active p)
    (hn : p.needsLink = true) : s.sensor.live.linkUp = true := by
  have := h.sampleLink
  simpa [linkServes, hp, hn] using this

/-! ### A hole completed -/

/-- A completion on work that left the free cells, the table, the queue and the configuration as they were. -/
theorem Completed.of_work {s w : State} {records : List HoleRecord} {v : Verdict} {t : State}
    (h : Completed w records v t) (hf : w.history.free = s.history.free)
    (hn : w.neighbours.entries = s.neighbours.entries) (hq : w.link.queue = s.link.queue)
    (hc : w.host.config = s.host.config) : Completed s records v t := by
  have hcfg : w.cfg = s.cfg := by simp only [State.cfg, hc]
  exact
    { state := h.state
      items := h.items
      timers := h.timers
      strokeIdle := h.strokeIdle
      torqueNear := h.torqueNear
      rest := h.rest
      verdict := h.verdict
      free := hf ▸ h.free
      holeDone := h.holeDone
      noNotice := hn ▸ hq ▸ h.noNotice
      ownEntry := hcfg ▸ h.ownEntry
      queued := hcfg ▸ hq ▸ h.queued }

theorem event_complete_of {old s w : State} {records : List HoleRecord} {v : Verdict} (hr : w.history.records = records)
    (hf : w.history.free = s.history.free) (hn : w.neighbours.entries = s.neighbours.entries)
    (hq : w.link.queue = s.link.queue) (hc : w.host.config = s.host.config) :
    Completed s records v (event old (complete v w)) := hr ▸ (event_complete old w v).of_work hf hn hq hc

theorem complete_cycleFrame (v : Verdict) (s : State) : CycleFrame s (complete v s) :=
  ⟨by simp, by simp, by simp, by simp, by simp, by simp, by simp, by simp, by simp⟩

theorem event_complete_notice (old : State) {v : Verdict} {w : State} (h : old.cycle.state ≠ .idle) :
    NoticePlaced (event old (complete v w)) :=
  event_noticePlaced (by rw [complete_state]; exact h.symm) (by simp [complete_state])

/-! ### A phase suspended -/

/-- A suspension on work that left the clock, the stroke, the gel deadlines and the ring, and what the pause leaves of each
timer. -/
theorem Suspended.of_work {s w : State} {p : Phase} {c : Cause} {t : State} (h : Suspended w p c t) (hnow : w.now = s.now)
    (hresin : w.resin = s.resin) (htorque : w.torque = s.torque) (hstall : w.assembler = s.assembler)
    (hcollar : w.cycle.collarTimer = s.cycle.collarTimer)
    (hretract : w.cycle.retractTimer.pause w.now = s.cycle.retractTimer.pause s.now)
    (hhist : w.history = s.history) : Suspended s p c t := by
  obtain ⟨hpc, hpr, hps, hpst, hpt⟩ := h.paused
  exact
    { state := h.state
      remembered := h.remembered
      rest := h.rest
      demand := h.demand
      paused := ⟨by rw [hpc, hcollar, hnow], by rw [hpr, hretract], by rw [hps, hstall, hnow], by rw [hpst, hresin, hnow],
        by rw [hpt, htorque, hnow]⟩
      gel := hresin ▸ h.gel
      torqueNear := h.torqueNear
      nearVoid := h.nearVoid
      stroke := by rw [← hresin, ← hnow]; exact h.stroke
      records := hhist ▸ h.records }

theorem event_suspend_notice (old : State) {c : Cause} {w : State} {p : Phase} (hw : w.cycle.state = .active p)
    (h : old.cycle.state ≠ .suspended) : NoticePlaced (event old (suspend c w)) :=
  event_noticePlaced (by rw [suspend_state hw]; exact h.symm) (by simp [suspend_state hw])

theorem queueFault_faults (code : FaultCode) (s : State) :
    (queueFault code s).host.faults = joinFault code s.host.faults := rfl

/-! ### A host command answered -/

/-- The state with the reply in the reply buffer and the old reply clocked out (11 R178 to R180). -/
def answered (host : Transaction) (s : State) (status : Status) (data : List Byte) (u : State) : State :=
  { u with host := { u.host with reply := ⟨status, data⟩, hsdo := clockedOut host.clocks s.host.reply } }

/-- A taken command that may bring a rise of CANOPY_SET, and answers `setReply`. -/
theorem taken_rise {host : Transaction} {rise : Bool} {s u : State} {status : Status} {data : List Byte}
    (hr : s.resetHeld = false) (hc : host.cut = false) :
    (unlessHeld s (transacted host (s.noteCanopy rise) (setReply status data u)) : Host.Outcome State Fault Refusal)
      = .next (answered host s status data u) := by
  simp [unlessHeld_next, hr, transacted_taken hc, answered, setReply, State.onHost, State.noteCanopy]

/-- A taken command whose work `f` leads to a state `u` and a reply. -/
theorem taken_rise_of {host : Transaction} {rise : Bool} {s u : State} {f : State → State} {status : Status}
    {data : List Byte} (hr : s.resetHeld = false) (hc : host.cut = false)
    (h : f (s.noteCanopy rise) = setReply status data u) :
    (unlessHeld s (transacted host (s.noteCanopy rise) (f (s.noteCanopy rise))) : Host.Outcome State Fault Refusal)
      = .next (answered host s status data u) := by
  rw [h, taken_rise hr hc]

theorem taken {host : Transaction} {s u : State} {status : Status} {data : List Byte}
    (hr : s.resetHeld = false) (hc : host.cut = false) :
    (inTransaction host s (setReply status data u) : Host.Outcome State Fault Refusal)
      = .next (answered host s status data u) := by
  simp [inTransaction, unlessHeld_next, hr, transacted_taken hc, answered, setReply, State.onHost]

section Answered

variable {host : Transaction} {s u : State} {status : Status} {data : List Byte}

theorem answered_replied : Replied host s status data (answered host s status data u) := ⟨rfl, rfl⟩

theorem FlowFollows.answered (h : FlowFollows u) : FlowFollows (answered host s status data u) :=
  ⟨h.allowance, h.flowCut, h.flowReq, h.held, h.setpoints⟩

theorem AtRest.answered (h : AtRest u) : AtRest (answered host s status data u) :=
  ⟨h.setpoints, h.flowReq, h.stroke, h.held⟩

theorem NoticePlaced.answered (h : NoticePlaced u) : NoticePlaced (answered host s status data u) := h

theorem CycleFrame.answered {v : State} (h : CycleFrame v u) : CycleFrame v (answered host s status data u) :=
  ⟨h.pins, h.pending, h.config, h.stack, h.peers, h.schedule, h.hole, h.window, h.line⟩

theorem Completed.answered {v : State} {records : List HoleRecord} {verdict : Verdict} (h : Completed v records verdict u) :
    Completed v records verdict (answered host s status data u) :=
  ⟨h.state, h.items, h.timers, h.strokeIdle, h.torqueNear, h.rest.answered, h.verdict, h.free, h.holeDone, h.noNotice,
    h.ownEntry, h.queued⟩

theorem RetractEntered.answered {v : State} (h : RetractEntered v u) : RetractEntered v (answered host s status data u) :=
  ⟨h.state, h.suspension, h.retractTimer, h.collarTimer, h.stallWindow, h.nearVoid, h.history, h.flow.answered⟩

end Answered

end Sys2Proof.Machine
end

