-- ==== Sys2Proof/Proofs/HostCycle.lean ====
section
/-! PROOFS. The timeouts, the fall of CANOPY_SET, and START_HOLE refused, and ABORT (01 R8 to R12, R17, R23 to R25). -/

namespace Sys2Proof.Machine

/-! ### Expiries out of their time -/

theorem unlessHeld_of_awake {φ ρ : Type} {s new : State} (h : s.resetHeld = false) :
    (unlessHeld s new : Host.Outcome State φ ρ) = .next new := by simp [unlessHeld_next, h]

/-- An expiry that meets its condition is its event, and no event otherwise (log 3). -/
theorem unlessHeld_ite {φ ρ : Type} {s new : State} {c : Prop} [Decidable c] (h : s.resetHeld = false) :
    (¬c → (unlessHeld s (if c then new else s) : Host.Outcome State φ ρ) = .next s)
      ∧ (c → (unlessHeld s (if c then new else s) : Host.Outcome State φ ρ) = .next new) :=
  ⟨fun hc => by rw [unlessHeld_of_awake h, if_neg hc], fun hc => by rw [unlessHeld_of_awake h, if_pos hc]⟩

/-! ### COLLAR_TIMER_EXPIRY and STALL_WINDOW_EXPIRY -/

/-- What both timeouts of drilling leave: the work `u` has queued the fault, set the verdict and ended the assembly. -/
theorem drillingTimeout {s u : State} {code : FaultCode} (hlink : s.sensor.live.linkUp = true)
    (hst : s.cycle.state ≠ .active .retract) (hsensor : u.sensor = s.sensor)
    (hcycle : u.cycle = (setPendingVerdict .short s).cycle) (hasm : u.assembler = (shortEnd s).assembler)
    (hanchor : u.anchor = s.anchor) (hhist : u.history = (shortEnd s).history)
    (hhost : u.host = (queueFault code s).host) (hflow : u.flow = s.flow) (hline : u.link = s.link)
    (hpins : u.canopySet = s.canopySet ∧ u.valveReady = s.valveReady ∧ u.resetHeld = s.resetHeld)
    (hpend : u.pending = s.pending) :
    let t := event s (enterRetractFresh u)
    CycleFrame s t
      ∧ t.cycle.state = .active .retract ∧ t.host.faults = joinFault code s.host.faults
      ∧ t.cycle.pendingVerdict = (if s.cycle.pendingVerdict = some .aborted then some .aborted else some .short)
      ∧ t.cycle.retractTimer = (if t.cycle.held then .paused 20000 else .running (after s.now 20000))
      ∧ t.cycle.collarTimer = .disarmed ∧ t.assembler.stallWindow = .disarmed ∧ t.assembler.cell = none
      ∧ t.assembler.maxDepth = s.assembler.maxDepth ∧ t.anchor = s.anchor ∧ t.neighbours.nearVoid = false
      ∧ t.history.free = s.history.free
      ∧ (∀ r ∈ s.history.records, r.isOpen = true → r.cells.length < r.planned →
          HoleRecord.scanned { r with cells := r.cells ++ shortEndCells s } ∈ t.history.records)
      ∧ FlowFollows t ∧ NoticePlaced t := by
  intro t
  have hl : u.sensor.live.linkUp = true := by rw [hsensor]; exact hlink
  have hr : RetractEntered u t := event_enterRetractFresh s hl
  have hnow : u.now = s.now := by simp only [State.now, hcycle]; rfl
  refine ⟨event_cycleFrame ?_, hr.state, ?_, ?_, hnow ▸ hr.retractTimer, hr.collarTimer, hr.stallWindow, ?_, ?_, ?_,
    hr.nearVoid, ?_, ?_, hr.flow, ?_⟩
  · exact ⟨by simpa using hpins, by simpa using hpend, by simp [hhost], by simp [hhost], by simp [hflow], by simp [hflow],
      by simp [hcycle], by simp [hhist], by simp [hline]⟩
  · simp [t, hhost, queueFault_faults]
  · simp [t, hcycle, setPendingVerdict]
  · simp [t, hasm]
  · simp [t, hasm]
  · simp [t, hanchor]
  · simp [t, hhist]
  · intro r hm ho hlt
    rw [hr.history, hhist]
    exact shortEnd_mem hm ho hlt
  · refine event_noticePlaced ?_ ?_ <;> rw [enterRetractFresh_of_linkUp hl] <;> simp [hst.symm]

/-- Settles O22: both timeouts are one work on the drilling state, `drillingTimeout`. -/
theorem drillingTimeoutsEndShort : Obligations.DrillingTimeoutsEndShort := by
  intro c p timer code s hheld hm
  simp only [List.mem_cons, Prod.mk.injEq, List.not_mem_nil, or_false] at hm
  rcases hm with ⟨rfl, rfl, rfl, rfl⟩ | ⟨rfl, rfl, rfl, rfl⟩
  · refine ⟨(unlessHeld_ite hheld).1, fun hs hp hd => ⟨_, (unlessHeld_ite hheld).2 ⟨hp, hd⟩, ?_⟩⟩
    have := drillingTimeout (s := s) (code := .collarTimeout)
      (u := shortEnd (setPendingVerdict .short (queueFault .collarTimeout s))) (hs.linkUp hp rfl)
      (by simp [hp]) (by simp) (by rw [shortEnd_cycle]; rfl) rfl (by simp) rfl (by simp) (by simp) (by simp) (by simp)
      (by simp)
    simpa only [HoleRecord.scanned, shortEndCells_eq] using this
  · refine ⟨(unlessHeld_ite hheld).1, fun hs hp hd => ⟨_, (unlessHeld_ite hheld).2 ⟨hp, hd⟩, ?_⟩⟩
    have := drillingTimeout (s := s) (code := .stall)
      (u := setPendingVerdict .short (queueFault .stall (shortEnd s))) (hs.linkUp hp rfl)
      (by simp [hp]) (by simp) (by simp only [setPendingVerdict, State.onCycle_cycle, queueFault_cycle, shortEnd_cycle]) rfl
      (by simp) rfl (by simp [queueFault]) (by simp) (by simp)
      (by simp) (by simp)
    simpa only [HoleRecord.scanned, shortEndCells_eq] using this

/-! ### RETRACT_TIMER_EXPIRY and TORQUE_TIMER_EXPIRY -/

/-- A running timer that is due pauses with nothing left (R4). -/
theorem pause_of_due {t : Timer} {now : Time} (h : t.due now = true) : t.pause now = .paused 0 := by
  cases t with
  | running d => simp only [Timer.due] at h; simp [Timer.pause, remaining, h]
  | _ => simp [Timer.due] at h

theorem suspend_cycleFrame (c : Cause) (s : State) : CycleFrame s (suspend c s) :=
  ⟨by simp, by simp, by simp, by simp, by simp, by simp, by simp, by simp, by simp⟩

theorem CycleFrame.of_work {s w t : State} (h : CycleFrame w t)
    (hpins : w.canopySet = s.canopySet ∧ w.valveReady = s.valveReady ∧ w.resetHeld = s.resetHeld)
    (hpend : w.pending = s.pending) (hhost : w.host.config = s.host.config ∧ w.host.stack = s.host.stack)
    (hflow : w.flow.peers = s.flow.peers ∧ w.flow.schedule = s.flow.schedule)
    (hhole : w.cycle.holeNumber = s.cycle.holeNumber ∧ w.cycle.row = s.cycle.row ∧ w.cycle.slot = s.cycle.slot
      ∧ w.cycle.planned = s.cycle.planned ∧ w.cycle.timebase = s.cycle.timebase)
    (hwindow : w.history.selection = s.history.selection ∧ w.history.pointer = s.history.pointer)
    (hline : w.link.view = s.link.view ∧ w.link.tx = s.link.tx ∧ w.link.mute = s.link.mute) : CycleFrame s t := by
  obtain ⟨h1, h2, h3, h4, h5, h6, h7, h8, h9⟩ := h
  exact ⟨by simpa only [hpins] using h1, by rw [h2, hpend], by rw [h3, hhost.1], by rw [h4, hhost.2], by rw [h5, hflow.1],
    by rw [h6, hflow.2], by simpa only [hhole] using h7, by simpa only [hwindow] using h8, by simpa only [hline] using h9⟩

/-- What RETRACT_TIMER_EXPIRY has done before the suspension: the fault, and the timer left with nothing (01 R12). -/
def retractStuck (s : State) : State := (queueFault .retractStuck s).onCycle fun c => { c with retractTimer := .paused 0 }

theorem retractTimeout {s : State} (hs : CycleSound s) (hp : s.cycle.state = .active .retract)
    (hd : s.cycle.retractTimer.due s.now = true) :
    let t := event s (suspend .stuck (retractStuck s))
    CycleFrame s t ∧ Suspended s .retract .stuck t ∧ t.host.faults = joinFault .retractStuck s.host.faults
      ∧ t.cycle.retractTimer = .paused 0 ∧ t.cycle.pendingVerdict = s.cycle.pendingVerdict ∧ NoticePlaced t := by
  intro t
  have hpw : (retractStuck s).cycle.state = .active .retract := hp
  have hsw : (retractStuck s).resin.stroke ≠ .inProgress := hs.no_stroke (by simp [hp])
  have hsus : Suspended s .retract .stuck t :=
    (event_suspend s _ .retract .stuck hpw (fun hi => absurd hi hsw)).of_work rfl rfl rfl rfl rfl
      (pause_of_due hd).symm rfl
  have hframe : CycleFrame s (suspend .stuck (retractStuck s)) :=
    (suspend_cycleFrame .stuck _).of_work ⟨rfl, rfl, rfl⟩ rfl ⟨rfl, rfl⟩ ⟨rfl, rfl⟩ ⟨rfl, rfl, rfl, rfl, rfl⟩ ⟨rfl, rfl⟩
      ⟨rfl, rfl, rfl⟩
  refine ⟨event_cycleFrame hframe, hsus, ?_, ?_, ?_, event_suspend_notice s hpw (by simp [hp])⟩
  · simp [t, retractStuck, queueFault_faults]
  · rw [hsus.paused.2.1, pause_of_due hd]
  · simp [t, retractStuck]

/-- Settles O23. -/
theorem retractAndTorqueTimeoutsAct : Obligations.RetractAndTorqueTimeoutsAct := by
  refine ⟨fun s hheld => ⟨(unlessHeld_ite hheld).1, fun hs hp hd => ⟨_, (unlessHeld_ite hheld).2 ⟨hp, hd⟩, ?_⟩⟩,
    fun s hheld => ⟨(unlessHeld_ite hheld).1, fun hp hd => ⟨_, (unlessHeld_ite hheld).2 ⟨hp, hd⟩, ?_⟩⟩⟩
  · exact retractTimeout hs hp hd
  · exact ⟨event_cycleFrame (complete_cycleFrame _ s), event_complete s s .torqueTimeout,
      event_complete_notice s (by simp [hp]), by simp, by simp, by simp, by simp⟩

/-! ### CANOPY_SET_FALL -/

/-- Settles O24: in an active phase the fault is queued, and then the phase is suspended or, under the mark, completed. -/
theorem canopyFallSuspends : Obligations.CanopyFallSuspends := by
  intro s hheld hs hcan
  have he : exec .canopySetFall s = .next (canopyFall { s with canopySet := false }) :=
    (unlessHeld_ite hheld).2 hcan
  refine ⟨fun p hp ha => ?_, fun hp ha => ?_, fun hn => ?_⟩
  · have hw : canopyFall { s with canopySet := false } = event { s with canopySet := false }
        (suspend .canopy (queueFault .canopyLost { s with canopySet := false })) := by
      have hno : ¬(p = .insert ∧ s.cycle.abortPending = true) := fun h => by simp [ha h.1] at h
      simp [canopyFall, hp, hno]
    refine ⟨_, he, ?_⟩
    rw [hw]
    have hsus := event_suspend { s with canopySet := false } (queueFault .canopyLost { s with canopySet := false }) p .canopy hp
      (hs.stroke_insert hp)
    exact ⟨by simp, hsus.of_work rfl rfl rfl rfl rfl rfl rfl, event_suspend_notice _ hp (by simp [hp]),
      by simp [queueFault_faults], by simp, by simp, by simp, by simp, by simp, by simp,
      by simp, by simp⟩
  · have hw : canopyFall { s with canopySet := false } = event { s with canopySet := false }
        (complete .aborted (queueFault .canopyLost { s with canopySet := false })) := by
      simp [canopyFall, hp, ha]
    refine ⟨_, he, ?_⟩
    rw [hw]
    exact ⟨by simp, event_complete_of rfl rfl rfl rfl rfl, event_complete_notice _ (by simp [hp]),
      by simp [queueFault_faults], by simp⟩
  · rw [he]
    cases hst : s.cycle.state with
    | active p => simp [hst, CycleState.isActive] at hn
    | _ => simp [canopyFall, hst]

/-! ### START_HOLE refused -/

theorem holeArgsOk_eq (row slot planned : Nat) :
    holeArgsOk row slot planned = !decide (4095 < row ∨ 7 < slot ∨ planned < 30 ∨ 128 < planned) := by
  rw [Bool.eq_iff_iff]
  simp [holeArgsOk, within]
  omega

/-- START_HOLE's status, by the tests of R8 in their order. -/
theorem startHole_refused {s : State} {row slot planned : Nat} {status : Status}
    (h : status = (if s.cycle.state ≠ .idle then .badState
      else if 4095 < row ∨ 7 < slot ∨ planned < 30 ∨ 128 < planned then .badArg
      else if s.canopySet = false then .noCanopy
      else if s.muted = true then .muted else .ok)) (hne : status ≠ .ok) :
    startHole row slot planned s = setReply status [] s := by
  unfold startHole
  simp only [holeArgsOk_eq, Bool.not_not, decide_eq_true_eq, Bool.not_eq_true']
  split_ifs at h ⊢ <;> simp_all

/-- Settles O35. -/
theorem startHoleIsRefusedInOrder : Obligations.StartHoleIsRefusedInOrder := by
  intro host row slot planned rise s status hheld hcut hst hne
  exact taken_rise_of (rise := rise) hheld hcut (startHole_refused hst hne)

/-! ### ABORT -/

theorem exec_abort {host : Transaction} {rise : Bool} {s u : State} {status : Status} (hheld : s.resetHeld = false)
    (hcut : host.cut = false) (h : abort (s.noteCanopy rise) = setReply status [] u) :
    exec (.abort rise host) s = .next (answered host s status [] u) := taken_rise_of hheld hcut h

theorem setPendingVerdict_aborted (s : State) :
    setPendingVerdict .aborted s = s.onCycle fun c => { c with pendingVerdict := some .aborted } := by
  simp [setPendingVerdict]

/-- ABORT of drilling ends the assembly short and enters RETRACT (01 R23, 02 R43). -/
theorem event_abortDrilling (old : State) {s : State} (hl : s.sensor.live.linkUp = true) :
    RetractEntered (shortEnd (setPendingVerdict .aborted s)) (event old (abortDrilling s))
      ∧ (event old (abortDrilling s)).cycle.pendingVerdict = some .aborted
      ∧ (event old (abortDrilling s)).assembler.cell = none ∧ (event old (abortDrilling s)).anchor = s.anchor
      ∧ (event old (abortDrilling s)).host.faults = s.host.faults
      ∧ (old.cycle.state ≠ .active .retract → NoticePlaced (event old (abortDrilling s))) := by
  have hl' : (shortEnd (setPendingVerdict .aborted s)).sensor.live.linkUp = true := by simpa using hl
  have hr := event_enterRetractFresh old hl'
  refine ⟨hr, by simp [abortDrilling, setPendingVerdict_aborted], by simp [abortDrilling], by simp [abortDrilling],
    by simp [abortDrilling], fun hn => ?_⟩
  have hst := hr.state
  rw [event_cycle_state] at hst
  exact event_noticePlaced (by rw [abortDrilling, hst]; exact hn.symm) (by rw [abortDrilling, hst]; simp)

/-- The hole completes ABORTED, from a state with a hole. -/
theorem abortCompletes {host : Transaction} {rise : Bool} {s : State} (hheld : s.resetHeld = false) (hcut : host.cut = false)
    (h : abort (s.noteCanopy rise) = accept (s.noteCanopy rise) (complete .aborted (s.noteCanopy rise)) [])
    (hi : s.cycle.state ≠ .idle) :
    ∃ t, exec (.abort rise host) s = .next t ∧ Replied host s .ok [] t ∧ Completed s s.history.records .aborted t
      ∧ NoticePlaced t ∧ t.host.faults = s.host.faults ∧ t.resin.pushed = s.resin.pushed := by
  refine ⟨_, exec_abort hheld hcut h, answered_replied, ?_, ?_, ?_, ?_⟩
  · exact Completed.answered (event_complete_of rfl rfl rfl rfl rfl)
  · exact (event_complete_notice _ (w := s.noteCanopy rise) hi).answered
  · simp [answered, State.noteCanopy]
  · simp [answered, State.noteCanopy]

/-- Settles O37. -/
theorem abortActsByTheState : Obligations.AbortActsByTheState := by
  intro host rise s hheld hcut hs
  refine ⟨fun h => ?_, fun h => ?_, fun h => ?_, fun h hi => ?_, fun h => ?_⟩
  · refine exec_abort hheld hcut (u := s.noteCanopy rise) (status := .badState) ?_
    rcases h with h | h <;> simp [abort, h]
  · have hl : (s.noteCanopy rise).sensor.live.linkUp = true := by
      rcases h with h | h <;> exact hs.linkUp h rfl
    have ha : abort (s.noteCanopy rise) = accept (s.noteCanopy rise) (abortDrilling (s.noteCanopy rise)) [] := by
      rcases h with h | h <;> simp [abort, h]
    obtain ⟨hr, hv, hcell, hanchor, hfaults, hn⟩ := event_abortDrilling (s.noteCanopy rise) hl
    refine ⟨_, exec_abort hheld hcut ha, answered_replied, hr.answered.state, hv, hcell, hr.answered.stallWindow, ?_,
      ?_, hr.answered.retractTimer, hanchor, hfaults, hr.answered.flow, (hn ?_).answered⟩
    · rw [hr.answered.history]
      simp
    · intro r hm ho hlt cells hcells
      rw [hr.answered.history, hcells, ← shortEndCells_eq]
      exact shortEnd_mem (s := setPendingVerdict .aborted (s.noteCanopy rise)) hm ho hlt
    · rcases h with h | h <;> simp [h]
  · refine exec_abort hheld hcut (u := (s.noteCanopy rise).onCycle fun c => { c with pendingVerdict := some .aborted }) ?_
    simp [abort, h, setPendingVerdict_aborted]
  · refine exec_abort hheld hcut (u := (s.noteCanopy rise).onCycle fun c => { c with abortPending := true }) ?_
    simp [abort, h, hi, State.noteCanopy]
  · refine abortCompletes hheld hcut ?_ ?_
    · rcases h with ⟨h, hi⟩ | h | h | h | h <;> simp [abort, h, State.noteCanopy]
      simp [hi]
    · rcases h with ⟨h, -⟩ | h | h | h | h <;> simp [h]

/-! ### ABORT in SUSPENDED -/

/-- Nothing keeps the drill in the hole: MUTE is not held, CANOPY_SET is high and LINK_UP is true (01 R25). -/
def freeToRetract (s : State) : Prop := s.muted = false ∧ s.canopySet = true ∧ s.sensor.live.linkUp = true

theorem not_freeToRetract_iff (s : State) : ¬freeToRetract s ↔
    s.muted = true ∨ s.canopySet = false ∨ s.sensor.live.linkUp = false := by
  unfold freeToRetract
  cases s.muted <;> cases s.canopySet <;> cases s.sensor.live.linkUp <;> simp

/-- A suspended COLLAR or DRILL is aborted as a running one where nothing keeps the drill, and completes else. -/
theorem abortSuspended_drilling {s : State} {p : Phase} (hp : s.cycle.remembered = some p) (hd : p = .collar ∨ p = .drill) :
    (freeToRetract s → abortSuspended s = abortDrilling s)
      ∧ (¬freeToRetract s → abortSuspended s = complete .aborted (shortEnd s)) := by
  refine ⟨fun ⟨h1, h2, h3⟩ => ?_, fun h => ?_⟩
  · rcases hd with rfl | rfl <;> simp [abortSuspended, hp, h1, h2, h3]
  · rw [not_freeToRetract_iff] at h
    rcases hd with rfl | rfl <;> rcases h with h | h | h <;> simp [abortSuspended, hp, h]

/-- A suspended RETRACT goes on, afresh after STUCK, where nothing keeps the drill, and completes else. -/
theorem abortSuspended_retract {s : State} (hp : s.cycle.remembered = some .retract) :
    (freeToRetract s → abortSuspended s = if s.cycle.cause = some .stuck then enterRetractFresh (setPendingVerdict .aborted s)
        else enterState (.active .retract) (setPendingVerdict .aborted s))
      ∧ (¬freeToRetract s → abortSuspended s = complete .aborted s) := by
  refine ⟨fun ⟨h1, h2, h3⟩ => ?_, fun h => ?_⟩
  · have he : enterPhase .retract (setPendingVerdict .aborted s) = enterState (.active .retract) (setPendingVerdict .aborted s) :=
      enterPhase_of_linkUp h3
    simp [abortSuspended, hp, h1, h2, h3, he]
  · rw [not_freeToRetract_iff] at h
    rcases h with h | h | h <;> simp [abortSuspended, hp, h]

theorem abortSuspended_other {s : State} {p : Phase} (hp : s.cycle.remembered = some p)
    (hn : p = .insert ∨ p = .mix ∨ p = .hold ∨ p = .torque) : abortSuspended s = complete .aborted s := by
  rcases hn with rfl | rfl | rfl | rfl <;> simp [abortSuspended, hp]

/-- The suspended hole is retracted with ABORTED pending (01 R25). -/
structure AbortRetracts (s : State) (p : Phase) (t : State) : Prop where
  state : t.cycle.state = .active .retract
  pendingVerdict : t.cycle.pendingVerdict = some .aborted
  suspension : t.cycle.remembered = none ∧ t.cycle.cause = none
  flow : FlowFollows t
  keeps : p = .retract → s.cycle.cause ≠ some .stuck → ∀ left, s.cycle.retractTimer = .paused left →
    t.cycle.retractTimer = (if t.cycle.held = true then .paused left else .running (after s.now left))
  fresh : p ≠ .retract ∨ s.cycle.cause = some .stuck →
    t.cycle.retractTimer = (if t.cycle.held = true then .paused 20000 else .running (after s.now 20000))
  cell : p ≠ .retract → t.assembler.cell = none
  faults : t.host.faults = s.host.faults
  notice : NoticePlaced t

theorem event_abortRetracts {s : State} {p : Phase} (hst : s.cycle.state = .suspended) (hp : s.cycle.remembered = some p)
    (hpr : p = .collar ∨ p = .drill ∨ p = .retract) (hf : freeToRetract s) :
    AbortRetracts s p (event s (abortSuspended s)) := by
  have hl : s.sensor.live.linkUp = true := hf.2.2
  by_cases hr : p = .retract
  · subst hr
    rw [(abortSuspended_retract hp).1 hf]
    split_ifs with hc
    · have he := event_enterRetractFresh s (u := setPendingVerdict .aborted s) hl
      have hs' := he.state
      rw [event_cycle_state] at hs'
      exact ⟨he.state, by simp [setPendingVerdict_aborted], he.suspension, he.flow, fun _ hn => absurd hc hn,
        fun _ => he.retractTimer, fun hn => absurd rfl hn, by simp,
        event_noticePlaced (by rw [hs', hst]; simp) (by rw [hs']; simp)⟩
    · obtain ⟨-, ht, -, -⟩ := event_timers s (enterState (.active .retract) (setPendingVerdict .aborted s))
      refine ⟨by simp, by simp [setPendingVerdict_aborted], ⟨by simp [enterState], by simp [enterState]⟩,
        event_flowFollows _ _, fun _ _ left hleft => ?_, fun h => absurd (h.resolve_left (by simp)) hc,
        fun hn => absurd rfl hn, by simp, event_noticePlaced (by simp [hst]) (by simp)⟩
      rw [ht, enterState_cycle_retractTimer, setPendingVerdict_cycle_retractTimer, hleft, sync_phaseRuns (by simp)]
      rfl
  · obtain ⟨he, hv, hcell, -, hfaults, hn⟩ := event_abortDrilling s hl
    rw [(abortSuspended_drilling hp (by tauto)).1 hf]
    exact ⟨he.state, hv, he.suspension, he.flow, fun h => absurd h hr, fun _ => by simpa [State.now] using he.retractTimer,
      fun _ => hcell, hfaults, hn (by simp [hst])⟩

/-- Settles O38: whether the hole is retracted turns on the remembered phase and on `freeToRetract`. -/
theorem abortInSuspendedDecides : Obligations.AbortInSuspendedDecides := by
  intro host rise s p hheld hcut hs hst hp
  have ha : abort (s.noteCanopy rise) = accept (s.noteCanopy rise) (abortSuspended (s.noteCanopy rise)) [] := by
    simp [abort, hst]
  refine ⟨_, exec_abort hheld hcut ha, answered_replied, ?_⟩
  have hp' : (s.noteCanopy rise).cycle.remembered = some p := hp
  have hst' : (s.noteCanopy rise).cycle.state = .suspended := hst
  have hnotice : ∀ w : State, NoticePlaced (event (s.noteCanopy rise) (complete .aborted w)) := fun w =>
    event_complete_notice _ (by simp [hst])
  have hiff := not_freeToRetract_iff (s.noteCanopy rise)
  by_cases hf : freeToRetract (s.noteCanopy rise)
  · have hno : ¬(s.muted = true ∨ (s.canopySet || rise) = false ∨ s.sensor.live.linkUp = false) := fun h => hiff.2 h hf
    by_cases hpr : p = .collar ∨ p = .drill ∨ p = .retract
    · have hr := event_abortRetracts hst' hp' hpr hf
      refine ⟨hr.notice.answered, hr.faults, fun _ => ⟨hr.state, hr.pendingVerdict, hr.suspension.1, hr.suspension.2,
        hr.flow.answered, hr.keeps, hr.fresh, hr.cell⟩, fun hp1 hp2 => absurd (hp2.resolve_left ?_) hno,
        fun _ h => absurd h hno⟩
      rcases hpr with rfl | rfl | rfl <;> simp at hp1 ⊢
    · rw [abortSuspended_other hp' (by cases p <;> simp at hpr ⊢)]
      exact ⟨(hnotice _).answered, by simp [answered, State.noteCanopy], fun h => absurd h.1 hpr,
        fun _ _ => Completed.answered (event_complete_of rfl rfl rfl rfl rfl), fun h => absurd (by tauto) hpr⟩
  · by_cases hpd : p = .collar ∨ p = .drill
    · rw [(abortSuspended_drilling hp' hpd).2 hf]
      refine ⟨(hnotice _).answered, by simp [answered, State.noteCanopy], fun h => absurd ⟨h.2.1, h.2.2.1, h.2.2.2⟩ hf, ?_,
        fun _ _ => ⟨Completed.answered (event_complete_of rfl (by simp) (by simp) (by simp) (by simp)), by simp [answered]⟩⟩
      rintro hp1
      exfalso
      rcases hpd with rfl | rfl <;> simp at hp1
    · have hc : abortSuspended (s.noteCanopy rise) = complete .aborted (s.noteCanopy rise) := by
        by_cases hr : p = .retract
        · exact (abortSuspended_retract (hr ▸ hp')).2 hf
        · exact abortSuspended_other hp' (by cases p <;> simp at hpd hr ⊢)
      rw [hc]
      exact ⟨(hnotice _).answered, by simp [answered, State.noteCanopy], fun h => absurd ⟨h.2.1, h.2.2.1, h.2.2.2⟩ hf,
        fun _ _ => Completed.answered (event_complete_of rfl rfl rfl rfl rfl), fun h => absurd h hpd⟩

end Sys2Proof.Machine
end

