-- ==== Sys2Proof/Proofs/Insert.lean ====
section
/-! PROOFS. INSERT entered, PROCEED and ABANDON, and the good record as one event (01 R13 to R16, 02 R29 to R34). -/

namespace Sys2Proof.Machine

/-! ### The first stroke of INSERT -/

theorem event_resin (old w : State) : (event old w).resin = (settle w).resin := by simp [event, finish]

theorem event_phaseRuns (old w : State) (p : Phase) : phaseRuns (event old w) p = phaseRuns (settle w) p :=
  phaseRuns_congr (by simp) (by simp [event, finish]) p

theorem phaseRuns_of_state {t : State} {p : Phase} (h : t.cycle.state = .active p) : phaseRuns t p = !t.cycle.held := by
  simp [phaseRuns, h]

/-- A stroke that is ready starts afresh at the entry, unless the phase is HELD (06 R88). -/
theorem event_firstStroke (old : State) {s w : State} (hst : w.cycle.state = .active .insert)
    (hr : strokeReady w = true) (hi : w.resin.stroke = .idle) (hnow : w.now = s.now) : FirstStroke s (event old w) := by
  have hruns : phaseRuns (settle w) .insert = !(event old w).cycle.held := by
    rw [← event_phaseRuns old, phaseRuns_of_state (by simpa using hst)]
  refine ⟨fun hh => ?_, fun hh => ?_⟩
  · obtain ⟨h1, h2⟩ := settle_starts (by rw [hruns, hh]; rfl) hr
    rw [hi, if_pos rfl, hnow] at h2
    exact ⟨by simp [State.strokeOut, event_resin, h1], by rw [event_resin, h2]⟩
  · obtain ⟨h1, -⟩ := settle_starts_not (w := w) (.inl (by rw [hruns, hh]; rfl))
    simp [State.strokeOut, event_resin, h1, hi]

theorem enterInsert_eq (w : State) : enterInsert w = enterState (.active .insert) (w.onResin fun r =>
    { r with charge := w.anchor.charge, pushed := 0, stroke := .idle, retry := false, gap := none }) := by
  simp [enterInsert, enterPhase, Phase.needsLink]

/-- INSERT has been entered in `t` with the charge that the anchor of `w` has chosen (06 R87). -/
structure InsertEntered (w t : State) : Prop where
  state : t.cycle.state = .active .insert
  charge : t.resin.charge = w.anchor.charge
  pushed : t.resin.pushed = 0
  retry : t.resin.retry = false
  gap : t.resin.gap = none
  anchor : t.anchor = w.anchor
  history : t.history = w.history
  flow : FlowFollows t
  first : 0 < w.anchor.charge.getD 0 → w.cycle.abortPending = false → FirstStroke w t

theorem event_enterInsert (old w : State) : InsertEntered w (event old (enterInsert w)) := by
  rw [enterInsert_eq]
  exact
    { state := by simp
      charge := by simp
      pushed := by simp
      retry := by simp
      gap := by simp
      anchor := by simp
      history := by simp
      flow := event_flowFollows _ _
      first := fun hc ha => event_firstStroke old rfl ((strokeReady_iff _).2 ⟨by simp, by simpa using hc, by simpa using ha, rfl⟩)
        rfl rfl }

theorem event_enterInsert_notice (old w : State) (h : old.cycle.state ≠ .active .insert) :
    NoticePlaced (event old (enterInsert w)) := by
  rw [enterInsert_eq]
  exact event_noticePlaced (by simpa using h.symm) (by simp)

theorem FirstStroke.of_work {s w t : State} (h : FirstStroke w t) (hnow : w.now = s.now) : FirstStroke s t :=
  ⟨fun hh => ⟨(h.runs hh).1, hnow ▸ (h.runs hh).2⟩, h.waits⟩

theorem InsertEntered.of_work {s w t : State} (h : InsertEntered w t) (hnow : w.now = s.now) (ha : w.anchor = s.anchor)
    (hh : w.history = s.history) (hab : w.cycle.abortPending = s.cycle.abortPending) : InsertEntered s t where
  state := h.state
  charge := ha ▸ h.charge
  pushed := h.pushed
  retry := h.retry
  gap := h.gap
  anchor := ha ▸ h.anchor
  history := hh ▸ h.history
  flow := h.flow
  first := fun hc hp => (h.first (ha ▸ hc) (hab ▸ hp)).of_work hnow

/-! ### PROCEED and ABANDON -/

theorem FirstStroke.answered {host : Transaction} {s v u : State} {status : Status} {data : List Byte}
    (h : FirstStroke v u) : FirstStroke v (answered host s status data u) := ⟨h.runs, h.waits⟩

/-- PROCEED's status, by its tests in their order (01 R15). -/
theorem proceed_refused {s : State} {status : Status}
    (h : status = (if s.cycle.state ≠ .decide then .badState
      else if s.canopySet = false then .noCanopy else if s.muted = true then .muted else .ok)) (hne : status ≠ .ok) :
    proceed s = setReply status [] s := by
  unfold proceed
  simp only [Bool.not_eq_true']
  split_ifs at h ⊢ <;> simp_all

theorem proceed_accepted {s : State} (hd : s.cycle.state = .decide) (hc : s.canopySet = true) (hm : s.muted = false) :
    proceed s = accept s (enterInsert (proceedAnchor s)) [] := by simp [proceed, hd, hc, hm]

theorem proceedAnchor_anchor (s : State) :
    (proceedAnchor s).anchor = { s.anchor with charge := some 3, target := some s.cfg.softTarget } := rfl

/-- Settles O40. -/
theorem decideIsLeftByTheHost : Obligations.DecideIsLeftByTheHost := by
  refine ⟨fun host rise s hheld hcut => ⟨fun status hst hne => ?_, fun hd hc hm => ?_⟩,
    fun host s hheld hcut => ⟨fun hd => ?_, fun hd => ?_⟩⟩
  · exact taken_rise_of (rise := rise) hheld hcut (proceed_refused hst hne)
  · have hp := proceed_accepted (s := s.noteCanopy rise) hd hc hm
    have he := event_enterInsert (s.noteCanopy rise) (proceedAnchor (s.noteCanopy rise))
    refine ⟨_, taken_rise_of hheld hcut hp, answered_replied, he.state, he.charge, he.pushed, he.retry, he.gap, he.anchor, ?_,
      fun ha => ?_, he.flow.answered, ?_⟩
    · exact congrArg HistoryBlock.records he.history
    · obtain ⟨h1, h2⟩ := he.first (by simp [proceedAnchor_anchor]) ha
      exact ⟨h1, h2⟩
    · have hn := event_enterInsert_notice (s.noteCanopy rise) (proceedAnchor (s.noteCanopy rise)) (by simp [hd])
      exact hn.answered
  · refine Eq.trans ?_ (taken (u := s) hheld hcut)
    exact congrArg (inTransaction host s) (if_pos hd)
  · have hdone := event_complete s s .rejected
    refine ⟨answered host s .ok [] (event s (complete .rejected s)), ?_, ?_, answered_replied, hdone.answered, ?_⟩
    · refine Eq.trans ?_ (taken (u := event s (complete .rejected s)) hheld hcut)
      exact congrArg (inTransaction host s) (if_neg (by simp [hd]))
    · exact (event_cycleFrame (complete_cycleFrame .rejected s)).answered
    · have hn := event_complete_notice s (v := .rejected) (w := s) (by simp [hd])
      exact hn.answered

/-! ### A good record -/

/-- The port after the last byte of a good record, before the sample is handed on. -/
def betweenRecords (s : State) : State := s.onSensor fun p => { p with receiver := .idle, gap := 0, assembly := [] }

/-- A whole good record is one event on the state with the sample stored (02 R31). -/
theorem exec_goodRecord {s : State} {bytes : List SrxByte} {raw : Sample} (hheld : s.resetHeld = false)
    (hh : Hunting s bytes) (hg : goodRecord bytes = true) (hraw : rawSample (bytes.map SrxByte.value) = some raw) :
    exec (.sampleRecord (srxLine bytes)) s = .next (handSample raw.clamp (storeSample raw (betweenRecords s))) := by
  have he : (srxLine bytes).foldl takeSrxBit s = handSample raw.clamp (storeSample raw (betweenRecords s)) := by
    rw [foldl_takeSrxBit_good hh hg, takeRecord, hraw]
    rfl
  rw [← he]
  exact unlessHeld_of_awake hheld

/-- Storing a sample touches the sample port only. -/
theorem storeSample_only (raw : Sample) (s : State) : ∃ p : SensorBlock, p.live.linkUp = true
    ∧ storeSample raw (betweenRecords s) = { s with sensor := p } :=
  ⟨_, by simp, rfl⟩

theorem takeLive_latch (p : SensorBlock) (live : StatusGroup) :
    if p.latched = false ∧ live ≠ p.live then
      (p.takeLive live).latched = true ∧ (p.takeLive live).snapshot = live ∧ (p.takeLive live).readMark = false
    else (p.takeLive live).latched = p.latched ∧ (p.takeLive live).snapshot = p.snapshot
      ∧ (p.takeLive live).readMark = p.readMark := by
  unfold SensorBlock.takeLive
  cases p.latched <;> by_cases h : live = p.live <;> simp [h]

theorem clamped_eq (raw : Sample) : raw.clamped
    = decide (600 < raw.thrust ∨ 1023 < raw.torque ∨ 1023 < raw.speed ∨ 30000 < raw.feed) := by
  simp [Sample.clamped, Bool.decide_or, Bool.or_assoc]

/-- The live group that a good record leaves (02 R31). -/
theorem storeSample_live (raw : Sample) (s : State) : (storeSample raw s).sensor.live =
    ⟨true, decide (-40 ≤ raw.temperature ∧ raw.temperature ≤ 120),
      decide (600 < raw.thrust ∨ 1023 < raw.torque ∨ 1023 < raw.speed ∨ 30000 < raw.feed), s.sensor.live.pulseActive⟩ := by
  rw [← clamped_eq, Bool.decide_and]
  simp [storeSample, Sample.tempValid]

/-- An event that leaves the sample port as the stored sample left it has taken the record (02 R30, R31, R34). -/
theorem recordTaken {s t : State} {raw : Sample} (h : t.sensor = (storeSample raw (betweenRecords s)).sensor) :
    RecordTaken s raw t := by
  have hlive := storeSample_live raw (betweenRecords s)
  have hlatch := takeLive_latch { (betweenRecords s).sensor with
      last := some raw.clamp, linkDeadline := some (after (betweenRecords s).now 20) }
    (storeSample raw (betweenRecords s)).sensor.live
  refine ⟨?_, ?_, ?_, ?_, ?_, ?_⟩ <;> rw [h]
  · simp [storeSample, Sample.clamp]
  · simp [storeSample, betweenRecords, State.now]
  · exact hlive
  · simp [storeSample, betweenRecords]
  · simpa [storeSample, betweenRecords] using hlatch
  · simp [storeSample, betweenRecords]

/-! ### The end of RETRACT -/

theorem endRetract_cycleFrame (s : State) : CycleFrame s (endRetract s) :=
  ⟨by simp, by simp, by simp, by simp, by simp, by simp, by simp, by simp, by simp⟩

/-- RETRACT's end, by the pending verdict and then the evaluation (01 R13). -/
theorem endRetract_cases (s : State) {w : State} (hw : w = s.onCycle fun c => { c with retractTimer := .disarmed }) :
    (s.cycle.pendingVerdict = some .short → endRetract s = complete .short w)
      ∧ (s.cycle.pendingVerdict = some .aborted → endRetract s = complete .aborted w)
      ∧ (s.cycle.pendingVerdict = none → s.anchor.outcome = .reject → endRetract s = enterDecide w)
      ∧ (s.cycle.pendingVerdict = none → s.anchor.outcome ≠ .reject → endRetract s = enterInsert w) := by
  subst hw
  refine ⟨fun h => ?_, fun h => ?_, fun h ho => ?_, fun h ho => ?_⟩ <;> simp only [endRetract, State.onCycle_cycle, h]
  · exact if_pos ho
  · exact if_neg ho

/-- RETRACT's end leaves RETRACT with its timer disarmed. -/
theorem endRetract_leaves (s : State) : (endRetract s).cycle.retractTimer = .disarmed
    ∧ (endRetract s).cycle.state ≠ .active .retract ∧ (endRetract s).cycle.state ≠ .unconfigured := by
  unfold endRetract
  dsimp only
  split
  · simp [complete]
  · simp [complete]
  · split_ifs
    · simp [enterDecide]
    · simp [enterInsert_eq]

/-- DECIDE entered: nothing flows, and the host is called (01 R14). -/
theorem event_enterDecide {old w : State} (hs : w.resin.stroke ≠ .inProgress) :
    (event old (enterDecide w)).cycle.state = .decide ∧ (event old (enterDecide w)).host.raised.decide = true
      ∧ AtRest (event old (enterDecide w)) ∧ (event old (enterDecide w)).history = w.history :=
  ⟨by simp [enterDecide], by simp [enterDecide, raiseSource, Raised.set], event_atRest rfl hs, by simp⟩

/-- What the event at the end of RETRACT leaves, on the state with the sample stored. -/
theorem event_endRetract {s : State} (hp : s.cycle.state = .active .retract) (hstroke : s.resin.stroke ≠ .inProgress) :
    let t := event s (endRetract s)
    t.cycle.retractTimer = .disarmed ∧ NoticePlaced t
      ∧ (s.cycle.pendingVerdict = some .short → Completed s s.history.records .short t)
      ∧ (s.cycle.pendingVerdict = some .aborted → Completed s s.history.records .aborted t)
      ∧ (s.cycle.pendingVerdict = none → s.anchor.outcome = .reject →
          t.cycle.state = .decide ∧ t.host.raised.decide = true ∧ AtRest t ∧ t.history = s.history)
      ∧ (s.cycle.pendingVerdict = none → s.anchor.outcome ≠ .reject → InsertEntered s t) := by
  intro t
  obtain ⟨h1, h2, h3, h4⟩ := endRetract_cases s rfl
  obtain ⟨htimer, hne, hnu⟩ := endRetract_leaves s
  refine ⟨?_, event_noticePlaced (hp ▸ hne) hnu, fun hv => ?_, fun hv => ?_, fun hv ho => ?_, fun hv ho => ?_⟩
  · rw [(event_timers s (endRetract s)).2.1, htimer, sync_disarmed]
  · rw [show t = _ from congrArg (event s) (h1 hv)]
    exact event_complete_of rfl rfl rfl rfl rfl
  · rw [show t = _ from congrArg (event s) (h2 hv)]
    exact event_complete_of rfl rfl rfl rfl rfl
  · rw [show t = _ from congrArg (event s) (h3 hv ho)]
    exact event_enterDecide hstroke
  · rw [show t = _ from congrArg (event s) (h4 hv ho)]
    exact (event_enterInsert s _).of_work rfl rfl rfl rfl

/-- Settles O21. -/
theorem retractEndsBelowOneHundred : Obligations.RetractEndsBelowOneHundred := by
  intro s bytes raw hheld hh hg hraw hp hstroke
  have he := exec_goodRecord hheld hh hg hraw
  refine ⟨_, he, ?_⟩
  obtain ⟨q, -, hq⟩ := storeSample_only raw s
  have hsen : (storeSample raw (betweenRecords s)).sensor = q := by rw [hq]
  by_cases hf : raw.clamp.feed < 100
  · have ht : handSample raw.clamp (storeSample raw (betweenRecords s)) =
        event { s with sensor := q } (endRetract { s with sensor := q }) := by
      rw [hq]
      simp [handSample, hp, hf]
    obtain ⟨h1, h2, h3, h4, h5, h6⟩ := event_endRetract (s := { s with sensor := q }) hp hstroke
    have hframe : CycleFrame s (endRetract { s with sensor := q }) :=
      (endRetract_cycleFrame _).of_work ⟨rfl, rfl, rfl⟩ rfl ⟨rfl, rfl⟩ ⟨rfl, rfl⟩ ⟨rfl, rfl, rfl, rfl, rfl⟩ ⟨rfl, rfl⟩
        ⟨rfl, rfl, rfl⟩
    rw [ht]
    refine ⟨recordTaken (by simp [hsen]), event_cycleFrame hframe, fun hn => absurd hf (by omega), fun _ => ⟨h1, h2⟩,
      fun _ hv => (h3 hv).of_work rfl rfl rfl rfl, fun _ hv => (h4 hv).of_work rfl rfl rfl rfl, fun _ hv ho => h5 hv ho,
      fun _ hv ho => ?_⟩
    have hi := h6 hv ho
    exact ⟨hi.state, hi.charge, hi.pushed, hi.retry, hi.gap, hi.flow, hi.history, fun hc ha => (hi.first hc ha).of_work rfl⟩
  · have ht : handSample raw.clamp (storeSample raw (betweenRecords s)) = { s with sensor := q } := by
      rw [hq]
      simp [handSample, hp, hf]
    rw [ht]
    exact ⟨recordTaken hsen.symm, ⟨⟨rfl, rfl, rfl⟩, rfl, rfl, rfl, rfl, rfl, ⟨rfl, rfl, rfl, rfl, rfl⟩,
        ⟨rfl, rfl⟩, rfl, rfl, rfl⟩,
      fun _ => rfl, fun h => absurd h hf, fun h => absurd h hf, fun h => absurd h hf, fun h => absurd h hf,
      fun h => absurd h hf⟩

end Sys2Proof.Machine
end

