-- ==== Sys2Proof/Proofs/PlannedDepth.lean ====
section
/-! PROOFS. O17: the sample that ends drilling at the planned depth (01 R11, 02 R42, 05 R75 to R82). -/

namespace Sys2Proof.Machine

/-! ### Writes into the one OPEN record -/

theorem withEvaluation_isOpen (r : HoleRecord) (c : Configuration) (e : AnchorBlock) :
    (r.withEvaluation c e).isOpen = r.isOpen := rfl

/-- Where one record is OPEN it is the one that a write reaches. -/
theorem eq_of_filter_isOpen {records : List HoleRecord} {r q : HoleRecord}
    (h : records.filter HoleRecord.isOpen = [r]) (hq : q ∈ records) (ho : q.isOpen = true) : q = r := by
  have : q ∈ records.filter HoleRecord.isOpen := List.mem_filter.2 ⟨hq, ho⟩
  rw [h] at this
  simpa using this

theorem find_of_filter_isOpen {records : List HoleRecord} {r : HoleRecord}
    (h : records.filter HoleRecord.isOpen = [r]) : records.find? HoleRecord.isOpen = some r := by
  rw [← List.head?_filter, h]
  rfl

/-- The OPEN record after a write into it. -/
theorem filter_onOpen {records : List HoleRecord} {r : HoleRecord} {f : HoleRecord → HoleRecord}
    (hf : ∀ q, (f q).isOpen = q.isOpen) (h : records.filter HoleRecord.isOpen = [r]) :
    (onOpen f records).filter HoleRecord.isOpen = [f r] := by
  have hmap : (onOpen f records).filter HoleRecord.isOpen = (records.filter HoleRecord.isOpen).map f := by
    rw [onOpen, List.filter_map]
    have hp : (HoleRecord.isOpen ∘ fun q => if q.isOpen = true then f q else q) = HoleRecord.isOpen := by
      funext q
      by_cases ho : q.isOpen = true <;> simp [ho, hf]
    rw [hp]
    refine List.map_congr_left fun q hq => ?_
    rw [if_pos (List.mem_filter.1 hq).2]
  rw [hmap, h]
  rfl

/-! ### The sample at the planned depth -/

/-- The cells that the sample at the planned depth closes: the cell in assembly and the SKIPPED ones above it (02 R42). -/
theorem placeSample_atPlanned {s : State} {x : Sample} {k : Nat} (hc : s.assembler.cell = some k)
    (hd : s.cycle.planned * 200 ≤ x.feed) : placeSample x s =
      (handOn (closedUpTo s k s.cycle.planned) (raiseDepth x s)).onAssembler fun a => { a with cell := none } := by
  have hc' : (raiseDepth x s).assembler.cell = some k := hc
  have hd' : (raiseDepth x s).cycle.planned * 200 ≤ x.feed := hd
  have hcells : closedUpTo (raiseDepth x s) k (raiseDepth x s).cycle.planned = closedUpTo s k s.cycle.planned := rfl
  simp only [placeSample, hc', if_pos hd', hcells]

theorem raiseDepth_maxDepth (x : Sample) (s : State) :
    (raiseDepth x s).assembler.maxDepth = max s.assembler.maxDepth x.feed := rfl

/-- DRILL's test at the planned depth (01 R11). -/
theorem drillTests_atPlanned {s : State} (h : s.cycle.planned * 200 ≤ s.assembler.maxDepth) :
    drillTests s = enterRetractFresh (evaluateAnchor s) := if_pos h

/-- COLLAR's test on a sample at the planned depth: DRILL is passed through on the same sample (01 R10). -/
theorem collarTests_atPlanned {s : State} (hl : s.sensor.live.linkUp = true) (hp : 30 ≤ s.cycle.planned)
    (h : s.cycle.planned * 200 ≤ s.assembler.maxDepth) : collarTests s = enterRetractFresh (evaluateAnchor
      (enterState (.active .drill) (restartStall (s.onCycle fun c => { c with collarTimer := .disarmed })))) := by
  rw [collarTests, if_pos (by omega), enterPhase_of_linkUp (by simpa using hl)]
  exact drillTests_atPlanned h

/-- The OPEN record at the end of a hole that has reached its planned depth: its cells, the evaluation's results, and the
marks (05 R81, R82). -/
def evaluatedRecord (c : Configuration) (cells : List CellRecord) (e : AnchorBlock) (q : HoleRecord) : HoleRecord :=
  { q with
    cells := cells, outcome := e.outcome, voidCount := e.voidCount, softCount := e.softCount
    hardCount := e.hardCount, charge := e.charge, target := e.target
    flags := { q.flags with
      extraCharge := q.flags.extraCharge || (e.outcome == .charge && decide (c.extraVoid ≤ e.voidCount))
      softTarget := q.flags.softTarget || (e.outcome == .charge && decide (30 ≤ e.softCount * 2))
      lostCells := q.flags.lostCells || cells.any fun c => c.cls == .lost } }

/-- The evaluation runs on all the planned cells and is written into the OPEN record (05 R75, R82). -/
theorem evaluateAnchor_closed {u : State} {records : List HoleRecord} {r : HoleRecord} {closed : List CellRecord}
    (hr : records.filter HoleRecord.isOpen = [r]) (hl : r.cells.length + closed.length ≤ r.planned)
    (hu : u.history.records = onOpen (fun q => closed.foldl HoleRecord.append q) records) :
    (evaluateAnchor u).anchor = evaluation u.cfg u.cycle.planned (r.cells ++ closed)
      ∧ (evaluateAnchor u).history.records = onOpen (evaluatedRecord u.cfg (r.cells ++ closed)
          (evaluation u.cfg u.cycle.planned (r.cells ++ closed))) records := by
  have hcells : openCells u = r.cells ++ closed := by
    have hf := find_of_filter_isOpen (filter_onOpen (foldl_append_isOpen closed) hr)
    rw [← hu, foldl_append_cells closed r hl] at hf
    simp only [openCells, State.openRecord, hf]
  refine ⟨by rw [evaluateAnchor_anchor, hcells], ?_⟩
  rw [evaluateAnchor, scanLost_records, writeOpen_records, State.onAnchor_history, hu, hcells,
    onOpen_onOpen (foldl_append_isOpen closed), onOpen_onOpen]
  · refine onOpen_congr fun q hq ho => ?_
    obtain rfl := eq_of_filter_isOpen hr hq ho
    rw [foldl_append_cells closed q hl]
    rfl
  · intro q
    rw [withEvaluation_isOpen, foldl_append_isOpen]

/-- RETRACT entered after the evaluation, on a state `u` in which the sample has closed the last cells. -/
theorem event_plannedDepth {old s u : State} {r : HoleRecord} {closed : List CellRecord}
    (hl : u.sensor.live.linkUp = true) (hframe : CycleFrame s u) (hcell : u.assembler.cell = none)
    (hv : u.cycle.pendingVerdict = s.cycle.pendingVerdict) (hold : old.cycle.state ≠ .active .retract)
    (hr : s.history.records.filter HoleRecord.isOpen = [r]) (hlen : r.cells.length + closed.length ≤ r.planned)
    (hu : u.history.records = onOpen (fun q => closed.foldl HoleRecord.append q) s.history.records) :
    let t := event old (enterRetractFresh (evaluateAnchor u))
    let e := evaluation s.cfg s.cycle.planned (r.cells ++ closed)
    CycleFrame s t ∧ t.cycle.state = .active .retract ∧ t.cycle.pendingVerdict = s.cycle.pendingVerdict
      ∧ t.cycle.retractTimer = (if t.cycle.held then .paused 20000 else .running (after s.now 20000))
      ∧ t.cycle.collarTimer = .disarmed ∧ t.assembler.cell = none ∧ t.assembler.stallWindow = .disarmed ∧ t.anchor = e
      ∧ t.history.records = onOpen (evaluatedRecord s.cfg (r.cells ++ closed) e) s.history.records
      ∧ FlowFollows t ∧ NoticePlaced t := by
  intro t e
  have hl' : (evaluateAnchor u).sensor.live.linkUp = true := by simpa using hl
  have hret : RetractEntered (evaluateAnchor u) t := event_enterRetractFresh old hl'
  obtain ⟨h1, h2, h3, h4, h5, h6, h7, h8, h9⟩ := hframe
  obtain ⟨-, -, -, hplanned, hnow⟩ := id h7
  have hcfg : u.cfg = s.cfg := by simp only [State.cfg, h3]
  obtain ⟨hanchor, hrec⟩ := evaluateAnchor_closed hr hlen hu
  rw [hcfg, hplanned] at hanchor hrec
  refine ⟨event_cycleFrame ⟨by simpa using h1, by simpa using h2, by simpa using h3, by simpa using h4, by simpa using h5,
    by simpa using h6, by simpa using h7, by simpa using h8, by simpa using h9⟩, hret.state, ?_, ?_, hret.collarTimer, ?_,
    hret.stallWindow, ?_, ?_, hret.flow, ?_⟩
  · simpa [t] using hv
  · simpa [State.now, hnow] using hret.retractTimer
  · simpa [t] using hcell
  · simpa [t] using hanchor
  · rw [hret.history, hrec]
  · have hst := hret.state
    rw [event_cycle_state] at hst
    exact event_noticePlaced (by rw [hst]; exact hold.symm) (by rw [hst]; simp)

/-- The event of the sample at the planned depth, from COLLAR and from DRILL: the evaluation runs on a state with the sample
placed. -/
theorem handSample_atPlanned {s : State} {x : Sample} {k : Nat}
    (hs : s.cycle.state = .active .collar ∨ s.cycle.state = .active .drill)
    (hlink : s.sensor.live.linkUp = true) (hc : s.assembler.cell = some k) (hp : 30 ≤ s.cycle.planned)
    (hd : s.cycle.planned * 200 ≤ x.feed) :
    ∃ u, handSample x s = event s (enterRetractFresh (evaluateAnchor u)) ∧ u.sensor.live.linkUp = true ∧ CycleFrame s u
      ∧ u.assembler.cell = none ∧ u.cycle.pendingVerdict = s.cycle.pendingVerdict
      ∧ u.history.records =
          onOpen (fun q => (closedUpTo s k s.cycle.planned).foldl HoleRecord.append q) s.history.records := by
  have hplace := placeSample_atPlanned hc hd
  have hcell : (placeSample x s).assembler.cell = none := by rw [hplace]; rfl
  have hrec : (placeSample x s).history.records =
      onOpen (fun q => (closedUpTo s k s.cycle.planned).foldl HoleRecord.append q) s.history.records := by
    rw [hplace, State.onAssembler_history, handOn_records]
    rfl
  have hdepth : (placeSample x s).cycle.planned * 200 ≤ (placeSample x s).assembler.maxDepth := by
    rw [placeSample_cycle, hplace]
    simp only [State.onAssembler_assembler, handOn_assembler_maxDepth, raiseDepth_maxDepth]
    omega
  rcases hs with hs | hs
  · refine ⟨enterState (.active .drill) (restartStall ((placeSample x s).onCycle fun c => { c with collarTimer := .disarmed })),
      ?_, ?_, ?_, ?_, ?_, ?_⟩
    · simp only [handSample, hs]
      rw [collarTests_atPlanned (by simpa using hlink) (by simpa using hp) hdepth]
    · simpa using hlink
    · exact ⟨by simp, by simp, by simp, by simp, by simp, by simp, by simp, by simp, by simp⟩
    · simpa using hcell
    · simp
    · simpa using hrec
  · refine ⟨placeSample x s, ?_, by simpa using hlink, ?_, hcell, by simp, hrec⟩
    · simp only [handSample, hs]
      rw [drillTests_atPlanned hdepth]
    · exact ⟨by simp, by simp, by simp, by simp, by simp, by simp, by simp, by simp, by simp⟩

/-- Settles O17. -/
theorem plannedDepthEndsDrilling : Obligations.PlannedDepthEndsDrilling := by
  intro s bytes raw k r hheld hh hg hraw hs hc hk hp hd hr hrk hrp
  obtain ⟨q, hlink, hq⟩ := storeSample_only raw s
  have hexec := exec_goodRecord hheld hh hg hraw
  rw [hq] at hexec
  obtain ⟨u, he, hul, hframe, hcell, hv, hu⟩ := handSample_atPlanned (s := { s with sensor := q }) (x := raw.clamp) hs hlink hc
    hp hd
  have hframe' : CycleFrame s u :=
    hframe.of_work ⟨rfl, rfl, rfl⟩ rfl ⟨rfl, rfl⟩ ⟨rfl, rfl⟩ ⟨rfl, rfl, rfl, rfl, rfl⟩ ⟨rfl, rfl⟩ ⟨rfl, rfl, rfl⟩
  have hlen : r.cells.length + (closedUpTo s k s.cycle.planned).length = s.cycle.planned := by
    simp [closedUpTo]
    omega
  have hold : ({ s with sensor := q } : State).cycle.state ≠ .active .retract := by
    rcases hs with hs | hs <;> simp [hs]
  obtain ⟨h1, h2, h3, h4, h5, h6, h7, h8, h9, h10, h11⟩ :=
    event_plannedDepth (closed := closedUpTo s k s.cycle.planned) hul hframe' hcell hv hold hr (by omega) hu
  rw [he] at hexec
  exact ⟨_, r.cells ++ closedUpTo s k s.cycle.planned, _, hexec, h1, rfl, by simpa using hlen, rfl, h2, h3, h4, h5, h6, h7, h8,
    h9, h10, h11⟩

end Sys2Proof.Machine
end

