-- ==== Sys2Proof/Proofs/StartHole.lean ====
section
/-! PROOFS. O36: an accepted START_HOLE (01 R9, 10 R165, R166). -/

namespace Sys2Proof.Machine

/-! ### The evictions of a reservation (10 R165, R166) -/

/-- The cells that records reserve together (R162). -/
def reservedSum (records : List HoleRecord) : Nat := (records.map HoleRecord.reserved).sum

@[simp] theorem reservedSum_nil : reservedSum [] = 0 := rfl

@[simp] theorem reservedSum_cons (r : HoleRecord) (records : List HoleRecord) :
    reservedSum (r :: records) = r.reserved + reservedSum records := rfl

/-- The oldest records `gone` are evicted, each with reason, and the rest is `kept`. -/
structure Evicted (planned : Nat) (records : List HoleRecord) (free : Nat) (kept : List HoleRecord) (free' : Nat)
    (gone : List HoleRecord) : Prop where
  split : records = gone ++ kept
  free_eq : free' = free + reservedSum gone
  reason : ∀ i, i < gone.length → free + reservedSum (gone.take i) < planned ∨ 16 ≤ records.length - i
  stop : kept = [] ∨ (planned ≤ free' ∧ kept.length < 16)

theorem evictFor_evicted (planned : Nat) (records : List HoleRecord) : ∀ free : Nat,
    Evicted planned records free (evictFor planned records free).1 (evictFor planned records free).2.1
      (evictFor planned records free).2.2 := by
  induction records with
  | nil => exact fun free => ⟨rfl, rfl, by simp [evictFor], .inl rfl⟩
  | cons r rest ih =>
    intro free
    by_cases hc : free < planned ∨ 16 ≤ rest.length + 1
    · obtain ⟨hsplit, hfree, hreason, hstop⟩ := ih (free + r.reserved)
      rw [evictFor, if_pos hc]
      refine ⟨congrArg (r :: ·) hsplit, by simp only [hfree, reservedSum_cons]; omega, fun i hi => ?_, hstop⟩
      cases i with
      | zero => simpa using hc
      | succ i =>
        have := hreason i (by simpa using hi)
        simp only [List.take_succ_cons, reservedSum_cons, List.length_cons]
        omega
    · rw [evictFor, if_neg hc]
      refine ⟨rfl, rfl, by simp, .inr ?_⟩
      simp only [List.length_cons]
      omega

/-- The evictions end with room in the ring and in a pool of 1,024 cells. -/
theorem Evicted.room {planned free free' : Nat} {records kept gone : List HoleRecord}
    (h : Evicted planned records free kept free' gone) (hpool : free + reservedSum records = 1024) (hp : planned ≤ 128) :
    planned ≤ free' ∧ kept.length < 16 := by
  rcases h.stop with rfl | hstop
  · have hs := h.split
    have hf := h.free_eq
    rw [List.append_nil] at hs
    subst hs
    exact ⟨by omega, by simp⟩
  · exact hstop

theorem evict_of_mem {sel : Selection} {gone : List HoleRecord} {n : HoleNo} (hs : sel = .hole n)
    (h : ∃ r ∈ gone, r.number = n) : sel.evict gone = .gone n := by
  subst hs
  simpa [Selection.evict] using h

theorem evict_of_not_mem {sel : Selection} {gone : List HoleRecord}
    (h : ∀ n, sel = .hole n → ∀ r ∈ gone, r.number ≠ n) : sel.evict gone = sel := by
  cases sel with
  | hole n => simpa [Selection.evict] using h n rfl
  | _ => rfl

/-! ### The hole that begins -/

/-- The state at a hole's start but for COLLAR's entry (01 R9). -/
def preparedHole (row slot planned : Nat) (s : State) : State :=
  rebuildPrediction (freshHole row slot planned (reserveRecord (nextHole s) row slot planned s))

/-- What a reservation leaves of the ring, the pool, the selection and HISTORY (R165, R166). -/
structure Reserved (s : State) (n : HoleNo) (row slot planned : Nat) (gone kept : List HoleRecord) (h : HistoryBlock)
    (raised : Bool) : Prop where
  split : s.history.records = gone ++ kept
  ring : kept.length < 16
  records : h.records = kept ++ [newRecord n row slot planned]
  free : h.free + planned = s.history.free + reservedSum gone
  reason : ∀ i, i < gone.length → s.history.free + reservedSum (gone.take i) < planned ∨ 16 ≤ s.history.records.length - i
  raised : gone ≠ [] → raised = true
  selectionGone : ∀ m, s.history.selection = .hole m → (∃ r ∈ gone, r.number = m) → h.selection = .gone m
  selectionKept : (∀ m, s.history.selection = .hole m → ∀ r ∈ gone, r.number ≠ m) → h.selection = s.history.selection
  pointer : h.pointer = s.history.pointer

theorem reserveRecord_reserved {s : State} (hs : HistorySound s) (n : HoleNo) (row slot : Nat) {planned : Nat}
    (hp : planned ≤ 128) : ∃ gone kept, Reserved s n row slot planned gone kept
      (reserveRecord n row slot planned s).history (reserveRecord n row slot planned s).host.raised.history := by
  have hev := evictFor_evicted planned s.history.records s.history.free
  obtain ⟨hroom, hkept⟩ := hev.room hs.pool hp
  refine ⟨(evictFor planned s.history.records s.history.free).2.2, (evictFor planned s.history.records s.history.free).1,
    { split := hev.split
      ring := hkept
      records := rfl
      free := ?_
      reason := hev.reason
      raised := fun hg => by simp [reserveRecord, hg, Raised.set]
      selectionGone := fun m hsel hm => evict_of_mem hsel hm
      selectionKept := evict_of_not_mem
      pointer := rfl }⟩
  rw [← hev.free_eq]
  exact Nat.sub_add_cancel hroom

theorem startHole_accepted {s : State} {row slot planned : Nat} (hst : s.cycle.state = .idle)
    (hargs : holeArgsOk row slot planned = true) (hc : s.canopySet = true) (hm : s.muted = false) :
    startHole row slot planned s = accept s (enterPhase .collar (preparedHole row slot planned s)) (u16 (nextHole s).toNat) := by
  simp [startHole, hst, hargs, hc, hm, startedHole, preparedHole, numberBytes]

@[ext] theorem ResinBlock.ext {a b : ResinBlock} (charge : a.charge = b.charge) (pushed : a.pushed = b.pushed)
    (stroke : a.stroke = b.stroke) (strokeTimer : a.strokeTimer = b.strokeTimer) (retry : a.retry = b.retry)
    (gap : a.gap = b.gap) (band : a.band = b.band) (quarterRevs : a.quarterRevs = b.quarterRevs)
    (mixDeadline : a.mixDeadline = b.mixDeadline) (holdDeadline : a.holdDeadline = b.holdDeadline)
    (holdPassed : a.holdPassed = b.holdPassed) : a = b := by
  cases a
  cases b
  simp_all

@[ext] theorem TorqueBlock.ext {a b : TorqueBlock} (target : a.target = b.target) (ceiling : a.ceiling = b.ceiling)
    (near : a.near = b.near) (entered : a.entered = b.entered) (timer : a.timer = b.timer) (spinner : a.spinner = b.spinner)
    (peak : a.peak = b.peak) (overshoot : a.overshoot = b.overshoot) (torqueNear : a.torqueNear = b.torqueNear) : a = b := by
  cases a
  cases b
  simp_all

/-- Outside INSERT an event leaves the resin items, where no stroke has a timer. -/
theorem settle_resin_of_disarmed {w : State} (h : w.cycle.state ≠ .active .insert) (ht : w.resin.strokeTimer = .disarmed) :
    (settle w).resin = w.resin := by
  ext1
  case stroke => exact settle_stroke h
  case strokeTimer => rw [ht, settle_strokeTimer_disarmed h ht]
  all_goals simp

/-- An event leaves the torque items, where the torque timer is disarmed. -/
theorem settle_torque_of_disarmed {w : State} (ht : w.torque.timer = .disarmed) : (settle w).torque = w.torque := by
  ext1
  case timer => rw [ht, settle_timers_disarmed.2.2.2 ht]
  all_goals simp

theorem onOpen_of_unchanged {f : HoleRecord → HoleRecord} (h : ∀ r, f r = r) (records : List HoleRecord) :
    onOpen f records = records := by simp [onOpen, h]

/-- COLLAR's entry sets the cycle state and its suspension, and nothing of the blocks but TORQUE_NEAR. -/
theorem enterCollar_resin (w : State) : (enterPhase .collar w).resin = w.resin := by
  rcases enterPhase_cases .collar w with ⟨h, -⟩ | ⟨-, h⟩ <;> rw [h]
  · rfl
  · rw [suspend_resin rfl]
    simp [ResinBlock.withdraw, enterState]

theorem enterCollar_torque {w : State} (hn : w.torque.torqueNear = false) : (enterPhase .collar w).torque = w.torque := by
  rcases enterPhase_cases .collar w with ⟨h, -⟩ | ⟨-, h⟩ <;> rw [h]
  · rfl
  · ext1
    case torqueNear => rw [suspend_torqueNear rfl, hn]
    all_goals simp

theorem enterCollar_records (w : State) : (enterPhase .collar w).history.records = w.history.records := by
  rcases enterPhase_cases .collar w with ⟨h, -⟩ | ⟨-, h⟩ <;> rw [h]
  · rfl
  · rw [suspend_records rfl]
    refine onOpen_of_unchanged (fun r => ?_) _
    rw [show (Phase.collar == Phase.mix) = false from rfl, Bool.or_false]

/-- What COLLAR's entry leaves with the link down (01 R19). -/
theorem enterCollar_of_linkDown {w : State} (h : w.sensor.live.linkUp = false) :
    (enterPhase .collar w).cycle =
      { w.cycle with state := .suspended, remembered := some .collar, cause := some .sensor } := by
  rcases enterPhase_cases .collar w with ⟨-, hl⟩ | ⟨-, he⟩
  · simp [h, Phase.needsLink] at hl
  · rw [he, suspend_cycle rfl]
    rfl

/-- The end of COLLAR's entry with the link up, and with the link down (01 R9, R19). -/
theorem event_enterCollar_of_linkUp (old : State) {w : State} {left : Nat} (hl : w.sensor.live.linkUp = true)
    (ht : w.cycle.collarTimer = .paused left) :
    let t := event old (enterPhase .collar w)
    t.cycle.state = .active .collar
      ∧ t.cycle.collarTimer = (if t.cycle.held = true then .paused left else .running (after w.now left)) := by
  intro t
  have hst : t.cycle.state = .active .collar := by simp [t, enterPhase_of_linkUp hl]
  have hc : t.cycle.collarTimer = (Timer.paused left).sync (phaseRuns t .collar) w.now := by
    rw [← ht, (event_timers old _).1]
    simp [t, State.now]
  exact ⟨hst, by rw [hc, sync_phaseRuns hst]⟩

theorem event_enterCollar_of_linkDown (old : State) {w : State} {left : Nat} (hl : w.sensor.live.linkUp = false)
    (ht : w.cycle.collarTimer = .paused left) (hs : w.resin.stroke ≠ .inProgress) :
    let t := event old (enterPhase .collar w)
    t.cycle.state = .suspended ∧ t.cycle.remembered = some .collar ∧ t.cycle.cause = some .sensor
      ∧ t.cycle.collarTimer = .paused left ∧ AtRest t := by
  intro t
  have hc := enterCollar_of_linkDown hl
  have hst : t.cycle.state = .suspended := by simp [t, hc]
  refine ⟨hst, by simp [t, hc], by simp [t, hc], ?_, event_atRest (by simp [hc, CycleState.isActive])
    (by rw [enterCollar_resin]; exact hs)⟩
  have hruns : phaseRuns t .collar = false := by
    rw [phaseRuns, hst]
    rfl
  rw [(event_timers old _).1, enterPhase_cycle_collarTimer, ht, hruns]
  rfl

/-- The items of a hole that has just begun (01 R9, 02 R38, 05 R74, 06 R86, 07 R104). -/
structure FreshItems (n : HoleNo) (row slot planned : Nat) (t : State) : Prop where
  hole : t.cycle.holeNumber = some n ∧ t.cycle.row = row ∧ t.cycle.slot = slot ∧ t.cycle.planned = planned
  verdict : t.cycle.pendingVerdict = none ∧ t.cycle.abortPending = false
  cell : t.assembler.cell = some 0 ∧ t.assembler.n = 0 ∧ t.assembler.rotary = 0 ∧ t.assembler.thrust = 0
    ∧ t.assembler.capped = false ∧ t.assembler.tainted = false
  depth : t.assembler.maxDepth = 0 ∧ t.assembler.voidCell = false ∧ t.assembler.softCell = false ∧ t.assembler.hardCell = false
  anchor : t.anchor = State.reset.anchor
  resin : t.resin = State.reset.resin
  torque : t.torque = State.reset.torque

theorem event_freshItems (old s : State) (row slot planned : Nat) :
    FreshItems (nextHole s) row slot planned (event old (enterPhase .collar (preparedHole row slot planned s))) := by
  have hni : (enterPhase .collar (preparedHole row slot planned s)).cycle.state ≠ .active .insert :=
    enterPhase_state_ne _ _ (by simp) (by simp)
  have htorque : ∀ w, (event old w).torque = (settle w).torque := fun w => by simp [event, finish]
  refine ⟨?_, ?_, ?_, ?_, ?_, ?_, ?_⟩
  · simp [preparedHole, freshHole, nextHole]
  · simp [preparedHole, freshHole]
  · simp [preparedHole, freshHole, AssemblerBlock.openCell]
  · simp [preparedHole, freshHole]
  · simp [preparedHole, freshHole]
  · rw [event_resin, settle_resin_of_disarmed hni (by rw [enterPhase_resin_strokeTimer]; rfl), enterCollar_resin]
    rfl
  · rw [htorque, settle_torque_of_disarmed (by rw [enterPhase_torque_timer]; rfl), enterCollar_torque rfl]
    rfl

/-- The ring and the table at the end of the event. -/
theorem event_preparedHole (old s : State) (row slot planned : Nat) :
    let t := event old (enterPhase .collar (preparedHole row slot planned s))
    t.history.records = (reserveRecord (nextHole s) row slot planned s).history.records
      ∧ t.history.free = (reserveRecord (nextHole s) row slot planned s).history.free
      ∧ t.history.selection = (reserveRecord (nextHole s) row slot planned s).history.selection
      ∧ t.history.pointer = (reserveRecord (nextHole s) row slot planned s).history.pointer
      ∧ t.host.raised.history = (reserveRecord (nextHole s) row slot planned s).host.raised.history
      ∧ t.host.faults = s.host.faults ∧ t.neighbours.entries = s.neighbours.entries
      ∧ t.neighbours.predicted = predictedSet row slot planned s.neighbours.entries := by
  have hh : (preparedHole row slot planned s).history = (reserveRecord (nextHole s) row slot planned s).history := rfl
  refine ⟨?_, ?_, ?_, ?_, ?_, ?_, ?_, ?_⟩
  · rw [event_history, enterCollar_records, hh]
  · rw [event_history, enterPhase_history_free, hh]
  · rw [event_history, enterPhase_history_selection, hh]
  · rw [event_history, enterPhase_history_pointer, hh]
  · rw [event_host_raised_history, enterPhase_host]
    rfl
  · simp [preparedHole, freshHole]
  · simp [preparedHole, freshHole]
  · rw [event_neighbours_predicted, enterPhase_neighbours]
    rfl

/-- Settles O36: the record is reserved in room that the evictions have made (`Evicted.room`), and COLLAR is entered on the
fresh items (`event_freshItems`). -/
theorem startHoleStartsTheHole : Obligations.StartHoleStartsTheHole := by
  intro host row slot planned rise s n hheld hcut hs hst hrow hslot hp30 hp128 hcan hmute hn
  have hargs : holeArgsOk row.toNat slot.toNat planned.toNat = true := by
    rw [holeArgsOk_eq]
    simp
    omega
  generalize hr : row.toNat = rowN at *
  generalize hsl : slot.toNat = slotN at *
  generalize hpl : planned.toNat = plannedN at *
  have hs' : HistorySound (s.noteCanopy rise) := ⟨hs.pool, hs.ring, hs.cells, hs.newest, hs.inProgress⟩
  have hstart := startHole_accepted (s := s.noteCanopy rise) hst hargs hcan hmute
  have hnext : nextHole (s.noteCanopy rise) = n := hn.symm
  have hitems := event_freshItems (s.noteCanopy rise) (s.noteCanopy rise) rowN slotN plannedN
  have hblocks := event_preparedHole (s.noteCanopy rise) (s.noteCanopy rise) rowN slotN plannedN
  obtain ⟨gone, kept, hres⟩ := reserveRecord_reserved hs' n rowN slotN hp128
  have hup := fun hl => event_enterCollar_of_linkUp (s.noteCanopy rise)
    (w := preparedHole rowN slotN plannedN (s.noteCanopy rise)) (left := 20000) hl rfl
  have hdown := fun hl => event_enterCollar_of_linkDown (s.noteCanopy rise)
    (w := preparedHole rowN slotN plannedN (s.noteCanopy rise)) (left := 20000) hl rfl nofun
  have hne : ∀ c, c ≠ .active .collar → c ≠ .suspended →
      (enterPhase .collar (preparedHole rowN slotN plannedN (s.noteCanopy rise))).cycle.state ≠ c :=
    fun c => enterPhase_state_ne _ _
  have hnotice := event_noticePlaced (old := s.noteCanopy rise)
    (by rw [State.noteCanopy_cycle, hst]; exact hne _ (by simp) (by simp)) (hne _ (by simp) (by simp))
  have hflow := event_flowFollows (s.noteCanopy rise) (enterPhase .collar (preparedHole rowN slotN plannedN (s.noteCanopy rise)))
  have hexec := taken_rise_of (f := startHole rowN slotN plannedN) hheld hcut hstart
  rw [hnext] at hitems hblocks hexec
  generalize event (s.noteCanopy rise) (enterPhase .collar (preparedHole rowN slotN plannedN (s.noteCanopy rise))) = u at *
  obtain ⟨hrec, hfree, hsel, hpoint, hraised, hfaults, hentries, hpred⟩ := hblocks
  obtain ⟨hi1, hi2, hi3, hi4⟩ := hitems.hole
  obtain ⟨hv1, hv2⟩ := hitems.verdict
  obtain ⟨hc1, hc2, hc3, hc4, hc5, hc6⟩ := hitems.cell
  obtain ⟨hd1, hd2, hd3, hd4⟩ := hitems.depth
  refine ⟨answered host s .ok (u16 n.toNat) u, gone, kept, ?_, answered_replied, hi1, hi2, hi3, hi4, hv1, hv2, hc1, hc2, hc3, hc4,
    hc5, hc6, hd1, hd2, hd3, hd4, hitems.anchor, hitems.resin, hitems.torque, hres.split, hres.ring, hrec.trans hres.records, ?_,
    hres.reason, fun hg => hraised.trans (hres.raised hg), fun m h1 h2 => hsel.trans (hres.selectionGone m h1 h2),
    fun h => hsel.trans (hres.selectionKept h), hpoint.trans hres.pointer, hentries, hpred, hup, fun hl => ?_, hfaults,
    hflow.answered, hnotice.answered⟩
  · rw [← hexec]
    subst hr hsl hpl
    rfl
  · exact (congrArg (· + plannedN) hfree).trans hres.free
  · obtain ⟨h1, h2, h3, h4, h5⟩ := hdown hl
    exact ⟨h1, h2, h3, h4, h5.answered⟩

end Sys2Proof.Machine
end

