-- ==== Sys2Proof/Proofs/Resume.lean ====
section
/-! PROOFS. RESUME: the phase entered again, and the timers that were kept for it (01 R22, 06 R93, 07 R113). -/

namespace Sys2Proof.Machine

/-! ### The phase entered again -/

theorem enterPhase_of_served {p : Phase} {s : State} (h : p.needsLink = true → s.sensor.live.linkUp = true) :
    enterPhase p s = enterState (.active p) s := by
  by_cases hn : p.needsLink = true
  · exact enterPhase_of_linkUp (h hn)
  · simp [enterPhase, hn]

/-- What every entry by RESUME leaves: the phase active, and the items of the other blocks as they were in `s`. -/
structure Reentered (s : State) (target : Phase) (w : State) : Prop where
  state : w.cycle.state = .active target
  suspension : w.cycle.remembered = none ∧ w.cycle.cause = none
  abortPending : w.cycle.abortPending = s.cycle.abortPending
  now : w.now = s.now
  stroke : w.resin.charge = s.resin.charge ∧ w.resin.pushed = s.resin.pushed ∧ w.resin.stroke = s.resin.stroke
    ∧ w.resin.strokeTimer = s.resin.strokeTimer ∧ w.resin.retry = s.resin.retry ∧ w.resin.gap = s.resin.gap
  free : w.history.free = s.history.free
  entries : w.neighbours.entries = s.neighbours.entries
  host : w.host = s.host
  flow : w.flow = s.flow
  link : w.link = s.link
  pins : w.canopySet = s.canopySet ∧ w.valveReady = s.valveReady

/-- The entry to each phase, where the link serves it. -/
theorem reenter_collar {s : State} (hl : s.sensor.live.linkUp = true) :
    reenter .collar s = enterState (.active .collar) (rebuildPrediction s) := enterPhase_of_linkUp hl

theorem reenter_drill {s : State} (hl : s.sensor.live.linkUp = true) :
    reenter .drill s = enterState (.active .drill) (rebuildPrediction (restartStall s)) := enterPhase_of_linkUp hl

theorem reenter_retract_stuck {s : State} (hc : s.cycle.cause = some .stuck) : reenter .retract s = enterRetractFresh s :=
  if_pos hc

theorem reenter_retract {s : State} (hl : s.sensor.live.linkUp = true) (hc : s.cycle.cause ≠ some .stuck) :
    reenter .retract s = enterState (.active .retract) s := (if_neg hc).trans (enterPhase_of_linkUp hl)

theorem reenter_hold_mix {s : State} (hp : s.cycle.remembered = some .mix) : reenter .hold s =
    enterState (.active .hold) (s.onResin fun r =>
      { r with mixDeadline := none, holdDeadline := some (after s.now (holdTimeMs s.cfg (r.band.getD 0))),
               holdPassed := false }) := (if_pos hp).trans (enterPhase_of_served nofun)

theorem reenter_hold {s : State} (hp : s.cycle.remembered ≠ some .mix) : reenter .hold s =
    enterState (.active .hold) (s.onResin fun r => { r with holdPassed := false }) :=
  (if_neg hp).trans (enterPhase_of_served nofun)

theorem reenter_torque {s : State} (hl : s.sensor.live.linkUp = true) (he : s.torque.entered = true) :
    reenter .torque s = enterState (.active .torque) ((s.onResin fun r => { r with holdPassed := false }).onTorque fun t =>
      { t with torqueNear := false }) := (if_pos he).trans (enterPhase_of_linkUp hl)

theorem reenter_torque_first {s : State} (hl : s.sensor.live.linkUp = true) (he : s.torque.entered = false) :
    reenter .torque s = enterState (.active .torque) (writeOpen (fun r => { r with peak := some 0 })
      ((s.onResin fun r => { r with holdPassed := false }).onTorque fun _ =>
        { target := s.anchor.target, ceiling := s.anchor.target.map ceilingOf, near := s.anchor.target.map nearOf,
          entered := true, timer := .paused 15000, spinner := 0, peak := 0, overshoot := false, torqueNear := false })) :=
  (if_neg (by simp [he])).trans (enterPhase_of_linkUp hl)

theorem reenter_insert (s : State) : reenter .insert s = enterState (.active .insert) s := enterPhase_of_served nofun

theorem reenter_reentered {s : State} {target : Phase} (hm : target ≠ .mix)
    (hl : target.needsLink = true → s.sensor.live.linkUp = true) : Reentered s target (reenter target s) := by
  cases target with
  | collar =>
    rw [reenter_collar (hl rfl)]
    constructor <;> simp [enterState, State.now]
  | drill =>
    rw [reenter_drill (hl rfl)]
    constructor <;> simp [enterState, State.now]
  | retract =>
    by_cases hc : s.cycle.cause = some .stuck
    · rw [reenter_retract_stuck hc, enterRetractFresh_of_linkUp (hl rfl)]
      constructor <;> simp [enterState, State.now]
    · rw [reenter_retract (hl rfl) hc]
      constructor <;> simp [enterState, State.now]
  | insert =>
    rw [reenter_insert]
    constructor <;> simp [enterState, State.now]
  | mix => exact absurd rfl hm
  | hold =>
    by_cases hp : s.cycle.remembered = some .mix
    · rw [reenter_hold_mix hp]
      constructor <;> simp [enterState, State.now]
    · rw [reenter_hold hp]
      constructor <;> simp [enterState, State.now]
  | torque =>
    cases he : s.torque.entered
    · rw [reenter_torque_first (hl rfl) he]
      constructor <;> simp [enterState, State.now]
    · rw [reenter_torque (hl rfl) he]
      constructor <;> simp [enterState, State.now]

/-! ### Timers kept while SUSPENDED -/

/-- A kept timer with time left is not due in the event in which it runs again. -/
theorem not_due_sync {t : Timer} (hf : t.follows false = true) (h0 : t ≠ .paused 0) (runs : Bool) (now : Time) :
    (t.sync runs now).due now = false := by
  cases t with
  | disarmed => rw [sync_disarmed]; rfl
  | running d => simp [Timer.follows] at hf
  | paused left =>
    simp only [Timer.follows, Bool.and_eq_true, decide_eq_true_eq] at hf
    have hleft : 0 < left := Nat.pos_of_ne_zero fun h => h0 (h ▸ rfl)
    rw [sync_paused]
    split
    · have := not_expired_after (now := now) hleft hf.2
      rwa [after_zero] at this
    · rfl

/-- A timer that does not run is as a pause leaves it. -/
theorem pause_of_kept {t : Timer} (hf : t.follows false = true) (now : Time) : t.pause now = t := by
  cases t with
  | running d => simp [Timer.follows] at hf
  | _ => rfl

theorem zeroRemainder_of_not_due {m : State} (ht : m.cycle.state = .active .torque → m.torque.timer.due m.now = false)
    (hs : m.resin.stroke = .inProgress → m.resin.strokeTimer.due m.now = false) : zeroRemainder m = m := by
  have h1 : ¬(m.cycle.state = .active .torque ∧ m.torque.timer.due m.now = true) := fun h => by simp [ht h.1] at h
  have h2 : ¬(m.resin.stroke = .inProgress ∧ m.resin.strokeTimer.due m.now = true) := fun h => by simp [hs h.1] at h
  rw [zeroRemainder, if_neg h1, if_neg h2]

theorem settle_now (w : State) : (settle w).now = w.now := by simp [State.now]

/-- RESUME's event with no zero remainder: neither the torque timer nor the resumed stroke is due at once. -/
theorem zeroRemainder_settle {s w : State} {target : Phase} (h : Reentered s target w) (hsus : s.resin.stroke ≠ .inProgress)
    (htorque : target = .torque → w.torque.timer.follows false = true ∧ w.torque.timer ≠ .paused 0)
    (hkept : s.resin.strokeTimer.follows false = true) (hstroke : target = .insert → s.resin.strokeTimer ≠ .paused 0) :
    zeroRemainder (settle w) = settle w := by
  obtain ⟨-, -, hst, htimer, -, -⟩ := h.stroke
  refine zeroRemainder_of_not_due (fun hp => ?_) fun hp => ?_
  · rw [settle_cycle_state, h.state, CycleState.active.injEq] at hp
    obtain ⟨hf, h0⟩ := htorque hp
    rw [settle_now, (settle_timers w).2.2.2]
    exact not_due_sync hf h0 _ _
  · rcases stroke_cases w with ⟨hi, hr⟩ | hn
    · have hins : target = .insert := by
        simp only [phaseRuns, settle_cycle_state, h.state, Bool.and_eq_true, beq_iff_eq, CycleState.active.injEq] at hi
        exact hi.1
      rw [settle_now, (settle_starts hi hr).2, htimer]
      split
      · have := not_expired_after (now := w.now) (k := 0) (ms := 3000) (by omega) (by omega)
        rwa [after_zero] at this
      · rw [pause_of_kept hkept]
        exact not_due_sync hkept (hstroke hins) true _
    · exact absurd ((settle_starts_not hn).1.symm.trans hp) (hst ▸ hsus)

/-! ### RESUME refused and accepted -/

theorem resume_badState {s : State} (h : s.cycle.state ≠ .suspended) : resume s = setReply .badState [] s := if_pos h

theorem resume_causePresent {s : State} {target : Phase} (h : s.cycle.state = .suspended)
    (ht : resumeTarget s = some target) (hc : causePresent target s = true) : resume s = setReply .causePresent [] s := by
  simp [resume, h, ht, hc]

/-- RESUME's one event: the entry, and what its zero remainders lead to. -/
theorem resume_accepted {s : State} {target : Phase} (h : s.cycle.state = .suspended) (ht : resumeTarget s = some target)
    (hc : causePresent target s = false) :
    resume s = setReply .ok [] (finish s (zeroRemainder (settle (reenter target s)))) := by
  simp [resume, h, ht, hc]

theorem causePresent_iff {target : Phase} {s : State} (hm : target ≠ .mix) : causePresent target s = true ↔
    s.canopySet = false
      ∨ ((target = .collar ∨ target = .drill ∨ target = .retract ∨ target = .torque) ∧ s.sensor.live.linkUp = false)
      ∨ ((target = .collar ∨ target = .drill ∨ target = .retract ∨ target = .insert) ∧ s.muted = true) := by
  cases target <;> simp [causePresent, Phase.needsLink, Phase.flowClass, or_assoc] at hm ⊢

/-! ### What the event leaves, phase by phase -/

/-- A stroke that was interrupted or not yet begun, at INSERT's entry (06 R88, R93). -/
theorem event_reenterInsert {s : State} (hi : s.resin.stroke ≠ .inProgress) (ha : s.cycle.abortPending = false)
    (hkept : s.resin.strokeTimer.follows false = true) :
    let t := event s (reenter .insert s)
    (t.cycle.held = false → s.resin.gap = none → s.resin.pushed < s.resin.charge.getD 0 →
        t.strokeOut = true ∧ (s.resin.stroke = .idle → t.resin.strokeTimer = .running (after s.now 3000))
          ∧ (∀ left, s.resin.stroke = .interrupted → s.resin.strokeTimer = .paused left →
              t.resin.strokeTimer = .running (after s.now left)))
      ∧ (t.cycle.held = true ∨ s.resin.gap.isSome = true →
        t.resin.stroke = s.resin.stroke ∧ t.resin.strokeTimer = s.resin.strokeTimer) := by
  intro t
  have hw : reenter .insert s = enterState (.active .insert) s := reenter_insert s
  have hruns : phaseRuns (settle (reenter .insert s)) .insert = !t.cycle.held := by
    rw [← event_phaseRuns s, phaseRuns_of_state (by simp [hw])]
  have hr : t.resin = (settle (reenter .insert s)).resin := event_resin s _
  refine ⟨fun hh hg hp => ?_, fun h => ?_⟩
  · have hready : strokeReady (reenter .insert s) = true := by
      rw [hw]
      exact (strokeReady_iff _).2 ⟨hi, hp, ha, hg⟩
    obtain ⟨h1, h2⟩ := settle_starts (by rw [hruns, hh]; rfl) hready
    simp only [hw, enterState_resin, enterState_now] at h2
    refine ⟨by simp [State.strokeOut, hr, h1], fun hidle => ?_, fun left hint hleft => ?_⟩
    · rw [hr, hw, h2, if_pos hidle]
    · rw [hr, hw, h2, if_neg (by simp [hint]), hleft]
      rfl
  · have hn : phaseRuns (settle (reenter .insert s)) .insert = false ∨ strokeReady (reenter .insert s) = false := by
      rcases h with hh | hg
      · exact .inl (by rw [hruns, hh]; rfl)
      · refine .inr (Bool.not_eq_true _ ▸ fun hr => ?_)
        have := ((strokeReady_iff _).1 hr).2.2.2
        rw [hw, enterState_resin] at this
        simp [this] at hg
    obtain ⟨h1, h2⟩ := settle_starts_not hn
    have hne : (s.resin.stroke == .inProgress) = false := by simpa using hi
    rw [hr, h1, h2, hw, enterState_resin, hne, Bool.and_false]
    exact ⟨rfl, pause_of_kept hkept _⟩

/-- The timer of the phase entered goes on with what is left of it, unless the phase is HELD (01 R4). -/
theorem event_retractTimer (old : State) {w : State} {left : Nat} (hst : w.cycle.state = .active .retract)
    (ht : w.cycle.retractTimer = .paused left) : (event old w).cycle.retractTimer =
      if (event old w).cycle.held = true then .paused left else .running (after w.now left) := by
  rw [(event_timers old w).2.1, ht, sync_phaseRuns (by simpa using hst)]

theorem event_collarTimer (old : State) {w : State} {left : Nat} (hst : w.cycle.state = .active .collar)
    (ht : w.cycle.collarTimer = .paused left) : (event old w).cycle.collarTimer =
      if (event old w).cycle.held = true then .paused left else .running (after w.now left) := by
  rw [(event_timers old w).1, ht, sync_phaseRuns (by simpa using hst)]

theorem event_stallWindow (old : State) {w : State} {left : Nat} (hst : w.cycle.state = .active .drill)
    (ht : w.assembler.stallWindow = .paused left) : (event old w).assembler.stallWindow =
      if (event old w).cycle.held = true then .paused left else .running (after w.now left) := by
  rw [(event_timers old w).2.2.1, ht, sync_phaseRuns (by simpa using hst)]

theorem event_torqueTimer (old : State) {w : State} {left : Nat} (hst : w.cycle.state = .active .torque)
    (ht : w.torque.timer = .paused left) : (event old w).torque.timer =
      if (event old w).cycle.held = true then .paused left else .running (after w.now left) := by
  rw [(event_timers old w).2.2.2, ht, sync_phaseRuns (by simpa using hst)]

theorem event_reenterDrilling {s : State} {target : Phase} (ht : target = .collar ∨ target = .drill)
    (hl : s.sensor.live.linkUp = true) : (event s (reenter target s)).neighbours.predicted =
      predictedSet s.cycle.row s.cycle.slot s.cycle.planned s.neighbours.entries := by
  rcases ht with rfl | rfl
  · rw [event_neighbours_predicted, reenter_collar hl]
    rfl
  · rw [event_neighbours_predicted, reenter_drill hl]
    rfl

theorem event_reenterDrill {s : State} (hl : s.sensor.live.linkUp = true) :
    let t := event s (reenter .drill s)
    t.assembler.cell = s.assembler.cell ∧ t.assembler.n = s.assembler.n ∧ t.assembler.stallRef = s.assembler.maxDepth
      ∧ t.assembler.stallWindow = (if t.cycle.held = true then .paused 2000 else .running (after s.now 2000)) := by
  have hw := reenter_drill hl
  refine ⟨by simp [hw], by simp [hw], by simp [hw, restartStall], ?_⟩
  have := event_stallWindow s (w := reenter .drill s) (left := 2000) (by rw [hw]; rfl) (by rw [hw]; rfl)
  rwa [(reenter_reentered (s := s) (target := .drill) nofun fun _ => hl).now] at this

theorem event_reenterRetract {s : State} (hl : s.sensor.live.linkUp = true) :
    let t := event s (reenter .retract s)
    (s.cycle.cause = some .stuck →
        t.cycle.retractTimer = (if t.cycle.held = true then .paused 20000 else .running (after s.now 20000)))
      ∧ (∀ left, s.cycle.cause ≠ some .stuck → s.cycle.retractTimer = .paused left →
        t.cycle.retractTimer = (if t.cycle.held = true then .paused left else .running (after s.now left))) := by
  refine ⟨fun hc => ?_, fun left hc hleft => ?_⟩
  · rw [reenter_retract_stuck hc]
    exact (event_enterRetractFresh s hl).retractTimer
  · rw [reenter_retract hl hc]
    exact event_retractTimer s rfl hleft

theorem event_reenterHold {s : State} :
    let t := event s (reenter .hold s)
    (s.cycle.remembered = some .mix → t.resin.mixDeadline = none ∧ t.resin.holdPassed = false
        ∧ t.resin.holdDeadline = some (after s.now (holdTimeMs s.cfg (s.resin.band.getD 0))))
      ∧ (s.cycle.remembered = some .hold → t.resin.holdDeadline = s.resin.holdDeadline) := by
  refine ⟨fun hp => ?_, fun hp => ?_⟩
  · rw [reenter_hold_mix hp]
    simp
  · rw [reenter_hold (by simp [hp])]
    simp

/-- TORQUE by the entered mark (07 R113). -/
theorem event_reenterTorque {s : State} (hl : s.sensor.live.linkUp = true) :
    let t := event s (reenter .torque s)
    (t.resin.holdPassed = false ∧ t.torque.torqueNear = false ∧ t.torque.entered = true)
      ∧ (s.torque.entered = true → t.torque.spinner = s.torque.spinner
        ∧ t.torque.peak = s.torque.peak ∧ t.torque.target = s.torque.target
        ∧ t.torque.ceiling = s.torque.ceiling ∧ t.torque.near = s.torque.near
        ∧ t.torque.overshoot = s.torque.overshoot
        ∧ ∀ left, s.torque.timer = .paused left →
            t.torque.timer = (if t.cycle.held = true then .paused left else .running (after s.now left)))
      ∧ (s.torque.entered = false → t.torque.spinner = 0 ∧ t.torque.peak = 0
        ∧ t.torque.target = s.anchor.target ∧ t.torque.ceiling = s.anchor.target.map ceilingOf
        ∧ t.torque.near = s.anchor.target.map nearOf ∧ t.torque.overshoot = false
        ∧ t.torque.timer = (if t.cycle.held = true then .paused 15000 else .running (after s.now 15000))
        ∧ t.history.records = onOpen (fun r => { r with peak := some 0 }) s.history.records) := by
  have hnow := (reenter_reentered (s := s) (target := .torque) nofun fun _ => hl).now
  cases he : s.torque.entered
  · have hw := reenter_torque_first hl he
    refine ⟨by simp [hw], nofun, fun _ => ⟨by simp [hw], by simp [hw], by simp [hw], by simp [hw], by simp [hw], by simp [hw], ?_,
      by simp [hw, writeOpen_records]⟩⟩
    have := event_torqueTimer s (w := reenter .torque s) (left := 15000) (by rw [hw]; rfl) (by rw [hw]; rfl)
    rwa [hnow] at this
  · have hw := reenter_torque hl he
    refine ⟨by simp [hw, he], fun _ => ⟨by simp [hw], by simp [hw], by simp [hw], by simp [hw], by simp [hw], by simp [hw],
      fun left hleft => ?_⟩, nofun⟩
    have := event_torqueTimer s (w := reenter .torque s) (left := left) (by rw [hw]; rfl) (by rw [hw]; exact hleft)
    rwa [hnow] at this

end Sys2Proof.Machine
end

