-- ==== Sys2Proof/Proofs/ZeroRemainder.lean ====
section
/-! PROOFS. RESUME with a remainder of 0 (06 R93, 07 R113), and O39. -/

namespace Sys2Proof.Machine

/-! ### The interlock at an entry -/

theorem actInterlock_of_off {x : State} (h : x.flow.interlock = .off) : (actInterlock x).flow.interlock =
    if mayFlow x = true then (if x.valveReady = true then .flowing else .waitReady) else .off := by
  simp only [actInterlock, State.onFlow, h]
  split
  · rfl
  · exact h

theorem actInterlock_of_releasing {x : State} (h : x.flow.interlock = .releasing) :
    (actInterlock x).flow.interlock = .releasing := by
  simp only [actInterlock, State.onFlow, h]

/-- The condition of FLOW_REQ in a phase entered: the allowance reaches the minimum (08 R116, R131). -/
theorem mayFlow_of_entry {w : State} {p : Phase} (hst : w.cycle.state = .active p) (hc : w.canopySet = true) :
    mayFlow (recomputeAllowance (setNearVoid w)) =
      decide (w.cfg.minimums.get p ≤ allowanceOf w.cfg.capacity p.flowClass (w.cfg.demands.get p) w.flow.peers) := by
  have hs : (recomputeAllowance (setNearVoid w)).cycle.state = .active p := by simpa using hst
  have hcan : (recomputeAllowance (setNearVoid w)).canopySet = true := by simpa using hc
  have hmin : ownMinimum (recomputeAllowance (setNearVoid w)) = w.cfg.minimums.get p := by
    rw [ownMinimum, hs]
    rfl
  have hall : (recomputeAllowance (setNearVoid w)).flow.allowance
      = allowanceOf w.cfg.capacity p.flowClass (w.cfg.demands.get p) w.flow.peers := by
    have h1 : (recomputeAllowance (setNearVoid w)).flow.allowance = allowanceNow w := rfl
    rw [h1, allowanceNow, ownClass, ownDemand, hst]
    rfl
  rw [mayFlow, hs, hmin, hall, hcan, Bool.and_true]
  rfl

/-- An active phase entered with FLOW_REQ low runs at once where the interlock is OFF, VALVE_READY is high and the allowance
reaches the minimum, and is HELD else (08 R125, R131). -/
theorem settle_held_of_entry {w : State} {p : Phase} (hst : w.cycle.state = .active p) (hr : w.flowReq = false)
    (hc : w.canopySet = true) : (settle w).cycle.held = !flowsAtOnce w p := by
  have hm := mayFlow_of_entry hst hc
  rw [settle_held, heldNow, settle_cycle_state, hst, settle_interlock, flowsAtOnce, ← hm]
  cases hi : w.flow.interlock with
  | off =>
    have hx : (recomputeAllowance (setNearVoid w)).flow.interlock = .off := by simpa using hi
    have hv : (recomputeAllowance (setNearVoid w)).valveReady = w.valveReady := by simp
    rw [actInterlock_of_off hx, hv]
    cases w.valveReady <;> cases mayFlow (recomputeAllowance (setNearVoid w)) <;> rfl
  | releasing =>
    have hx : (recomputeAllowance (setNearVoid w)).flow.interlock = .releasing := by simpa using hi
    rw [actInterlock_of_releasing hx]
    rfl
  | waitReady => simp [State.flowReq, hi] at hr
  | flowing => simp [State.flowReq, hi] at hr

theorem FlowSound.flowReq_low {s : State} (h : FlowSound s) (ha : s.cycle.state.isActive = false) : s.flowReq = false := by
  by_contra hf
  have := h.flowReq (by simpa using hf)
  simp [mayFlow, ha] at this

theorem Reentered.held {s w : State} {target : Phase} (h : Reentered s target w) (hr : s.flowReq = false)
    (hc : s.canopySet = true) : (settle w).cycle.held = !flowsAtOnce s target := by
  obtain ⟨hcan, hv⟩ := h.pins
  rw [settle_held_of_entry h.state (by simpa [State.flowReq, h.flow] using hr) (hcan.trans hc)]
  have hcfg : w.cfg = s.cfg := by rw [State.cfg, h.host, State.cfg]
  rw [flowsAtOnce, flowsAtOnce, hcfg, h.flow, hv]

theorem Reentered.runs {s w : State} {target : Phase} (h : Reentered s target w) (hr : s.flowReq = false)
    (hc : s.canopySet = true) : phaseRuns (settle w) target = flowsAtOnce s target := by
  rw [phaseRuns_of_state (by rw [settle_cycle_state]; exact h.state), h.held hr hc, Bool.not_not]

/-! ### The torque timer with nothing left -/

theorem resumeTorque_zero {s : State} (hr : s.flowReq = false) (hc : s.canopySet = true)
    (hl : s.sensor.live.linkUp = true) (hi : s.resin.stroke ≠ .inProgress) (he : s.torque.entered = true)
    (ht : s.torque.timer = .paused 0) :
    let t := finish s (zeroRemainder (settle (reenter .torque s)))
    (flowsAtOnce s .torque = true → Completed s s.history.records .torqueTimeout t)
      ∧ (flowsAtOnce s .torque = false →
        t.cycle.state = .active .torque ∧ t.cycle.held = true ∧ t.torque.timer = .paused 0) := by
  have hw := reenter_torque hl he
  have hre := reenter_reentered (s := s) (target := .torque) nofun fun _ => hl
  have hruns := hre.runs hr hc
  have hst : (settle (reenter .torque s)).cycle.state = .active .torque := by rw [settle_cycle_state]; exact hre.state
  have htimer : (settle (reenter .torque s)).torque.timer = Timer.sync (.paused 0) (flowsAtOnce s .torque) s.now := by
    rw [(settle_timers _).2.2.2, hruns, hre.now, hw]
    exact congrArg (fun t => Timer.sync t _ _) ht
  intro t
  refine ⟨fun hf => ?_, fun hf => ?_⟩
  · have hdue : (settle (reenter .torque s)).torque.timer.due (settle (reenter .torque s)).now = true := by
      rw [htimer, hf, settle_now, hre.now, sync_paused, if_pos rfl, after_zero]
      exact expired_self _
    have hz : zeroRemainder (settle (reenter .torque s)) = settle (complete .torqueTimeout (settle (reenter .torque s))) :=
      if_pos ⟨hst, hdue⟩
    have hdone : Completed s s.history.records .torqueTimeout
        (event s (complete .torqueTimeout (settle (reenter .torque s)))) :=
      event_complete_of (by rw [hw]; simp) (by rw [hw]; simp) (by rw [hw]; simp) (by rw [hw]; simp) (by rw [hw]; simp)
    simpa only [t, hz, event] using hdone
  · have hz : zeroRemainder (settle (reenter .torque s)) = settle (reenter .torque s) := by
      refine zeroRemainder_of_not_due (fun _ => by rw [htimer, hf]; rfl) fun hp => ?_
      rw [settle_stroke (by rw [hre.state]; simp), hre.stroke.2.2.1] at hp
      exact absurd hp hi
    have hheld := hre.held hr hc
    simp only [t, hz]
    refine ⟨by rw [finish_cycle]; exact hst, ?_, ?_⟩
    · rw [finish_cycle, hheld, hf]
      rfl
    · rw [finish_torque, htimer, hf]
      rfl

/-! ### The interrupted stroke with nothing left -/

/-- A timeout after the one retry completes the hole FAULTED (06 R91). -/
theorem strokeTimeout_of_retry {m : State} (ha : m.cycle.abortPending = false) (hr : m.resin.retry = true) :
    strokeTimeout m = complete .faulted (queueFault .injector
      (m.onResin fun r => { r with stroke := .idle, strokeTimer := .disarmed })) := by
  simp [strokeTimeout, ha, hr]

/-- The first timeout arms the gap before the retry (06 R91). -/
theorem strokeTimeout_of_first {m : State} (ha : m.cycle.abortPending = false) (hr : m.resin.retry = false)
    (hm : m.muted = false) : strokeTimeout m = m.onResin fun r =>
      { r with stroke := .idle, strokeTimer := .disarmed, retry := true, gap := some (after m.now 100) } :=
  (if_neg (ne_true_of_eq_false ha)).trans
    ((if_neg (ne_true_of_eq_false hr)).trans (if_neg (ne_true_of_eq_false hm)))

section InterruptedStroke

variable {s : State} (hr : s.flowReq = false) (hc : s.canopySet = true) (ha : s.cycle.abortPending = false)
  (hi : s.resin.stroke = .interrupted) (ht : s.resin.strokeTimer = .paused 0) (hp : s.resin.pushed < s.resin.charge.getD 0)

theorem strokeReady_reenterInsert (ha : s.cycle.abortPending = false) (hi : s.resin.stroke = .interrupted)
    (hp : s.resin.pushed < s.resin.charge.getD 0) : strokeReady (reenter .insert s) = true ↔ s.resin.gap = none := by
  rw [reenter_insert, strokeReady_iff]
  simp [hi, hp, ha]

include hr hc ha hi ht hp

/-- Where INSERT runs at once the stroke runs again and expires in the same event (06 R93). -/
theorem zeroRemainder_stroke_expires (hf : flowsAtOnce s .insert = true) (hg : s.resin.gap = none) :
    zeroRemainder (settle (reenter .insert s)) = settle (strokeTimeout (settle (reenter .insert s))) := by
  have hre := reenter_reentered (s := s) (target := .insert) nofun nofun
  have hst : (settle (reenter .insert s)).cycle.state = .active .insert := by rw [settle_cycle_state]; exact hre.state
  obtain ⟨-, -, hstroke, htimer, -, -⟩ := hre.stroke
  obtain ⟨hstart, hleft⟩ := settle_starts ((hre.runs hr hc).trans hf) ((strokeReady_reenterInsert ha hi hp).2 hg)
  have hdue : (settle (reenter .insert s)).resin.strokeTimer.due (settle (reenter .insert s)).now = true := by
    rw [hleft, hstroke, if_neg (by simp [hi]), htimer, ht, settle_now, hre.now]
    simp only [Timer.pause, Timer.run, Timer.due, after_zero, expired_self]
  rw [zeroRemainder, if_neg (by rw [hst]; simp), if_pos ⟨hstart, hdue⟩]

/-- Elsewhere the stroke stays interrupted with nothing left. -/
theorem zeroRemainder_stroke_waits (h : flowsAtOnce s .insert = false ∨ s.resin.gap.isSome = true) :
    let m := settle (reenter .insert s)
    zeroRemainder m = m ∧ m.cycle.state = .active .insert ∧ m.resin.stroke = .interrupted
      ∧ m.resin.strokeTimer = .paused 0 := by
  intro m
  have hre := reenter_reentered (s := s) (target := .insert) nofun nofun
  have hst : m.cycle.state = .active .insert := by rw [settle_cycle_state]; exact hre.state
  obtain ⟨-, -, hstroke, htimer, -, -⟩ := hre.stroke
  have hn : phaseRuns m .insert = false ∨ strokeReady (reenter .insert s) = false := by
    rcases h with hf | hg
    · exact .inl ((hre.runs hr hc).trans hf)
    · refine .inr (Bool.not_eq_true _ ▸ fun hready => ?_)
      simp [(strokeReady_reenterInsert ha hi hp).1 hready] at hg
  obtain ⟨h1, h2⟩ := settle_starts_not hn
  rw [hstroke, hi] at h1
  refine ⟨zeroRemainder_of_not_due (by rw [hst]; simp) fun hin => ?_, hst, h1, ?_⟩
  · exact absurd (h1.symm.trans hin) (by simp)
  · rw [h2, hstroke, hi, htimer, ht, show (StrokeState.interrupted == StrokeState.inProgress) = false from rfl, Bool.and_false]
    rfl

theorem resumeInsert_zero (hmute : s.muted = false) :
    let t := finish s (zeroRemainder (settle (reenter .insert s)))
    t.resin.pushed = s.resin.pushed
      ∧ (flowsAtOnce s .insert = true → s.resin.gap = none → s.resin.retry = true →
          Completed s s.history.records .faulted t ∧ t.host.faults = joinFault .injector s.host.faults)
      ∧ (flowsAtOnce s .insert = true → s.resin.gap = none → s.resin.retry = false →
          t.cycle.state = .active .insert ∧ t.resin.retry = true ∧ t.resin.stroke = .idle
            ∧ t.resin.gap = some (after s.now 100))
      ∧ (flowsAtOnce s .insert = false ∨ s.resin.gap.isSome = true →
          t.cycle.state = .active .insert ∧ t.resin.stroke = .interrupted ∧ t.resin.strokeTimer = .paused 0) := by
  have hw := reenter_insert s
  have habort : (settle (reenter .insert s)).cycle.abortPending = false := by rw [hw]; simpa using ha
  have hmuted : (settle (reenter .insert s)).muted = false := by rw [hw]; simpa [State.muted] using hmute
  have hretry : (settle (reenter .insert s)).resin.retry = s.resin.retry := by rw [hw]; simp
  intro t
  by_cases hgo : flowsAtOnce s .insert = true ∧ s.resin.gap = none
  · obtain ⟨hf, hg⟩ := hgo
    have hno : ¬(flowsAtOnce s .insert = false ∨ s.resin.gap.isSome = true) := by simp [hf, hg]
    have ht : t = event s (strokeTimeout (settle (reenter .insert s))) :=
      congrArg (finish s) (zeroRemainder_stroke_expires hr hc ha hi ht hp hf hg)
    rw [ht]
    cases hre : s.resin.retry
    · rw [strokeTimeout_of_first habort (hretry.trans hre) hmuted, hw]
      refine ⟨by simp, nofun, fun _ _ _ => ⟨by simp, by simp, ?_, by simp [State.now]⟩, fun h => absurd h hno⟩
      rw [event_resin]
      exact (settle_starts_not (.inr (by simp [strokeReady]))).1
    · rw [strokeTimeout_of_retry habort (hretry.trans hre), hw]
      refine ⟨by simp, fun _ _ _ => ⟨event_complete_of (by simp) (by simp) (by simp) (by simp) (by simp), ?_⟩, nofun,
        fun h => absurd h hno⟩
      simp [queueFault_faults]
  · have hwait : flowsAtOnce s .insert = false ∨ s.resin.gap.isSome = true := by
      rw [← Bool.not_eq_true, ← Option.ne_none_iff_isSome]
      exact not_and_or.1 hgo
    obtain ⟨hz, h1, h2, h3⟩ := zeroRemainder_stroke_waits hr hc ha hi ht hp hwait
    have ht : t = finish s (settle (reenter .insert s)) := congrArg (finish s) hz
    rw [ht]
    refine ⟨by rw [hw]; simp, fun hf hg => absurd ⟨hf, hg⟩ hgo, fun hf hg => absurd ⟨hf, hg⟩ hgo, fun _ => ?_⟩
    exact ⟨by rw [finish_cycle]; exact h1, by rw [finish_resin]; exact h2, by rw [finish_resin]; exact h3⟩

end InterruptedStroke

/-! ### The statement -/

/-- In SUSPENDED no pausable timer runs. -/
theorem TimersSound.kept {s : State} (h : TimersSound s) (hst : s.cycle.state = .suspended) :
    s.resin.strokeTimer.follows false = true ∧ s.torque.timer.follows false = true := by
  have hs := h.stroke
  have ht := h.torque
  have hno : ∀ p, phaseRuns s p = false := fun p => by simp [phaseRuns, hst]
  rw [hno, Bool.false_and] at hs
  rw [hno] at ht
  exact ⟨hs, ht⟩

/-- The torque timer at TORQUE's entry has time left, a fresh one too. -/
theorem reenterTorque_timer {s : State} (hl : s.sensor.live.linkUp = true) (hkept : s.torque.timer.follows false = true)
    (h0 : s.torque.entered = true → s.torque.timer ≠ .paused 0) :
    (reenter .torque s).torque.timer.follows false = true ∧ (reenter .torque s).torque.timer ≠ .paused 0 := by
  cases he : s.torque.entered
  · rw [reenter_torque_first hl he]
    exact ⟨rfl, by simp⟩
  · rw [reenter_torque hl he]
    exact ⟨hkept, h0 he⟩

/-- What the entry to the target leaves in `t`, phase by phase (01 R22, 04 R69, 06 R93, R99, R102, 07 R113). -/
structure EntersTarget (s : State) (target : Phase) (t : State) : Prop where
  state : t.cycle.state = .active target
  suspension : t.cycle.remembered = none ∧ t.cycle.cause = none
  flow : FlowFollows t
  notice : NoticePlaced t
  free : t.history.free = s.history.free
  faults : t.host.faults = s.host.faults
  charge : t.resin.pushed = s.resin.pushed ∧ t.resin.charge = s.resin.charge
  strokeStarts : target = .insert → t.cycle.held = false → s.resin.gap = none → s.resin.pushed < s.resin.charge.getD 0 →
    t.strokeOut = true ∧ (s.resin.stroke = .idle → t.resin.strokeTimer = .running (after s.now 3000))
      ∧ (∀ left, s.resin.stroke = .interrupted → s.resin.strokeTimer = .paused left →
          t.resin.strokeTimer = .running (after s.now left))
  strokeWaits : target = .insert → t.cycle.held = true ∨ s.resin.gap.isSome = true →
    t.resin.stroke = s.resin.stroke ∧ t.resin.strokeTimer = s.resin.strokeTimer
  predicted : target = .collar ∨ target = .drill →
    t.neighbours.predicted = predictedSet s.cycle.row s.cycle.slot s.cycle.planned s.neighbours.entries
  collarTimer : ∀ left, target = .collar → s.cycle.collarTimer = .paused left →
    t.cycle.collarTimer = (if t.cycle.held then .paused left else .running (after s.now left))
  drill : target = .drill → t.assembler.cell = s.assembler.cell ∧ t.assembler.n = s.assembler.n
    ∧ t.assembler.stallRef = s.assembler.maxDepth
    ∧ t.assembler.stallWindow = (if t.cycle.held then .paused 2000 else .running (after s.now 2000))
  retractFresh : target = .retract → s.cycle.cause = some .stuck →
    t.cycle.retractTimer = (if t.cycle.held then .paused 20000 else .running (after s.now 20000))
  retractKept : ∀ left, target = .retract → s.cycle.cause ≠ some .stuck → s.cycle.retractTimer = .paused left →
    t.cycle.retractTimer = (if t.cycle.held then .paused left else .running (after s.now left))
  holdArmed : target = .hold → s.cycle.remembered = some .mix → t.resin.mixDeadline = none ∧ t.resin.holdPassed = false
    ∧ t.resin.holdDeadline = some (after s.now (holdTimeMs s.cfg (s.resin.band.getD 0)))
  holdKept : target = .hold → s.cycle.remembered = some .hold → t.resin.holdDeadline = s.resin.holdDeadline
  torque : target = .torque → t.resin.holdPassed = false ∧ t.torque.torqueNear = false ∧ t.torque.entered = true
  torqueKept : target = .torque → s.torque.entered = true → t.torque.spinner = s.torque.spinner
    ∧ t.torque.peak = s.torque.peak ∧ t.torque.target = s.torque.target ∧ t.torque.ceiling = s.torque.ceiling
    ∧ t.torque.near = s.torque.near ∧ t.torque.overshoot = s.torque.overshoot
    ∧ ∀ left, s.torque.timer = .paused left →
        t.torque.timer = (if t.cycle.held then .paused left else .running (after s.now left))
  torqueFirst : target = .torque → s.torque.entered = false → t.torque.spinner = 0 ∧ t.torque.peak = 0
    ∧ t.torque.target = s.anchor.target ∧ t.torque.ceiling = s.anchor.target.map ceilingOf
    ∧ t.torque.near = s.anchor.target.map nearOf ∧ t.torque.overshoot = false
    ∧ t.torque.timer = (if t.cycle.held then .paused 15000 else .running (after s.now 15000))
    ∧ t.history.records = onOpen (fun r => { r with peak := some 0 }) s.history.records

theorem event_entersTarget {s : State} {target : Phase} (hm : target ≠ .mix) (hst : s.cycle.state = .suspended)
    (hl : target.needsLink = true → s.sensor.live.linkUp = true) (hi : s.resin.stroke ≠ .inProgress)
    (ha : s.cycle.abortPending = false) (hkept : s.resin.strokeTimer.follows false = true) :
    EntersTarget s target (event s (reenter target s)) := by
  have hre := reenter_reentered hm hl
  obtain ⟨hcharge, hpushed, -, -, -, -⟩ := hre.stroke
  obtain ⟨hremembered, hcause⟩ := hre.suspension
  exact
    { state := (event_cycle_state _ _).trans hre.state
      suspension := ⟨(event_cycle_remembered _ _).trans hremembered, (event_cycle_cause _ _).trans hcause⟩
      flow := event_flowFollows _ _
      notice := event_noticePlaced (by rw [hre.state, hst]; simp) (by rw [hre.state]; simp)
      free := by rw [event_history, hre.free]
      faults := by rw [event_host_faults, hre.host]
      charge := ⟨(event_resin_pushed _ _).trans hpushed, (event_resin_charge _ _).trans hcharge⟩
      strokeStarts := by
        rintro rfl
        exact (event_reenterInsert hi ha hkept).1
      strokeWaits := by
        rintro rfl
        exact (event_reenterInsert hi ha hkept).2
      predicted := fun h => event_reenterDrilling h (hl (by rcases h with rfl | rfl <;> rfl))
      collarTimer := by
        rintro left rfl hleft
        have := event_collarTimer s (w := reenter .collar s) hre.state (left := left)
          (by rw [reenter_collar (hl rfl)]; exact hleft)
        rwa [hre.now] at this
      drill := by
        rintro rfl
        exact event_reenterDrill (hl rfl)
      retractFresh := by
        rintro rfl
        exact (event_reenterRetract (hl rfl)).1
      retractKept := by
        rintro left rfl
        exact (event_reenterRetract (hl rfl)).2 left
      holdArmed := by
        rintro rfl
        exact event_reenterHold.1
      holdKept := by
        rintro rfl
        exact event_reenterHold.2
      torque := by
        rintro rfl
        exact (event_reenterTorque (hl rfl)).1
      torqueKept := by
        rintro rfl
        exact (event_reenterTorque (hl rfl)).2.1
      torqueFirst := by
        rintro rfl
        exact (event_reenterTorque (hl rfl)).2.2 }

/-- Settles O39: RESUME is the event of one entry (`reenter_reentered`), to which a remainder of 0 adds its expiry
(`resumeTorque_zero`, `resumeInsert_zero`). -/
theorem resumeEntersTheTarget : Obligations.ResumeEntersTheTarget := by
  intro host rise s hheld hcut
  refine ⟨fun hns => taken_rise_of (f := resume) hheld hcut (resume_badState hns), fun p target hst hp htarget => ?_⟩
  have htgt : resumeTarget (s.noteCanopy rise) = some target := htarget ▸ resumeTarget_eq (s := s.noteCanopy rise) hp
  have hmix : target ≠ .mix := by
    rw [htarget]
    cases p <;> simp
    split <;> simp
  have hcause := causePresent_iff (s := s.noteCanopy rise) hmix
  have haccept : causePresent target (s.noteCanopy rise) = false → exec (.resume rise host) s = .next (answered host s .ok []
      (finish (s.noteCanopy rise) (zeroRemainder (settle (reenter target (s.noteCanopy rise)))))) := fun hc =>
    taken_rise_of (f := resume) hheld hcut (resume_accepted hst htgt hc)
  refine ⟨fun hc => taken_rise_of (f := resume) hheld hcut (resume_causePresent hst htgt (hcause.2 hc)), ?_, ?_, ?_⟩
  · intro hs hts hcan hlink hmute htorque hstroke
    have hi : s.resin.stroke ≠ .inProgress := hs.no_stroke (by simp [hst])
    have ha := hs.no_abort hi
    obtain ⟨hkept, hkeptTorque⟩ := hts.kept hst
    have hserved : target.needsLink = true → s.sensor.live.linkUp = true := fun hn =>
      hlink (by cases target <;> simp [Phase.needsLink] at hn ⊢)
    have hno : causePresent target (s.noteCanopy rise) = false := causePresent_eq_false.2 ⟨hcan, hserved, fun hn =>
      hmute (by cases target <;> simp [Phase.flowClass] at hn ⊢)⟩
    have hre := reenter_reentered (s := s.noteCanopy rise) hmix hserved
    have hz : zeroRemainder (settle (reenter target (s.noteCanopy rise))) = settle (reenter target (s.noteCanopy rise)) :=
      zeroRemainder_settle hre hi
        (fun h => by
          subst h
          exact reenterTorque_timer (s := s.noteCanopy rise) (hserved rfl) hkeptTorque (htorque rfl)) hkept hstroke
    have hexec := haccept hno
    rw [hz] at hexec
    have ht : EntersTarget (s.noteCanopy rise) target (event (s.noteCanopy rise) (reenter target (s.noteCanopy rise))) :=
      event_entersTarget hmix hst hserved hi ha hkept
    change exec (.resume rise host) s = .next (answered host s .ok [] (event _ _)) at hexec
    generalize event (s.noteCanopy rise) (reenter target (s.noteCanopy rise)) = u at hexec ht
    obtain ⟨hremembered, hcauseNone⟩ := ht.suspension
    obtain ⟨hpushed, hcharge⟩ := ht.charge
    exact ⟨_, hexec, answered_replied, ht.state, hremembered, hcauseNone, ht.flow.answered, ht.notice.answered, ht.free,
      ht.faults, hpushed, hcharge, ht.strokeStarts, ht.strokeWaits, ht.predicted, ht.collarTimer, ht.drill, ht.retractFresh,
      ht.retractKept, fun h => ht.holdArmed (by simp [htarget, h]) (h ▸ hp), fun h h' => ht.holdKept h' (h ▸ hp), ht.torque,
      ht.torqueKept, ht.torqueFirst⟩
  · rintro hs hfs hcan rfl hl he ht
    have hlow : (s.noteCanopy rise).flowReq = false := hfs.flowReq_low (by simp [hst, CycleState.isActive])
    have hz := resumeTorque_zero (s := s.noteCanopy rise) hlow hcan hl (hs.no_stroke (by simp [hst])) he ht
    exact ⟨_, haccept (causePresent_eq_false.2 ⟨hcan, fun _ => hl, nofun⟩), answered_replied,
      fun hf => (Completed.of_work (s := s) (hz.1 hf) rfl rfl rfl rfl).answered, hz.2⟩
  · rintro hs hfs hcan rfl hm hi ht hp'
    have hlow : (s.noteCanopy rise).flowReq = false := hfs.flowReq_low (by simp [hst, CycleState.isActive])
    have ha := hs.no_abort (hs.no_stroke (by simp [hst]))
    obtain ⟨h1, h2, h3, h4⟩ := resumeInsert_zero (s := s.noteCanopy rise) hlow hcan ha hi ht hp' hm
    exact ⟨_, haccept (causePresent_eq_false.2 ⟨hcan, nofun, fun _ => hm⟩), answered_replied, h1,
      fun hf hg hretry => ⟨(Completed.of_work (s := s) (h2 hf hg hretry).1 rfl rfl rfl rfl).answered, (h2 hf hg hretry).2⟩,
      h3, h4⟩

end Sys2Proof.Machine
end

