-- ==== Sys2Proof/Proofs/SamplePort.lean ====
section
/-! PROOFS. O10, O11, O42: the sample port takes bit periods, stores a good record, and is read and unlatched (02 R29 to
R36). -/

namespace Sys2Proof.Machine

/-! ### The bit periods before a byte -/

theorem takeSrxBit_high {s : State} (hr : s.sensor.receiver = .idle) :
    takeSrxBit s true = s.onSensor SensorBlock.highBit := by simp [takeSrxBit, hr, State.onSensor]

theorem highBit_only (p : SensorBlock) : ∃ gap assembly, p.highBit = { p with gap := gap, assembly := assembly } := by
  unfold SensorBlock.highBit
  split_ifs
  · exact ⟨p.gap, p.assembly, rfl⟩
  · exact ⟨0, [], rfl⟩
  · exact ⟨p.gap + 1, p.assembly, rfl⟩

/-- Whatever a gap does to the count and the record in assembly, it does nothing else (02 R29). -/
theorem foldl_takeSrxBit_high (n : Nat) : ∀ {s : State}, s.sensor.receiver = .idle →
    ∃ gap assembly, (List.replicate n true).foldl takeSrxBit s =
      s.onSensor fun p => { p with gap := gap, assembly := assembly } := by
  induction n with
  | zero => exact fun {s} _ => ⟨s.sensor.gap, s.sensor.assembly, rfl⟩
  | succ n ih =>
    intro s hr
    obtain ⟨gap, assembly, hb⟩ := highBit_only s.sensor
    have hs : takeSrxBit s true = s.onSensor fun p => { p with gap := gap, assembly := assembly } := by
      rw [takeSrxBit_high hr, State.onSensor, hb]
      rfl
    obtain ⟨gap', assembly', h⟩ := ih (s := takeSrxBit s true) (by rw [hs]; exact hr)
    exact ⟨gap', assembly', by rw [List.replicate_succ, List.foldl_cons, h, hs]; rfl⟩

/-- A gap short of 461 bit periods is counted to the last of them (02 R29). -/
theorem foldl_takeSrxBit_counts (n : Nat) : ∀ {s : State}, s.sensor.receiver = .idle → s.sensor.assembly ≠ [] →
    s.sensor.gap + n < 461 →
    (List.replicate n true).foldl takeSrxBit s = s.onSensor fun p => { p with gap := p.gap + n } := by
  induction n with
  | zero => intro s _ _ _; rfl
  | succ n ih =>
    intro s hr ha hg
    have hn : ¬srxGapLimit ≤ s.sensor.gap + 1 := by simp [srxGapLimit]; omega
    have hb : takeSrxBit s true = s.onSensor fun p => { p with gap := p.gap + 1 } := by
      simp [takeSrxBit_high hr, SensorBlock.highBit, ha, hn, State.onSensor]
    rw [List.replicate_succ, List.foldl_cons, hb, ih (by exact hr) (by exact ha) (by simp only [State.onSensor_sensor]; omega)]
    simp only [State.onSensor, Nat.add_assoc, Nat.add_comm 1 n]

/-- A gap before which the port is hunting, or which discards the record, leaves it hunting (02 R29). -/
theorem foldl_takeSrxBit_hunting {s : State} {b : SrxByte} {rest : List SrxByte} (h : Hunting s (b :: rest)) :
    ∃ gap, (List.replicate b.gap true).foldl takeSrxBit s = s.onSensor fun p => { p with gap := gap, assembly := [] } := by
  obtain ⟨hr, h⟩ := h
  by_cases ha : s.sensor.assembly = []
  · exact ⟨s.sensor.gap, by rw [foldl_takeSrxBit_quiet _ hr ha, ← ha]; rfl⟩
  · obtain ⟨hg, hb⟩ := h.resolve_left ha
    exact ⟨0, foldl_takeSrxBit_discards _ hr ha hg (hb b rfl)⟩

/-! ### One byte -/

theorem foldl_takeSrxBit_bits (b : SrxByte) (s : State) : b.bits.foldl takeSrxBit s =
    (serialBits b.value b.stopHigh).foldl takeSrxBit ((List.replicate b.gap true).foldl takeSrxBit s) := by
  rw [SrxByte.bits, List.foldl_append]

/-- A byte whose gap leaves `assembly`, by what `feedSrx` makes of the two (02 R29). -/
theorem foldl_takeSrxBit_fed {s : State} {b : SrxByte} {gap : Nat} {assembly fed : List Byte}
    (hr : s.sensor.receiver = .idle)
    (hgap : (List.replicate b.gap true).foldl takeSrxBit s = s.onSensor fun p => { p with gap := gap, assembly := assembly })
    (hfed : feedSrx assembly b.value b.stopHigh = (fed, none)) :
    b.bits.foldl takeSrxBit s =
      s.onSensor fun p => { p with receiver := if b.stopHigh then .idle else .low, gap := 0, assembly := fed } := by
  rw [foldl_takeSrxBit_bits, hgap, foldl_takeSrxBit_byte (by simpa using hr)]
  simp [takeByte, hfed, State.onSensor]

theorem feedSrx_stopLow (assembly : List Byte) (value : Byte) : feedSrx assembly value false = ([], none) := rfl

theorem feedSrx_hunting (value : Byte) : feedSrx [] value true = (if value = 165 then [165] else [], none) := by
  by_cases h : value = 165
  · simp [feedSrx, sampleSync, h]
  · rw [if_neg h]
    simpa [feedSrx, sampleSync] using h

theorem feedSrx_joins {assembly : List Byte} (ha : assembly ≠ []) (hl : assembly.length ≠ 11) (value : Byte) :
    feedSrx assembly value true = (assembly ++ [value], none) := by simp [feedSrx, ha, hl]

theorem feedSrx_badSum {assembly : List Byte} {value : Byte} (hl : assembly.length = 11)
    (hs : byteSum (assembly ++ [value]) ≠ 0) : feedSrx assembly value true = ([], none) := by
  have ha : assembly ≠ [] := by rintro rfl; simp at hl
  simpa [feedSrx, ha, hl] using hs

/-- A gap that keeps the record in assembly, with the byte after it, by `feedSrx`. -/
theorem foldl_takeSrxBit_joining {s : State} {b : SrxByte} {fed : List Byte} (hr : s.sensor.receiver = .idle)
    (ha : s.sensor.assembly ≠ []) (hg : s.sensor.gap + b.gap < 461) (hb : b.stopHigh = true)
    (hfed : feedSrx s.sensor.assembly b.value true = (fed, none)) :
    b.bits.foldl takeSrxBit s = s.onSensor fun p => { p with receiver := .idle, gap := 0, assembly := fed } := by
  have h := foldl_takeSrxBit_fed (gap := s.sensor.gap + b.gap) hr (foldl_takeSrxBit_counts b.gap hr ha hg) (by rw [hb, hfed])
  rwa [hb] at h

/-! ### A run of bytes with a bad sum -/

/-- The bytes after the first of a record whose sum is bad: they join it up to the last, which discards it (02 R29). -/
theorem foldl_takeSrxBit_badTail (bytes : List SrxByte) : ∀ {s : State}, s.sensor.receiver = .idle → s.sensor.gap = 0 →
    s.sensor.assembly ≠ [] → s.sensor.assembly.length + bytes.length = 12 → bytes ≠ [] →
    (∀ b ∈ bytes, b.stopHigh = true) → (∀ b ∈ bytes, b.gap < 461) →
    byteSum (s.sensor.assembly ++ bytes.map SrxByte.value) ≠ 0 →
    (srxLine bytes).foldl takeSrxBit s = s.onSensor fun p => { p with receiver := .idle, gap := 0, assembly := [] } := by
  induction bytes with
  | nil => intro s _ _ _ _ h; exact absurd rfl h
  | cons b bytes ih =>
    intro s hr hg ha hl _ hstop hgap hsum
    simp only [List.length_cons] at hl
    rw [srxLine, List.flatMap_cons, List.foldl_append]
    have hjoin := fun fed => foldl_takeSrxBit_joining (b := b) (fed := fed) hr ha (by simpa [hg] using hgap b (by simp))
      (hstop b (by simp))
    rcases bytes with _ | ⟨c, rest⟩
    · rw [hjoin [] (feedSrx_badSum (by simpa using hl) (by simpa using hsum))]
      rfl
    · rw [hjoin _ (feedSrx_joins ha (by simp only [List.length_cons] at hl; omega) b.value)]
      refine ih rfl rfl (by simp) ?_ (by simp) (fun x hx => hstop x (by simp [hx])) (fun x hx => hgap x (by simp [hx]))
        (by simpa using hsum)
      simp only [State.onSensor_sensor, List.length_append, List.length_singleton]
      omega

/-- A record that finds the port hunting and whose sum is bad leaves the port hunting, and nothing else (02 R29). -/
theorem foldl_takeSrxBit_badSum {s : State} {bytes : List SrxByte} (hh : Hunting s bytes) (hlen : bytes.length = 12)
    (hstop : ∀ b ∈ bytes, b.stopHigh = true) (hgap : ∀ b ∈ bytes.tail, b.gap < 461)
    (hsync : (bytes.map SrxByte.value).head? = some 165) (hsum : byteSum (bytes.map SrxByte.value) ≠ 0) :
    (srxLine bytes).foldl takeSrxBit s = s.onSensor fun p => { p with receiver := .idle, gap := 0, assembly := [] } := by
  obtain ⟨b, rest, rfl⟩ := List.exists_cons_of_ne_nil (l := bytes) (by rintro rfl; simp at hlen)
  simp only [List.map_cons, List.head?_cons, Option.some.injEq, List.length_cons] at hsync hsum hlen
  obtain ⟨gap, hquiet⟩ := foldl_takeSrxBit_hunting hh
  have hfirst : b.bits.foldl takeSrxBit s = s.onSensor fun p => { p with receiver := .idle, gap := 0, assembly := [165] } := by
    rw [foldl_takeSrxBit_fed hh.1 hquiet (by rw [hstop b (by simp)]; exact feedSrx_hunting _), hstop b (by simp), if_pos hsync]
    rfl
  rw [srxLine, List.flatMap_cons, List.foldl_append, hfirst]
  exact foldl_takeSrxBit_badTail rest rfl rfl (by simp) (by simp; omega) (by rintro rfl; simp at hlen)
    (fun x hx => hstop x (by simp [hx])) hgap (hsync ▸ hsum)

/-- After a low stop bit the line is waited for to be high (log 29). -/
theorem foldl_takeSrxBit_low (n : Nat) {s : State} (hr : s.sensor.receiver = .low) :
    (List.replicate n false).foldl takeSrxBit s = s := by
  have hb : takeSrxBit s false = s := by simp [takeSrxBit, hr]
  induction n with
  | zero => rfl
  | succ n ih => rw [List.replicate_succ, List.foldl_cons, hb, ih]

/-! ### Runs one after another -/

theorem handSample_resetHeld (x : Sample) (s : State) : (handSample x s).resetHeld = s.resetHeld := by
  unfold handSample
  split
  · simp
  · simp
  · split_ifs <;> simp
  · simp
  · rfl

theorem takeByte_resetHeld (value : Byte) (stopHigh : Bool) (s : State) :
    (takeByte value stopHigh s).resetHeld = s.resetHeld := by
  unfold takeByte takeRecord
  dsimp only
  split
  · split
    · rw [handSample_resetHeld]; rfl
    · rfl
  · rfl

theorem takeSrxBit_resetHeld (s : State) (bit : Bool) : (takeSrxBit s bit).resetHeld = s.resetHeld := by
  unfold takeSrxBit
  split
  · rfl
  · split_ifs
    · rfl
    · exact takeByte_resetHeld _ _ _
  · split_ifs <;> rfl

theorem foldl_takeSrxBit_resetHeld (bits : List Bool) (s : State) :
    (bits.foldl takeSrxBit s).resetHeld = s.resetHeld := by
  induction bits generalizing s with
  | nil => rfl
  | cons b bits ih => rw [List.foldl_cons, ih, takeSrxBit_resetHeld]

/-- The bit periods that come under one command act on the part as it stands after those before them. -/
theorem exec_sampleRecord_append {s t : State} {first : List Bool} (rest : List Bool)
    (h : exec (.sampleRecord first) s = .next t) : exec (.sampleRecord (first ++ rest)) s = exec (.sampleRecord rest) t := by
  change execSampleRecord _ _ = _ at h
  change execSampleRecord _ _ = execSampleRecord _ _
  simp only [execSampleRecord, unlessHeld_next, Host.Outcome.next.injEq] at h ⊢
  subst h
  by_cases hr : s.resetHeld = true
  · simp [hr]
  · simp [hr, List.foldl_append, foldl_takeSrxBit_resetHeld]

theorem exec_sampleRecord {s : State} (h : s.resetHeld = false) (bits : List Bool) :
    exec (.sampleRecord bits) s = .next (bits.foldl takeSrxBit s) := unlessHeld_of_awake h

/-- Settles O11. -/
theorem recordsAreAssembledByteByByte : Obligations.RecordsAreAssembledByteByByte := by
  refine ⟨fun s hheld => ?_, fun s t first rest h => exec_sampleRecord_append rest h, ?_⟩
  · have hexec := exec_sampleRecord hheld
    have hone : ∀ b : SrxByte, srxLine [b] = b.bits := fun b => by simp [srxLine]
    refine ⟨fun hr => ⟨fun b => ⟨fun hb => ?_, fun hb hh => ?_, fun hb ha hg => ⟨fun hl => ?_, fun hl hs => ?_⟩⟩,
      fun n => ⟨fun ha => ?_, fun ha hg => ?_, fun ha hg hn => ?_⟩, fun data hl => ?_⟩, fun hr => ⟨fun n => ?_, ?_⟩⟩
    · obtain ⟨gap, assembly, hgap⟩ := foldl_takeSrxBit_high b.gap hr
      rw [hexec, hone, foldl_takeSrxBit_fed hr hgap (by rw [hb]; exact feedSrx_stopLow _ _), hb]
      rfl
    · obtain ⟨gap, hgap⟩ := foldl_takeSrxBit_hunting hh
      rw [hexec, hone, foldl_takeSrxBit_fed hr hgap (by rw [hb]; exact feedSrx_hunting _), hb]
      rfl
    · rw [hexec, hone, foldl_takeSrxBit_joining hr ha hg hb (feedSrx_joins ha hl _)]
      rfl
    · rw [hexec, hone, foldl_takeSrxBit_joining hr ha hg hb (feedSrx_badSum hl hs)]
      rfl
    · rw [hexec, foldl_takeSrxBit_quiet n hr ha]
    · rw [hexec, foldl_takeSrxBit_counts n hr ha hg, ← hr]
      rfl
    · rw [hexec, foldl_takeSrxBit_discards n hr ha hg hn, ← hr]
      rfl
    · have hs : takeSrxBit s false = s.onSensor fun p => { p with receiver := .byte [], gap := 0 } := by simp [takeSrxBit, hr]
      rw [hexec, List.foldl_cons, hs, foldl_takeSrxBit_data data (before := []) rfl (by simpa using hl)]
      rfl
    · rw [hexec, foldl_takeSrxBit_low n hr]
    · rw [hexec]
      simp [takeSrxBit, hr, State.onSensor]
  · intro s bytes hheld hh hlen hstop hgap hsync hsum
    rw [exec_sampleRecord hheld, foldl_takeSrxBit_badSum hh hlen hstop hgap hsync hsum]
    simp [State.onSensor, ← hh.1]

/-! ### A good record in a state that takes no sample -/

theorem handSample_sensor (x : Sample) (s : State) : (handSample x s).sensor = s.sensor := by
  unfold handSample
  split
  · simp
  · simp
  · split_ifs <;> simp
  · simp
  · rfl

/-- Outside COLLAR, DRILL, RETRACT and TORQUE no block takes the sample (02 R31). -/
theorem handSample_of_unused {s : State} (h1 : s.cycle.state ≠ .active .collar) (h2 : s.cycle.state ≠ .active .drill)
    (h3 : s.cycle.state ≠ .active .retract) (h4 : s.cycle.state ≠ .active .torque) (x : Sample) : handSample x s = s := by
  unfold handSample
  split
  · exact absurd ‹_› h1
  · exact absurd ‹_› h2
  · exact absurd ‹_› h3
  · exact absurd ‹_› h4
  · rfl

/-- Settles O10: the sample is stored in the port before any block takes it, and no block writes the port. -/
theorem goodRecordIsStored : Obligations.GoodRecordIsStored := by
  intro s bytes raw hheld hh hg hraw
  refine ⟨_, exec_goodRecord hheld hh hg hraw, recordTaken (handSample_sensor _ _), fun h1 h2 h3 h4 => ?_⟩
  rw [handSample_of_unused (by exact h1) (by exact h2) (by exact h3) (by exact h4)]
  rfl

/-! ### READ_SENSORS and UNLATCH -/

/-- The members of the status group in the order of 12 R200. -/
def groupMembers (g : StatusGroup) : List Bool := [g.linkUp, g.tempValid, g.rangeClamp, g.pulseActive]

/-- The fields of the last sample with its mark, 0 where there is none (12 R204). -/
def sampleFields : Option Sample → List (Nat × Nat)
  | some x => [(1, 1), (1, x.sequence), (2, x.thrust), (2, x.torque), (2, x.speed), (2, x.feed),
      (2, (x.temperature % 65536).toNat)]
  | none => [(1, 0), (11, 0)]

/-- READ_SENSORS' sample, field by field (12 R204). -/
theorem sampleBytes_eq (x : Sample) : sampleBytes x = layout [(1, x.sequence), (2, x.thrust), (2, x.torque), (2, x.speed),
    (2, x.feed), (2, (x.temperature % 65536).toNat)] := by
  simp [sampleBytes, s16, layout, fieldBytes_one, fieldBytes_two, BitVec.toNat_ofInt]

theorem statusGroup_toByte (g : StatusGroup) : [g.toByte] = u8 (memberSet (groupMembers g)) := by
  rw [StatusGroup.toByte, setByte_eq]
  rfl

theorem markedSample_eq (last : Option Sample) : marked 11 (last.map sampleBytes) = layout (sampleFields last) := by
  cases last with
  | none => simp [marked, sampleFields, layout, fieldBytes_zero]
  | some x => simp [marked, sampleFields, sampleBytes_eq, layout, fieldBytes_one, u8]

theorem length_markedSample (last : Option Sample) : (marked 11 (last.map sampleBytes)).length = 12 := by
  cases last <;> simp [marked, sampleBytes, s16, u8, u16]

theorem length_sensorsData (s : State) : (sensorsData s).length = 19 := by
  have hcell : (marked 1 (s.assembler.cell.map u8)).length = 2 := by cases s.assembler.cell <;> rfl
  simp [sensorsData, length_markedSample, hcell, flag, u16]

/-- READ_SENSORS' data, field by field (02 R35, 12 R204). -/
theorem sensorsData_eq (s : State) : sensorsData s = layout (
    [(1, s.sensor.latched.toNat), (1, memberSet (groupMembers (if s.sensor.latched then s.sensor.snapshot else s.sensor.live))),
      (1, memberSet (groupMembers s.sensor.live))]
      ++ sampleFields s.sensor.last ++ markedField 1 s.assembler.cell ++ [(2, s.assembler.maxDepth)]) := by
  simp only [sensorsData, layout_append, layout_cons, layout_nil, ← statusGroup_toByte, fieldBytes_one, fieldBytes_two,
    ← flag_eq_u8, ← markedSample_eq, ← marked_eq_layout fun n => (fieldBytes_one n).symm, List.append_nil, List.append_assoc]

theorem unlatch_same {p : SensorBlock} (h : p.live = p.snapshot) : p.unlatch = { p with latched := false, readMark := false } :=
  if_pos h

theorem unlatch_differs {p : SensorBlock} (h : p.live ≠ p.snapshot) :
    p.unlatch = { p with snapshot := p.live, latched := true, readMark := false } := if_neg h

/-- UNLATCH's three rows (02 R36): no latch, a latch not read, and a latch read. -/
theorem exec_unlatch {host : Transaction} {s : State} (hheld : s.resetHeld = false) (hcut : host.cut = false) :
    (s.sensor.latched = false → exec (.unlatch host) s = .next (answered host s .ok [] s))
      ∧ (s.sensor.latched = true → s.sensor.readMark = false →
          exec (.unlatch host) s = .next (answered host s .notRead [] s))
      ∧ (s.sensor.latched = true → s.sensor.readMark = true →
          exec (.unlatch host) s = .next (answered host s .ok [] (s.onSensor SensorBlock.unlatch))) := by
  have hrow : ∀ {u : State} {status : Status}, (if !s.sensor.latched then setReply .ok [] s
      else if !s.sensor.readMark then setReply .notRead [] s
      else setReply .ok [] (s.onSensor SensorBlock.unlatch)) = setReply status [] u →
      exec (.unlatch host) s = .next (answered host s status [] u) :=
    fun h => (congrArg (inTransaction host s) h).trans (taken hheld hcut)
  exact ⟨fun hl => hrow (by simp [hl]), fun hl hm => hrow (by simp [hl, hm]), fun hl hm => hrow (by simp [hl, hm])⟩

/-- Settles O42. -/
theorem sensorReadAllowsTheUnlatch : Obligations.SensorReadAllowsTheUnlatch := by
  intro host s hheld hcut
  obtain ⟨hopen, hunread, hread⟩ := exec_unlatch hheld hcut
  refine ⟨taken hheld hcut, length_sensorsData s, sensorsData_eq s, hopen, hunread, fun hl hm he => ?_, fun hl hm he => ?_⟩
  · rw [hread hl hm, State.onSensor, unlatch_same he]
    rfl
  · rw [hread hl hm, State.onSensor, unlatch_differs he]
    rfl

end Sys2Proof.Machine
end

