-- ==== Sys2Proof/Proofs/SensorEvents.lean ====
section
/-! PROOFS. O12 to O14: the pulse and the two deadlines of the sample port (02 R32 to R34, R44). -/

namespace Sys2Proof.Machine

/-! ### PULSE_DEADLINE_EXPIRY -/

/-- A change of the live members is latched once, and by an unlatched group only (02 R34). -/
theorem takeLive_changes {p : SensorBlock} {live : StatusGroup} (hl : p.latched = false) (h : live ≠ p.live) :
    (p.takeLive live).latched = true ∧ (p.takeLive live).readMark = false ∧ (p.takeLive live).snapshot = live := by
  have hlatch := takeLive_latch p live
  rw [if_pos ⟨hl, h⟩] at hlatch
  obtain ⟨h1, h2, h3⟩ := hlatch
  exact ⟨h1, h3, h2⟩

theorem takeLive_keeps {p : SensorBlock} {live : StatusGroup} (h : p.latched = true ∨ live = p.live) :
    (p.takeLive live).latched = p.latched ∧ (p.takeLive live).readMark = p.readMark
      ∧ (p.takeLive live).snapshot = p.snapshot := by
  have hlatch := takeLive_latch p live
  rw [if_neg (by rcases h with h | h <;> simp [h])] at hlatch
  obtain ⟨h1, h2, h3⟩ := hlatch
  exact ⟨h1, h3, h2⟩

theorem SensorBlock.eq_of_kept {p q : SensorBlock} (ha : q.assembly = p.assembly) (hl : q.last = p.last)
    (hd : q.linkDeadline = p.linkDeadline) :
    q = { q with assembly := p.assembly, last := p.last, linkDeadline := p.linkDeadline } := by rw [← ha, ← hl, ← hd]

/-- Settles O13. -/
theorem pulseDeadlineExpiryEndsPulseActive : Obligations.PulseDeadlineExpiryEndsPulseActive := by
  intro s hheld
  obtain ⟨hearly, hdue⟩ := unlessHeld_ite (φ := Fault) (ρ := Refusal) (c := deadlineDue s.sensor.pulseDeadline s.now = true)
    (new := s.onSensor fun p => ({ p with pulseDeadline := none }).takeLive { p.live with pulseActive := false }) hheld
  refine ⟨fun h => hearly (by simp [h]), fun h => ⟨_, hdue h, by simp, by simp, fun hl ha => ?_, fun hl => ?_, ?_⟩⟩
  · have hchange := takeLive_changes (p := { s.sensor with pulseDeadline := none })
      (live := { s.sensor.live with pulseActive := false }) hl fun h => by simpa [ha] using congrArg StatusGroup.pulseActive h
    simpa using hchange
  · obtain ⟨h1, h2, h3⟩ := takeLive_keeps (p := { s.sensor with pulseDeadline := none })
      (live := { s.sensor.live with pulseActive := false }) (.inl hl)
    exact ⟨h3, h1.trans hl, h2⟩
  · exact congrArg (fun p => { s with sensor := p }) (SensorBlock.eq_of_kept
      (SensorBlock.takeLive_assembly _ _) (SensorBlock.takeLive_last _ _) (SensorBlock.takeLive_linkDeadline _ _))

/-! ### ROT_PULSE -/

/-- The sample port after steps 1 and 2 of a pulse (02 R33, R34). -/
structure PulseNoted (s : State) (p : SensorBlock) : Prop where
  deadline : p.pulseDeadline = some (after s.now 500)
  live : p.live = { s.sensor.live with pulseActive := true }
  kept : p.linkDeadline = s.sensor.linkDeadline ∧ p.last = s.sensor.last
  latches : s.sensor.latched = false → s.sensor.live.pulseActive = false →
    p.latched = true ∧ p.readMark = false ∧ p.snapshot = p.live
  latched : s.sensor.latched = true ∨ s.sensor.live.pulseActive = true →
    p.latched = s.sensor.latched ∧ p.readMark = s.sensor.readMark ∧ p.snapshot = s.sensor.snapshot

theorem notePulse_only (s : State) : ∃ p, PulseNoted s p ∧ notePulse s = { s with sensor := p } := by
  let p : SensorBlock := { s.sensor with pulseDeadline := some (after s.now 500) }
  let live : StatusGroup := { s.sensor.live with pulseActive := true }
  refine ⟨p.takeLive live, ⟨by simp [p], by simp [live], by simp [p], fun hl ha => ?_, fun h => ?_⟩, rfl⟩
  · rw [SensorBlock.takeLive_live]
    exact takeLive_changes hl fun he => by simpa [p, live, ha] using congrArg StatusGroup.pulseActive he
  · refine takeLive_keeps (p := p) (live := live) (h.imp id fun ha => ?_)
    change { s.sensor.live with pulseActive := true } = s.sensor.live
    rw [← ha]

theorem handPulse_sensor (s : State) : (handPulse s).sensor = s.sensor := by
  unfold handPulse
  split <;> simp

/-- Outside MIX and TORQUE a pulse goes to no counter (02 R33). -/
theorem handPulse_of_uncounted {s : State} (hm : s.cycle.state ≠ .active .mix) (ht : s.cycle.state ≠ .active .torque) :
    handPulse s = s := by
  unfold handPulse
  split
  · exact absurd ‹_› hm
  · exact absurd ‹_› ht
  · rfl

/-- MIX's count raised, and written into the record (06 R97). -/
def mixCounted (s : State) : State :=
  writeOpen (fun r => { r with quarterRevs := some (s.resin.quarterRevs + 1) })
    (s.onResin fun r => { r with quarterRevs := s.resin.quarterRevs + 1 })

theorem mixPulse_eq (s : State) : mixPulse s =
    if 4 * s.cfg.mixRevolutions ≤ s.resin.quarterRevs + 1 then enterHold (mixCounted s) else mixCounted s := rfl

theorem enterHold_eq (s : State) : enterHold s = enterState (.active .hold) (s.onResin fun r =>
    { r with mixDeadline := none, holdDeadline := some (after s.now (holdTimeMs s.cfg (r.band.getD 0))), holdPassed := false }) :=
  enterPhase_of_served (by simp [Phase.needsLink])

/-- A pulse in MIX: below the mix revolutions it is counted, and at them it ends MIX (06 R97, R98). -/
theorem event_mixPulse {s : State} (hp : s.cycle.state = .active .mix) :
    let t := event s (mixPulse s)
    CycleFrame s t ∧ t.resin.quarterRevs = s.resin.quarterRevs + 1
      ∧ t.history.records = onOpen (fun r => { r with quarterRevs := some (s.resin.quarterRevs + 1) }) s.history.records
      ∧ t.torque.spinner = s.torque.spinner
      ∧ (s.resin.quarterRevs + 1 < 4 * s.cfg.mixRevolutions → t.cycle.state = .active .mix
          ∧ t.resin.mixDeadline = s.resin.mixDeadline)
      ∧ (4 * s.cfg.mixRevolutions ≤ s.resin.quarterRevs + 1 → t.cycle.state = .active .hold
          ∧ t.resin.mixDeadline = none
          ∧ t.resin.holdDeadline = some (after s.now (holdTimeMs s.cfg (s.resin.band.getD 0)))
          ∧ FlowFollows t ∧ NoticePlaced t) := by
  intro t
  have hframe : CycleFrame s t :=
    event_cycleFrame ⟨by simp, by simp, by simp, by simp, by simp, by simp, by simp, by simp, by simp⟩
  by_cases hc : 4 * s.cfg.mixRevolutions ≤ s.resin.quarterRevs + 1
  · have ht : t = event s (enterState (.active .hold) _) :=
      congrArg (event s) (((mixPulse_eq s).trans (if_pos hc)).trans (enterHold_eq _))
    rw [ht] at hframe ⊢
    exact ⟨hframe, by simp [mixCounted], by simp [mixCounted, writeOpen_records], by simp [mixCounted],
      fun h => absurd hc (by omega), fun _ => ⟨by simp, by simp, by simp [mixCounted, State.cfg, State.now],
        event_flowFollows _ _, event_noticePlaced (by simp [hp]) (by simp)⟩⟩
  · have ht : t = event s (mixCounted s) := congrArg (event s) ((mixPulse_eq s).trans (if_neg hc))
    rw [ht] at hframe ⊢
    exact ⟨hframe, by simp [mixCounted], by simp [mixCounted, writeOpen_records], by simp [mixCounted],
      fun _ => ⟨by simp [mixCounted, hp], by simp [mixCounted]⟩, fun h => absurd h hc⟩

/-- TORQUE's count raised (07 R108). -/
def torqueCounted (s : State) : State := s.onTorque fun t => { t with spinner := s.torque.spinner + 1 }

theorem torquePulse_eq (s : State) : torquePulse s =
    if 4 * s.cfg.spinnerLimit ≤ s.torque.spinner + 1 then complete .spinner (torqueCounted s) else torqueCounted s := rfl

/-- A pulse in TORQUE: below the spinner limit it is counted, and at it the hole completes (07 R108). -/
theorem event_torquePulse {s : State} (hp : s.cycle.state = .active .torque) :
    let t := event s (torquePulse s)
    CycleFrame s t ∧ t.torque.spinner = s.torque.spinner + 1 ∧ t.resin.quarterRevs = s.resin.quarterRevs
      ∧ (s.torque.spinner + 1 < 4 * s.cfg.spinnerLimit → t.cycle.state = .active .torque ∧ t.history = s.history)
      ∧ (4 * s.cfg.spinnerLimit ≤ s.torque.spinner + 1 → Completed s s.history.records .spinner t ∧ NoticePlaced t) := by
  intro t
  have hframe : CycleFrame s t :=
    event_cycleFrame ⟨by simp, by simp, by simp, by simp, by simp, by simp, by simp, by simp, by simp⟩
  by_cases hc : 4 * s.cfg.spinnerLimit ≤ s.torque.spinner + 1
  · have ht : t = event s (complete .spinner (torqueCounted s)) :=
      congrArg (event s) ((torquePulse_eq s).trans (if_pos hc))
    rw [ht] at hframe ⊢
    exact ⟨hframe, by simp [torqueCounted], by simp [torqueCounted], fun h => absurd hc (by omega),
      fun _ => ⟨event_complete_of rfl rfl rfl rfl rfl, event_complete_notice s (by simp [hp])⟩⟩
  · have ht : t = event s (torqueCounted s) := congrArg (event s) ((torquePulse_eq s).trans (if_neg hc))
    rw [ht] at hframe ⊢
    exact ⟨hframe, by simp [torqueCounted], by simp [torqueCounted],
      fun _ => ⟨by simp [torqueCounted, hp], by simp [torqueCounted]⟩, fun h => absurd h hc⟩

/-- The sample port is none of the blocks that the frame names. -/
theorem CycleFrame.of_sensor {s t : State} {p : SensorBlock} (h : CycleFrame { s with sensor := p } t) : CycleFrame s t :=
  ⟨h.pins, h.pending, h.config, h.stack, h.peers, h.schedule, h.hole, h.window, h.line⟩

/-- Settles O12: the port notes the pulse before the phase counts it, and the phase does not write the port. -/
theorem pulseIsCounted : Obligations.PulseIsCounted := by
  intro s hheld
  obtain ⟨p, hp, hnote⟩ := notePulse_only s
  have hsensor : (handPulse { s with sensor := p }).sensor = p := handPulse_sensor _
  refine ⟨handPulse { s with sensor := p }, hnote ▸ unlessHeld_of_awake hheld, ?_⟩
  simp only [hsensor]
  refine ⟨hp.deadline, hp.live, hp.kept.1, hp.kept.2, hp.latches, hp.latched, fun hm ht => handPulse_of_uncounted hm ht,
    fun hm => ?_, fun ht => ?_⟩
  · have he : handPulse { s with sensor := p } = event { s with sensor := p } (mixPulse { s with sensor := p }) := by
      simp [handPulse, hm]
    obtain ⟨hframe, hcount⟩ := event_mixPulse (s := { s with sensor := p }) hm
    rw [he]
    exact ⟨hframe.of_sensor, hcount⟩
  · have he : handPulse { s with sensor := p } = event { s with sensor := p } (torquePulse { s with sensor := p }) := by
      simp [handPulse, ht]
    obtain ⟨hframe, hspinner, hquarter, hbelow, hdone⟩ := event_torquePulse (s := { s with sensor := p }) ht
    rw [he]
    exact ⟨hframe.of_sensor, hspinner, hquarter, hbelow, fun hc => ⟨(hdone hc).1.of_work rfl rfl rfl rfl, (hdone hc).2⟩⟩

/-! ### LINK_DEADLINE_EXPIRY -/

/-- A fall of LINK_UP before it acts on the cycle: the latch, the fault and the taint (02 R32, R44). -/
def linkLost (s : State) : State :=
  taintCell (queueFault .sensorLost
    (s.onSensor fun p => ({ p with linkDeadline := none }).takeLive { p.live with linkUp := false }))

theorem linkFall_eq (s : State) : linkFall s = sensorSuspension (linkLost s) := rfl

theorem sensorSuspension_of_needed {s : State} {p : Phase} (hp : s.cycle.state = .active p) (hn : p.needsLink = true) :
    sensorSuspension s = suspend .sensor s := by simp [sensorSuspension, hp, hn]

theorem sensorSuspension_of_unneeded {s : State} (h : ∀ p, s.cycle.state = .active p → p.needsLink = false) :
    sensorSuspension s = s := by
  unfold sensorSuspension
  split
  · rename_i p hp
    simp [h p hp]
  · rfl

/-- Whether or not the phase is suspended, every block but the cycle's keeps what the fall has left in it. -/
theorem linkFall_cases (s : State) :
    (∃ p, s.cycle.state = .active p ∧ p.needsLink = true ∧ linkFall s = suspend .sensor (linkLost s))
      ∨ ((∀ p, s.cycle.state = .active p → p.needsLink = false) ∧ linkFall s = linkLost s) := by
  by_cases h : ∀ p, s.cycle.state = .active p → p.needsLink = false
  · exact .inr ⟨h, sensorSuspension_of_unneeded h⟩
  · simp only [not_forall] at h
    obtain ⟨p, hp, hn⟩ := h
    exact .inl ⟨p, hp, by simpa using hn, sensorSuspension_of_needed hp (by simpa using hn)⟩

theorem linkFall_sensor (s : State) : (linkFall s).sensor =
    ({ s.sensor with linkDeadline := none }).takeLive { s.sensor.live with linkUp := false } := by
  rcases linkFall_cases s with ⟨p, -, -, he⟩ | ⟨-, he⟩ <;> simp [he, linkLost]

theorem linkFall_faults (s : State) : (linkFall s).host.faults = joinFault .sensorLost s.host.faults := by
  rcases linkFall_cases s with ⟨p, -, -, he⟩ | ⟨-, he⟩ <;> simp [he, linkLost, queueFault_faults]

theorem linkFall_assembler (s : State) : (linkFall s).assembler = (taintCell s).assembler := by
  rcases linkFall_cases s with ⟨p, -, -, he⟩ | ⟨-, he⟩
  · rw [he, suspend_assembler]
    rfl
  · rw [he]
    rfl

theorem linkFall_cycleFrame (s : State) : CycleFrame s (linkFall s) := by
  rcases linkFall_cases s with ⟨p, -, -, he⟩ | ⟨-, he⟩ <;> rw [he] <;>
    exact ⟨by simp [linkLost], by simp [linkLost], by simp [linkLost], by simp [linkLost], by simp [linkLost],
      by simp [linkLost], by simp [linkLost], by simp [linkLost], by simp [linkLost]⟩

/-- The suspension reads of the assembler only the stall window, which the taint leaves. -/
theorem event_linkLost_suspended {s : State} {p : Phase} (hs : CycleSound s) (hp : s.cycle.state = .active p) :
    Suspended s p .sensor (event s (suspend .sensor (linkLost s))) := by
  have h := event_suspend s (linkLost s) p .sensor hp (hs.stroke_insert hp)
  have hstall : (linkLost s).assembler.stallWindow = s.assembler.stallWindow := by simp [linkLost]
  exact
    { state := h.state
      remembered := h.remembered
      rest := h.rest
      demand := h.demand
      paused := hstall ▸ h.paused
      gel := h.gel
      torqueNear := h.torqueNear
      nearVoid := h.nearVoid
      stroke := h.stroke
      records := h.records }

theorem taintCell_some {s : State} (h : s.assembler.cell.isSome = true) : (taintCell s).assembler =
    { s.assembler with n := 0, rotary := 0, thrust := 0, capped := false, tainted := true } := if_pos h

theorem taintCell_none {s : State} (h : s.assembler.cell = none) : (taintCell s).assembler = s.assembler :=
  if_neg (by simp [h])

/-- Settles O14: the fall has latched, queued the fault and tainted the cell before it suspends the phase. -/
theorem linkDeadlineExpiryDropsTheLink : Obligations.LinkDeadlineExpiryDropsTheLink := by
  intro s hheld
  obtain ⟨hearly, hdue⟩ := unlessHeld_ite (φ := Fault) (ρ := Refusal) (c := deadlineDue s.sensor.linkDeadline s.now = true)
    (new := event s (linkFall s)) hheld
  refine ⟨fun h => hearly (by simp [h]), fun hs h => ⟨_, hdue h, event_cycleFrame (linkFall_cycleFrame s), ?_⟩⟩
  simp only [event_sensor, linkFall_sensor, event_host_faults, linkFall_faults, event_assembler_cell,
    event_assembler_maxDepth, event_assembler_n, event_assembler_rotary, event_assembler_thrust, event_assembler_capped,
    event_assembler_tainted, linkFall_assembler]
  refine ⟨by simp, by simp, fun hl hu => ?_, fun hl => ?_, trivial, by simp, by simp, fun hc => ?_, fun hc => ?_,
    fun p hp hn => ?_, fun hn => ?_⟩
  · simpa using takeLive_changes (p := { s.sensor with linkDeadline := none })
      (live := { s.sensor.live with linkUp := false }) hl fun he => by simpa [hu] using congrArg StatusGroup.linkUp he
  · obtain ⟨h1, h2, h3⟩ := takeLive_keeps (p := { s.sensor with linkDeadline := none })
      (live := { s.sensor.live with linkUp := false }) (.inl hl)
    exact ⟨h1.trans hl, h2, h3⟩
  · simp [taintCell_some hc]
  · rw [taintCell_none hc]
  · have he : linkFall s = suspend .sensor (linkLost s) := sensorSuspension_of_needed hp hn
    rw [he]
    exact ⟨event_linkLost_suspended hs hp, event_suspend_notice s (w := linkLost s) hp (by simp [hp]),
      by simp [linkLost], by simp [linkLost]⟩
  · have he : linkFall s = linkLost s := sensorSuspension_of_unneeded hn
    rw [he]
    exact ⟨by simp [linkLost], by simp [linkLost]⟩

end Sys2Proof.Machine
end

