-- ==== Sys2Proof/Proofs/DepthCells.lean ====
section
/-! PROOFS. O15, O16: a sample placed short of the planned depth, and COLLAR's and DRILL's tests on it (01 R10, 02 R39 to
R41, R45). -/

namespace Sys2Proof.Machine

/-! ### The tests on a sample above the planned depth (01 R10, R11, 02 R45) -/

/-- The tests that COLLAR and DRILL make on a sample placed in their state. -/
def depthTests (s : State) : State := if s.cycle.state = .active .collar then collarTests s else drillTests s

/-- A sample of COLLAR or DRILL is placed and then tested, in one event (02 R31). -/
theorem handSample_drilling {s : State} (hs : s.cycle.state = .active .collar ∨ s.cycle.state = .active .drill)
    (x : Sample) : handSample x s = event s (depthTests (placeSample x s)) := by
  rcases hs with hs | hs <;> simp [handSample, depthTests, hs]

/-- DRILL entered from COLLAR: the collar timer is disarmed and the stall window starts (01 R10). -/
def drillEntered (s : State) : State :=
  enterState (.active .drill) (restartStall (s.onCycle fun c => { c with collarTimer := .disarmed }))

/-- DRILL's tests short of the planned depth: only the stall window may start anew (02 R45). -/
theorem drillTests_shallow {s : State} (h : s.assembler.maxDepth < s.cycle.planned * 200) :
    drillTests s = if s.assembler.stallRef + 10 ≤ s.assembler.maxDepth then restartStall s else s :=
  if_neg (by omega)

/-- COLLAR's test short of the planned depth: at 600 DRILL is entered, where the stall window has just started. -/
theorem collarTests_shallow {s : State} (hl : s.sensor.live.linkUp = true) (h : s.assembler.maxDepth < s.cycle.planned * 200) :
    collarTests s = if 600 ≤ s.assembler.maxDepth then drillEntered s else s := by
  have hd : drillTests (drillEntered s) = drillEntered s := by
    rw [drillTests_shallow (by exact h)]
    exact if_neg (by simp [drillEntered, restartStall])
  rw [collarTests, enterPhase_of_linkUp (by simpa using hl)]
  split_ifs
  · exact hd
  · rfl

/-- The three things that the tests can do short of the planned depth. -/
theorem depthTests_cases {s : State} (hs : s.cycle.state = .active .collar ∨ s.cycle.state = .active .drill)
    (hl : s.sensor.live.linkUp = true) (h : s.assembler.maxDepth < s.cycle.planned * 200) :
    (s.cycle.state = .active .collar ∧ 600 ≤ s.assembler.maxDepth ∧ depthTests s = drillEntered s)
      ∨ (s.cycle.state = .active .drill ∧ s.assembler.stallRef + 10 ≤ s.assembler.maxDepth ∧ depthTests s = restartStall s)
      ∨ ((s.cycle.state = .active .collar → s.assembler.maxDepth < 600)
        ∧ (s.cycle.state = .active .drill → s.assembler.maxDepth < s.assembler.stallRef + 10) ∧ depthTests s = s) := by
  rcases hs with hs | hs
  · have ht : depthTests s = if 600 ≤ s.assembler.maxDepth then drillEntered s else s :=
      (if_pos hs).trans (collarTests_shallow hl h)
    by_cases hd : 600 ≤ s.assembler.maxDepth
    · exact .inl ⟨hs, hd, ht.trans (if_pos hd)⟩
    · exact .inr (.inr ⟨fun _ => by omega, fun h => by simp [hs] at h, ht.trans (if_neg hd)⟩)
  · have ht : depthTests s = if s.assembler.stallRef + 10 ≤ s.assembler.maxDepth then restartStall s else s :=
      (if_neg (by simp [hs])).trans (drillTests_shallow h)
    by_cases hd : s.assembler.stallRef + 10 ≤ s.assembler.maxDepth
    · exact .inr (.inl ⟨hs, hd, ht.trans (if_pos hd)⟩)
    · exact .inr (.inr ⟨fun h => by simp [hs] at h, fun _ => by omega, ht.trans (if_neg hd)⟩)

/-- The items of the assembler but the stall window: the cell, its sums, the maximum depth and the watch inputs. -/
structure SameCell (a b : AssemblerBlock) : Prop where
  cell : b.cell = a.cell
  n : b.n = a.n
  rotary : b.rotary = a.rotary
  thrust : b.thrust = a.thrust
  capped : b.capped = a.capped
  tainted : b.tainted = a.tainted
  maxDepth : b.maxDepth = a.maxDepth
  voidCell : b.voidCell = a.voidCell
  softCell : b.softCell = a.softCell
  hardCell : b.hardCell = a.hardCell

theorem event_sameCell (old w : State) : SameCell w.assembler (event old w).assembler :=
  ⟨by simp, by simp, by simp, by simp, by simp, by simp, by simp, by simp, by simp, by simp⟩

theorem SameCell.trans {a b c : AssemblerBlock} (h : SameCell a b) (k : SameCell b c) : SameCell a c :=
  ⟨k.cell.trans h.cell, k.n.trans h.n, k.rotary.trans h.rotary, k.thrust.trans h.thrust, k.capped.trans h.capped,
    k.tainted.trans h.tainted, k.maxDepth.trans h.maxDepth, k.voidCell.trans h.voidCell, k.softCell.trans h.softCell,
    k.hardCell.trans h.hardCell⟩

theorem restartStall_sameCell (s : State) : SameCell s.assembler (restartStall s).assembler :=
  ⟨rfl, rfl, rfl, rfl, rfl, rfl, rfl, rfl, rfl, rfl⟩

/-- Short of the planned depth the tests leave the ring and the cell in assembly. -/
theorem depthTests_leave {s : State} (hs : s.cycle.state = .active .collar ∨ s.cycle.state = .active .drill)
    (hl : s.sensor.live.linkUp = true) (h : s.assembler.maxDepth < s.cycle.planned * 200) :
    (depthTests s).history = s.history ∧ SameCell s.assembler (depthTests s).assembler := by
  rcases depthTests_cases hs hl h with ⟨-, -, ht⟩ | ⟨-, -, ht⟩ | ⟨-, -, ht⟩ <;> rw [ht]
  · exact ⟨rfl, restartStall_sameCell s⟩
  · exact ⟨rfl, restartStall_sameCell s⟩
  · exact ⟨rfl, rfl, rfl, rfl, rfl, rfl, rfl, rfl, rfl, rfl, rfl⟩

theorem depthTests_cycleFrame (s : State) : CycleFrame s (depthTests s) := by
  unfold depthTests
  split_ifs <;> exact ⟨by simp, by simp, by simp, by simp, by simp, by simp, by simp, by simp, by simp⟩

/-- What a placed sample with the maximum depth `depth` leaves of COLLAR's timer and of the stall window, the sample having
come in `s` (01 R10, 02 R45). -/
structure DepthTested (s : State) (depth : Nat) (t : State) : Prop where
  collarStays : s.cycle.state = .active .collar → depth < 600 → t.cycle.state = .active .collar
    ∧ (FlowSound s → TimersSound s → t.cycle.collarTimer = s.cycle.collarTimer)
  collarEnds : s.cycle.state = .active .collar → 600 ≤ depth → t.cycle.state = .active .drill
    ∧ t.cycle.collarTimer = .disarmed ∧ t.assembler.stallRef = t.assembler.maxDepth
    ∧ t.assembler.stallWindow = (if t.cycle.held then .paused 2000 else .running (after s.now 2000)) ∧ NoticePlaced t
  drillStays : s.cycle.state = .active .drill → t.cycle.state = .active .drill
  stallStarts : s.cycle.state = .active .drill → s.assembler.stallRef + 10 ≤ depth → t.assembler.stallRef = depth
    ∧ t.assembler.stallWindow = (if t.cycle.held then .paused 2000 else .running (after s.now 2000))
  stallStays : s.cycle.state = .active .drill → depth < s.assembler.stallRef + 10 →
    t.assembler.stallRef = s.assembler.stallRef
      ∧ (FlowSound s → TimersSound s → t.assembler.stallWindow = s.assembler.stallWindow)

/-- A placed sample, before the tests: what they read. -/
structure Placed (s : State) (depth : Nat) (u : State) : Prop where
  cycle : u.cycle = s.cycle
  linkUp : u.sensor.live.linkUp = true
  maxDepth : u.assembler.maxDepth = depth
  stall : u.assembler.stallWindow = s.assembler.stallWindow ∧ u.assembler.stallRef = s.assembler.stallRef
  flow : u.flow = s.flow ∧ u.host.config = s.host.config ∧ u.canopySet = s.canopySet

/-- A sample that neither test acts on leaves the timers of both phases: HELD is as it was (01 R4). -/
theorem Placed.timers_stay {s u : State} {depth : Nat} (h : Placed s depth u) (old : State) (hf : FlowSound s)
    (ht : TimersSound s) : (event old u).cycle.collarTimer = s.cycle.collarTimer
      ∧ (event old u).assembler.stallWindow = s.assembler.stallWindow := by
  obtain ⟨hflow, hconfig, hcanopy⟩ := h.flow
  have hheld := event_held_of_flowSound old s u hf (by rw [h.cycle]) hconfig hflow hcanopy
  have hruns : ∀ p, phaseRuns (event old u) p = phaseRuns s p := phaseRuns_congr (by simp [h.cycle]) hheld
  obtain ⟨hc, -, hs, -⟩ := event_timers old u
  rw [hc, hs, hruns, hruns, h.cycle, h.stall.1]
  exact ⟨Timer.sync_of_follows ht.collar, Timer.sync_of_follows ht.stall⟩

theorem event_depthTests {s u old : State} {depth : Nat} (h : Placed s depth u) (hold : old.cycle.state = s.cycle.state)
    (hs : s.cycle.state = .active .collar ∨ s.cycle.state = .active .drill) (hd : depth < s.cycle.planned * 200) :
    DepthTested s depth (event old (depthTests u)) := by
  have hnow : u.now = s.now := by simp only [State.now, h.cycle]
  have hcases := depthTests_cases (s := u) (by rwa [h.cycle]) h.linkUp (by rwa [h.maxDepth, h.cycle])
  rw [h.cycle, h.maxDepth, h.stall.2] at hcases
  rcases hcases with ⟨hc, hge, ht⟩ | ⟨hc, hge, ht⟩ | ⟨hcollar, hdrill, ht⟩ <;> rw [ht]
  · have hwindow := event_stallWindow old (w := drillEntered u) (left := 2000) rfl rfl
    rw [show (drillEntered u).now = s.now from hnow] at hwindow
    have hcollar : (event old (drillEntered u)).cycle.collarTimer = .disarmed := by
      rw [(event_timers old _).1, show (drillEntered u).cycle.collarTimer = .disarmed from rfl, sync_disarmed]
    exact ⟨fun _ hlt => absurd hge (by omega),
      fun _ _ => ⟨by simp [drillEntered], hcollar, by simp [drillEntered, restartStall], hwindow,
        event_noticePlaced (by simp [drillEntered, hold, hc]) (by simp [drillEntered])⟩,
      fun hn => by simp [hc] at hn, fun hn => by simp [hc] at hn, fun hn => by simp [hc] at hn⟩
  · have hst : (restartStall u).cycle.state = .active .drill := by simp [h.cycle, hc]
    have hwindow := event_stallWindow old (w := restartStall u) (left := 2000) hst rfl
    rw [show (restartStall u).now = s.now from hnow] at hwindow
    exact ⟨fun hn => by simp [hc] at hn, fun hn => by simp [hc] at hn, fun _ => by simpa using hst,
      fun _ _ => ⟨by simp [restartStall, h.maxDepth], hwindow⟩, fun _ hlt => absurd hge (by omega)⟩
  · have hst : (event old u).cycle.state = s.cycle.state := by simp [h.cycle]
    have hstay := h.timers_stay old
    exact ⟨fun hc _ => ⟨hst.trans hc, fun hf ht => (hstay hf ht).1⟩, fun hc hge => absurd (hcollar hc) (by omega),
      hst.trans, fun hc hge => absurd (hdrill hc) (by omega),
      fun _ _ => ⟨by simp [h.stall.2], fun hf ht => (hstay hf ht).2⟩⟩

/-! ### The sample placed (02 R39, R40) -/

/-- A sample within the cell in assembly raises the maximum depth and is accumulated (02 R39). -/
theorem placeSample_within {s : State} {x : Sample} {k : Nat} (hc : s.assembler.cell = some k) (hk : x.feed < (k + 1) * 200)
    (hd : x.feed < s.cycle.planned * 200) : (placeSample x s).history = s.history ∧ (placeSample x s).assembler =
      ({ s.assembler with maxDepth := max s.assembler.maxDepth x.feed } : AssemblerBlock).accumulate x := by
  have hc' : (raiseDepth x s).assembler.cell = some k := hc
  have hd' : ¬(raiseDepth x s).cycle.planned * 200 ≤ x.feed := Nat.not_le.2 hd
  simp only [placeSample, hc', if_neg hd', if_neg (show ¬k < x.feed / 200 by omega)]
  exact ⟨rfl, rfl⟩

/-- A sample beyond the cell in assembly, short of the planned depth (02 R40). -/
theorem placeSample_crossing {s : State} {x : Sample} {k : Nat} (hc : s.assembler.cell = some k) (hk : k < x.feed / 200)
    (hd : x.feed / 200 < s.cycle.planned) : placeSample x s =
      (handOn (closedUpTo s k (x.feed / 200)) (raiseDepth x s)).onAssembler fun a =>
        (a.openCell (x.feed / 200)).accumulate x := by
  have hc' : (raiseDepth x s).assembler.cell = some k := hc
  have hd' : ¬(raiseDepth x s).cycle.planned * 200 ≤ x.feed := show ¬s.cycle.planned * 200 ≤ x.feed by omega
  have hcells : closedUpTo (raiseDepth x s) k (x.feed / 200) = closedUpTo s k (x.feed / 200) := rfl
  simp only [placeSample, hc', if_neg hd', if_pos hk, hcells]

theorem accumulate_of_capped {a : AssemblerBlock} (h : a.capped = true) (x : Sample) : a.accumulate x = a := if_pos h

theorem accumulate_of_open {a : AssemblerBlock} (h : a.capped = false) (x : Sample) : a.accumulate x =
    { a with n := a.n + 1, rotary := a.rotary + x.torque * x.speed, thrust := a.thrust + x.thrust,
             capped := a.n + 1 == 4095 } := if_neg (by simp [h])

/-- A sample accumulated changes the cell's sums only (02 R39). -/
theorem accumulate_only (a : AssemblerBlock) (x : Sample) : ∃ n rotary thrust capped, a.accumulate x =
    { a with n := n, rotary := rotary, thrust := thrust, capped := capped } := by
  cases h : a.capped
  · exact ⟨_, _, _, _, accumulate_of_open h x⟩
  · exact ⟨_, _, _, _, accumulate_of_capped h x⟩

@[simp] theorem accumulate_maxDepth (a : AssemblerBlock) (x : Sample) : (a.accumulate x).maxDepth = a.maxDepth := by
  obtain ⟨_, _, _, _, h⟩ := accumulate_only a x
  rw [h]

@[simp] theorem accumulate_stallRef (a : AssemblerBlock) (x : Sample) : (a.accumulate x).stallRef = a.stallRef := by
  obtain ⟨_, _, _, _, h⟩ := accumulate_only a x
  rw [h]

/-- Wherever the sample is placed, it raises the maximum depth (02 R39) and leaves the stall window and its reference. -/
theorem placeSample_maxDepth (x : Sample) (s : State) :
    (placeSample x s).assembler.maxDepth = max s.assembler.maxDepth x.feed := by
  simp only [placeSample]
  split <;> try split_ifs
  all_goals simp [raiseDepth, AssemblerBlock.openCell]

theorem placeSample_stallRef (x : Sample) (s : State) : (placeSample x s).assembler.stallRef = s.assembler.stallRef := by
  simp only [placeSample]
  split <;> try split_ifs
  all_goals simp [AssemblerBlock.openCell]

theorem placeSample_placed {s : State} {p : SensorBlock} (x : Sample) (hl : p.live.linkUp = true) :
    Placed s (max s.assembler.maxDepth x.feed) (placeSample x { s with sensor := p }) :=
  ⟨by simp, by simpa using hl, placeSample_maxDepth _ _, ⟨by simp, placeSample_stallRef _ _⟩, by simp, by simp, by simp⟩

theorem placeSample_cycleFrame (x : Sample) (s : State) : CycleFrame s (placeSample x s) :=
  ⟨by simp, by simp, by simp, by simp, by simp, by simp, by simp, by simp, by simp⟩

/-- The event of a sample that stays above the planned depth, on the state with the port `p` in which the sample is stored: the
tests leave the ring and the cell as the placement has left them. -/
theorem exec_placedSample {s : State} {bytes : List SrxByte} {raw : Sample} (hheld : s.resetHeld = false)
    (hh : Hunting s bytes) (hg : goodRecord bytes = true) (hraw : rawSample (bytes.map SrxByte.value) = some raw)
    (hs : s.cycle.state = .active .collar ∨ s.cycle.state = .active .drill)
    (hd : max s.assembler.maxDepth raw.clamp.feed < s.cycle.planned * 200) :
    ∃ p t, exec (.sampleRecord (srxLine bytes)) s = .next t ∧ CycleFrame s t ∧ FlowFollows t
      ∧ DepthTested s (max s.assembler.maxDepth raw.clamp.feed) t
      ∧ t.history = (placeSample raw.clamp { s with sensor := p }).history
      ∧ SameCell (placeSample raw.clamp { s with sensor := p }).assembler t.assembler := by
  obtain ⟨p, hlink, hp⟩ := storeSample_only raw s
  have hexec := exec_goodRecord hheld hh hg hraw
  rw [hp, handSample_drilling (by exact hs)] at hexec
  have hplaced := placeSample_placed (s := s) raw.clamp hlink
  have hframe := placeSample_cycleFrame raw.clamp { s with sensor := p }
  refine ⟨p, _, hexec, ?_, event_flowFollows _ _, event_depthTests hplaced rfl hs hd, ?_⟩
  · have htests := depthTests_cycleFrame (placeSample raw.clamp { s with sensor := p })
    exact event_cycleFrame (htests.of_work hframe.pins hframe.pending ⟨hframe.config, hframe.stack⟩
      ⟨hframe.peers, hframe.schedule⟩ hframe.hole hframe.window hframe.line)
  · obtain ⟨hhistory, hcell⟩ := depthTests_leave (s := placeSample raw.clamp { s with sensor := p })
      (by rwa [hplaced.cycle]) hplaced.linkUp (by rwa [hplaced.maxDepth, hplaced.cycle])
    exact ⟨by rw [event_history, hhistory], hcell.trans (event_sameCell _ _)⟩

/-! ### A sample within the cell -/

/-- Settles O15: the sample stays in its cell, so that the tests run on the same ring and the same watch inputs. -/
theorem sampleIsAccumulated : Obligations.SampleIsAccumulated := by
  intro s bytes raw k hheld hh hg hraw hs hc hk hfeed hmax
  obtain ⟨p, t, hexec, hframe, hflow, htests, hhistory, hcell⟩ := exec_placedSample hheld hh hg hraw hs (by omega)
  obtain ⟨hsame, hassembler⟩ := placeSample_within (s := { s with sensor := p }) hc hk hfeed
  rw [hsame] at hhistory
  rw [hassembler] at hcell
  obtain ⟨_, _, _, _, honly⟩ := accumulate_only
    { s.assembler with maxDepth := max s.assembler.maxDepth raw.clamp.feed } raw.clamp
  have hkept := honly ▸ hcell
  refine ⟨t, hexec, hframe, hhistory, hkept.cell.trans hc, hkept.maxDepth, hkept.tainted, hkept.voidCell, hkept.softCell,
    hkept.hardCell, fun hcap => ?_, fun hcap => ?_, htests.collarStays, fun h1 h2 => ?_, htests.drillStays,
    htests.stallStarts, htests.stallStays⟩
  · rw [accumulate_of_capped (by exact hcap)] at hcell
    exact ⟨hcell.n, hcell.rotary, hcell.thrust, hcell.capped.trans hcap⟩
  · rw [accumulate_of_open (by exact hcap)] at hcell
    exact ⟨hcell.n, hcell.rotary, hcell.thrust, hcell.capped⟩
  · obtain ⟨hst, hcollar, href, hwindow, hnotice⟩ := htests.collarEnds h1 h2
    exact ⟨hst, hcollar, href, hwindow, hflow, hnotice⟩

/-! ### A sample beyond the cell -/

/-- The last cell closed is the cell in assembly, or a SKIPPED one where cells are jumped (02 R40). -/
theorem getLast_closedUpTo {s : State} {k stop : Nat} (h : k < stop) : (closedUpTo s k stop).getLast? =
    some (if stop = k + 1 then cellRecord s.cfg s.assembler else emptyCell .skipped) := by
  by_cases hs : stop = k + 1
  · simp [closedUpTo, hs]
  · obtain ⟨m, hm⟩ : ∃ m, stop - (k + 1) = m + 1 := ⟨stop - k - 2, by omega⟩
    rw [closedUpTo, hm, if_neg hs, List.replicate_succ', ← List.cons_append, List.getLast?_concat]

/-- The watch inputs take the class of the last cell closed (02 R41). -/
theorem watchLast_eq {closed : List CellRecord} {c : CellRecord} (h : closed.getLast? = some c) (a : AssemblerBlock) :
    a.watchLast closed = { a with voidCell := c.cls == .void, softCell := c.cls == .soft, hardCell := c.cls == .hard } := by
  simp only [AssemblerBlock.watchLast, h]

/-- The cells closed stand in the OPEN record, which has room for them (02 R41, 10 R164). -/
theorem onOpen_closedUpTo {records : List HoleRecord} {s : State} {k stop planned : Nat} (hk : k < stop)
    (hp : stop < planned) (hr : ∀ r ∈ records, r.isOpen = true → r.cells.length = k ∧ r.planned = planned) :
    onOpen (fun r => (closedUpTo s k stop).foldl HoleRecord.append r) records =
      onOpen (fun r => { r with cells := r.cells ++ closedUpTo s k stop }) records := by
  refine onOpen_congr fun r hm ho => foldl_append_cells _ r ?_
  obtain ⟨h1, h2⟩ := hr r hm ho
  simp only [closedUpTo, List.length_cons, List.length_replicate]
  omega

/-- The assembler with the sample in the cell it has opened (02 R40, R41). -/
theorem placeSample_crossing_assembler {s : State} {x : Sample} {k : Nat} (hc : s.assembler.cell = some k)
    (hk : k < x.feed / 200) (hd : x.feed / 200 < s.cycle.planned) :
    let last := if x.feed / 200 = k + 1 then cellRecord s.cfg s.assembler else emptyCell .skipped
    (placeSample x s).assembler =
      { s.assembler with
        cell := some (x.feed / 200), n := 1, rotary := x.torque * x.speed, thrust := x.thrust, capped := false
        tainted := false, maxDepth := max s.assembler.maxDepth x.feed
        voidCell := last.cls == .void, softCell := last.cls == .soft, hardCell := last.cls == .hard } := by
  intro last
  have hon : (handOn (closedUpTo s k (x.feed / 200)) (raiseDepth x s)).assembler =
      (raiseDepth x s).assembler.watchLast (closedUpTo s k (x.feed / 200)) := rfl
  rw [placeSample_crossing hc hk hd, State.onAssembler_assembler, accumulate_of_open rfl, hon,
    watchLast_eq (getLast_closedUpTo hk)]
  simp [AssemblerBlock.openCell, raiseDepth, last]

/-- Settles O16: the cells are closed into the ring when the sample is placed, before the tests. -/
theorem crossingClosesCells : Obligations.CrossingClosesCells := by
  intro s bytes raw k j hheld hh hg hraw hs hc hj hkj hplanned hmax hopen
  subst hj
  obtain ⟨p, t, hexec, hframe, hflow, htests, hhistory, hcell⟩ := exec_placedSample hheld hh hg hraw hs (by omega)
  rw [placeSample_crossing (s := { s with sensor := p }) hc hkj hplanned] at hhistory
  rw [placeSample_crossing_assembler (s := { s with sensor := p }) hc hkj hplanned] at hcell
  refine ⟨t, hexec, hframe, ?_, by simpa using congrArg HistoryBlock.free hhistory, hcell.cell, hcell.n, hcell.rotary,
    hcell.thrust, hcell.capped, hcell.tainted, hcell.maxDepth, ?_, hflow, htests.collarStays, htests.collarEnds,
    htests.drillStays, htests.stallStarts, htests.stallStays⟩
  · rw [hhistory]
    exact onOpen_closedUpTo hkj hplanned hopen
  · rw [hcell.voidCell, hcell.softCell, hcell.hardCell]
    split_ifs <;> rfl

end Sys2Proof.Machine
end

section
/-! PROOFS. The energy unit: the class of a closing cell, its record, and the ranges of its figures (03). -/

namespace Sys2Proof.Machine

/-! ### The class of a closing cell -/

section Class
variable {c : Configuration} {n se mean : Nat}

@[simp] theorem cellClass_tainted : cellClass c true n se mean = .lost := rfl

@[simp] theorem cellClass_noSamples : cellClass c false 0 se mean = .skipped := rfl

/-- A cell with samples and no taint is classed by its rock (03 R55 orders 3 to 6). -/
theorem cellClass_sampled (hn : 0 < n) : cellClass c false n se mean = rockClass c n se mean := by
  simp [cellClass, hn.ne']

theorem rockClass_void (hn : n ≤ c.voidN) (hm : mean < c.voidThrust) : rockClass c n se mean = .void := by
  simp [rockClass, hn, hm]

theorem rockClass_soft (hv : ¬(n ≤ c.voidN ∧ mean < c.voidThrust)) (hs : se < c.softThreshold) :
    rockClass c n se mean = .soft := by
  rw [rockClass, if_neg hv, if_pos hs]

theorem rockClass_hard (hv : ¬(n ≤ c.voidN ∧ mean < c.voidThrust)) (hs : c.softThreshold ≤ se)
    (hh : c.hardThreshold ≤ se) : rockClass c n se mean = .hard := by
  rw [rockClass, if_neg hv, if_neg hs.not_gt, if_pos hh]

theorem rockClass_medium (hv : ¬(n ≤ c.voidN ∧ mean < c.voidThrust)) (hs : c.softThreshold ≤ se)
    (hh : se < c.hardThreshold) : rockClass c n se mean = .medium := by
  rw [rockClass, if_neg hv, if_neg hs.not_gt, if_neg hh.not_ge]

end Class

/-! ### The cell record -/

theorem cellRecord_noSamples {c : Configuration} {a : AssemblerBlock} (hn : a.n = 0) :
    cellRecord c a = emptyCell (if a.tainted then .lost else .skipped) := by
  rw [cellRecord, if_pos hn]

theorem cellRecord_sampled {c : Configuration} {a : AssemblerBlock} (hn : 0 < a.n) :
    let energy := rotaryEnergy a.rotary + thrustEnergy a.thrust a.n
    let se := specificEnergyOf c.bitSize energy
    cellRecord c a = ⟨cellClass c a.tainted a.n se (a.thrust / a.n), a.n, energy, se, a.thrust / a.n, a.capped⟩ := by
  rw [cellRecord, if_neg hn.ne']

/-- Settles O18: one equation per row of the class table, and one per form of the cell record. -/
theorem cellClassFollowsTheTable : Obligations.CellClassFollowsTheTable := by
  refine ⟨fun c tainted n se mean => ⟨?lost, ?skipped, ?void, ?rock⟩, fun c a => ⟨?noSamples, ?sampled⟩⟩
  case lost => rintro rfl; exact cellClass_tainted
  case skipped => rintro rfl rfl; exact cellClass_noSamples
  case void =>
    rintro rfl hn hv hm
    rw [cellClass_sampled hn, rockClass_void hv hm]
  case rock =>
    rintro rfl hn hv
    rw [cellClass_sampled hn]
    exact ⟨rockClass_soft hv, rockClass_hard hv, rockClass_medium hv⟩
  case noSamples => exact cellRecord_noSamples
  case sampled =>
    rintro hn energy se mean rfl rfl rfl
    exact cellRecord_sampled hn

/-! ### The ranges of the figures -/

/-- The rotary sum of a cell: n stops at 4095, torque and speed at 1023 (03 R54). -/
theorem rotarySum_le {n rotary : Nat} (hn : n ≤ 4095) (hr : rotary ≤ n * (1023 * 1023)) : rotary ≤ 4285536255 := by
  omega

theorem rotaryEnergy_le {rotary : Nat} (h : rotary ≤ 4285536255) : rotaryEnergy rotary ≤ 897609 := by
  unfold rotaryEnergy
  omega

/-- Each sample brings at most 600, so 4 ΣT + n is at most 2401 n, and half of 2401 rounds down to 1200 (03 R50). -/
theorem thrustEnergy_le {thrust n : Nat} (hn : 1 ≤ n) (ht : thrust ≤ n * 600) : thrustEnergy thrust n ≤ 1200 := by
  have hlt : 4 * thrust + n < 1201 * (2 * n) := by omega
  exact Nat.le_of_lt_succ ((Nat.div_lt_iff_lt_mul (by omega)).2 hlt)

theorem specificEnergyOf_mono {bit : BitSize} {energy top : Nat} (h : energy ≤ top) :
    specificEnergyOf bit energy ≤ specificEnergyOf bit top :=
  Nat.div_le_div_right (Nat.add_le_add_right (Nat.mul_le_mul_right _ h) _)

/-- The highest specific energy of each bit, at the highest cell energy (03 R52's table). -/
theorem specificEnergyOf_top : specificEnergyOf .mm27 898809 = 784908 ∧ specificEnergyOf .mm35 898809 = 467097 := by
  norm_num [specificEnergyOf, BitSize.volumeConstant]

theorem meanThrust_le {thrust n : Nat} (ht : thrust ≤ n * 600) : thrust / n ≤ 600 :=
  Nat.div_le_of_le_mul ht

/-- Settles O19: each stage is monotone, so it is bounded by its value at the largest sums. -/
theorem energyFiguresStayInRange : Obligations.EnergyFiguresStayInRange := by
  intro n rotary thrust hn hcap hr ht
  have hrotary := rotarySum_le hcap hr
  have hrot := rotaryEnergy_le hrotary
  have hthr := thrustEnergy_le hn ht
  have henergy : rotaryEnergy rotary + thrustEnergy thrust n ≤ 898809 := by omega
  obtain ⟨h27, h35⟩ := specificEnergyOf_top
  have hse27 := (specificEnergyOf_mono henergy).trans_eq h27
  have hse35 := (specificEnergyOf_mono henergy).trans_eq h35
  refine ⟨hrotary, ?_, hrot, ?_, ?_, hthr, henergy, ?_, ?_, hse27, hse35, meanThrust_le ht, by norm_num⟩ <;> omega

end Sys2Proof.Machine
end

