-- ==== Sys2Proof/Proofs/LineBlock.lean ====
section
/-! PROOFS. What the operations of the link controller keep of its block: the queue, MUTE, and the bits of the frame on the
line (09 R141 to R158). -/

namespace Sys2Proof.Machine

/-! ### The invariant of the block -/

/-- A notice that may wait in the queue, or be sent from it: at most eight voids (04 R67). -/
def HoleNotice.fits (n : HoleNotice) : Prop := n.voids.length ≤ 8

/-- A frame of the part's own of which the bits `read` have been read back, and one at least has not (09 R151). -/
def PartlySent (f : LinkFrame) (read : List Bool) : Prop :=
  f.payload.length ≤ 38 ∧ crcGood f = true ∧ read.isPrefixOf (frameBits f) = true ∧ read.length < (frameBits f).length

/-- LinkSound of the block by itself. Where `ending` is true, the bits read may be a whole frame, whose end has still to be
taken: so it is between the last bit of a frame and the end of that frame (09 R143). -/
structure LineSound (ending : Bool) (l : LinkBlock) : Prop where
  queue : l.queue.length ≤ 4 ∧ ∀ n ∈ l.queue, n.fits
  sending : l.tx.isSome = true → l.view = .frame
  muted : l.mute.isSome = true → l.tx = none ∧ l.slot = none ∧ l.queue = []
  outside : l.view ≠ .frame → l.assembly = []
  readBack : ∀ f, l.tx = some f → PartlySent f l.assembly
  receiving : l.view = .frame → l.tx = none → l.assembly ≠ [] ∧ (ending = false → frameWhole l.assembly = false)

theorem linkSound_iff (s : State) : LinkSound s ↔
    LineSound false s.link ∧ (s.link.view == .off) = (s.cycle.state == .unconfigured) :=
  ⟨fun h => ⟨⟨h.queue, h.sending, h.muted, h.outside, h.readBack,
      fun hv ht => ⟨(h.receiving hv ht).1, fun _ => (h.receiving hv ht).2⟩⟩, h.off⟩,
    fun ⟨h, ho⟩ => ⟨h.queue, h.sending, h.muted, ho, h.outside, h.readBack,
      fun hv ht => ⟨(h.receiving hv ht).1, (h.receiving hv ht).2 rfl⟩⟩⟩

/-- Outside FRAME the station sends nothing. -/
theorem LineSound.silent {e : Bool} {l : LinkBlock} (h : LineSound e l) (hv : l.view ≠ .frame) : l.tx = none := by
  by_contra ht
  exact hv (h.sending (Option.isSome_iff_ne_none.2 ht))

/-- A station that sends is not muted. -/
theorem LineSound.unmuted {e : Bool} {l : LinkBlock} {f : LinkFrame} (h : LineSound e l) (ht : l.tx = some f) :
    l.mute = none := by
  by_contra hm
  simp [(h.muted (Option.isSome_iff_ne_none.2 hm)).1] at ht

/-! ### What the operations on the line leave of the notices -/

/-- From `l` to `m` MUTE stays, and no notice joins the slot or the queue. -/
structure NoNewNotice (l m : LinkBlock) : Prop where
  mute : m.mute = l.mute
  slot : l.slot = none → m.slot = none
  queue : m.queue.Sublist l.queue

section Operations

variable {e e' : Bool} {l m : LinkBlock}

theorem LineSound.queue_of (h : LineSound e l) (k : NoNewNotice l m) : m.queue.length ≤ 4 ∧ ∀ n ∈ m.queue, n.fits :=
  ⟨k.queue.length_le.trans h.queue.1, fun n hn => h.queue.2 n (k.queue.subset hn)⟩

theorem LineSound.muted_of (h : LineSound e l) (k : NoNewNotice l m) (ht : m.tx = none) (hm : m.mute.isSome = true) :
    m.tx = none ∧ m.slot = none ∧ m.queue = [] := by
  obtain ⟨-, hs, hq⟩ := h.muted (k.mute ▸ hm)
  exact ⟨ht, k.slot hs, List.sublist_nil.1 (hq ▸ k.queue)⟩

/-- The line leads outside FRAME. -/
theorem LineSound.leaves (h : LineSound e l) (k : NoNewNotice l m) (hv : m.view ≠ .frame) (ht : m.tx = none)
    (ha : m.assembly = []) : LineSound e' m where
  queue := h.queue_of k
  sending := by simp [ht]
  muted := h.muted_of k ht
  outside := fun _ => ha
  readBack := by simp [ht]
  receiving := fun hf => absurd hf hv

/-- The station follows a frame as a receiver. -/
theorem LineSound.follows (h : LineSound e l) (k : NoNewNotice l m) (hv : m.view = .frame) (ht : m.tx = none)
    (ha : m.assembly ≠ []) (hw : e' = false → frameWhole m.assembly = false) : LineSound e' m where
  queue := h.queue_of k
  sending := by simp [ht]
  muted := h.muted_of k ht
  outside := fun hn => absurd hv hn
  readBack := by simp [ht]
  receiving := fun _ _ => ⟨ha, hw⟩

/-- The station sends a frame of its own. -/
theorem LineSound.sends (h : LineSound e l) (k : NoNewNotice l m) (hm : l.mute = none) (hv : m.view = .frame)
    {f : LinkFrame} (ht : m.tx = some f) (hf : PartlySent f m.assembly) : LineSound e' m where
  queue := h.queue_of k
  sending := fun _ => hv
  muted := by simp [k.mute, hm]
  outside := fun hn => absurd hv hn
  readBack := by simpa [ht] using hf
  receiving := fun _ hn => by simp [ht] at hn

/-! ### The bits of the line -/

theorem LineSound.recessive (h : LineSound e l) (n : Nat) : LineSound e { l with recessive := n } :=
  ⟨h.queue, h.sending, h.muted, h.outside, h.readBack, h.receiving⟩

theorem LineSound.await (h : LineSound e l) (n : Nat) : LineSound e (l.await n) := h.recessive _

/-- 544 recessive bits in a row lead to GAP (09 R141). -/
theorem LineSound.opened (h : LineSound e l) (hv : l.view = .seeking) :
    LineSound e' { l with view := .gap, recessive := 544 } :=
  h.leaves ⟨rfl, id, .refl _⟩ (by simp) (h.silent (by simp [hv])) (h.outside (by simp [hv]))

theorem LineSound.seekBit (h : LineSound e l) (hv : l.view = .seeking) (bit : Bool) : LineSound e (l.seekBit bit) := by
  unfold LinkBlock.seekBit
  split_ifs
  · exact h.recessive 0
  · exact h.opened hv
  · exact h.recessive _

/-- A lead bit begins a frame that the station follows (09 R141). -/
theorem LineSound.gapBit (h : LineSound e l) (hv : l.view = .gap) (bit : Bool) : LineSound e (l.gapBit bit) := by
  unfold LinkBlock.gapBit
  split_ifs
  · exact h.recessive _
  · exact h.follows ⟨rfl, id, .refl _⟩ rfl (h.silent (by simp [hv])) (by simp) fun _ => rfl

/-- A bit joins the frame that the station follows, and may be its last. -/
theorem LineSound.joins (h : LineSound e l) (hv : l.view = .frame) (ht : l.tx = none) (bit : Bool) :
    LineSound true { l with assembly := l.assembly ++ [bit] } :=
  h.follows ⟨rfl, id, .refl _⟩ hv ht (by simp) nofun

theorem LineSound.endReceived (h : LineSound e l) (ht : l.tx = none) (good : Bool) : LineSound e' (l.endReceived good) :=
  h.leaves ⟨rfl, id, .refl _⟩ (by cases good <;> simp [LinkBlock.endReceived]) ht rfl

/-! ### The own frame -/

/-- The frame sent joins the bits read back, short of its last one (09 R151). -/
theorem PartlySent.next {f : LinkFrame} {read : List Bool} {bit : Bool} (h : PartlySent f read)
    (hb : (frameBits f)[read.length]? = some bit) (hl : read.length + 1 ≠ (frameBits f).length) :
    PartlySent f (read ++ [bit]) := by
  obtain ⟨hp, hc, hpre, hlt⟩ := h
  obtain ⟨rest, hrest⟩ := List.isPrefixOf_iff_prefix.1 hpre
  obtain ⟨b, rest, rfl⟩ : ∃ b more, rest = b :: more := by
    refine List.exists_cons_of_ne_nil ?_
    rintro rfl
    simp [← hrest] at hlt
  obtain rfl : b = bit := by simpa [← hrest] using hb
  refine ⟨hp, hc, List.isPrefixOf_iff_prefix.2 ⟨rest, by simpa using hrest⟩, ?_⟩
  simp only [List.length_append, List.length_singleton]
  omega

theorem LineSound.matches (h : LineSound e l) {f : LinkFrame} (hv : l.view = .frame) (ht : l.tx = some f) {bit : Bool}
    (hb : (frameBits f)[l.assembly.length]? = some bit) (hl : l.assembly.length + 1 ≠ (frameBits f).length) :
    LineSound e { l with assembly := l.assembly ++ [bit] } :=
  h.sends ⟨rfl, id, .refl _⟩ (h.unmuted ht) hv ht ((h.readBack f ht).next hb hl)

/-- The own frame at its end: the notice with the on-line mark leaves the slot or the queue (09 R153). -/
theorem LineSound.sent (h : LineSound e l) : LineSound e' { l.dropSent with
    tx := none, ownLast := true, view := .gap, recessive := 0, assembly := [] } := by
  refine h.leaves ⟨rfl, fun hs => by simp [LinkBlock.dropSent, hs], ?_⟩ (by simp) rfl rfl
  simp only [LinkBlock.dropSent]
  split_ifs
  · exact List.drop_sublist _ _
  · exact .refl _

theorem NoNewNotice.unmark (l : LinkBlock) : NoNewNotice l l.unmark :=
  ⟨rfl, fun hs => by simp [LinkBlock.unmark, hs], .refl _⟩

theorem LineSound.faulted (h : LineSound e l) : LineSound e' { l.unmark with
    tx := none, txFault := true, view := .seeking, recessive := 0, ownLast := false, assembly := [] } :=
  h.leaves ⟨rfl, (NoNewNotice.unmark l).slot, .refl _⟩ (by simp) rfl rfl

/-- The station follows the frame that overrode its own (09 R151). -/
theorem LineSound.follow (h : LineSound e l) (hv : l.view = .frame) (f : LinkFrame) (bit : Nat) :
    LineSound true (l.follow f bit) :=
  h.follows ⟨rfl, (NoNewNotice.unmark l).slot, .refl _⟩ hv rfl (by simp [LinkBlock.follow]) nofun

/-- Arbitration lost in the kind or station field: the header is not read yet, and the frame goes on (09 R151). -/
theorem LineSound.follow_header (h : LineSound e l) (hv : l.view = .frame) (f : LinkFrame) {bit : Nat} (hb : bit ≤ 6) :
    LineSound e' (l.follow f bit) := by
  refine h.follows ⟨rfl, (NoNewNotice.unmark l).slot, .refl _⟩ hv rfl (by simp [LinkBlock.follow]) fun _ => ?_
  have : ¬13 ≤ ((l.follow f bit).assembly).length := by
    simp only [LinkBlock.follow, List.length_append, List.length_take, List.length_singleton]
    omega
  simp [frameWhole, this]

/-- MUTE set in a station that sends nothing (09 R155). -/
theorem LineSound.mute (h : LineSound e l) (ht : l.tx = none) (cause : MuteCause) : LineSound e { l with
    tx := none, slot := none, queue := [], queueOnLine := false, mute := some cause } where
  queue := ⟨by simp, by simp⟩
  sending := nofun
  muted := fun _ => ⟨rfl, rfl, rfl⟩
  outside := h.outside
  readBack := nofun
  receiving := fun hv _ => h.receiving hv ht

end Operations

/-! ### The frame a station chooses (09 R140, R145 to R150) -/

theorem crcGood_buildFrame (kind : BitVec 3) (station : Nat) (payload : List Byte) :
    crcGood (buildFrame kind station payload) = true := by simp [crcGood, buildFrame]

theorem length_encodeDemand (n : DemandNotice) : (encodeDemand n).length = 3 := rfl

theorem length_encodeVar (v : Nat) : (encodeVar v).length ≤ 2 := by
  unfold encodeVar
  split_ifs <;> simp [u8]

theorem length_encodeVoids (voids : List VoidInterval) :
    (voids.flatMap fun v => encodeVar v.start ++ encodeVar v.length).length ≤ 4 * voids.length := by
  induction voids with
  | nil => simp
  | cons v voids ih =>
    have := length_encodeVar v.start
    have := length_encodeVar v.length
    simp only [List.flatMap_cons, List.length_append, List.length_cons]
    omega

/-- Two bytes each for the row and the depth, one each for the slot with the verdict and for the count, and four for each of
eight voids (09 R147). -/
theorem length_encodeHole {n : HoleNotice} (h : n.fits) : (encodeHole n).length ≤ 38 := by
  have := length_encodeVar n.row
  have := length_encodeVar n.depth
  have := length_encodeVoids n.voids
  simp only [HoleNotice.fits] at h
  simp only [encodeHole, List.length_append, u8, List.length_singleton]
  omega

/-- A frame of at most 38 bytes with its CRC has all its bits still to be read back. -/
theorem partlySent_buildFrame (kind : BitVec 3) (station : Nat) {payload : List Byte} (h : payload.length ≤ 38) :
    PartlySent (buildFrame kind station payload) [] := by
  refine ⟨h, crcGood_buildFrame kind station payload, rfl, ?_⟩
  rw [length_frameBits, List.length_nil]
  omega

theorem chooseFrame_partlySent {station : Nat} {l : LinkBlock} {frame : LinkFrame} {fromSlot : Bool}
    (h : ∀ n ∈ l.queue, n.fits) (hc : chooseFrame station l = some (frame, fromSlot)) : PartlySent frame [] := by
  unfold chooseFrame at hc
  split at hc
  · obtain ⟨rfl, -⟩ := Prod.mk.inj (Option.some.inj hc)
    exact partlySent_buildFrame _ _ (by rw [length_encodeDemand]; omega)
  · split at hc
    · cases hc
    · rename_i oldest rest hq
      split_ifs at hc
      obtain ⟨rfl, -⟩ := Prod.mk.inj (Option.some.inj hc)
      exact partlySent_buildFrame _ _ (length_encodeHole (h oldest (by simp [hq])))

theorem NoNewNotice.markOnLine (l : LinkBlock) (fromSlot : Bool) : NoNewNotice l (l.markOnLine fromSlot) := by
  cases fromSlot
  · exact ⟨rfl, id, .refl _⟩
  · exact ⟨rfl, fun hs => by simp [LinkBlock.markOnLine, hs], .refl _⟩

/-- A station that starts is not muted and sends the frame it has chosen (09 R149, R150). -/
theorem startFrame_lineSound {e : Bool} {s : State} (hs : s.link.starts = true) (h : LineSound e s.link) :
    LineSound e (startFrame s).link := by
  simp only [LinkBlock.starts, Bool.and_eq_true, Option.isNone_iff_eq_none] at hs
  obtain ⟨⟨-, hm⟩, hn⟩ := hs
  obtain ⟨frame, fromSlot, hc, he⟩ := startFrame_of_notice hn
  obtain ⟨hmute, hslot, hqueue⟩ := NoNewNotice.markOnLine s.link fromSlot
  rw [he]
  exact h.sends ⟨hmute, hslot, hqueue⟩ hm rfl rfl (chooseFrame_partlySent h.queue.2 hc)

/-! ### The queue (09 R158) -/

/-- The queue after a notice of at most eight voids joins it; at a full queue a waiting one is dropped. -/
theorem queueHole_queue {n : HoleNotice} {s : State} (hn : n.fits)
    (h : s.link.queue.length ≤ 4 ∧ ∀ x ∈ s.link.queue, x.fits) :
    (queueHole n s).link.queue.length ≤ 4 ∧ ∀ x ∈ (queueHole n s).link.queue, x.fits := by
  have hd : (dropWaiting s.link.queueOnLine s.link.queue).length ≤ 3
      ∧ (dropWaiting s.link.queueOnLine s.link.queue) ⊆ s.link.queue := by
    unfold dropWaiting
    split_ifs
    · refine ⟨by simp only [List.length_append, List.length_take, List.length_drop]; omega, fun x hx => ?_⟩
      rcases List.mem_append.1 hx with hx | hx
      · exact List.mem_of_mem_take hx
      · exact List.mem_of_mem_drop hx
    · exact ⟨by simp only [List.length_drop]; omega, fun x => List.mem_of_mem_drop⟩
  have hjoin : ∀ q : List HoleNotice, q.length ≤ 3 → q ⊆ s.link.queue →
      (q ++ [n]).length ≤ 4 ∧ ∀ x ∈ q ++ [n], x.fits := by
    intro q hl hq
    refine ⟨by simp only [List.length_append, List.length_singleton]; omega, fun x hx => ?_⟩
    rcases List.mem_append.1 hx with hx | hx
    · exact h.2 x (hq hx)
    · rwa [List.mem_singleton.1 hx]
  simp only [queueHole, State.onLink_link]
  split_ifs with hm hl
  · exact h
  · exact hjoin _ (by omega) (List.Subset.refl _)
  · exact hjoin _ hd.1 hd.2

theorem queueHole_muted {n : HoleNotice} {s : State} (h : s.link.mute.isSome = true) :
    (queueHole n s).link.queue = s.link.queue := by simp [queueHole, h]

/-- The own notice names at most eight voids (04 R67). -/
theorem composeNotice_fits (station : Nat) (v : Verdict) (r : HoleRecord) : (composeNotice station v r).fits := by
  simp only [HoleNotice.fits, composeNotice, voidList, List.length_map, List.length_drop]
  omega

end Sys2Proof.Machine
end

