-- ==== Sys2Proof/Proofs/RigWorks.lean ====
section
/-! PROOFS. What an event of the cycle keeps of the link, the configuration and the two tables: it may announce a hole and
place a notice, and no more (04 R62 to R66, 08 R118, 09 R158, 11 R184). -/

namespace Sys2Proof.Machine

/-! ### The two tables -/

/-- An insertion removes the entry of the notice's place, or else the oldest of a full table (04 R63). -/
theorem insertInto_sublist (e : HoleNotice) (entries : List HoleNotice) : ∃ kept : List HoleNotice,
    (insertInto e entries).1 = kept ++ [e] ∧ kept.Sublist entries ∧ (entries.length ≤ 16 → kept.length ≤ 15)
      ∧ ∀ x ∈ kept, x.sameKey e = false := by
  unfold insertInto
  split_ifs with hany hfull
  · refine ⟨_, rfl, List.filter_sublist, fun hl => ?_, fun x hx => by simpa using (List.mem_filter.1 hx).2⟩
    obtain ⟨x, hx, hk⟩ := List.any_eq_true.1 hany
    have : (entries.filter fun x => !x.sameKey e).length < entries.length :=
      List.length_filter_lt_length_iff_exists.2 ⟨x, hx, by simp [hk]⟩
    omega
  all_goals
    have hno : ∀ x ∈ entries, x.sameKey e = false := by simpa using hany
  · exact ⟨_, rfl, List.drop_sublist _ _, fun hl => by simp only [List.length_drop]; omega,
      fun x hx => hno x (List.mem_of_mem_drop hx)⟩
  · exact ⟨_, rfl, .refl _, fun _ => by omega, hno⟩

theorem insertNotice_entries (n : HoleNotice) (s : State) :
    (insertNotice n s).neighbours.entries = (insertInto n s.neighbours.entries).1 := rfl

theorem insertNotice_neighboursSound (n : HoleNotice) {s : State} (h : NeighboursSound s) :
    NeighboursSound (insertNotice n s) := by
  obtain ⟨kept, he, hsub, hl, hk⟩ := insertInto_sublist n s.neighbours.entries
  have hlen := hl h.entries
  refine ⟨?_, ?_⟩ <;> rw [insertNotice_entries, he]
  · simp only [List.length_append, List.length_singleton]
    omega
  · rw [List.pairwise_append]
    refine ⟨h.keys.sublist hsub, List.pairwise_singleton _ _, fun a ha b hb => ?_⟩
    rw [List.mem_singleton.1 hb]
    exact hk a ha

/-- A DEMAND of another station keeps the peer table (08 R118, R119). -/
theorem upsertPeer_peersSound {s : State} (h : PeersSound s) {p : Peer} (hp : p.station < 6)
    (ho : p.station ≠ ownStation s) :
    PeersSound (s.onFlow fun b => { b with peers := upsertPeer p b.peers }) := by
  have he := upsertPeer_eq p s.flow.peers h.rising
  have hmem : ∀ q ∈ upsertPeer p s.flow.peers, q = p ∨ q ∈ s.flow.peers := by
    intro q hq
    simp only [he, List.mem_append, List.mem_cons, List.mem_filter] at hq
    tauto
  refine ⟨?_, fun q hq => ?_, fun c hc q hq => ?_⟩
  · show (upsertPeer p s.flow.peers).Pairwise _
    rw [he, List.pairwise_append, List.pairwise_cons]
    refine ⟨h.rising.filter _, ⟨fun q hq => ?_, h.rising.filter _⟩, fun a ha b hb => ?_⟩
    · simpa using (List.mem_filter.1 hq).2
    · have ha : a.station < p.station := by simpa using (List.mem_filter.1 ha).2
      rcases List.mem_cons.1 hb with rfl | hb
      · exact ha
      · exact ha.trans (by simpa using (List.mem_filter.1 hb).2)
  · rcases hmem q hq with rfl | hq
    exacts [hp, h.bounded q hq]
  · rcases hmem q hq with rfl | hq
    · have hc : s.host.config = some c := hc
      simpa [ownStation, State.cfg, hc] using ho
    · exact h.others c hc q hq

/-! ### What is kept -/

/-- The link, the configuration and the stroke agree with the cycle state: LinkSound, ConfigSound, and of CycleSound that
UNCONFIGURED has no stroke in progress. `ending` is LineSound's. -/
structure RigSound (ending : Bool) (s : State) : Prop where
  line : LineSound ending s.link
  off : (s.link.view == .off) = (s.cycle.state == .unconfigured)
  config : ConfigSound s
  noStroke : s.cycle.state = .unconfigured → s.resin.stroke ≠ .inProgress

/-- What is kept from `s` to `t`; `before` and `after` say where the end of a frame has still to be taken. -/
structure RigKeeps (before after : Bool) (s t : State) : Prop where
  neighbours : NeighboursSound s → NeighboursSound t
  peers : PeersSound s → PeersSound t
  rig : RigSound before s → RigSound after t

theorem RigKeeps.refl (e : Bool) (s : State) : RigKeeps e e s s := ⟨id, id, id⟩

theorem RigKeeps.trans {a b c : Bool} {s t u : State} (h : RigKeeps a b s t) (k : RigKeeps b c t u) : RigKeeps a c s u :=
  ⟨fun x => k.neighbours (h.neighbours x), fun x => k.peers (h.peers x), fun x => k.rig (h.rig x)⟩

theorem RigKeeps.ite {a b : Bool} {s t u : State} {c : Prop} [Decidable c] (h : c → RigKeeps a b s t)
    (k : ¬c → RigKeeps a b s u) : RigKeeps a b s (if c then t else u) := by split_ifs with hc; exacts [h hc, k hc]

/-- A run of events keeps what each of them keeps. -/
theorem RigKeeps.foldl {α : Type} {e : Bool} {f : State → α → State} (hf : ∀ s a, RigKeeps e e s (f s a)) (l : List α) :
    ∀ s, RigKeeps e e s (l.foldl f s) := by
  induction l with
  | nil => exact RigKeeps.refl e
  | cons a l ih => exact fun s => (hf s a).trans (ih _)

theorem NeighboursSound.congr {s t : State} (h : NeighboursSound s) (e : t.neighbours.entries = s.neighbours.entries) :
    NeighboursSound t := ⟨e ▸ h.entries, e ▸ h.keys⟩

theorem PeersSound.congr {s t : State} (h : PeersSound s) (hp : t.flow.peers = s.flow.peers)
    (hc : t.host.config = s.host.config) : PeersSound t := ⟨hp ▸ h.rising, hp ▸ h.bounded, hp ▸ hc ▸ h.others⟩

theorem ConfigSound.congr {s t : State} (h : ConfigSound s) (hc : t.host.config = s.host.config)
    (hs : (t.cycle.state == .unconfigured) = (s.cycle.state == .unconfigured)) (hp : t.flow.peers = s.flow.peers)
    (hsch : t.flow.schedule.isSome = s.flow.schedule.isSome) : ConfigSound t :=
  ⟨by rw [hc, hs]; exact h.stands, hc ▸ h.inRange, by rw [hc, hp]; exact h.peers, by rw [hsch, hc]; exact h.schedule⟩

/-- An operation of the link controller on its own block. -/
theorem RigKeeps.onLink {a b : Bool} {s : State} {f : LinkBlock → LinkBlock}
    (h : LineSound a s.link → LineSound b (f s.link)) (hv : ((f s.link).view == .off) = (s.link.view == .off)) :
    RigKeeps a b s (s.onLink f) :=
  ⟨fun x => x.congr rfl, fun x => x.congr rfl rfl,
    fun x => ⟨h x.line, hv.trans x.off, x.config.congr rfl rfl rfl rfl, x.noStroke⟩⟩

/-! ### What an event of the cycle may do -/

/-- The line is as it was, the queue keeps its bounds, and a muted station takes no notice (09 R155, R158). -/
structure SameLine (l m : LinkBlock) : Prop where
  view : m.view = l.view
  tx : m.tx = l.tx
  assembly : m.assembly = l.assembly
  mute : m.mute = l.mute
  muted : l.mute.isSome = true → m.slot = l.slot ∧ m.queue = l.queue
  queue : (l.queue.length ≤ 4 ∧ ∀ n ∈ l.queue, n.fits) → m.queue.length ≤ 4 ∧ ∀ n ∈ m.queue, n.fits

theorem SameLine.refl (l : LinkBlock) : SameLine l l := ⟨rfl, rfl, rfl, rfl, fun _ => ⟨rfl, rfl⟩, id⟩

theorem SameLine.trans {l m n : LinkBlock} (h : SameLine l m) (k : SameLine m n) : SameLine l n where
  view := k.view.trans h.view
  tx := k.tx.trans h.tx
  assembly := k.assembly.trans h.assembly
  mute := k.mute.trans h.mute
  muted := fun hm =>
    have hk := k.muted (h.mute.symm ▸ hm)
    ⟨hk.1.trans (h.muted hm).1, hk.2.trans (h.muted hm).2⟩
  queue := fun hq => k.queue (h.queue hq)

theorem LineSound.of_sameLine {e : Bool} {l m : LinkBlock} (h : LineSound e l) (k : SameLine l m) : LineSound e m where
  queue := k.queue h.queue
  sending := by rw [k.tx, k.view]; exact h.sending
  muted := by
    rw [k.mute, k.tx]
    exact fun hm => ⟨(h.muted hm).1, (k.muted hm).1.trans (h.muted hm).2.1, (k.muted hm).2.trans (h.muted hm).2.2⟩
  outside := by rw [k.view, k.assembly]; exact h.outside
  readBack := by rw [k.tx, k.assembly]; exact h.readBack
  receiving := by rw [k.view, k.tx, k.assembly]; exact h.receiving

/-- The work of an event of the cycle: the configuration, the peers, the schedule and the line stay, a hole may be announced,
and a part that is configured stays so. -/
structure HoleWork (s w : State) : Prop where
  config : w.host.config = s.host.config
  peers : w.flow.peers = s.flow.peers
  schedule : w.flow.schedule.isSome = s.flow.schedule.isSome
  line : SameLine s.link w.link
  neighbours : NeighboursSound s → NeighboursSound w
  configured : s.cycle.state ≠ .unconfigured → w.cycle.state ≠ .unconfigured

theorem HoleWork.refl (s : State) : HoleWork s s := ⟨rfl, rfl, rfl, .refl _, id, id⟩

theorem HoleWork.trans {s t u : State} (h : HoleWork s t) (k : HoleWork t u) : HoleWork s u :=
  ⟨k.config.trans h.config, k.peers.trans h.peers, k.schedule.trans h.schedule, h.line.trans k.line,
    fun x => k.neighbours (h.neighbours x), fun x => k.configured (h.configured x)⟩

theorem HoleWork.ite {s t u : State} {c : Prop} [Decidable c] (h : HoleWork s t) (k : HoleWork s u) :
    HoleWork s (if c then t else u) := by split_ifs <;> assumption

/-- Work that announces no hole. -/
theorem HoleWork.of_quiet {s w : State} (hc : w.host.config = s.host.config) (hf : w.flow = s.flow) (hl : w.link = s.link)
    (hn : w.neighbours.entries = s.neighbours.entries)
    (hs : s.cycle.state ≠ .unconfigured → w.cycle.state ≠ .unconfigured) : HoleWork s w :=
  ⟨hc, by rw [hf], by rw [hf], hl ▸ .refl _, fun h => h.congr hn, hs⟩

/-- The work of an event keeps all, if it leaves a part that is UNCONFIGURED, with no stroke in progress, as it is. -/
theorem HoleWork.keeps_of {e : Bool} {s w : State} (h : HoleWork s w)
    (hs : s.cycle.state = .unconfigured → s.resin.stroke ≠ .inProgress →
      w.cycle.state = .unconfigured ∧ w.resin.stroke = s.resin.stroke) : RigKeeps e e s w where
  neighbours := h.neighbours
  peers := fun x => x.congr h.peers h.config
  rig := fun x => by
    have he : (w.cycle.state == .unconfigured) = (s.cycle.state == .unconfigured) := by
      by_cases hu : s.cycle.state = .unconfigured
      · simp [hu, (hs hu (x.noStroke hu)).1]
      · simp [hu, h.configured hu]
    refine ⟨x.line.of_sameLine h.line, by rw [h.line.view, he]; exact x.off, x.config.congr h.config he h.peers h.schedule,
      fun hw => ?_⟩
    have hu : s.cycle.state = .unconfigured := by simpa [hw] using he
    rw [(hs hu (x.noStroke hu)).2]
    exact x.noStroke hu

/-- In a part that is configured, or has a stroke in progress. -/
theorem HoleWork.keeps {e : Bool} {s w : State} (h : HoleWork s w)
    (hs : s.cycle.state ≠ .unconfigured ∨ s.resin.stroke = .inProgress) : RigKeeps e e s w :=
  h.keeps_of fun hu hn => absurd hs (by simp [hu, hn])

/-- Work that leaves the cycle state, and the stroke in UNCONFIGURED. -/
theorem HoleWork.keeps_still {e : Bool} {s w : State} (h : HoleWork s w) (hs : w.cycle.state = s.cycle.state)
    (hr : s.cycle.state = .unconfigured → w.resin.stroke = s.resin.stroke) : RigKeeps e e s w :=
  h.keeps_of fun hu _ => ⟨hs.trans hu, hr hu⟩

/-- What changes none of the items. -/
theorem RigKeeps.of_same {e : Bool} {s t : State} (hc : t.host.config = s.host.config) (hp : t.flow.peers = s.flow.peers)
    (hsch : t.flow.schedule.isSome = s.flow.schedule.isSome) (hl : t.link = s.link)
    (hn : t.neighbours.entries = s.neighbours.entries) (hs : t.cycle.state = s.cycle.state)
    (hr : t.resin.stroke = s.resin.stroke) : RigKeeps e e s t :=
  HoleWork.keeps_still ⟨hc, hp, hsch, hl ▸ .refl _, fun h => h.congr hn, by rw [hs]; exact id⟩ hs fun _ => hr

/-! ### The end of an event -/

/-- No notice is placed while MUTE holds (08 R139). -/
theorem placeDemandIf_sameLine (wanted : Bool) (s : State) : SameLine s.link (placeDemandIf wanted s).link where
  view := by simp
  tx := by simp
  assembly := by simp
  mute := by simp
  muted := fun hm => by simp [placeDemandIf, mayPlace, State.muted, hm]
  queue := by simp

theorem finish_holeWork (old s : State) : HoleWork s (finish old s) where
  config := by simp
  peers := by simp
  schedule := by simp
  line := by simpa [finish] using placeDemandIf_sameLine (s.cycle.state != old.cycle.state) s
  neighbours := fun h => h.congr (by simp)
  configured := by simp

theorem finish_rigKeeps (e : Bool) (old s : State) : RigKeeps e e s (finish old s) :=
  (finish_holeWork old s).keeps_still (by simp) (by simp)

theorem settle_rigKeeps (e : Bool) (s : State) : RigKeeps e e s (settle s) :=
  HoleWork.keeps_still
    ⟨by simp, by simp, by simp, by simpa using .refl _, fun h => h.congr (by simp), by simp⟩ (by simp)
    fun hu => settle_stroke (by simp [hu])

/-- Whatever an event's work leads to, the end of the event keeps. -/
theorem RigKeeps.event {a b : Bool} {s w : State} (h : RigKeeps a b s w) (old : State) : RigKeeps a b s (event old w) :=
  h.trans ((settle_rigKeeps b w).trans (finish_rigKeeps b old _))

theorem setReply_rigKeeps (e : Bool) (status : Status) (data : List Byte) (s : State) :
    RigKeeps e e s (setReply status data s) := .of_same rfl rfl rfl rfl rfl rfl rfl

theorem RigKeeps.reply {a b : Bool} {s t : State} (h : RigKeeps a b s t) (status : Status) (data : List Byte) :
    RigKeeps a b s (setReply status data t) := h.trans (setReply_rigKeeps b status data t)

theorem RigKeeps.accept {a b : Bool} {s w : State} (h : RigKeeps a b s w) (old : State) (data : List Byte) :
    RigKeeps a b s (accept old w data) := (h.event old).reply _ _

/-! ### Suspending, entering, completing -/

theorem suspend_holeWork (c : Cause) (s : State) : HoleWork s (suspend c s) := by
  refine .of_quiet (by simp) (by simp) (by simp) (by simp) fun hu => ?_
  unfold suspend
  split
  · simp
  · exact hu

/-- A phase is entered in a configured part: it leads to the phase or to SUSPENDED. -/
theorem enterPhase_configured (p : Phase) (s : State) : (enterPhase p s).cycle.state ≠ .unconfigured :=
  enterPhase_state_ne p s (by simp) (by simp)

/-- Work that announces no hole and enters a phase at its end. -/
theorem HoleWork.of_entry {s w : State} {p : Phase} (hc : w.host.config = s.host.config) (hf : w.flow = s.flow)
    (hl : w.link = s.link) (hn : w.neighbours.entries = s.neighbours.entries) : HoleWork s (enterPhase p w) :=
  .of_quiet (by simpa) (by simpa) (by simpa) (by simpa) fun _ => enterPhase_configured p w

theorem announceHole_holeWork (v : Verdict) (record : Option HoleRecord) (s : State) :
    HoleWork s (announceHole v record s) := by
  unfold announceHole
  split
  · rename_i r
    refine .ite (.refl s) ?_
    exact
      { config := by simp
        peers := by simp
        schedule := by simp
        line :=
          { view := by simp
            tx := by simp
            assembly := by simp
            mute := by simp
            muted := fun hm => ⟨by simp, by rw [queueHole_muted (by simpa using hm)]; simp⟩
            queue := fun hq => queueHole_queue (composeNotice_fits _ _ _) (by simpa using hq) }
        neighbours := fun h => (insertNotice_neighboursSound (composeNotice s.cfg.station v r) h).congr (by simp)
        configured := by simp }
  · exact .refl s

theorem complete_holeWork (v : Verdict) (s : State) : HoleWork s (complete v s) := by
  have h := announceHole_holeWork v s.openRecord
    (((s.onResin fun r =>
      { r with stroke := .idle, strokeTimer := .disarmed, gap := none, mixDeadline := none, holdDeadline := none }).onTorque
        fun t => { t with timer := .disarmed, torqueNear := false }).onHistory fun h => h.finish v false)
  exact ⟨h.config, h.peers, h.schedule, h.line, fun x => (h.neighbours (x.congr rfl)).congr rfl,
    fun _ => by simp [complete_state]⟩

/-- A completion on work that announces no hole. -/
theorem complete_holeWork_of {s w : State} (v : Verdict) (hc : w.host.config = s.host.config) (hf : w.flow = s.flow)
    (hl : w.link = s.link) (hn : w.neighbours.entries = s.neighbours.entries)
    (hs : w.cycle.state = s.cycle.state) : HoleWork s (complete v w) :=
  (HoleWork.of_quiet hc hf hl hn (by rw [hs]; exact id)).trans (complete_holeWork v w)

/-! ### The works of the cycle -/

theorem drillTests_holeWork (s : State) : HoleWork s (drillTests s) := by
  unfold drillTests
  split_ifs
  · exact .of_entry (by simp) (by simp) (by simp) (by simp)
  · exact .of_quiet (by simp) (by simp) (by simp) (by simp) (by simp)
  · exact .refl s

theorem collarTests_holeWork (s : State) : HoleWork s (collarTests s) := by
  unfold collarTests
  split_ifs
  · exact (HoleWork.of_entry (by simp) (by simp) (by simp) (by simp)).trans (drillTests_holeWork _)
  · exact .refl s

theorem placeSample_holeWork (x : Sample) (s : State) : HoleWork s (placeSample x s) :=
  .of_quiet (by simp) (by simp) (by simp) (by simp) (by simp)

theorem enterInsert_holeWork {s w : State} (hc : w.host.config = s.host.config) (hf : w.flow = s.flow)
    (hl : w.link = s.link) (hn : w.neighbours.entries = s.neighbours.entries) : HoleWork s (enterInsert w) :=
  .of_entry (by simpa) (by simpa) (by simpa) (by simpa)

theorem endRetract_holeWork (s : State) : HoleWork s (endRetract s) := by
  unfold endRetract
  dsimp only
  split
  · exact complete_holeWork_of _ rfl rfl rfl rfl rfl
  · exact complete_holeWork_of _ rfl rfl rfl rfl rfl
  · exact .ite (.of_quiet rfl rfl rfl rfl fun _ => by simp [enterDecide]) (enterInsert_holeWork rfl rfl rfl rfl)

theorem torqueSample_holeWork (q : Nat) (s : State) : HoleWork s (torqueSample q s) :=
  .ite (complete_holeWork_of _ rfl rfl rfl rfl rfl) (.of_quiet rfl rfl rfl rfl id)

theorem torquePulse_holeWork (s : State) : HoleWork s (torquePulse s) :=
  .ite (complete_holeWork_of _ rfl rfl rfl rfl rfl) (.of_quiet rfl rfl rfl rfl id)

theorem mixPulse_holeWork (s : State) : HoleWork s (mixPulse s) :=
  .ite (.of_entry rfl rfl rfl rfl) (.of_quiet rfl rfl rfl rfl id)

theorem strokeTimeout_holeWork (s : State) : HoleWork s (strokeTimeout s) := by
  have hw : ∀ f, HoleWork s ((s.onResin fun r => { r with stroke := .idle, strokeTimer := .disarmed }).onResin f) :=
    fun _ => .of_quiet rfl rfl rfl rfl id
  unfold strokeTimeout
  dsimp only
  exact .ite (complete_holeWork_of _ rfl rfl rfl rfl rfl) (.ite (complete_holeWork_of _ rfl rfl rfl rfl rfl)
    (.ite ((hw _).trans (suspend_holeWork _ _)) (hw _)))

theorem strokeCounted_holeWork (s : State) : HoleWork s (strokeCounted s) := by
  have hw : ∀ f g h, HoleWork s ((writeOpen f (s.onResin g)).onResin h) := fun _ _ _ => .of_quiet rfl rfl rfl rfl id
  unfold strokeCounted
  dsimp only
  exact .ite (complete_holeWork_of _ rfl rfl rfl rfl rfl) (.ite (.of_entry rfl rfl rfl rfl)
    (.ite ((hw _ _ _).trans (suspend_holeWork _ _)) (hw _ _ _)))

theorem abortSuspended_holeWork (s : State) : HoleWork s (abortSuspended s) := by
  have hd : HoleWork s (complete .aborted (shortEnd s)) :=
    complete_holeWork_of _ (by simp) (by simp) (by simp) (by simp) (by simp)
  have ha : HoleWork s (abortDrilling s) := .of_entry (by simp) (by simp) (by simp) (by simp)
  unfold abortSuspended
  dsimp only
  split
  · exact .ite hd ha
  · exact .ite hd ha
  · exact .ite (complete_holeWork _ s) (.ite (.of_entry rfl rfl rfl rfl) (.of_entry rfl rfl rfl rfl))
  · exact complete_holeWork _ s

theorem reenter_holeWork (target : Phase) (s : State) : HoleWork s (reenter target s) := by
  cases target with
  | retract => exact .ite (.of_entry rfl rfl rfl rfl) (.of_entry rfl rfl rfl rfl)
  | hold => exact .ite (.of_entry rfl rfl rfl rfl) (.of_entry rfl rfl rfl rfl)
  | torque => exact .ite (.of_entry rfl rfl rfl rfl) (.of_entry rfl rfl rfl rfl)
  | mix => exact .refl s
  | _ => exact .of_entry rfl rfl rfl rfl

theorem muteCycle_holeWork (s : State) : HoleWork s (muteCycle s) := by
  unfold muteCycle
  split
  · exact suspend_holeWork _ s
  · exact suspend_holeWork _ s
  · exact suspend_holeWork _ s
  · exact .ite (.refl s) (suspend_holeWork _ s)
  · exact .refl s

theorem startedHole_holeWork (row slot planned : Nat) (s : State) : HoleWork s (startedHole row slot planned s) :=
  .of_entry (by simp [freshHole]) (by simp [freshHole]) (by simp [freshHole]) (by simp [freshHole])

end Sys2Proof.Machine
end

