-- ==== Sys2Proof/Proofs/LinkSound.lean ====
section
/-! PROOFS. O59: every step keeps the link, the configuration and the two tables sound. -/

namespace Sys2Proof.Machine

/-! ### The rig link, bit by bit -/

/-- An operation of a link controller that is not OFF. -/
theorem RigKeeps.onLine {a b : Bool} {s : State} {f : LinkBlock → LinkBlock}
    (h : LineSound a s.link → LineSound b (f s.link)) (hv : s.link.view ≠ .off) (hf : (f s.link).view ≠ .off) :
    RigKeeps a b s (s.onLink f) := .onLink h (by simp [hv, hf])

/-- A change of the peer table. -/
theorem RigKeeps.onPeers {e : Bool} {s : State} {peers : List Peer}
    (hp : PeersSound s → PeersSound (s.onFlow fun b => { b with peers := peers }))
    (hn : RigSound e s → s.host.config = none → peers = []) :
    RigKeeps e e s (s.onFlow fun b => { b with peers := peers }) where
  neighbours := fun x => x.congr rfl
  peers := hp
  rig := fun x => ⟨x.line, x.off, ⟨x.config.stands, x.config.inRange, hn x, x.config.schedule⟩, x.noStroke⟩

theorem muteStation_tx (cause : MuteCause) {s : State} (h : s.link.tx = none) : (muteStation cause s).link.tx = none := by
  unfold muteStation
  split_ifs
  · exact h
  · simp

theorem muteStation_rigKeeps (e : Bool) (cause : MuteCause) {s : State} (ht : s.link.tx = none) :
    RigKeeps e e s (muteStation cause s) := by
  have hl : RigKeeps e e s (s.onLink fun l =>
      { l with tx := none, slot := none, queue := [], queueOnLine := false, mute := some cause }) :=
    .onLink (fun h => h.mute ht cause) rfl
  have hf : ∀ u, RigKeeps e e u (queueFault .duplicate u) := fun u => .of_same rfl rfl rfl rfl rfl rfl rfl
  have hm : ∀ u, RigKeeps e e u (muteCycle u) := fun u =>
    (muteCycle_holeWork u).keeps_of fun hu _ => by simp [muteCycle, hu]
  exact .ite (fun _ => .refl e s) fun _ => (hl.trans (hf _)).trans (hm _)

/-- A good frame of a station number below 6, routed by a station that reads the line and sends nothing (09 R148). -/
theorem routeFrame_rigKeeps (e : Bool) {f : LinkFrame} {s : State} (hf : f.station.toNat ≤ 5) (hv : s.link.view ≠ .off)
    (ht : s.link.tx = none) : RigKeeps e e s (routeFrame f s) := by
  have hmute := (muteStation_rigKeeps e .heard ht).event s
  refine .ite (fun _ => ?_) fun _ => .ite (fun _ => ?_) fun _ => .refl e s
  · split
    · exact .refl e s
    · refine .ite (fun _ => hmute) fun ho => RigKeeps.event (.onPeers ?_ fun x hc => ?_) s
      · exact fun h => upsertPeer_peersSound h (by simp only [freshPeer]; omega) ho
      · have hu : s.cycle.state = .unconfigured := by simpa [hc] using x.config.stands.symm
        exact absurd (by simpa [hu] using x.off) hv
  · split
    · exact .refl e s
    · rename_i n _
      have hn : HoleWork s (insertNotice n s) := ⟨rfl, rfl, rfl, .refl _, insertNotice_neighboursSound n, id⟩
      exact .ite (fun _ => hmute) fun _ => (hn.keeps_still rfl fun _ => rfl).event s

/-- A receiver at the end of a frame, or short of it. -/
theorem endFrame_rigKeeps {s : State} (hv : s.link.view = .frame) (ht : s.link.tx = none) :
    RigKeeps true false s (endFrame s) := by
  by_cases hw : frameWhole s.link.assembly = true
  · have hend : ∀ good, RigKeeps true false s (s.onLink fun l => l.endReceived good) := fun good =>
      .onLine (fun h => h.endReceived ht good) (by simp [hv]) (by cases good <;> simp [LinkBlock.endReceived])
    simp only [endFrame, hw, if_true]
    refine .ite (fun hc => (hend (crcGood (frameRead s.link.assembly))).trans ?_) fun _ => hend _
    simp only [hc, checkFrame]
    refine .ite (fun _ => .refl _ _) fun hn => routeFrame_rigKeeps false ?_ (by simp [LinkBlock.endReceived]) (by simpa)
    simp only [Bool.or_eq_true, decide_eq_true_eq, not_or, not_lt] at hn
    exact hn.2
  · simp only [endFrame, hw]
    refine ⟨id, id, fun x => ⟨⟨x.line.queue, x.line.sending, x.line.muted, x.line.outside, x.line.readBack, ?_⟩, x.off,
      x.config, x.noStroke⟩⟩
    exact fun _ _ => ⟨(x.line.receiving hv ht).1, fun _ => by simpa using hw⟩

theorem followBit_rigKeeps (bit : Bool) {s : State} (hv : s.link.view = .frame) (ht : s.link.tx = none) :
    RigKeeps false false s (followBit bit s) := by
  have hj : RigKeeps false true s (s.onLink fun l => { l with assembly := l.assembly ++ [bit] }) :=
    .onLink (fun h => h.joins hv ht bit) rfl
  exact hj.trans (endFrame_rigKeeps (by simpa) (by simpa))

/-- Overridden in the header the station follows on; further on it is muted, and the frame it follows may have ended (09 R143,
R151, R155). -/
theorem overridden_rigKeeps (f : LinkFrame) (bit : Nat) {s : State} (hv : s.link.view = .frame) :
    RigKeeps false false s (overridden f bit s) := by
  have hf : (s.link.follow f bit).view = .frame := hv
  refine .ite (fun hb => .onLine (fun h => h.follow_header hv f hb) (by simp [hv]) (by simp [hf])) fun _ => ?_
  have hlost : RigKeeps false true s (s.onLink fun l => l.follow f bit) :=
    .onLine (fun h => h.follow hv f bit) (by simp [hv]) (by simp [hf])
  have ht : (s.onLink fun l => l.follow f bit).link.tx = none := rfl
  have hmuted := (hlost.trans (muteStation_rigKeeps true .overridden ht)).event s
  exact hmuted.trans (endFrame_rigKeeps (by simp [hf]) (by rw [event_link_tx]; exact muteStation_tx _ ht))

theorem endSent_rigKeeps {s : State} (hv : s.link.view = .frame) : RigKeeps false false s (endSent s) :=
  .onLine LineSound.sent (by simp [hv]) (by simp)

theorem faultTransmit_rigKeeps {s : State} (hv : s.link.view = .frame) : RigKeeps false false s (faultTransmit s) :=
  .onLine LineSound.faulted (by simp [hv]) (by simp)

theorem readBack_rigKeeps {f : LinkFrame} (bit : Bool) {s : State} (hv : s.link.view = .frame) (ht : s.link.tx = some f) :
    RigKeeps false false s (readBack f bit s) := by
  refine .ite (fun hb => .ite (fun _ => endSent_rigKeeps hv) fun hl => ?_) fun _ =>
    .ite (fun _ => faultTransmit_rigKeeps hv) fun _ => overridden_rigKeeps f _ hv
  exact .onLink (fun h => h.matches hv ht hb hl) rfl

theorem seekBit_view {l : LinkBlock} (hv : l.view = .seeking) (bit : Bool) : (l.seekBit bit).view ≠ .off := by
  unfold LinkBlock.seekBit
  split_ifs <;> simp [hv]

theorem gapBit_view {l : LinkBlock} (hv : l.view = .gap) (bit : Bool) : (l.gapBit bit).view ≠ .off := by
  unfold LinkBlock.gapBit
  split_ifs <;> simp [hv]

theorem readLine_rigKeeps (bit : Bool) (s : State) : RigKeeps false false s (readLine s bit) := by
  unfold readLine
  split
  · exact .refl _ s
  · rename_i hv
    exact .onLine (fun h => h.seekBit hv bit) (by simp [hv]) (seekBit_view hv bit)
  · rename_i hv
    exact .onLine (fun h => h.gapBit hv bit) (by simp [hv]) (gapBit_view hv bit)
  · rename_i hv
    split
    · rename_i ht
      exact followBit_rigKeeps bit hv ht
    · rename_i f ht
      exact readBack_rigKeeps bit hv ht

/-- The own frame begins in a GAP (09 R149). -/
theorem startFrame_rigKeeps {s : State} (hs : s.link.starts = true) : RigKeeps false false s (startFrame s) := by
  have hv : s.link.view = .gap := by
    by_contra hn
    simp [LinkBlock.starts_of_view hn] at hs
  refine .onLine (startFrame_lineSound hs) (by simp [hv]) ?_
  split <;> simp [hv]

theorem takeBit_rigKeeps (s : State) (bit : Bool) : RigKeeps false false s (takeBit s bit) :=
  (RigKeeps.ite startFrame_rigKeeps fun _ => .refl _ s).trans (readLine_rigKeeps bit _)

theorem frameStart_rigKeeps (recessive : Nat) (s : State) : RigKeeps false false s
    (if (s.onLink fun l => l.await recessive).link.starts then startFrame (s.onLink fun l => l.await recessive) else s) :=
  .ite (fun hs => (RigKeeps.onLink (fun h => h.await recessive) rfl).trans (startFrame_rigKeeps hs)) fun _ => .refl _ s

/-- A frame is being sent only in FRAME (09 R149). -/
theorem sending_eq_some {l : LinkBlock} {f : LinkFrame} (h : l.sending = some f) : l.view = .frame ∧ l.tx = some f := by
  unfold LinkBlock.sending at h
  split_ifs at h with hv
  exact ⟨hv, h⟩

/-! ### Samples, pulses and pins -/

theorem handSample_rigKeeps (x : Sample) (s : State) : RigKeeps false false s (handSample x s) := by
  have hplace := placeSample_holeWork x s
  unfold handSample
  split
  · rename_i hp
    exact ((hplace.trans (collarTests_holeWork _)).keeps (.inl (by simp [hp]))).event s
  · rename_i hp
    exact ((hplace.trans (drillTests_holeWork _)).keeps (.inl (by simp [hp]))).event s
  · rename_i hp
    exact .ite (fun _ => ((endRetract_holeWork s).keeps (.inl (by simp [hp]))).event s) fun _ => .refl _ s
  · rename_i hp
    exact ((torqueSample_holeWork _ s).keeps (.inl (by simp [hp]))).event s
  · exact .refl _ s

theorem onSensor_rigKeeps (s : State) (f : SensorBlock → SensorBlock) : RigKeeps false false s (s.onSensor f) :=
  .of_same rfl rfl rfl rfl rfl rfl rfl

theorem takeRecord_rigKeeps (record : List Byte) (s : State) : RigKeeps false false s (takeRecord record s) := by
  unfold takeRecord
  split
  · rename_i raw _
    have hu : RigKeeps false false s (storeSample raw s) := onSensor_rigKeeps s _
    exact hu.trans (handSample_rigKeeps _ _)
  · exact .refl _ s

theorem takeByte_rigKeeps (value : Byte) (stopHigh : Bool) (s : State) :
    RigKeeps false false s (takeByte value stopHigh s) := by
  have hu : RigKeeps false false s (s.onSensor fun p =>
      { p with receiver := if stopHigh then .idle else .low, assembly := (feedSrx s.sensor.assembly value stopHigh).1 }) :=
    onSensor_rigKeeps s _
  unfold takeByte
  dsimp only
  split
  · exact hu.trans (takeRecord_rigKeeps _ _)
  · exact hu

theorem takeSrxBit_rigKeeps (s : State) (bit : Bool) : RigKeeps false false s (takeSrxBit s bit) := by
  unfold takeSrxBit
  split
  · exact onSensor_rigKeeps s _
  · exact .ite (fun _ => onSensor_rigKeeps s _) fun _ => takeByte_rigKeeps _ _ s
  · exact .ite (fun _ => onSensor_rigKeeps s _) fun _ => .refl _ s

theorem handPulse_rigKeeps (s : State) : RigKeeps false false s (handPulse s) := by
  unfold handPulse
  split
  · rename_i hp
    exact ((mixPulse_holeWork s).keeps (.inl (by simp [hp]))).event s
  · rename_i hp
    exact ((torquePulse_holeWork s).keeps (.inl (by simp [hp]))).event s
  · exact .refl _ s

theorem linkFall_rigKeeps (s : State) : RigKeeps false false s (linkFall s) := by
  have hl : RigKeeps false false s (linkLost s) := .of_same rfl rfl rfl rfl rfl rfl rfl
  refine hl.trans ?_
  rw [linkFall_eq, sensorSuspension]
  split
  · rename_i p hp
    exact .ite (fun _ => (suspend_holeWork _ _).keeps (.inl (by simp [hp]))) fun _ => .refl _ _
  · exact .refl _ _

theorem canopyFall_rigKeeps (s : State) : RigKeeps false false s (canopyFall s) := by
  unfold canopyFall
  split
  · rename_i p hp
    have hq : RigKeeps false false s (queueFault .canopyLost s) := .of_same rfl rfl rfl rfl rfl rfl rfl
    refine (hq.trans (.ite (fun _ => ?_) fun _ => ?_)).event s
    · exact (complete_holeWork _ _).keeps (.inl (by simp [hp]))
    · exact (suspend_holeWork _ _).keeps (.inl (by simp [hp]))
  · exact .refl _ s

theorem onFlow_rigKeeps {s : State} {f : FlowBlock → FlowBlock} (hp : (f s.flow).peers = s.flow.peers)
    (hs : (f s.flow).schedule.isSome = s.flow.schedule.isSome) : RigKeeps false false s (s.onFlow f) :=
  .of_same rfl hp hs rfl rfl rfl rfl

theorem valveReady_rigKeeps (s : State) (level : Bool) : RigKeeps false false s { s with valveReady := level } :=
  .of_same rfl rfl rfl rfl rfl rfl rfl

theorem valveFall_rigKeeps (old s : State) : RigKeeps false false s (valveFall old s) := by
  unfold valveFall
  split
  · exact (onFlow_rigKeeps rfl rfl).event old
  · exact (onFlow_rigKeeps rfl rfl).event old
  · exact .refl _ s

/-! ### CONFIGURE -/

theorem defaultConfiguration_inRange {station : Nat} (h : station ≤ 5) : (defaultConfiguration station).inRange = true := by
  interval_cases station <;> decide

/-- A record that is admitted gives every field within its range, and a gel row for each band (11 R184). -/
theorem parseConfiguration_inRange {record : List Byte} {c : Configuration} (h : parseConfiguration record = some c) :
    c.inRange = true ∧ c.gel.length = 8 := by
  unfold parseConfiguration at h
  split at h
  · split at h
    · rename_i raw hraw
      split_ifs at h with hr
      obtain rfl := Option.some.inj h
      refine ⟨hr, ?_⟩
      unfold rawConfiguration at hraw
      split at hraw
      · obtain rfl := Option.some.inj hraw
        simp [rawConfiguration.fields]
      · obtain rfl := Option.some.inj hraw
        simp [rawConfiguration.fields]
      · cases hraw
    · cases h
  · split_ifs at h with hs
    obtain rfl := Option.some.inj h
    exact ⟨defaultConfiguration_inRange hs, rfl⟩
  · cases h

/-- CONFIGURE opens the line and starts the schedule with no peer (11 R185, 08 R121, R138, 09 R161). -/
theorem configured_rigKeeps {s : State} {c : Configuration} (hu : s.cycle.state = .unconfigured)
    (hc : c.inRange = true ∧ c.gel.length = 8) : RigKeeps false false s (configured c s) where
  neighbours := fun x => x.congr rfl
  peers := fun _ => ⟨List.Pairwise.nil, nofun, fun _ _ => nofun⟩
  rig := fun x => by
    have hv : s.link.view = .off := by simpa [hu] using x.off
    refine ⟨x.line.leaves ⟨rfl, id, .refl _⟩ (by simp [configured]) (x.line.silent (by simp [hv]))
      (x.line.outside (by simp [hv])), rfl, ⟨rfl, fun d hd => ?_, fun _ => rfl, rfl⟩, nofun⟩
    obtain rfl := Option.some.inj hd
    exact hc

/-! ### The commands -/

section Commands

variable {s t : State}

theorem RigKeeps.of_unlessHeld {new : State} (h : RigKeeps false false s new)
    (e : (unlessHeld s new : Host.Outcome State Fault Refusal) = .next t) : RigKeeps false false s t := by
  rw [unlessHeld_next, Host.Outcome.next.injEq] at e
  subst e
  exact .ite (fun _ => .refl _ s) fun _ => h

theorem RigKeeps.transacted (h : RigKeeps false false s t) (host : Transaction) :
    RigKeeps false false s (transacted host s t) :=
  .ite (fun _ => .refl _ s) fun _ => h.trans (.of_same rfl rfl rfl rfl rfl rfl rfl)

theorem RigKeeps.of_inTransaction {new : State} {host : Transaction} (h : RigKeeps false false s new)
    (e : (inTransaction host s new : Host.Outcome State Fault Refusal) = .next t) : RigKeeps false false s t :=
  .of_unlessHeld (h.transacted host) e

/-- A host command that may bring a rise of CANOPY_SET. -/
theorem RigKeeps.of_rise {f : State → State} {rise : Bool} {host : Transaction} (hf : ∀ u, RigKeeps false false u (f u))
    (e : (unlessHeld s (Machine.transacted host (s.noteCanopy rise) (f (s.noteCanopy rise))) : Host.Outcome State Fault Refusal)
      = .next t) : RigKeeps false false s t := by
  have hu : RigKeeps false false s (s.noteCanopy rise) := .of_same rfl rfl rfl rfl rfl rfl rfl
  exact .of_unlessHeld (hu.trans ((hf _).transacted host)) e

theorem onHost_rigKeeps {f : HostBlock → HostBlock} (h : (f s.host).config = s.host.config) :
    RigKeeps false false s (s.onHost f) := .of_same h rfl rfl rfl rfl rfl rfl

theorem takeSource_rigKeeps (s : State) (src : Source) (draws : Nat) :
    RigKeeps false false s { s.onHost (takeSource src) with freeDraws := draws } :=
  .of_same (takeSource_config src s.host) rfl rfl rfl rfl rfl rfl

theorem onHistory_rigKeeps (f : HistoryBlock → HistoryBlock) : RigKeeps false false s (s.onHistory f) :=
  .of_same rfl rfl rfl rfl rfl rfl rfl

/-- Resin control's marks and deadlines. -/
theorem onResin_rigKeeps {f : ResinBlock → ResinBlock} (h : (f s.resin).stroke = s.resin.stroke) :
    RigKeeps false false s (s.onResin f) := .of_same rfl rfl rfl rfl rfl rfl h

theorem configure_rigKeeps (record : List Byte) (host : Transaction) (e : execConfigure record s host = .next t) :
    RigKeeps false false s t := by
  have hreply := fun status => setReply_rigKeeps false status [] s
  refine .of_inTransaction (.ite (fun _ => hreply _) fun _ => .ite (fun _ => hreply _) fun hu => ?_) e
  split
  · exact hreply _
  · rename_i c hc
    exact (configured_rigKeeps (by simpa using hu) (parseConfiguration_inRange hc)).accept s []

theorem startHole_rigKeeps (row slot planned : Nat) (s : State) : RigKeeps false false s (startHole row slot planned s) := by
  have hreply := fun status => setReply_rigKeeps false status [] s
  refine .ite (fun _ => hreply _) fun hi => .ite (fun _ => hreply _) fun _ => .ite (fun _ => hreply _) fun _ =>
    .ite (fun _ => hreply _) fun _ => ?_
  exact ((startedHole_holeWork row slot planned s).keeps (.inl (by simp [not_not.1 hi]))).accept s _

theorem abort_rigKeeps (s : State) : RigKeeps false false s (abort s) := by
  have hcomplete : s.cycle.state ≠ .unconfigured → RigKeeps false false s (accept s (complete .aborted s) []) := fun hu =>
    ((complete_holeWork _ s).keeps (.inl hu)).accept s []
  have hdrill : HoleWork s (abortDrilling s) := .of_entry (by simp) (by simp) (by simp) (by simp)
  have hcycle : ∀ f : CycleBlock → CycleBlock, (f s.cycle).state = s.cycle.state → RigKeeps false false s (s.onCycle f) :=
    fun f hf => .of_same rfl rfl rfl rfl rfl hf rfl
  unfold abort
  split
  · exact setReply_rigKeeps _ _ _ s
  · exact setReply_rigKeeps _ _ _ s
  · rename_i hp
    exact (hdrill.keeps (.inl (by simp [hp]))).accept s []
  · rename_i hp
    exact (hdrill.keeps (.inl (by simp [hp]))).accept s []
  · exact (hcycle _ rfl).reply _ _
  · rename_i hp
    exact .ite (fun _ => (hcycle _ rfl).reply _ _) fun _ => hcomplete (by simp [hp])
  · rename_i hp
    exact ((abortSuspended_holeWork s).keeps (.inl (by simp [hp]))).accept s []
  · rename_i hu _ _ _ _ _ _
    exact hcomplete hu

theorem zeroRemainder_rigKeeps (s : State) : RigKeeps false false s (zeroRemainder s) :=
  .ite (fun hc => ((complete_holeWork _ s).keeps (.inl (by simp [hc.1]))).trans (settle_rigKeeps _ _)) fun _ =>
    .ite (fun hc => ((strokeTimeout_holeWork s).keeps (.inr hc.1)).trans (settle_rigKeeps _ _)) fun _ => .refl _ s

theorem resume_rigKeeps (s : State) : RigKeeps false false s (resume s) := by
  have hreply := fun status => setReply_rigKeeps false status [] s
  refine .ite (fun _ => hreply _) fun hs => ?_
  split
  · exact hreply _
  · rename_i target _
    refine .ite (fun _ => hreply _) fun _ => ?_
    have hw : RigKeeps false false s (reenter target s) :=
      (reenter_holeWork target s).keeps (.inl (by simp [not_not.1 hs]))
    exact (((hw.trans (settle_rigKeeps _ _)).trans (zeroRemainder_rigKeeps _)).trans (finish_rigKeeps _ s _)).reply _ _

theorem proceed_rigKeeps (s : State) : RigKeeps false false s (proceed s) := by
  have hreply := fun status => setReply_rigKeeps false status [] s
  refine .ite (fun _ => hreply _) fun hd => .ite (fun _ => hreply _) fun _ => .ite (fun _ => hreply _) fun _ => ?_
  have hw : HoleWork s (enterInsert (proceedAnchor s)) := enterInsert_holeWork rfl rfl rfl rfl
  exact (hw.keeps (.inl (by simp [not_not.1 hd]))).accept s []

theorem readCells_rigKeeps (count direction : Byte) (host : Transaction)
    (e : execReadCells count direction s host = .next t) : RigKeeps false false s t := by
  have hreply := fun status data => setReply_rigKeeps false status data s
  refine .of_inTransaction (.ite (fun _ => hreply _ _) fun _ => ?_) e
  split
  · exact hreply _ _
  · exact hreply _ _
  · split
    · exact .ite (fun _ => (onHistory_rigKeeps _).reply _ _) fun _ => (onHistory_rigKeeps _).reply _ _
    · exact hreply _ _

/-! ### The expiries and the starting events -/

/-- The expiry re-arms the schedule and places a notice, unless MUTE holds (08 R138, R139). -/
theorem demandSchedule_rigKeeps (e : execDemandScheduleExpiry s = .next t) : RigKeeps false false s t := by
  refine .of_unlessHeld ?_ e
  split
  · rename_i target ht
    refine .ite (fun _ => ?_) fun _ => .refl _ s
    have hf : RigKeeps false false s
        (s.onFlow fun f => { f with schedule := some (rearmPeriodic target s.now 250) }) := onFlow_rigKeeps rfl (by simp [ht])
    refine hf.trans (HoleWork.keeps_still ⟨rfl, rfl, rfl, placeDemandIf_sameLine true _, fun h => h.congr rfl, id⟩ rfl ?_)
    exact fun _ => rfl
  · exact .refl _ s

theorem ageStale_station (p : Peer) (now : Time) : (p.ageStale now).station = p.station := by
  unfold Peer.ageStale
  split_ifs <;> rfl

/-- A peer that turns STALE keeps its place (08 R120). -/
theorem staleDeadline_rigKeeps (station : Nat) (s : State) : RigKeeps false false s
    (s.onFlow fun f => { f with peers := f.peers.map fun p => if p.station = station then p.ageStale s.now else p }) := by
  have hst : ∀ p : Peer, (if p.station = station then p.ageStale s.now else p).station = p.station := by
    intro p
    split_ifs
    exacts [ageStale_station p _, rfl]
  refine .onPeers (fun h => ⟨?_, ?_, ?_⟩) fun x hc => ?_
  · simpa only [State.onFlow_flow, List.pairwise_map, hst] using h.rising
  · simpa only [State.onFlow_flow, List.forall_mem_map, hst] using h.bounded
  · simpa only [State.onFlow_flow, State.onFlow_host, List.forall_mem_map, hst] using h.others
  · simp [x.config.peers hc]

theorem removalDeadline_rigKeeps (station : Nat) (s : State) : RigKeeps false false s
    (s.onFlow fun f => { f with peers := f.peers.filter fun p => !p.removalDue station s.now }) := by
  have hmem : ∀ p ∈ s.flow.peers.filter (fun p => !p.removalDue station s.now), p ∈ s.flow.peers :=
    fun p hp => (List.mem_filter.1 hp).1
  refine .onPeers (fun h => ⟨h.rising.filter _, fun p hp => ?_, fun c hc p hp => ?_⟩) fun x hc => by simp [x.config.peers hc]
  · exact h.bounded p (hmem p hp)
  · exact h.others c hc p (hmem p hp)

/-- The values that both starting events give (09 R161, 11 R186, R187). -/
theorem starting_rigKeeps (hn : t.neighbours.entries = []) (hl : t.link = State.reset.link)
    (hs : t.cycle.state = .unconfigured) (hr : t.resin.stroke = .idle) (hc : t.host.config = none)
    (hp : t.flow.peers = []) (hsch : t.flow.schedule = none) : RigKeeps false false s t where
  neighbours := fun _ => ⟨by simp [hn], by simp [hn]⟩
  peers := fun _ => ⟨by simp [hp], by simp [hp], by simp [hp]⟩
  rig := fun _ =>
    { line := by
        rw [hl]
        exact ⟨by simp [State.reset], by simp [State.reset], by simp [State.reset], fun _ => rfl, by simp [State.reset],
          by simp [State.reset]⟩
      off := by rw [hl, hs]; rfl
      config := ⟨by rw [hc, hs]; rfl, by simp [hc], fun _ => hp, by rw [hc, hsch]; rfl⟩
      noStroke := by simp [hr] }

theorem startInterlock_peers (f : FlowBlock) (valveReady : Bool) (now : Time) :
    (f.startInterlock valveReady now).peers = f.peers ∧ (f.startInterlock valveReady now).schedule = f.schedule := by
  unfold FlowBlock.startInterlock
  split_ifs <;> exact ⟨rfl, rfl⟩

theorem powerOn_rigKeeps (levels : InputLevels) (e : execPowerOn levels s = .next t) : RigKeeps false false s t := by
  obtain rfl := Host.Outcome.next.inj e
  obtain ⟨hp, hs⟩ := startInterlock_peers State.reset.flow levels.valveReady 0
  exact starting_rigKeeps rfl rfl rfl rfl rfl (hp.trans rfl) (hs.trans rfl)

theorem resetNRise_rigKeeps (levels : InputLevels) (e : execResetNRise levels s = .next t) : RigKeeps false false s t := by
  obtain rfl := Host.Outcome.next.inj e
  obtain ⟨hp, hs⟩ := startInterlock_peers s.flow levels.valveReady s.now
  exact .ite (fun _ => .of_same rfl hp (congrArg Option.isSome hs) rfl rfl rfl rfl) fun _ => .refl _ s

/-- Every command keeps the items of the rig: it is an event of the cycle, an operation of the link, or leaves them. -/
theorem exec_rigKeeps (c : Instr) (e : exec c s = .next t) : RigKeeps false false s t := by
  cases c with
  | powerOn levels => exact powerOn_rigKeeps levels e
  | resetLine =>
    obtain rfl := Host.Outcome.next.inj e
    exact starting_rigKeeps rfl rfl rfl rfl rfl rfl rfl
  | resetNRise levels => exact resetNRise_rigKeeps levels e
  | timebaseTick =>
    obtain rfl := Host.Outcome.next.inj e
    exact .of_same rfl rfl rfl rfl rfl rfl rfl
  | sampleRecord bits => exact .of_unlessHeld (.foldl takeSrxBit_rigKeeps bits s) e
  | linkDeadlineExpiry =>
    exact .of_unlessHeld (.ite (fun _ => (linkFall_rigKeeps s).event s) fun _ => .refl _ s) e
  | rotPulse => exact .of_unlessHeld ((onSensor_rigKeeps s _).trans (handPulse_rigKeeps _)) e
  | pulseDeadlineExpiry => exact .of_unlessHeld (.ite (fun _ => onSensor_rigKeeps s _) fun _ => .refl _ s) e
  | canopySetFall =>
    have hu : RigKeeps false false s { s with canopySet := false } := .of_same rfl rfl rfl rfl rfl rfl rfl
    exact .of_unlessHeld (.ite (fun _ => hu.trans (canopyFall_rigKeeps _)) fun _ => .refl _ s) e
  | valveReadyRise =>
    have hu := valveReady_rigKeeps s true
    exact .of_unlessHeld (.ite (fun _ => (hu.trans (onFlow_rigKeeps rfl rfl)).event s) fun _ => hu) e
  | valveReadyFall =>
    exact .of_unlessHeld (.ite (fun _ => (valveReady_rigKeeps s false).trans (valveFall_rigKeeps s _)) fun _ => .refl _ s) e
  | strokeDone =>
    exact .of_unlessHeld (.ite (fun hs => ((strokeCounted_holeWork s).keeps (.inr hs)).event s) fun _ => .refl _ s) e
  | fetch host => exact .of_inTransaction (setReply_rigKeeps _ _ _ s) e
  | badFrame host => exact .of_inTransaction (setReply_rigKeeps _ _ _ s) e
  | configure record host => exact configure_rigKeeps record host e
  | startHole row slot planned rise host =>
    exact .of_rise (startHole_rigKeeps row.toNat slot.toNat planned.toNat) e
  | abort rise host => exact .of_rise abort_rigKeeps e
  | resume rise host => exact .of_rise resume_rigKeeps e
  | proceed rise host => exact .of_rise proceed_rigKeeps e
  | abandon host =>
    refine .of_inTransaction (.ite (fun _ => setReply_rigKeeps _ _ _ s) fun hd => ?_) e
    exact ((complete_holeWork _ s).keeps (.inl (by simp [not_not.1 hd]))).accept s []
  | readState host => exact .of_inTransaction (setReply_rigKeeps _ _ _ s) e
  | readAttention host =>
    refine .of_inTransaction ?_ e
    split
    · exact setReply_rigKeeps _ _ _ s
    · exact (takeSource_rigKeeps s _ _).reply _ _
  | serviceDone host =>
    refine .of_inTransaction ?_ e
    split
    · exact setReply_rigKeeps _ _ _ s
    · rename_i top rest _
      exact (onHost_rigKeeps (serviced_config s.host top rest)).reply _ _
  | setWatch mask sense combination host =>
    exact .of_inTransaction (.ite (fun _ => setReply_rigKeeps _ _ _ s) fun _ => (onHost_rigKeeps rfl).reply _ _) e
  | readSensors host => exact .of_inTransaction ((onSensor_rigKeeps s _).reply _ _) e
  | unlatch host =>
    exact .of_inTransaction (.ite (fun _ => setReply_rigKeeps _ _ _ s) fun _ =>
      .ite (fun _ => setReply_rigKeeps _ _ _ s) fun _ => (onSensor_rigKeeps s _).reply _ _) e
  | readFlow host => exact .of_inTransaction (setReply_rigKeeps _ _ _ s) e
  | readNeighbours index host =>
    exact .of_inTransaction (.ite (fun _ => setReply_rigKeeps _ _ _ s) fun _ => setReply_rigKeeps _ _ _ s) e
  | readLink host =>
    have hl : RigKeeps false false s (s.onLink fun l => { l with holeDropped := false, txFault := false }) :=
      .onLink (fun h => ⟨h.queue, h.sending, h.muted, h.outside, h.readBack, h.receiving⟩) rfl
    exact .of_inTransaction (hl.reply _ _) e
  | selectHole number host =>
    refine .of_inTransaction ?_ e
    split <;> exact (onHistory_rigKeeps _).reply _ _
  | readCells count direction host => exact readCells_rigKeeps count direction host e
  | collarTimerExpiry =>
    refine .of_unlessHeld (.ite (fun hc => (HoleWork.keeps ?_ (.inl (by simp [hc.1]))).event s) fun _ => .refl _ s) e
    exact .of_entry (by simp) (by simp) (by simp) (by simp)
  | retractTimerExpiry =>
    refine .of_unlessHeld (.ite (fun hc => (HoleWork.keeps ?_ (.inl (by simp [hc.1]))).event s) fun _ => .refl _ s) e
    have hw : HoleWork s (retractStuck s) := .of_quiet rfl rfl rfl rfl id
    exact hw.trans (suspend_holeWork _ _)
  | stallWindowExpiry =>
    refine .of_unlessHeld (.ite (fun hc => (HoleWork.keeps ?_ (.inl (by simp [hc.1]))).event s) fun _ => .refl _ s) e
    exact .of_entry (by simp) (by simp) (by simp) (by simp)
  | strokeTimerExpiry =>
    exact .of_unlessHeld (.ite (fun hc => ((strokeTimeout_holeWork s).keeps (.inr hc.1)).event s) fun _ => .refl _ s) e
  | strokeGapExpiry =>
    exact .of_unlessHeld (.ite (fun _ => (onResin_rigKeeps rfl).event s) fun _ => .refl _ s) e
  | mixDeadlineExpiry =>
    refine .of_unlessHeld (.ite (fun _ => .ite (fun hp => ?_) fun _ => onResin_rigKeeps rfl) fun _ => .refl _ s) e
    have hw : HoleWork s (enterHold (markMixShort s)) := .of_entry rfl rfl rfl rfl
    exact (hw.keeps (.inl (by simp [hp]))).event s
  | holdDeadlineExpiry =>
    refine .of_unlessHeld (.ite (fun _ => .ite (fun hp => ?_) fun _ => .ite (fun _ => ?_) fun _ => ?_) fun _ => .refl _ s) e
    · have hw : HoleWork s (enterTorqueFirst (s.onResin fun r => { r with holdDeadline := none })) :=
        .of_entry rfl rfl rfl rfl
      exact (hw.keeps (.inl (by simp [hp]))).event s
    · exact .of_same rfl rfl rfl rfl rfl rfl rfl
    · exact onResin_rigKeeps rfl
  | torqueTimerExpiry =>
    refine .of_unlessHeld (.ite (fun hc => ?_) fun _ => .refl _ s) e
    exact ((complete_holeWork _ s).keeps (.inl (by simp [hc.1]))).event s
  | releaseDeadlineExpiry =>
    have hu : RigKeeps false false s ((queueFault .valveStuck s).onFlow fun f => { f with releaseDeadline := none }) :=
      .of_same rfl rfl rfl rfl rfl rfl rfl
    exact .of_unlessHeld (.ite (fun _ => hu) fun _ => .refl _ s) e
  | demandScheduleExpiry => exact demandSchedule_rigKeeps e
  | staleDeadlineExpiry station => exact .of_unlessHeld (staleDeadline_rigKeeps station s) e
  | removalDeadlineExpiry station =>
    exact .of_unlessHeld (.ite (fun _ => (removalDeadline_rigKeeps station s).event s) fun _ => .refl _ s) e
  | demandFrameReceived bits => exact .of_unlessHeld (.foldl takeBit_rigKeeps bits s) e
  | holeFrameReceived bits => exact .of_unlessHeld (.foldl takeBit_rigKeeps bits s) e
  | seekingComplete =>
    exact .of_unlessHeld
      (.ite (fun hv => .onLine (fun h => h.opened hv) (by simp [hv]) (by simp)) fun _ => .refl _ s) e
  | frameStart recessive => exact .of_unlessHeld (frameStart_rigKeeps recessive s) e
  | frameSent =>
    refine .of_unlessHeld (.ite (fun hs => ?_) fun _ => .refl _ s) e
    obtain ⟨f, hf⟩ := Option.isSome_iff_exists.1 hs
    exact endSent_rigKeeps (sending_eq_some hf).1
  | arbitrationLost bit =>
    refine .of_unlessHeld ?_ e
    split
    · rename_i f hf
      exact .ite (fun _ => overridden_rigKeeps f bit (sending_eq_some hf).1) fun _ => .refl _ s
    · exact .refl _ s
  | transmitFault bit =>
    refine .of_unlessHeld ?_ e
    split
    · rename_i f hf
      exact .ite (fun _ => faultTransmit_rigKeeps (sending_eq_some hf).1) fun _ => .refl _ s
    · exact .refl _ s
  | duplicateOverridden bit =>
    refine .of_unlessHeld ?_ e
    split
    · rename_i f hf
      exact .ite (fun _ => overridden_rigKeeps f bit (sending_eq_some hf).1) fun _ => .refl _ s
    · exact .refl _ s
  | setpointRecordEnd =>
    refine .of_unlessHeld (.ite (fun _ => ?_) fun _ => .refl _ s) e
    exact .of_same rfl (by simp) (by simp) rfl rfl rfl rfl

end Commands

/-- Taking the front command off the queue touches none of the items. -/
theorem step_rigKeeps {s t : State} (e : step s = .next t) : RigKeeps false false s t := by
  unfold step at e
  split at e
  · obtain rfl := Host.Outcome.next.inj e
    exact .refl _ s
  · rename_i c rest _
    have hu : RigKeeps false false s { s with pending := rest } := .of_same rfl rfl rfl rfl rfl rfl rfl
    exact hu.trans (exec_rigKeeps c e)

theorem rigSound_of {s : State} (h : CycleSound s) (hc : ConfigSound s) (hl : LinkSound s) : RigSound false s :=
  have ⟨hline, hoff⟩ := (linkSound_iff s).1 hl
  ⟨hline, hoff, hc, fun hu => h.no_stroke (by simp [hu])⟩

/-- Settles O59: every command keeps the rig's items, once LinkSound is widened so that it also holds between the last bit of a
frame and the end of that frame, and joined with what CycleSound says of UNCONFIGURED. -/
theorem stepsKeepTheLinkSound : Obligations.StepsKeepTheLinkSound := by
  intro s t e
  have hk := step_rigKeeps e
  refine ⟨hk.neighbours, fun h hc hl => ?_⟩
  have ht := hk.rig (rigSound_of h hc hl)
  exact ⟨ht.config, (linkSound_iff t).2 ⟨ht.line, ht.off⟩, hk.peers⟩

end Sys2Proof.Machine
end

