-- ==== Sys2Proof/Proofs/GoodFrames.lean ====
section
/-! PROOFS. O49: a good frame of another station reaches its table at its last bit (04 R63, R64, R68, R69, 08 R119, 09 R148). -/

namespace Sys2Proof.Machine

/-! ### The predicted set (04 R68) -/

/-- An entry qualifies for a hole whose row and slot differ from its own by at most 1. -/
theorem qualifies_iff (row slot : Nat) (e : HoleNotice) : qualifies row slot e = true ↔
    e.row ≤ row + 1 ∧ row ≤ e.row + 1 ∧ e.slot ≤ slot + 1 ∧ slot ≤ e.slot + 1 := by
  simp [qualifies, adjacent, and_assoc]

/-- A void overlaps a cell by 1 mm or more; one of length 0 overlaps nothing (log 26). -/
theorem overlaps_iff (v : VoidInterval) (cell : Nat) : v.overlaps cell = true ↔
    0 < v.length ∧ v.start < 20 * (cell + 1) ∧ 20 * cell < v.start + v.length := by
  simp [VoidInterval.overlaps, and_assoc]

theorem mem_predictedSet (row slot planned : Nat) (entries : List HoleNotice) (c : Nat) :
    c ∈ predictedSet row slot planned entries ↔
      c < planned ∧ ∃ e ∈ entries, qualifies row slot e = true ∧ ∃ v ∈ e.voids, v.overlaps c = true := by
  simp [predictedSet]

theorem predictedSet_rising (row slot planned : Nat) (entries : List HoleNotice) :
    (predictedSet row slot planned entries).Pairwise (fun a b => a < b) := List.pairwise_lt_range.filter _

/-! ### An insertion (04 R63, R69) -/

theorem sameKey_iff (a b : HoleNotice) : a.sameKey b = true ↔ a.row = b.row ∧ a.slot = b.slot := by
  simp [HoleNotice.sameKey]

/-- A notice of a place that is in the table takes the place of every entry of it. -/
theorem insertInto_known {e : HoleNotice} {entries : List HoleNotice}
    (h : ∃ x ∈ entries, x.row = e.row ∧ x.slot = e.slot) :
    insertInto e entries = (entries.filter (fun x => !x.sameKey e) ++ [e], entries.filter fun x => x.sameKey e) := by
  obtain ⟨x, hx, hk⟩ := h
  exact if_pos (List.any_eq_true.2 ⟨x, hx, (sameKey_iff x e).2 hk⟩)

/-- A notice of a new place joins the table, from which the oldest entry goes where it is full. -/
theorem insertInto_new {e : HoleNotice} {entries : List HoleNotice}
    (h : ∀ x ∈ entries, ¬(x.row = e.row ∧ x.slot = e.slot)) :
    insertInto e entries = ((if 16 ≤ entries.length then entries.drop 1 else entries) ++ [e],
      if 16 ≤ entries.length then entries.take 1 else []) := by
  have hany : (entries.any fun x => x.sameKey e) = false := by
    simpa [sameKey_iff] using h
  unfold insertInto
  rw [if_neg (by simp [hany])]
  split_ifs <;> rfl

/-- The rebuild of R69, in COLLAR or DRILL, on an insertion that adds or removes an entry that qualifies. -/
theorem insertionRebuilds_iff (s : State) (e : HoleNotice) (removed : List HoleNotice) :
    insertionRebuilds s e removed = true ↔ (s.cycle.state = .active .collar ∨ s.cycle.state = .active .drill)
      ∧ ∃ x ∈ e :: removed, qualifies s.cycle.row s.cycle.slot x = true := by
  simp only [insertionRebuilds, Bool.and_eq_true, Bool.or_eq_true, beq_iff_eq, List.any_eq_true]

theorem insertNotice_predicted (e : HoleNotice) (s : State) : (insertNotice e s).neighbours.predicted =
    if insertionRebuilds s e (insertInto e s.neighbours.entries).2 = true then
      predictedSet s.cycle.row s.cycle.slot s.cycle.planned (insertNotice e s).neighbours.entries
    else s.neighbours.predicted := rfl

/-! ### The end of a good frame -/

/-- The station in the GAP after a frame that it followed (09 R141, R143). -/
def frameEnded (s : State) : State := s.onLink fun l => l.endReceived true

/-- An event that leaves the cycle state places no notice (08 R137). -/
theorem event_link_of_still {old w : State} (h : w.cycle.state = old.cycle.state) : (event old w).link = w.link := by
  simp [event, finish, placeDemandIf, h]

/-- The command that brings a good frame to its last bit routes it. -/
theorem exec_goodFrame {c : Instr} {bits : List Bool} {f : LinkFrame} {s : State}
    (hcmd : c ∈ [Instr.demandFrameReceived bits, .holeFrameReceived bits]) (hheld : s.resetHeld = false)
    (hb : BringsFrame s bits f) (hc : crcGood f = true) (hl : f.payload.length ≤ 40) (hst : f.station.toNat ≤ 5) :
    exec c s = .next (routeFrame f (frameEnded s)) := by
  have hfold := foldl_takeBit_good hb hc hl hst
  have hexec : exec c s = unlessHeld s (bits.foldl takeBit s) := by
    simp only [List.mem_cons, List.not_mem_nil, or_false] at hcmd
    rcases hcmd with rfl | rfl <;> rfl
  rw [hexec, unlessHeld_of_awake hheld, hfold, frameEnded]

/-- A good DEMAND of another station (08 R119). -/
theorem routeFrame_demand {f : LinkFrame} {s : State} {n : DemandNotice} (hk : f.kind = 1)
    (hd : decodeDemand f.payload = some n) (ho : f.station.toNat ≠ ownStation s) :
    routeFrame f s = event s (s.onFlow fun b =>
      { b with peers := upsertPeer (freshPeer f.station.toNat n s.now) b.peers }) := by
  simp only [routeFrame, hk, demandKind, if_true, hd, ho, if_false]

/-- A good HOLE of another station (04 R64). -/
theorem routeFrame_hole {f : LinkFrame} {s : State} {e : HoleNotice} (hk : f.kind = 2)
    (hd : decodeHole f.station.toNat f.payload = some e) (ho : f.station.toNat ≠ ownStation s) :
    routeFrame f s = event s (insertNotice e s) := by
  have hn : ¬(2 : BitVec 3) = demandKind := by decide
  simp only [routeFrame, hk, hn, if_false, holeKind, if_true, hd, ho]

/-- Settles O49: the frame's bits end in the routing of a good frame (09 R148), an event whose work is one insertion. -/
theorem goodFramesReachTheirTables : Obligations.GoodFramesReachTheirTables := by
  refine ⟨fun row slot planned entries => ⟨predictedSet_rising row slot planned entries, fun c => ?_⟩, ?_⟩
  · rw [mem_predictedSet]
    simp only [qualifies_iff, overlaps_iff, and_assoc]
  intro bits f s hheld hb hc hl hst hown
  have hown' : f.station.toNat ≠ ownStation (frameEnded s) := hown
  refine ⟨fun n hk hd hrising => ?_, fun e hk hd => ?_⟩
  · refine ⟨_, exec_goodFrame (by simp) hheld hb hc hl hst, ?_⟩
    rw [routeFrame_demand hk hd hown']
    refine ⟨event_link_of_still rfl, ?_, event_neighbours_entries _ _, event_neighbours_predicted _ _,
      event_cycle_state _ _, event_history _ _, event_sensor _ _, event_host_faults _ _, event_host_reply _ _,
      event_flowFollows _ _⟩
    rw [event_flow_peers]
    exact upsertPeer_eq _ s.flow.peers hrising
  · refine ⟨_, (insertInto e s.neighbours.entries).2, exec_goodFrame (by simp) hheld hb hc hl hst, ?_⟩
    rw [routeFrame_hole hk hd hown', event_neighbours_entries, event_neighbours_predicted, insertNotice_predicted]
    have hentries : (insertNotice e (frameEnded s)).neighbours.entries = (insertInto e s.neighbours.entries).1 := rfl
    have hrebuilds := insertionRebuilds_iff (frameEnded s) e (insertInto e s.neighbours.entries).2
    refine ⟨event_link_of_still rfl, fun hx => ?_, fun hx => ?_, fun h1 h2 => if_neg ?_, fun hcd hq => if_pos ?_,
      fun hq => if_neg ?_, event_flow_peers _ _, event_cycle_state _ _, event_history _ _, event_sensor _ _,
      event_host_faults _ _, event_host_reply _ _, event_flowFollows _ _⟩
    · rw [hentries, insertInto_known hx]
      exact ⟨rfl, rfl⟩
    · rw [hentries, insertInto_new hx]
      exact ⟨rfl, rfl⟩
    · exact fun hr => (hrebuilds.1 hr).1.elim h1 h2
    · exact hrebuilds.2 ⟨hcd, hq⟩
    · intro hr
      obtain ⟨-, x, hx, hqx⟩ := hrebuilds.1 hr
      exact Bool.false_ne_true ((hq x hx).symm.trans hqx)

end Sys2Proof.Machine
end

/-! PROOFS. O20: the anchor evaluation over the 30 deepest planned cells (05 R76 to R80). -/

namespace Sys2Proof.Machine

/-! ### Counting by class (05 R77) -/

theorem countClasses_pair (a b : StrataClass) (cells : List CellRecord) :
    countClasses [a, b] cells = (cells.filter fun x => x.cls == a || x.cls == b).length := by
  simp [countClasses, beq_eq_decide]

theorem countClasses_singleton (a : StrataClass) (cells : List CellRecord) :
    countClasses [a] cells = (cells.filter fun x => x.cls == a).length := by
  simp [countClasses, beq_eq_decide]

theorem countClasses_cons (classes : List StrataClass) (x : CellRecord) (cells : List CellRecord) :
    countClasses classes (x :: cells) = countClasses classes cells + if x.cls ∈ classes then 1 else 0 := by
  by_cases hx : x.cls ∈ classes <;> simp [countClasses, hx]

/-- A cell adds one to at most one of the void, soft and hard counts (05 R77). -/
theorem anchorCounts_le_length (cells : List CellRecord) :
    countClasses [.void, .skipped] cells + countClasses [.soft, .lost] cells + countClasses [.hard] cells
      ≤ cells.length := by
  induction cells with
  | nil => exact Nat.le_refl 0
  | cons x cells ih =>
    have hone : ((if x.cls ∈ [StrataClass.void, .skipped] then 1 else 0) + (if x.cls ∈ [StrataClass.soft, .lost] then 1 else 0)
        + if x.cls ∈ [StrataClass.hard] then 1 else 0) ≤ 1 := by
      cases x.cls <;> decide
    simp only [countClasses_cons, List.length_cons]
    omega

/-- The 30 deepest of at least 30 planned cells (05 R76). -/
theorem anchorZone_length {planned : Nat} {cells : List CellRecord} (h30 : 30 ≤ planned) (hlen : cells.length = planned) :
    (cells.drop (planned - 30)).length = 30 := by
  rw [List.length_drop]
  omega

/-! ### The evaluation's items -/

/-- Whatever the outcome, the counts are taken over the zone (05 R77, R78). -/
theorem evaluation_counts (c : Configuration) (planned : Nat) (cells : List CellRecord) :
    let e := evaluation c planned cells
    let zone := cells.drop (planned - 30)
    e.voidCount = countClasses [.void, .skipped] zone ∧ e.softCount = countClasses [.soft, .lost] zone
      ∧ e.hardCount = countClasses [.hard] zone := by
  unfold evaluation
  dsimp only
  split <;> exact ⟨rfl, rfl, rfl⟩

section Outcome
variable {c : Configuration} {planned : Nat} {cells : List CellRecord}

/-- From the reject-void count on the zone is rejected, with nothing chosen (05 R78). -/
theorem evaluation_reject (h : c.rejectVoid ≤ (evaluation c planned cells).voidCount) :
    (evaluation c planned cells).outcome = .reject ∧ (evaluation c planned cells).charge = none
      ∧ (evaluation c planned cells).target = none := by
  rw [(evaluation_counts c planned cells).1] at h
  simp only [evaluation, if_pos h, and_self]

/-- Below the reject-void count the charge follows the void count and the target the soft count, the soft target being taken
from half the zone on (05 R79, R80). -/
theorem evaluation_charge (h : (evaluation c planned cells).voidCount < c.rejectVoid) :
    let e := evaluation c planned cells
    e.outcome = .charge
      ∧ e.charge = some (if c.extraVoid ≤ e.voidCount then c.baseCartridges + 1 else c.baseCartridges)
      ∧ e.target = some (if 15 ≤ e.softCount then c.softTarget else c.normalTarget) := by
  have hhalf : ∀ n, 30 ≤ n * 2 ↔ 15 ≤ n := fun n => by omega
  rw [(evaluation_counts c planned cells).1] at h
  simp only [evaluation, if_neg (Nat.not_le.2 h), hhalf, and_self]

end Outcome

/-- The admitted base charge is 1 or 2 cartridges (11 R184). -/
theorem Configuration.inRange_baseCartridges {c : Configuration} (h : c.inRange = true) :
    1 ≤ c.baseCartridges ∧ c.baseCartridges ≤ 2 := by
  simp only [Configuration.inRange, within, Bool.and_eq_true, decide_eq_true_eq] at h
  omega

/-- Settles O20: the counts are those of the zone, and each outcome gives its own charge and target. -/
theorem evaluationFollowsTheCounts : Obligations.EvaluationFollowsTheCounts := by
  intro c planned cells h30 hlen e zone
  have hzone : zone.length = 30 := anchorZone_length h30 hlen
  obtain ⟨hvoid, hsoft, hhard⟩ : e.voidCount = countClasses [.void, .skipped] zone
      ∧ e.softCount = countClasses [.soft, .lost] zone ∧ e.hardCount = countClasses [.hard] zone :=
    evaluation_counts c planned cells
  have hsum : e.voidCount + e.softCount + e.hardCount ≤ 30 := by
    rw [hvoid, hsoft, hhard, ← hzone]
    exact anchorCounts_le_length zone
  have hrange : c.inRange = true → ∀ n, e.charge = some n → 1 ≤ n ∧ n ≤ 3 := fun hc =>
    (evaluation_anchorSound (Configuration.inRange_baseCartridges hc) planned cells).1.range
  exact ⟨hzone, hvoid.trans (countClasses_pair _ _ zone), hsoft.trans (countClasses_pair _ _ zone),
    hhard.trans (countClasses_singleton _ zone), hsum, evaluation_reject, evaluation_charge, hrange⟩

end Sys2Proof.Machine

/-! PROOFS. O28, O29: a stroke ends by STROKE_DONE or by its timeout (06 R89 to R91, R95). -/

namespace Sys2Proof.Machine

/-! ### A stroke that has ended -/

/-- With the gap armed, or outside INSERT, an event starts no stroke after the one that has ended (06 R88). -/
theorem event_stroke_ended (old : State) {w : State} (hs : w.resin.stroke = .idle) (ht : w.resin.strokeTimer = .disarmed)
    (hw : w.cycle.state ≠ .active .insert ∨ w.resin.gap.isSome = true) :
    (event old w).resin.stroke = .idle ∧ (event old w).resin.strokeTimer = .disarmed := by
  have hn : phaseRuns (settle w) .insert = false ∨ strokeReady w = false := by
    rcases hw with hst | hg
    · exact .inl (by simp [phaseRuns, hst])
    · obtain ⟨d, hd⟩ := Option.isSome_iff_exists.1 hg
      exact .inr (by simp [strokeReady, hd])
  obtain ⟨h1, h2⟩ := settle_starts_not hn
  rw [event_resin, h1, h2, ht, sync_disarmed]
  exact ⟨hs, rfl⟩

/-- Only a suspended MIX writes into the record (06 R99). -/
theorem suspend_history {s : State} {p : Phase} (h : s.cycle.state = .active p) (hp : p ≠ .mix) (c : Cause) :
    (suspend c s).history = s.history := by
  have hm : (p == .mix) = false := by simpa using hp
  have hrecords := (suspend_records h c).trans (onOpen_of_unchanged (fun r => by rw [hm, Bool.or_false]) _)
  have hrest : (suspend c s).history = { s.history with records := (suspend c s).history.records } := by
    simp [suspend, h, writeOpen, State.onHistory]
  rw [hrest, hrecords]

/-- A fall of STROKE with cartridges still to push arms the gap (06 R89). -/
def gapArmed (w : State) : State := w.onResin fun r => { r with gap := some (after w.now 100) }

/-- With cartridges still to push INSERT waits out the gap, suspended where MUTE is held (06 R90, R91). -/
def awaitNextStroke (w : State) : State := if w.muted = true then suspend .mute (gapArmed w) else gapArmed w

theorem awaitNextStroke_muted {w : State} (h : w.muted = true) : awaitNextStroke w = suspend .mute (gapArmed w) := if_pos h

theorem awaitNextStroke_unmuted {w : State} (h : w.muted = false) : awaitNextStroke w = gapArmed w :=
  if_neg (ne_true_of_eq_false h)

theorem awaitNextStroke_host (w : State) : (awaitNextStroke w).host = w.host := by
  cases hm : w.muted
  · rw [awaitNextStroke_unmuted hm]
    rfl
  · rw [awaitNextStroke_muted hm, suspend_host]
    rfl

section Awaited

variable {w : State} (hst : w.cycle.state = .active .insert)

include hst

/-- MUTE has no stroke to withdraw. -/
theorem awaitNextStroke_resin (hs : w.resin.stroke = .idle) : (awaitNextStroke w).resin = (gapArmed w).resin := by
  cases hm : w.muted
  · rw [awaitNextStroke_unmuted hm]
  · have hidle : (gapArmed w).resin.stroke ≠ .inProgress := by simp [gapArmed, hs]
    rw [awaitNextStroke_muted hm, suspend_resin (s := gapArmed w) hst, withdraw_of_not_inProgress hidle]

theorem awaitNextStroke_history : (awaitNextStroke w).history = w.history := by
  cases hm : w.muted
  · rw [awaitNextStroke_unmuted hm]
    rfl
  · rw [awaitNextStroke_muted hm, suspend_history (s := gapArmed w) hst (by simp)]
    rfl

/-- INSERT goes on, or stands suspended by MUTE, until the gap has passed. -/
theorem event_awaitNextStroke (old : State) :
    let t := event old (awaitNextStroke w)
    (w.muted = false → t.cycle.state = .active .insert)
      ∧ (w.muted = true → t.cycle.state = .suspended ∧ t.cycle.remembered = some .insert ∧ t.cycle.cause = some .mute
          ∧ AtRest t) := by
  refine ⟨fun hm => ?_, fun hm => ?_⟩
  · rw [event_cycle_state, awaitNextStroke_unmuted hm]
    exact hst
  · rw [awaitNextStroke_muted hm]
    have h := event_suspend old (gapArmed w) .insert .mute hst (fun _ => rfl)
    exact ⟨h.state, h.remembered.1, h.remembered.2, h.rest⟩

end Awaited

/-! ### STROKE_DONE -/

/-- The cartridge counted, before the first case of R90's table decides what follows. -/
def cartridgeCounted (s : State) : State :=
  writeOpen (fun r => { r with pushed := s.resin.pushed + 1 })
    (s.onResin fun r =>
      { r with stroke := .idle, strokeTimer := .disarmed, pushed := s.resin.pushed + 1, retry := false })

/-- R90's table. -/
theorem strokeCounted_of_abort {s : State} (ha : s.cycle.abortPending = true) :
    strokeCounted s = complete .aborted (cartridgeCounted s) := if_pos ha

theorem strokeCounted_of_last {s : State} (ha : s.cycle.abortPending = false)
    (hc : s.resin.charge = some (s.resin.pushed + 1)) : strokeCounted s = enterMix (cartridgeCounted s) :=
  (if_neg (ne_true_of_eq_false ha)).trans (if_pos hc)

theorem strokeCounted_of_more {s : State} (ha : s.cycle.abortPending = false)
    (hc : s.resin.charge ≠ some (s.resin.pushed + 1)) : strokeCounted s = awaitNextStroke (cartridgeCounted s) :=
  (if_neg (ne_true_of_eq_false ha)).trans (if_neg hc)

theorem cartridgeCounted_records (s : State) : (cartridgeCounted s).history.records =
    onOpen (fun r => { r with pushed := s.resin.pushed + 1 }) s.history.records := rfl

theorem enterMix_eq (w : State) : enterMix w = enterState (.active .mix)
    (writeOpen (fun r => { r with band := some (bandNow w), quarterRevs := some 0 }) (w.onResin fun r =>
      { r with band := some (bandNow w), mixDeadline := some (after w.now (mixWindowMs w.cfg (bandNow w))),
               quarterRevs := 0 })) := enterPhase_of_served nofun

/-- The resin items that every case of R90's table leaves, and why no stroke starts at the end of its event. -/
structure CartridgeCounted (s w : State) : Prop where
  pushed : w.resin.pushed = s.resin.pushed + 1
  retry : w.resin.retry = false
  charge : w.resin.charge = s.resin.charge
  stroke : w.resin.stroke = .idle
  strokeTimer : w.resin.strokeTimer = .disarmed
  waits : w.cycle.state ≠ .active .insert ∨ w.resin.gap.isSome = true

theorem strokeCounted_counts {s : State} (hst : s.cycle.state = .active .insert) : CartridgeCounted s (strokeCounted s) := by
  cases ha : s.cycle.abortPending
  · by_cases hc : s.resin.charge = some (s.resin.pushed + 1)
    · rw [strokeCounted_of_last ha hc, enterMix_eq]
      exact ⟨rfl, rfl, rfl, rfl, rfl, .inl (by simp)⟩
    · have hresin := awaitNextStroke_resin (w := cartridgeCounted s) hst rfl
      rw [strokeCounted_of_more ha hc]
      constructor <;> rw [hresin] <;> simp [gapArmed, cartridgeCounted]
  · rw [strokeCounted_of_abort ha]
    constructor <;> simp [complete, cartridgeCounted]

theorem strokeCounted_cycleFrame (s : State) : CycleFrame s (strokeCounted s) :=
  ⟨by simp, by simp, by simp, by simp, by simp, by simp, by simp, by simp, by simp⟩

/-- MIX entered with the last cartridge (06 R90, R95). -/
theorem event_lastCartridge {s : State} (hst : s.cycle.state = .active .insert) :
    let t := event s (enterMix (cartridgeCounted s))
    t.cycle.state = .active .mix ∧ t.resin.band = some (bandNow s) ∧ t.resin.quarterRevs = 0
      ∧ t.resin.mixDeadline = some (after s.now (mixWindowMs s.cfg (bandNow s)))
      ∧ t.history.records =
          onOpen (fun r =>
            { r with pushed := s.resin.pushed + 1, band := some (bandNow s), quarterRevs := some 0 })
            s.history.records
      ∧ FlowFollows t ∧ NoticePlaced t := by
  have hband : bandNow (cartridgeCounted s) = bandNow s := rfl
  rw [enterMix_eq, hband]
  refine ⟨by simp, by simp, by simp, by simp [cartridgeCounted, State.now, State.cfg], ?_, event_flowFollows _ _,
    event_noticePlaced (by simp [hst]) (by simp)⟩
  rw [event_history, enterState_history, writeOpen_records, State.onResin_history, cartridgeCounted_records,
    onOpen_onOpen]
  exact fun _ => rfl

/-- Settles O28: R90's table, case by case, on the cartridge counted (`cartridgeCounted`). -/
theorem strokeDoneCountsTheCartridge : Obligations.StrokeDoneCountsTheCartridge := by
  intro s hheld
  refine ⟨(unlessHeld_ite hheld).1, fun hs hi => ⟨_, (unlessHeld_ite hheld).2 hi,
    event_cycleFrame (strokeCounted_cycleFrame s), ?_⟩⟩
  obtain ⟨hst, -⟩ := hs.stroke hi
  have hcount := strokeCounted_counts hst
  obtain ⟨hstroke, htimer⟩ := event_stroke_ended s hcount.stroke hcount.strokeTimer hcount.waits
  refine ⟨(event_resin_pushed _ _).trans hcount.pushed, (event_resin_retry _ _).trans hcount.retry, hstroke, htimer,
    (event_resin_charge _ _).trans hcount.charge, fun ha => ?_, fun ha hc => ?_, fun ha hc => ?_⟩
  · rw [strokeCounted_of_abort ha]
    exact event_complete_of rfl rfl rfl rfl rfl
  · rw [strokeCounted_of_last ha hc]
    exact event_lastCartridge hst
  · rw [strokeCounted_of_more ha hc]
    obtain ⟨hgo, hmute⟩ := event_awaitNextStroke (w := cartridgeCounted s) hst s
    refine ⟨?_, ?_, fun hm => ⟨hgo hm, event_flowFollows _ _⟩, hmute⟩
    · rw [event_resin_gap, awaitNextStroke_resin (w := cartridgeCounted s) hst rfl]
      rfl
    · rw [event_history, awaitNextStroke_history (w := cartridgeCounted s) hst, cartridgeCounted_records]

/-! ### STROKE_TIMER_EXPIRY -/

/-- The stroke that has run out at its first timeout, with the retry mark set (06 R91). -/
def strokeRetried (s : State) : State :=
  s.onResin fun r => { r with stroke := .idle, strokeTimer := .disarmed, retry := true }

/-- R91's table but for its second case, `strokeTimeout_of_retry`. -/
theorem strokeTimeout_of_abort {s : State} (ha : s.cycle.abortPending = true) :
    strokeTimeout s = complete .aborted (s.onResin fun r => { r with stroke := .idle, strokeTimer := .disarmed }) := if_pos ha

theorem strokeTimeout_retries {s : State} (ha : s.cycle.abortPending = false) (hr : s.resin.retry = false) :
    strokeTimeout s = awaitNextStroke (strokeRetried s) :=
  (if_neg (ne_true_of_eq_false ha)).trans (if_neg (ne_true_of_eq_false hr))

/-- No case of R91's table leaves a stroke, and none lets one start at the end of its event. -/
theorem strokeTimeout_stroke {s : State} (hst : s.cycle.state = .active .insert) :
    (strokeTimeout s).resin.stroke = .idle ∧ (strokeTimeout s).resin.strokeTimer = .disarmed
      ∧ ((strokeTimeout s).cycle.state ≠ .active .insert ∨ (strokeTimeout s).resin.gap.isSome = true) := by
  cases ha : s.cycle.abortPending
  · cases hr : s.resin.retry
    · have hresin := awaitNextStroke_resin (w := strokeRetried s) hst rfl
      rw [strokeTimeout_retries ha hr, hresin]
      exact ⟨rfl, rfl, .inr rfl⟩
    · rw [strokeTimeout_of_retry ha hr]
      simp [complete]
  · rw [strokeTimeout_of_abort ha]
    simp [complete]

theorem strokeTimeout_cycleFrame (s : State) : CycleFrame s (strokeTimeout s) :=
  ⟨by simp, by simp, by simp, by simp, by simp, by simp, by simp, by simp, by simp⟩

/-- Settles O29: R91's table, case by case. -/
theorem strokeTimeoutFollowsTheMarks : Obligations.StrokeTimeoutFollowsTheMarks := by
  intro s hheld
  refine ⟨(unlessHeld_ite hheld).1, fun hs hi hdue => ⟨_, (unlessHeld_ite hheld).2 ⟨hi, hdue⟩,
    event_cycleFrame (strokeTimeout_cycleFrame s), by simp, ?_⟩⟩
  obtain ⟨hst, -⟩ := hs.stroke hi
  obtain ⟨hidle, hdisarmed, hwaits⟩ := strokeTimeout_stroke hst
  obtain ⟨hstroke, htimer⟩ := event_stroke_ended s hidle hdisarmed hwaits
  refine ⟨hstroke, htimer, fun ha => ?_, fun ha hr => ?_, fun ha hr => ?_⟩
  · rw [strokeTimeout_of_abort ha]
    exact ⟨event_complete_of rfl rfl rfl rfl rfl, by simp⟩
  · rw [strokeTimeout_of_retry ha hr]
    exact ⟨event_complete_of rfl rfl rfl rfl rfl, by simp [queueFault_faults]⟩
  · have hw : (strokeRetried s).cycle.state = .active .insert := hst
    have hresin := awaitNextStroke_resin hw rfl
    rw [strokeTimeout_retries ha hr]
    refine ⟨by rw [event_resin_retry, hresin]; rfl, by rw [event_resin_gap, hresin]; rfl, ?_, ?_, event_awaitNextStroke hw s⟩
    · rw [event_host_faults, awaitNextStroke_host]
      rfl
    · rw [event_history, awaitNextStroke_history hw]
      rfl

end Sys2Proof.Machine

/-! PROOFS. O30: a stroke's start at the end of an event, and the gap between strokes (06 R88, R89). -/

namespace Sys2Proof.Machine

/-! ### R88 at the end of an event -/

theorem phaseRuns_iff (t : State) (p : Phase) :
    phaseRuns t p = true ↔ t.cycle.state = .active p ∧ t.cycle.held = false := by simp [phaseRuns]

/-- An event that leaves no stroke of its own ends with one in progress exactly where R88's conditions hold. -/
theorem event_stroke_iff (old : State) {w : State} (hw : w.resin.stroke ≠ .inProgress) :
    let t := event old w
    t.resin.stroke = .inProgress ↔ t.cycle.state = .active .insert ∧ t.cycle.held = false
      ∧ t.resin.pushed < t.resin.charge.getD 0 ∧ t.cycle.abortPending = false ∧ t.resin.gap = none := by
  intro t
  have hruns : phaseRuns (settle w) .insert = true ↔ t.cycle.state = .active .insert ∧ t.cycle.held = false := by
    rw [← event_phaseRuns old, phaseRuns_iff]
  have hready : strokeReady w = true ↔ t.resin.pushed < t.resin.charge.getD 0 ∧ t.cycle.abortPending = false
      ∧ t.resin.gap = none := by
    rw [strokeReady_iff]
    simp [t, hw]
  have hstart : t.resin.stroke = .inProgress ↔ phaseRuns (settle w) .insert = true ∧ strokeReady w = true := by
    rw [event_resin]
    rcases stroke_cases w with hgo | hno
    · exact iff_of_true (settle_starts hgo.1 hgo.2).1 hgo
    · exact iff_of_false ((settle_starts_not hno).1 ▸ hw) fun hgo => by simp [hgo] at hno
  rw [hstart, hruns, hready, and_assoc]

/-- The stroke that starts takes a fresh 3,000 ms from IDLE, and what was kept of an interrupted one (06 R88). -/
theorem event_stroke_timer (old : State) {w : State} (hw : w.resin.stroke ≠ .inProgress)
    (ht : (event old w).resin.stroke = .inProgress) :
    (w.resin.stroke = .idle → (event old w).resin.strokeTimer = .running (after w.now 3000))
      ∧ (∀ left, w.resin.stroke = .interrupted → w.resin.strokeTimer = .paused left →
          (event old w).resin.strokeTimer = .running (after w.now left)) := by
  rw [event_resin] at ht ⊢
  rcases stroke_cases w with ⟨hi, hr⟩ | hno
  · rw [(settle_starts hi hr).2]
    refine ⟨fun hidle => if_pos hidle, fun left hint hleft => ?_⟩
    rw [if_neg (by simp [hint]), hleft]
    rfl
  · exact absurd ((settle_starts_not hno).1.symm.trans ht) hw

/-- An event that ends with no stroke in progress has left the stroke as its work did. -/
theorem event_stroke_of_not (old : State) {w : State} (ht : (event old w).resin.stroke ≠ .inProgress) :
    (event old w).resin.stroke = w.resin.stroke := by
  rw [event_resin] at ht ⊢
  rcases stroke_cases w with ⟨hi, hr⟩ | hno
  · exact absurd (settle_starts hi hr).1 ht
  · exact (settle_starts_not hno).1

/-! ### STROKE_GAP_EXPIRY -/

/-- The gap has passed (06 R89). -/
def gapPassed (s : State) : State := s.onResin fun r => { r with gap := none }

theorem gapPassed_cycleFrame (s : State) : CycleFrame s (gapPassed s) :=
  ⟨⟨rfl, rfl, rfl⟩, rfl, rfl, rfl, rfl, rfl, ⟨rfl, rfl, rfl, rfl, rfl⟩, ⟨rfl, rfl⟩, rfl, rfl, rfl⟩

theorem isSome_of_deadlineDue {deadline : Option Time} {now : Time} (h : deadlineDue deadline now = true) :
    deadline.isSome = true := by
  cases deadline with
  | none => simp [deadlineDue] at h
  | some d => rfl

/-- Settles O30: the first clause is `event_stroke_iff`, and the gap's expiry is an event that leaves HELD as it was, so that
R88's conditions on its end are those on its beginning. -/
theorem gapExpiryMayStartAStroke : Obligations.GapExpiryMayStartAStroke := by
  refine ⟨fun old work t ht hw => by subst ht; exact event_stroke_iff old hw, fun s hheld => ?_⟩
  refine ⟨fun hdue => (unlessHeld_ite hheld).1 (ne_true_of_eq_false hdue), fun hf hs hdue =>
    ⟨event s (gapPassed s), (unlessHeld_ite hheld).2 hdue, event_cycleFrame (gapPassed_cycleFrame s), by simp [gapPassed],
      by simp [gapPassed], by simp [gapPassed], by simp [gapPassed], ?_⟩⟩
  have hidle : (gapPassed s).resin.stroke ≠ .inProgress := hs.gap (isSome_of_deadlineDue hdue)
  have hkept : (event s (gapPassed s)).cycle.held = s.cycle.held := event_held_of_flowSound s s _ hf rfl rfl rfl rfl
  have hiff : (event s (gapPassed s)).resin.stroke = .inProgress ↔ s.cycle.state = .active .insert
      ∧ s.cycle.held = false ∧ s.resin.pushed < s.resin.charge.getD 0 ∧ s.cycle.abortPending = false := by
    refine (event_stroke_iff s hidle).trans ?_
    rw [hkept]
    simp [gapPassed]
  refine ⟨fun hst hh ha hp => ?_, fun hno => ?_⟩
  · have hstart := hiff.2 ⟨hst, hh, hp, ha⟩
    exact ⟨by simp [State.strokeOut, hstart], event_stroke_timer s hidle hstart⟩
  · have hnot : ¬(event s (gapPassed s)).resin.stroke = .inProgress := by
      rw [hiff]
      rintro ⟨hst, hh, hp, ha⟩
      rcases hno with h | h | h | h
      · exact h hst
      · simp [hh] at h
      · simp [ha] at h
      · omega
    exact event_stroke_of_not s hnot

end Sys2Proof.Machine

/-! PROOFS. O31: the mix and hold deadlines (06 R98 to R102, 07 R105). -/

namespace Sys2Proof.Machine

/-! ### MIX_DEADLINE_EXPIRY -/

theorem event_enterHold_short {s : State} (hp : s.cycle.state = .active .mix) :
    let t := event s (enterHold (markMixShort s))
    CycleFrame s t ∧ t.cycle.state = .active .hold
      ∧ t.resin.mixDeadline = none ∧ t.resin.quarterRevs = s.resin.quarterRevs ∧ t.resin.holdPassed = false
      ∧ t.resin.holdDeadline = some (after s.now (holdTimeMs s.cfg (s.resin.band.getD 0)))
      ∧ t.history.records =
          onOpen (fun r => { r with flags := { r.flags with mixShort := true } }) s.history.records
      ∧ FlowFollows t ∧ NoticePlaced t := by
  rw [enterHold_eq]
  refine ⟨event_cycleFrame ⟨by simp [markMixShort], by simp [markMixShort], by simp [markMixShort], by simp [markMixShort],
    by simp [markMixShort], by simp [markMixShort], by simp [markMixShort], by simp [markMixShort], by simp [markMixShort]⟩,
    by simp, by simp, by simp [markMixShort], by simp, by simp [markMixShort, State.now, State.cfg], ?_,
    event_flowFollows _ _, event_noticePlaced (by simp [hp]) (by simp)⟩
  simp [markMixShort, writeOpen_records]

/-! ### HOLD_DEADLINE_EXPIRY -/

/-- TORQUE's items at its first entry in a hole (07 R105). -/
def torqueReady (w : State) : State :=
  writeOpen (fun r => { r with peak := some 0 })
    (w.onTorque fun _ =>
      { target := w.anchor.target, ceiling := w.anchor.target.map ceilingOf, near := w.anchor.target.map nearOf,
        entered := true, timer := .paused 15000, spinner := 0, peak := 0, overshoot := false, torqueNear := false })

theorem enterTorqueFirst_eq (w : State) : enterTorqueFirst w = enterPhase .torque (torqueReady w) := rfl

theorem enterTorqueFirst_of_linkUp {w : State} (hl : w.sensor.live.linkUp = true) :
    enterTorqueFirst w = enterState (.active .torque) (torqueReady w) := enterPhase_of_linkUp hl

/-- With LINK_UP false TORQUE is entered and suspended at once (01 R19). -/
theorem enterTorqueFirst_of_linkDown {w : State} (hl : w.sensor.live.linkUp = false) :
    enterTorqueFirst w = suspend .sensor (enterState (.active .torque) (torqueReady w)) :=
  if_pos (by simp [Phase.needsLink, hl])

theorem enterTorqueFirst_cycleFrame (w : State) : CycleFrame w (enterTorqueFirst w) :=
  ⟨by simp, by simp, by simp, by simp, by simp, by simp, by simp, by simp, by simp⟩

/-- The torque items do not depend on whether the phase is suspended at its entry. -/
theorem enterTorqueFirst_torque (w : State) : (enterTorqueFirst w).torque = (torqueReady w).torque := by
  cases hl : w.sensor.live.linkUp
  · rw [enterTorqueFirst_of_linkDown hl]
    ext1
    case torqueNear => exact suspend_torqueNear rfl _
    all_goals simp
  · rw [enterTorqueFirst_of_linkUp hl]
    rfl

theorem enterTorqueFirst_records (w : State) : (enterTorqueFirst w).history.records =
    onOpen (fun r => { r with peak := some 0 }) w.history.records := by
  cases hl : w.sensor.live.linkUp
  · rw [enterTorqueFirst_of_linkDown hl, suspend_history (p := .torque) rfl (by simp)]
    rfl
  · rw [enterTorqueFirst_of_linkUp hl]
    rfl

/-- What the event of TORQUE's first entry in a hole leaves, with the link up or down (07 R105). -/
structure TorqueFirstEntered (w t : State) : Prop where
  figures : t.torque.target = w.anchor.target ∧ t.torque.ceiling = w.anchor.target.map ceilingOf
    ∧ t.torque.near = w.anchor.target.map nearOf
  items : t.torque.entered = true ∧ t.torque.spinner = 0 ∧ t.torque.peak = 0 ∧ t.torque.overshoot = false
    ∧ t.torque.torqueNear = false
  timer : t.torque.timer =
    if t.cycle.state = .active .torque ∧ t.cycle.held = false then .running (after w.now 15000) else .paused 15000
  records : t.history.records = onOpen (fun r => { r with peak := some 0 }) w.history.records
  linkUp : w.sensor.live.linkUp = true → t.cycle.state = .active .torque
  linkDown : w.sensor.live.linkUp = false → t.cycle.state = .suspended ∧ t.cycle.remembered = some .torque
    ∧ t.cycle.cause = some .sensor ∧ AtRest t

theorem event_enterTorqueFirst (old : State) {w : State} (hs : w.resin.stroke ≠ .inProgress) :
    TorqueFirstEntered w (event old (enterTorqueFirst w)) := by
  have htorque := enterTorqueFirst_torque w
  refine ⟨?_, ?_, ?_, ?_, fun hl => ?_, fun hl => ?_⟩
  · simp [htorque, torqueReady]
  · simp [htorque, torqueReady]
  · rw [(event_timers old _).2.2.2, htorque]
    simp [torqueReady, sync_paused, phaseRuns_iff, State.now]
  · rw [event_history, enterTorqueFirst_records]
  · rw [event_cycle_state, enterTorqueFirst_of_linkUp hl, enterState_state]
  · rw [enterTorqueFirst_of_linkDown hl]
    have hsus := event_suspend old (enterState (.active .torque) (torqueReady w)) .torque .sensor rfl fun hi => absurd hi hs
    obtain ⟨hremembered, hcause⟩ := hsus.remembered
    exact ⟨hsus.state, hremembered, hcause, hsus.rest⟩

/-- The hold deadline has run out (06 R101). -/
def holdExpired (s : State) : State := s.onResin fun r => { r with holdDeadline := none }

theorem holdExpired_cycleFrame {s t : State} (h : CycleFrame (holdExpired s) t) : CycleFrame s t :=
  h.of_work ⟨rfl, rfl, rfl⟩ rfl ⟨rfl, rfl⟩ ⟨rfl, rfl⟩ ⟨rfl, rfl, rfl, rfl, rfl⟩ ⟨rfl, rfl⟩ ⟨rfl, rfl, rfl⟩

/-! ### The two expiries, by the state they find -/

section Expiries

variable {s : State} (hheld : s.resetHeld = false)

include hheld

theorem exec_mixDeadline_inMix (hd : deadlineDue s.resin.mixDeadline s.now = true) (hst : s.cycle.state = .active .mix) :
    exec .mixDeadlineExpiry s = .next (event s (enterHold (markMixShort s))) :=
  ((unlessHeld_ite hheld).2 hd).trans (congrArg Host.Outcome.next (if_pos hst))

theorem exec_mixDeadline_elsewhere (hd : deadlineDue s.resin.mixDeadline s.now = true)
    (hst : s.cycle.state ≠ .active .mix) :
    exec .mixDeadlineExpiry s = .next { s with resin := { s.resin with mixDeadline := none } } :=
  ((unlessHeld_ite hheld).2 hd).trans (congrArg Host.Outcome.next (if_neg hst))

theorem exec_holdDeadline_inHold (hd : deadlineDue s.resin.holdDeadline s.now = true)
    (hst : s.cycle.state = .active .hold) :
    exec .holdDeadlineExpiry s = .next (event s (enterTorqueFirst (holdExpired s))) :=
  ((unlessHeld_ite hheld).2 hd).trans (congrArg Host.Outcome.next (if_pos hst))

theorem exec_holdDeadline_suspended (hd : deadlineDue s.resin.holdDeadline s.now = true)
    (hst : s.cycle.state = .suspended) (hr : s.cycle.remembered = some .hold) : exec .holdDeadlineExpiry s =
      .next { s with resin := { s.resin with holdDeadline := none, holdPassed := true } } :=
  ((unlessHeld_ite hheld).2 hd).trans
    (congrArg Host.Outcome.next ((if_neg (by simp [hst])).trans (if_pos ⟨hst, hr⟩)))

end Expiries

/-- HOLD's deadline enters TORQUE as at any first entry, on the state with the deadline disarmed (06 R101). -/
theorem event_holdExpired {s : State} (hst : s.cycle.state = .active .hold) (hi : s.resin.stroke ≠ .inProgress) :
    let t := event s (enterTorqueFirst (holdExpired s))
    CycleFrame s t ∧ t.resin.holdDeadline = none ∧ t.host.faults = s.host.faults ∧ TorqueFirstEntered s t
      ∧ FlowFollows t ∧ NoticePlaced t := by
  have hent := event_enterTorqueFirst s (w := holdExpired s) hi
  have hleaves : (enterTorqueFirst (holdExpired s)).cycle.state ≠ s.cycle.state := by
    rw [hst]
    exact enterPhase_state_ne _ _ (by simp) (by simp)
  exact ⟨event_cycleFrame (holdExpired_cycleFrame (enterTorqueFirst_cycleFrame _)), by simp [holdExpired],
    by simp [holdExpired], ⟨hent.figures, hent.items, hent.timer, hent.records, hent.linkUp, hent.linkDown⟩,
    event_flowFollows _ _, event_noticePlaced hleaves (enterPhase_state_ne _ _ (by simp) (by simp))⟩

/-- Settles O31: MIX ends in HOLD (`event_enterHold_short`) and HOLD in TORQUE (`event_holdExpired`); elsewhere an expiry only
disarms or leaves its mark. -/
theorem gelDeadlinesRunOut : Obligations.GelDeadlinesRunOut := by
  intro s hheld
  refine ⟨fun hd => (unlessHeld_ite hheld).1 (ne_true_of_eq_false hd), exec_mixDeadline_elsewhere hheld,
    fun hd hst => ⟨_, exec_mixDeadline_inMix hheld hd hst, event_enterHold_short hst⟩,
    fun hd => (unlessHeld_ite hheld).1 (ne_true_of_eq_false hd), exec_holdDeadline_suspended hheld,
    fun hd hst hi => ⟨_, exec_holdDeadline_inHold hheld hd hst, ?_⟩⟩
  obtain ⟨hframe, hdisarmed, hfaults, hent, hflow, hnotice⟩ := event_holdExpired hst hi
  obtain ⟨htarget, hceiling, hnear⟩ := hent.figures
  obtain ⟨hentered, hspinner, hpeak, hovershoot, htorqueNear⟩ := hent.items
  refine ⟨hframe, hdisarmed, htarget, hceiling, hnear, hentered, hspinner, hpeak, hovershoot, htorqueNear, hent.timer,
    hent.records, hent.linkUp, fun hl => ?_, hflow, hnotice⟩
  obtain ⟨hsuspended, hremembered, hcause, hrest⟩ := hent.linkDown hl
  exact ⟨hsuspended, hremembered, hcause, hrest, hfaults⟩

end Sys2Proof.Machine

/-! PROOFS. O32, O33: the figures of a torque target, and the good sample in TORQUE (07 R106, R107, R111). -/

namespace Sys2Proof.Machine

/-! ### The figures of a target -/

theorem nearOf_lt {t : Nat} (h : 0 < t) : nearOf t < t := by
  unfold nearOf
  omega

/-- Three twentieths of a target are a whole newton metre from a target of 7 on. -/
theorem lt_ceilingOf {t : Nat} (h : 7 ≤ t) : t < ceilingOf t := by
  unfold ceilingOf
  omega

theorem ceilingOf_le {t : Nat} (h : t ≤ 800) : ceilingOf t ≤ 920 := by
  unfold ceilingOf
  omega

/-- Settles O32. -/
theorem torqueFiguresFollowTheTarget : Obligations.TorqueFiguresFollowTheTarget := by
  refine fun t => ⟨rfl, rfl, fun hlow hhigh => ?_⟩
  have hceiling := ceilingOf_le hhigh
  exact ⟨nearOf_lt (by omega), lt_ceilingOf (by omega), hceiling, by omega⟩

/-! ### A good sample in TORQUE -/

/-- The record after a sample of torque `q`, for the peak and the ceiling that the sample finds. -/
def torqueSampledRecord (peak ceiling q : Nat) (r : HoleRecord) : HoleRecord :=
  { r with
    peak := if peak < q then some q else r.peak
    flags := { r.flags with overshoot := r.flags.overshoot || decide (ceiling < q) } }

/-- Steps 1 and 2 of R107: the peak and OVERSHOOT, before the target is tested. -/
def torqueSampled (ceiling q : Nat) (s : State) : State :=
  writeOpen (torqueSampledRecord s.torque.peak ceiling q)
    (s.onTorque fun t => { t with peak := max t.peak q, overshoot := t.overshoot || decide (ceiling < q) })

/-- Step 4 of R107: TORQUE_NEAR by the near threshold (07 R111). -/
def torqueNearTaken (q : Nat) (s : State) : State :=
  s.onTorque fun t => { t with torqueNear := t.near.any fun near => near ≤ q }

theorem torqueSampled_records (ceiling q : Nat) (s : State) : (torqueSampled ceiling q s).history.records =
    onOpen (torqueSampledRecord s.torque.peak ceiling q) s.history.records := rfl

section TorqueSample

variable {s : State} {target ceiling near q : Nat} (htarget : s.torque.target = some target)
  (hceiling : s.torque.ceiling = some ceiling)

include htarget hceiling

/-- R107: the sample is noted, and then its torque is held against the target. -/
theorem torqueSample_eq : torqueSample q s =
    if target ≤ q then complete .anchored (torqueSampled ceiling q s)
    else torqueNearTaken q (torqueSampled ceiling q s) := by
  simp only [torqueSample, hceiling, writeOpen_torque, State.onTorque_torque, htarget, Option.any_some, decide_eq_true_eq]
  rfl

theorem torqueSample_reached (hq : target ≤ q) : torqueSample q s = complete .anchored (torqueSampled ceiling q s) :=
  (torqueSample_eq htarget hceiling).trans (if_pos hq)

theorem torqueSample_below (hq : q < target) : torqueSample q s = torqueNearTaken q (torqueSampled ceiling q s) :=
  (torqueSample_eq htarget hceiling).trans (if_neg (Nat.not_le.2 hq))

/-- Whether or not the hole completes, the monitor keeps what the sample has left of the peak and OVERSHOOT (07 R104). -/
theorem event_torqueSample_figures :
    let t := event s (torqueSample q s)
    t.torque.peak = max s.torque.peak q ∧ t.torque.overshoot = (s.torque.overshoot || decide (ceiling < q))
      ∧ t.torque.spinner = s.torque.spinner ∧ t.torque.target = some target := by
  rcases Nat.lt_or_ge q target with hq | hq
  · rw [torqueSample_below htarget hceiling hq]
    simp [torqueNearTaken, torqueSampled, htarget]
  · rw [torqueSample_reached htarget hceiling hq]
    simp [torqueSampled, htarget]

theorem event_torqueSample_reached (hq : target ≤ q) :
    Completed s (onOpen (torqueSampledRecord s.torque.peak ceiling q) s.history.records) .anchored
      (event s (torqueSample q s)) := by
  rw [torqueSample_reached htarget hceiling hq]
  exact event_complete_of (torqueSampled_records ceiling q s) rfl rfl rfl rfl

theorem event_torqueSample_below (hst : s.cycle.state = .active .torque) (hnear : s.torque.near = some near)
    (hq : q < target) :
    let t := event s (torqueSample q s)
    t.cycle.state = .active .torque ∧ t.torque.torqueNear = decide (near ≤ q)
      ∧ t.history.records = onOpen (torqueSampledRecord s.torque.peak ceiling q) s.history.records := by
  rw [torqueSample_below htarget hceiling hq]
  exact ⟨by simp [torqueNearTaken, torqueSampled, hst], by simp [torqueNearTaken, torqueSampled, hnear],
    by simp [torqueNearTaken, torqueSampled_records]⟩

end TorqueSample

theorem torqueSample_cycleFrame (q : Nat) (s : State) : CycleFrame s (torqueSample q s) :=
  ⟨by simp, by simp, by simp, by simp, by simp, by simp, by simp, by simp, by simp⟩

/-- In TORQUE a stored sample goes to the torque monitor, HELD or not (02 R31, 07 R107). -/
theorem handSample_torque {s : State} (hst : s.cycle.state = .active .torque) (x : Sample) :
    handSample x s = event s (torqueSample x.torque s) := by simp [handSample, hst]

/-- Settles O33: R107's steps on the state with the sample stored, at the target (`event_torqueSample_reached`) and below it
(`event_torqueSample_below`). -/
theorem torqueSampleIsJudged : Obligations.TorqueSampleIsJudged := by
  intro s bytes raw target ceiling near hheld hh hg hraw hst htarget hceiling hnear _
  have hexec := exec_goodRecord hheld hh hg hraw
  obtain ⟨p, -, hp⟩ := storeSample_only raw s
  have hsensor : (storeSample raw (betweenRecords s)).sensor = p := by rw [hp]
  rw [hp, handSample_torque (by exact hst)] at hexec
  have hframe := event_cycleFrame (old := { s with sensor := p })
    (torqueSample_cycleFrame raw.clamp.torque { s with sensor := p })
  obtain ⟨hpeak, hovershoot, hspinner, hkept⟩ :=
    event_torqueSample_figures (s := { s with sensor := p }) (q := raw.clamp.torque) htarget hceiling
  exact ⟨_, hexec, recordTaken (by simp [hsensor]), hframe.of_sensor, hpeak, hovershoot, hspinner, hkept,
    fun hq => (event_torqueSample_reached (s := { s with sensor := p }) htarget hceiling hq).of_work rfl rfl rfl rfl,
    event_torqueSample_below (s := { s with sensor := p }) htarget hceiling hst hnear⟩

end Sys2Proof.Machine

/-! PROOFS. O56: every step keeps the flow figures, the setpoints and the interlock in agreement with the state (08 R117, R123
to R133). -/

namespace Sys2Proof.Machine

/-! ### What is kept -/

/-- What is kept from `s` to `t`. -/
structure FlowKeeps (s t : State) : Prop where
  flow : FlowSound s → FlowSound t
  vtx : VtxSound s → VtxSound t

theorem FlowKeeps.refl (s : State) : FlowKeeps s s := ⟨id, id⟩

theorem FlowKeeps.trans {s t u : State} (h : FlowKeeps s t) (k : FlowKeeps t u) : FlowKeeps s u :=
  ⟨fun x => k.flow (h.flow x), fun x => k.vtx (h.vtx x)⟩

theorem FlowKeeps.ite {s t u : State} {c : Prop} [Decidable c] (h : c → FlowKeeps s t) (k : ¬c → FlowKeeps s u) :
    FlowKeeps s (if c then t else u) := by split_ifs with hc; exacts [h hc, k hc]

/-- A run of events keeps what each of them keeps. -/
theorem FlowKeeps.foldl {α : Type} {f : State → α → State} (hf : ∀ s a, FlowKeeps s (f s a)) (l : List α) :
    ∀ s, FlowKeeps s (l.foldl f s) := by
  induction l with
  | nil => exact FlowKeeps.refl
  | cons a l ih => exact fun s => (hf s a).trans (ih _)

/-! ### The end of an event -/

/-- Whatever its work, the end of an event brings the figures, the interlock and the setpoints in agreement with the state. -/
theorem event_flowSound (old w : State) : FlowSound (event old w) :=
  ⟨event_held old w, event_nearVoid old w, event_allowance old w, event_flowCut old w, event_setpoints old w,
    event_flowReq old w, event_raised old w⟩

/-- Setpoints handed over are on VTX, or are those of the last record (08 R129). -/
theorem sendSetpoints_vtxSound (s : State) : VtxSound (sendSetpoints s) := fun _ hi => sendSetpoints_sent s hi

theorem event_vtxSound (old w : State) : VtxSound (event old w) := by
  have hf : ∀ u, (watchAfter old u).flow = u.flow := fun u => by simp
  intro _ hi
  rw [event, finish, hf] at hi ⊢
  exact sendSetpoints_sent _ hi

/-- An event keeps FlowSound and VtxSound whatever was before it. -/
theorem FlowKeeps.event (s old w : State) : FlowKeeps s (event old w) :=
  ⟨fun _ => event_flowSound old w, fun _ => event_vtxSound old w⟩

/-! ### What changes none of the figures -/

/-- Nothing that the flow figures read has changed, but CANOPY_SET outside the active phases, and the peers where no demand
has. -/
structure SameFlow (s t : State) : Prop where
  canopy : s.cycle.state.isActive = true → t.canopySet = s.canopySet
  state : t.cycle.state = s.cycle.state
  held : t.cycle.held = s.cycle.held
  cell : t.assembler.cell = s.assembler.cell
  neighbours : t.neighbours = s.neighbours
  config : t.host.config = s.host.config
  claims : ∀ cls, peerSum cls t.flow.peers = peerSum cls s.flow.peers
  allowance : t.flow.allowance = s.flow.allowance
  flowCut : t.flow.flowCut = s.flow.flowCut
  interlock : t.flow.interlock = s.flow.interlock
  setpoints : t.flow.setpoints = s.flow.setpoints

/-- The allowance reads the peers only through the sums of their demands (08 R122). -/
theorem allowanceOf_congr {capacity demand : Nat} {own : FlowClass} {peers others : List Peer}
    (h : ∀ cls, peerSum cls peers = peerSum cls others) :
    allowanceOf capacity own demand peers = allowanceOf capacity own demand others := by
  simp only [allowanceOf, classSum, h]

namespace SameFlow

variable {s t : State}

theorem mayFlow_eq (e : SameFlow s t) : mayFlow t = mayFlow s := by
  unfold mayFlow
  rw [e.state, e.allowance, ownMinimum_congr e.state e.config]
  cases ha : s.cycle.state.isActive with
  | false => rfl
  | true => rw [e.canopy ha]

theorem allowanceNow_eq (e : SameFlow s t) : allowanceNow t = allowanceNow s := by
  unfold allowanceNow
  rw [allowanceOf_congr e.claims, ownDemand_congr e.state e.config]
  simp only [ownClass, State.cfg, e.state, e.config]

theorem flowSound (e : SameFlow s t) (h : FlowSound s) : FlowSound t where
  held := by rw [e.held, h.held, heldNow_congr e.state e.interlock]
  nearVoid := by rw [e.neighbours, h.nearVoid, nearVoidNow_congr e.state e.cell (by rw [e.neighbours])]
  allowance := by rw [e.allowance, h.allowance, e.allowanceNow_eq]
  flowCut := by rw [e.flowCut, h.flowCut, e.allowance, ownDemand_congr e.state e.config]
  setpoints := by rw [e.setpoints, h.setpoints, setpointsNow_congr e.state e.interlock e.allowance (by rw [e.neighbours])]
  flowReq := by
    rw [e.mayFlow_eq]
    simpa only [State.flowReq, e.interlock] using h.flowReq
  raised := by
    rw [e.mayFlow_eq, e.interlock]
    exact h.raised

end SameFlow

theorem VtxSound.congr {s t : State} (h : VtxSound s) (hr : t.resetHeld = s.resetHeld) (ho : t.flow.onLine = s.flow.onLine)
    (hl : t.flow.lastSent = s.flow.lastSent) (hz : t.flow.setpoints = s.flow.setpoints) : VtxSound t := by
  unfold VtxSound
  rw [hr, ho, hl, hz]
  exact h

section SameBlocks

variable {s t : State} (hr : t.resetHeld = s.resetHeld) (hs : t.cycle.state = s.cycle.state)
  (hh : t.cycle.held = s.cycle.held) (ha : t.assembler = s.assembler) (hn : t.neighbours = s.neighbours)
  (hc : t.host.config = s.host.config)
include hr hs hh ha hn hc

/-- The flow block itself is as it was. -/
theorem FlowKeeps.of_flow (hp : s.cycle.state.isActive = true → t.canopySet = s.canopySet) (hf : t.flow = s.flow) :
    FlowKeeps s t where
  flow := SameFlow.flowSound
    ⟨hp, hs, hh, by rw [ha], hn, hc, fun _ => by rw [hf], by rw [hf], by rw [hf], by rw [hf], by rw [hf]⟩
  vtx := fun h => h.congr hr (by rw [hf]) (by rw [hf]) (by rw [hf])

/-- Only the deadlines of the flow block have changed, and the peers where no demand has. -/
theorem FlowKeeps.of_deadlines (hp : t.canopySet = s.canopySet)
    (hclaims : ∀ cls, peerSum cls t.flow.peers = peerSum cls s.flow.peers)
    (hf : t.flow =
      { s.flow with peers := t.flow.peers, schedule := t.flow.schedule, releaseDeadline := t.flow.releaseDeadline }) :
    FlowKeeps s t where
  flow := SameFlow.flowSound
    ⟨fun _ => hp, hs, hh, by rw [ha], hn, hc, hclaims, by rw [hf], by rw [hf], by rw [hf], by rw [hf]⟩
  vtx := fun h => h.congr hr (by rw [hf]) (by rw [hf]) (by rw [hf])

end SameBlocks

/-! ### Updates of one block -/

theorem onSensor_flowKeeps (s : State) (f : SensorBlock → SensorBlock) : FlowKeeps s (s.onSensor f) :=
  .of_flow rfl rfl rfl rfl rfl rfl (fun _ => rfl) rfl

theorem onResin_flowKeeps (s : State) (f : ResinBlock → ResinBlock) : FlowKeeps s (s.onResin f) :=
  .of_flow rfl rfl rfl rfl rfl rfl (fun _ => rfl) rfl

theorem onLink_flowKeeps (s : State) (f : LinkBlock → LinkBlock) : FlowKeeps s (s.onLink f) :=
  .of_flow rfl rfl rfl rfl rfl rfl (fun _ => rfl) rfl

theorem onHistory_flowKeeps (s : State) (f : HistoryBlock → HistoryBlock) : FlowKeeps s (s.onHistory f) :=
  .of_flow rfl rfl rfl rfl rfl rfl (fun _ => rfl) rfl

theorem onHost_flowKeeps {s : State} {f : HostBlock → HostBlock} (h : (f s.host).config = s.host.config) :
    FlowKeeps s (s.onHost f) := .of_flow rfl rfl rfl rfl rfl h (fun _ => rfl) rfl

theorem onCycle_flowKeeps {s : State} {f : CycleBlock → CycleBlock} (hs : (f s.cycle).state = s.cycle.state)
    (hh : (f s.cycle).held = s.cycle.held) : FlowKeeps s (s.onCycle f) :=
  .of_flow rfl hs hh rfl rfl rfl (fun _ => rfl) rfl

theorem valveReady_flowKeeps (s : State) (level : Bool) : FlowKeeps s { s with valveReady := level } :=
  .of_flow rfl rfl rfl rfl rfl rfl (fun _ => rfl) rfl

/-- CANOPY_SET is no condition of the flow outside the active phases, and within them it is high already (01 R8, 08 R133). -/
theorem noteCanopy_flowKeeps {s : State} (h : CycleSound s) (rise : Bool) : FlowKeeps s (s.noteCanopy rise) :=
  .of_flow rfl rfl rfl rfl rfl rfl (fun ha => by simp [State.noteCanopy, h.canopy ha]) rfl

theorem setReply_flowKeeps (status : Status) (data : List Byte) (s : State) : FlowKeeps s (setReply status data s) :=
  onHost_flowKeeps rfl

theorem FlowKeeps.reply {s t : State} (h : FlowKeeps s t) (status : Status) (data : List Byte) :
    FlowKeeps s (setReply status data t) := h.trans (setReply_flowKeeps status data t)

theorem accept_flowKeeps (s old w : State) (data : List Byte) : FlowKeeps s (accept old w data) :=
  (FlowKeeps.event s old w).reply _ _

/-! ### Samples, pulses and pins -/

theorem handSample_flowKeeps (x : Sample) (s : State) : FlowKeeps s (handSample x s) := by
  unfold handSample
  split
  · exact .event _ _ _
  · exact .event _ _ _
  · exact .ite (fun _ => .event _ _ _) fun _ => .refl s
  · exact .event _ _ _
  · exact .refl s

theorem takeRecord_flowKeeps (record : List Byte) (s : State) : FlowKeeps s (takeRecord record s) := by
  unfold takeRecord
  split
  · rename_i raw _
    have hu : FlowKeeps s (storeSample raw s) := onSensor_flowKeeps s _
    exact hu.trans (handSample_flowKeeps _ _)
  · exact .refl s

theorem takeByte_flowKeeps (value : Byte) (stopHigh : Bool) (s : State) : FlowKeeps s (takeByte value stopHigh s) := by
  have hu : FlowKeeps s (s.onSensor fun p =>
      { p with receiver := if stopHigh then .idle else .low, assembly := (feedSrx s.sensor.assembly value stopHigh).1 }) :=
    onSensor_flowKeeps s _
  unfold takeByte
  dsimp only
  split
  · exact hu.trans (takeRecord_flowKeeps _ _)
  · exact hu

theorem takeSrxBit_flowKeeps (s : State) (bit : Bool) : FlowKeeps s (takeSrxBit s bit) := by
  unfold takeSrxBit
  split
  · exact onSensor_flowKeeps s _
  · exact .ite (fun _ => onSensor_flowKeeps s _) fun _ => takeByte_flowKeeps _ _ s
  · exact .ite (fun _ => onSensor_flowKeeps s _) fun _ => .refl s

theorem handPulse_flowKeeps (s : State) : FlowKeeps s (handPulse s) := by
  unfold handPulse
  split
  · exact .event _ _ _
  · exact .event _ _ _
  · exact .refl s

/-- A fall of CANOPY_SET is an event of the active phases, and elsewhere the pin is no condition of the flow. -/
theorem canopyFall_flowKeeps (s : State) : FlowKeeps s (canopyFall { s with canopySet := false }) := by
  unfold canopyFall
  split
  · exact .event _ _ _
  · rename_i hno
    refine FlowKeeps.of_flow rfl rfl rfl rfl rfl rfl (fun ha => ?_) rfl
    cases hs : s.cycle.state with
    | active p => exact absurd hs (hno p)
    | _ => simp [hs, CycleState.isActive] at ha

theorem valveFall_flowKeeps (old s : State) : FlowKeeps s (valveFall old s) := by
  unfold valveFall
  split
  · exact .event _ _ _
  · exact .event _ _ _
  · exact .refl s

/-! ### The rig link -/

theorem routeFrame_flowKeeps (f : LinkFrame) (s : State) : FlowKeeps s (routeFrame f s) := by
  refine .ite (fun _ => ?_) fun _ => .ite (fun _ => ?_) fun _ => .refl s
  all_goals
    split
    · exact .refl s
    · exact .ite (fun _ => .event _ _ _) fun _ => .event _ _ _

theorem endFrame_flowKeeps (s : State) : FlowKeeps s (endFrame s) := by
  have hu := onLink_flowKeeps s fun l => l.endReceived (crcGood (frameRead s.link.assembly))
  refine .ite (fun _ => .ite (fun _ => hu.trans ?_) fun _ => hu) fun _ => .refl s
  exact .ite (fun _ => .refl _) fun _ => routeFrame_flowKeeps _ _

theorem overridden_flowKeeps (f : LinkFrame) (bit : Nat) (s : State) : FlowKeeps s (overridden f bit s) :=
  .ite (fun _ => onLink_flowKeeps s _) fun _ => (FlowKeeps.event s _ _).trans (endFrame_flowKeeps _)

theorem readBack_flowKeeps (f : LinkFrame) (bit : Bool) (s : State) : FlowKeeps s (readBack f bit s) :=
  .ite (fun _ => .ite (fun _ => onLink_flowKeeps s _) fun _ => onLink_flowKeeps s _) fun _ =>
    .ite (fun _ => onLink_flowKeeps s _) fun _ => overridden_flowKeeps f _ s

theorem readLine_flowKeeps (bit : Bool) (s : State) : FlowKeeps s (readLine s bit) := by
  unfold readLine
  split
  · exact .refl s
  · exact onLink_flowKeeps s _
  · exact onLink_flowKeeps s _
  · split
    · exact (onLink_flowKeeps s _).trans (endFrame_flowKeeps _)
    · exact readBack_flowKeeps _ bit s

theorem takeBit_flowKeeps (s : State) (bit : Bool) : FlowKeeps s (takeBit s bit) :=
  (FlowKeeps.ite (fun _ => onLink_flowKeeps s _) fun _ => .refl s).trans (readLine_flowKeeps bit _)

/-! ### Host commands to the cycle -/

theorem startHole_flowKeeps (row slot planned : Nat) (s : State) : FlowKeeps s (startHole row slot planned s) := by
  have hreply := fun status => setReply_flowKeeps status [] s
  exact .ite (fun _ => hreply _) fun _ => .ite (fun _ => hreply _) fun _ => .ite (fun _ => hreply _) fun _ =>
    .ite (fun _ => hreply _) fun _ => accept_flowKeeps s _ _ _

theorem abort_flowKeeps (s : State) : FlowKeeps s (abort s) := by
  unfold abort
  split
  · exact setReply_flowKeeps _ _ s
  · exact setReply_flowKeeps _ _ s
  · exact accept_flowKeeps s _ _ _
  · exact accept_flowKeeps s _ _ _
  · exact (onCycle_flowKeeps rfl rfl).reply _ _
  · exact .ite (fun _ => (onCycle_flowKeeps rfl rfl).reply _ _) fun _ => accept_flowKeeps s _ _ _
  · exact accept_flowKeeps s _ _ _
  · exact accept_flowKeeps s _ _ _

/-- The expiry that a remainder of 0 brings is settled as an event is (log 31). -/
theorem zeroRemainder_settled (w : State) : ∃ u, zeroRemainder (settle w) = settle u := by
  unfold zeroRemainder
  split_ifs
  exacts [⟨_, rfl⟩, ⟨_, rfl⟩, ⟨_, rfl⟩]

theorem resume_flowKeeps (s : State) : FlowKeeps s (resume s) := by
  refine .ite (fun _ => setReply_flowKeeps _ _ s) fun _ => ?_
  split
  · exact setReply_flowKeeps _ _ s
  · rename_i target _
    refine .ite (fun _ => setReply_flowKeeps _ _ s) fun _ => ?_
    obtain ⟨u, hu⟩ := zeroRemainder_settled (reenter target s)
    rw [hu]
    exact (FlowKeeps.event s s u).reply _ _

theorem proceed_flowKeeps (s : State) : FlowKeeps s (proceed s) := by
  have hreply := fun status => setReply_flowKeeps status [] s
  exact .ite (fun _ => hreply _) fun _ => .ite (fun _ => hreply _) fun _ => .ite (fun _ => hreply _) fun _ =>
    accept_flowKeeps s _ _ _

/-! ### The deadlines of the flow share unit -/

theorem releaseDeadline_flowKeeps (s : State) :
    FlowKeeps s ((queueFault .valveStuck s).onFlow fun f => { f with releaseDeadline := none }) :=
  .of_deadlines rfl rfl rfl rfl rfl rfl rfl (fun _ => rfl) rfl

theorem demandSchedule_flowKeeps (schedule : Option Time) (s : State) :
    FlowKeeps s (placeDemandIf true (s.onFlow fun f => { f with schedule := schedule })) :=
  .of_deadlines rfl rfl rfl rfl rfl rfl rfl (fun _ => rfl) rfl

/-- A peer that turns STALE keeps its claim (08 R120, R122). -/
theorem ageStale_claim (p : Peer) (now : Time) :
    (p.ageStale now).flowClass = p.flowClass ∧ (p.ageStale now).demand = p.demand := by
  unfold Peer.ageStale
  split_ifs <;> exact ⟨rfl, rfl⟩

/-- Peers that keep their claims keep the sums of the classes. -/
theorem peerSum_map {f : Peer → Peer} (hf : ∀ p, (f p).flowClass = p.flowClass ∧ (f p).demand = p.demand) (cls : FlowClass)
    (peers : List Peer) : peerSum cls (peers.map f) = peerSum cls peers := by
  have hd : Peer.demand ∘ f = Peer.demand := funext fun p => (hf p).2
  have hc : (fun p : Peer => p.flowClass == cls) ∘ f = fun p => p.flowClass == cls :=
    funext fun p => by rw [Function.comp_apply, (hf p).1]
  rw [peerSum, List.filter_map, List.map_map, hd, hc]
  rfl

theorem staleDeadline_flowKeeps (station : Nat) (s : State) : FlowKeeps s
    (s.onFlow fun f => { f with peers := f.peers.map fun p => if p.station = station then p.ageStale s.now else p }) := by
  refine .of_deadlines rfl rfl rfl rfl rfl rfl rfl (peerSum_map (fun p => ?_) · _) rfl
  split_ifs
  · exact ageStale_claim p s.now
  · exact ⟨rfl, rfl⟩

/-- The end of a record hands over the setpoints of the moment, which FlowSound has already (08 R129). -/
theorem recordEnd_flowKeeps (s : State) : FlowKeeps s (sendSetpoints (s.onFlow fun f => { f with onLine := false })) where
  flow := fun h =>
    have hz : (sendSetpoints (s.onFlow fun f => { f with onLine := false })).flow.setpoints = s.flow.setpoints :=
      (sendSetpoints_setpoints _).trans h.setpoints.symm
    SameFlow.flowSound ⟨fun _ => by simp, by simp, by simp, by simp, by simp, by simp, fun _ => by simp, by simp, by simp,
      by simp, hz⟩ h
  vtx := fun _ => sendSetpoints_vtxSound _

/-! ### The starting events -/

/-- In UNCONFIGURED there is no claim, so that all figures are 0 and nothing may flow. -/
theorem flowSound_of_unconfigured {t : State} (hs : t.cycle.state = .unconfigured) (hh : t.cycle.held = false)
    (hn : t.neighbours.nearVoid = false) (ha : t.flow.allowance = 0) (hc : t.flow.flowCut = false)
    (hz : t.flow.setpoints = zeroSetpoints) (hr : t.flowReq = false) : FlowSound t where
  held := by simp [heldNow, hs, hh, CycleState.isActive]
  nearVoid := by simp [nearVoidNow, hs, hn]
  allowance := by simp [allowanceNow, ownClass, allowanceOf, CycleState.flowClass, hs, ha]
  flowCut := by simp [ownDemand, hs, ha, hc]
  setpoints := by simp [setpointsNow, hs, hz]
  flowReq := by simp [hr]
  raised := by simp [mayFlow, hs, CycleState.isActive]

/-- A starting event leaves FLOW_REQ low and the figures of the flow as they were (08 R134). -/
theorem startInterlock_flow (f : FlowBlock) (valveReady : Bool) (now : Time) :
    ((f.startInterlock valveReady now).interlock == .waitReady || (f.startInterlock valveReady now).interlock == .flowing)
        = false
      ∧ (f.startInterlock valveReady now).allowance = f.allowance ∧ (f.startInterlock valveReady now).flowCut = f.flowCut
      ∧ (f.startInterlock valveReady now).setpoints = f.setpoints ∧ (f.startInterlock valveReady now).onLine = f.onLine := by
  unfold FlowBlock.startInterlock
  split_ifs <;> exact ⟨rfl, rfl, rfl, rfl, rfl⟩

theorem powerOn_flowKeeps {s t : State} (levels : InputLevels) (e : execPowerOn levels s = .next t) : FlowKeeps s t := by
  obtain rfl := Host.Outcome.next.inj e
  obtain ⟨hr, ha, hc, hz, hl⟩ := startInterlock_flow State.reset.flow levels.valveReady 0
  exact ⟨fun _ => flowSound_of_unconfigured rfl rfl rfl ha hc hz hr, fun _ _ hi => absurd (hl.symm.trans hi) (by decide)⟩

theorem resetLine_flowKeeps {s t : State} (e : execResetLine s = .next t) : FlowKeeps s t := by
  obtain rfl := Host.Outcome.next.inj e
  refine ⟨fun _ => flowSound_of_unconfigured rfl rfl rfl rfl rfl rfl ?_, fun _ hr => absurd hr (by simp)⟩
  cases hv : s.valveReady <;> simp [State.flowReq, heldFlow]

/-- The rise of RESET_N finds the part in UNCONFIGURED, without flow, and puts the zero record on VTX (08 R130, R134). -/
theorem resetNRise_flowKeeps {s t : State} (levels : InputLevels) (h : CycleSound s) (e : execResetNRise levels s = .next t) :
    FlowKeeps s t := by
  obtain rfl := Host.Outcome.next.inj e
  refine .ite (fun hr => ?_) fun _ => .refl s
  have hu := h.onHold hr
  obtain ⟨hreq, ha, hc, hz, -⟩ := startInterlock_flow s.flow levels.valveReady s.now
  refine ⟨fun hs => flowSound_of_unconfigured hu ?_ ?_ (ha.trans ?_) (hc.trans ?_) (hz.trans ?_) hreq,
    fun _ _ hi => absurd hi (by simp)⟩
  · exact hs.held.trans (by simp [heldNow, hu, CycleState.isActive])
  · exact hs.nearVoid.trans (by simp [nearVoidNow, hu])
  · exact hs.allowance.trans (by simp [allowanceNow, ownClass, allowanceOf, CycleState.flowClass, hu])
  · exact hs.flowCut.trans (by simp [ownDemand, hu])
  · exact hs.setpoints.trans (by simp [setpointsNow, hu])

/-! ### The commands -/

section Commands

variable {s t : State}

theorem FlowKeeps.of_unlessHeld {new : State} (h : FlowKeeps s new)
    (e : (unlessHeld s new : Host.Outcome State Fault Refusal) = .next t) : FlowKeeps s t := by
  rw [unlessHeld_next, Host.Outcome.next.injEq] at e
  subst e
  exact .ite (fun _ => .refl s) fun _ => h

theorem FlowKeeps.transacted (h : FlowKeeps s t) (host : Transaction) : FlowKeeps s (transacted host s t) :=
  .ite (fun _ => .refl s) fun _ => h.trans (onHost_flowKeeps rfl)

theorem FlowKeeps.of_inTransaction {new : State} {host : Transaction} (h : FlowKeeps s new)
    (e : (inTransaction host s new : Host.Outcome State Fault Refusal) = .next t) : FlowKeeps s t :=
  .of_unlessHeld (h.transacted host) e

/-- A host command that may bring a rise of CANOPY_SET. -/
theorem FlowKeeps.of_rise (h : CycleSound s) {f : State → State} {rise : Bool} {host : Transaction}
    (hf : ∀ u, FlowKeeps u (f u))
    (e : (unlessHeld s (Machine.transacted host (s.noteCanopy rise) (f (s.noteCanopy rise))) : Host.Outcome State Fault Refusal)
      = .next t) : FlowKeeps s t :=
  .of_unlessHeld ((noteCanopy_flowKeeps h rise).trans ((hf _).transacted host)) e

theorem configure_flowKeeps (record : List Byte) (host : Transaction) (e : execConfigure record s host = .next t) :
    FlowKeeps s t := by
  have hreply := fun status => setReply_flowKeeps status [] s
  refine .of_inTransaction (.ite (fun _ => hreply _) fun _ => .ite (fun _ => hreply _) fun _ => ?_) e
  split
  · exact hreply _
  · exact accept_flowKeeps s _ _ _

theorem takeSource_flowKeeps (s : State) (src : Source) (draws : Nat) :
    FlowKeeps s { s.onHost (takeSource src) with freeDraws := draws } :=
  .of_flow rfl rfl rfl rfl rfl (takeSource_config src s.host) (fun _ => rfl) rfl

theorem readCells_flowKeeps (count direction : Byte) (host : Transaction)
    (e : execReadCells count direction s host = .next t) : FlowKeeps s t := by
  have hreply := fun status data => setReply_flowKeeps status data s
  refine .of_inTransaction (.ite (fun _ => hreply _ _) fun _ => ?_) e
  split
  · exact hreply _ _
  · exact hreply _ _
  · split
    · exact .ite (fun _ => (onHistory_flowKeeps s _).reply _ _) fun _ => (onHistory_flowKeeps s _).reply _ _
    · exact hreply _ _

/-- Every command keeps the flow sound: it is an event, or leaves what the figures read; only the starting events, the end of a
record and CANOPY_SET need a look at the state. -/
theorem exec_flowKeeps (h : CycleSound s) (c : Instr) (e : exec c s = .next t) : FlowKeeps s t := by
  cases c with
  | powerOn levels => exact powerOn_flowKeeps levels e
  | resetLine => exact resetLine_flowKeeps e
  | resetNRise levels => exact resetNRise_flowKeeps levels h e
  | timebaseTick =>
    obtain rfl := Host.Outcome.next.inj e
    exact onCycle_flowKeeps rfl rfl
  | sampleRecord bits => exact .of_unlessHeld (.foldl takeSrxBit_flowKeeps bits s) e
  | linkDeadlineExpiry => exact .of_unlessHeld (.ite (fun _ => .event _ _ _) fun _ => .refl s) e
  | rotPulse => exact .of_unlessHeld ((onSensor_flowKeeps s _).trans (handPulse_flowKeeps _)) e
  | pulseDeadlineExpiry => exact .of_unlessHeld (.ite (fun _ => onSensor_flowKeeps s _) fun _ => .refl s) e
  | canopySetFall => exact .of_unlessHeld (.ite (fun _ => canopyFall_flowKeeps s) fun _ => .refl s) e
  | valveReadyRise => exact .of_unlessHeld (.ite (fun _ => .event _ _ _) fun _ => valveReady_flowKeeps s true) e
  | valveReadyFall =>
    exact .of_unlessHeld (.ite (fun _ => (valveReady_flowKeeps s false).trans (valveFall_flowKeeps s _)) fun _ => .refl s) e
  | strokeDone => exact .of_unlessHeld (.ite (fun _ => .event _ _ _) fun _ => .refl s) e
  | fetch host => exact .of_inTransaction (setReply_flowKeeps _ _ s) e
  | badFrame host => exact .of_inTransaction (setReply_flowKeeps _ _ s) e
  | configure record host => exact configure_flowKeeps record host e
  | startHole row slot planned rise host =>
    exact .of_rise h (startHole_flowKeeps row.toNat slot.toNat planned.toNat) e
  | abort rise host => exact .of_rise h abort_flowKeeps e
  | resume rise host => exact .of_rise h resume_flowKeeps e
  | proceed rise host => exact .of_rise h proceed_flowKeeps e
  | abandon host =>
    exact .of_inTransaction (.ite (fun _ => setReply_flowKeeps _ _ s) fun _ => accept_flowKeeps s _ _ _) e
  | readState host => exact .of_inTransaction (setReply_flowKeeps _ _ s) e
  | readAttention host =>
    refine .of_inTransaction ?_ e
    split
    · exact setReply_flowKeeps _ _ s
    · exact (takeSource_flowKeeps s _ _).reply _ _
  | serviceDone host =>
    refine .of_inTransaction ?_ e
    split
    · exact setReply_flowKeeps _ _ s
    · rename_i top rest _
      exact (onHost_flowKeeps (serviced_config s.host top rest)).reply _ _
  | setWatch mask sense combination host =>
    exact .of_inTransaction (.ite (fun _ => setReply_flowKeeps _ _ s) fun _ => (onHost_flowKeeps rfl).reply _ _) e
  | readSensors host => exact .of_inTransaction ((onSensor_flowKeeps s _).reply _ _) e
  | unlatch host =>
    exact .of_inTransaction (.ite (fun _ => setReply_flowKeeps _ _ s) fun _ =>
      .ite (fun _ => setReply_flowKeeps _ _ s) fun _ => (onSensor_flowKeeps s _).reply _ _) e
  | readFlow host => exact .of_inTransaction (setReply_flowKeeps _ _ s) e
  | readNeighbours index host =>
    exact .of_inTransaction (.ite (fun _ => setReply_flowKeeps _ _ s) fun _ => setReply_flowKeeps _ _ s) e
  | readLink host => exact .of_inTransaction ((onLink_flowKeeps s _).reply _ _) e
  | selectHole number host =>
    refine .of_inTransaction ?_ e
    split <;> exact (onHistory_flowKeeps s _).reply _ _
  | readCells count direction host => exact readCells_flowKeeps count direction host e
  | collarTimerExpiry => exact .of_unlessHeld (.ite (fun _ => .event _ _ _) fun _ => .refl s) e
  | retractTimerExpiry => exact .of_unlessHeld (.ite (fun _ => .event _ _ _) fun _ => .refl s) e
  | stallWindowExpiry => exact .of_unlessHeld (.ite (fun _ => .event _ _ _) fun _ => .refl s) e
  | strokeTimerExpiry => exact .of_unlessHeld (.ite (fun _ => .event _ _ _) fun _ => .refl s) e
  | strokeGapExpiry => exact .of_unlessHeld (.ite (fun _ => .event _ _ _) fun _ => .refl s) e
  | mixDeadlineExpiry =>
    exact .of_unlessHeld
      (.ite (fun _ => .ite (fun _ => .event _ _ _) fun _ => onResin_flowKeeps s _) fun _ => .refl s) e
  | holdDeadlineExpiry =>
    have hu := onResin_flowKeeps s fun r => { r with holdDeadline := none }
    exact .of_unlessHeld (.ite (fun _ => .ite (fun _ => .event _ _ _) fun _ =>
      .ite (fun _ => hu.trans (onResin_flowKeeps _ _)) fun _ => hu) fun _ => .refl s) e
  | torqueTimerExpiry => exact .of_unlessHeld (.ite (fun _ => .event _ _ _) fun _ => .refl s) e
  | releaseDeadlineExpiry =>
    exact .of_unlessHeld (.ite (fun _ => releaseDeadline_flowKeeps s) fun _ => .refl s) e
  | demandScheduleExpiry =>
    refine .of_unlessHeld ?_ e
    split
    · exact .ite (fun _ => demandSchedule_flowKeeps _ s) fun _ => .refl s
    · exact .refl s
  | staleDeadlineExpiry station => exact .of_unlessHeld (staleDeadline_flowKeeps station s) e
  | removalDeadlineExpiry station => exact .of_unlessHeld (.ite (fun _ => .event _ _ _) fun _ => .refl s) e
  | demandFrameReceived bits => exact .of_unlessHeld (.foldl takeBit_flowKeeps bits s) e
  | holeFrameReceived bits => exact .of_unlessHeld (.foldl takeBit_flowKeeps bits s) e
  | seekingComplete => exact .of_unlessHeld (.ite (fun _ => onLink_flowKeeps s _) fun _ => .refl s) e
  | frameStart recessive =>
    exact .of_unlessHeld (.ite (fun _ => (onLink_flowKeeps s _).trans (onLink_flowKeeps _ _)) fun _ => .refl s) e
  | frameSent => exact .of_unlessHeld (.ite (fun _ => onLink_flowKeeps s _) fun _ => .refl s) e
  | arbitrationLost bit =>
    refine .of_unlessHeld ?_ e
    split
    · exact .ite (fun _ => overridden_flowKeeps _ bit s) fun _ => .refl s
    · exact .refl s
  | transmitFault bit =>
    refine .of_unlessHeld ?_ e
    split
    · exact .ite (fun _ => onLink_flowKeeps s _) fun _ => .refl s
    · exact .refl s
  | duplicateOverridden bit =>
    refine .of_unlessHeld ?_ e
    split
    · exact .ite (fun _ => overridden_flowKeeps _ bit s) fun _ => .refl s
    · exact .refl s
  | setpointRecordEnd => exact .of_unlessHeld (.ite (fun _ => recordEnd_flowKeeps s) fun _ => .refl s) e

end Commands

/-- Taking the front command off the queue changes no figure. -/
theorem step_flowKeeps {s t : State} (h : CycleSound s) (e : step s = .next t) : FlowKeeps s t := by
  unfold step at e
  split at e
  · obtain rfl := Host.Outcome.next.inj e
    exact .refl s
  · rename_i c rest _
    have hu : FlowKeeps s { s with pending := rest } :=
      .of_flow rfl rfl rfl rfl rfl rfl (fun _ => rfl) rfl
    have hc : Untouched s { s with pending := rest } := ⟨rfl, id, id, rfl, rfl, rfl, rfl, rfl, rfl⟩
    exact hu.trans (exec_flowKeeps (hc.event h).cycle c e)

/-- Settles O56: a command is an event, whose end makes FlowSound and VtxSound true on any state (`FlowKeeps.event`), or
changes none of the figures (`SameFlow`). -/
theorem stepsKeepTheFlowSound : Obligations.StepsKeepTheFlowSound := by
  intro s t e h hf
  have hk := step_flowKeeps h e
  exact ⟨hk.flow hf, hk.vtx⟩

end Sys2Proof.Machine

/-! PROOFS. O27: the allowance and its split (08 R122, R126, 04 R72). -/

namespace Sys2Proof.Machine

/-! ### The share of a claimant (08 R122) -/

/-- What a class leaves is the truncated difference. -/
theorem leftAfter_eq_sub (r sum : Nat) : leftAfter r sum = r - sum := by
  unfold leftAfter
  split_ifs <;> omega

theorem shareOf_of_le {r sum : Nat} (h : sum ≤ r) (demand : Nat) : shareOf r sum demand = demand := if_pos h

theorem shareOf_of_lt {r sum : Nat} (h : r < sum) (demand : Nat) : shareOf r sum demand = demand * r / sum :=
  if_neg (by omega)

/-- A claimant's own demand is part of its class's sum, so that its share exceeds neither the demand nor what is left. -/
theorem shareOf_le {r sum demand : Nat} (h : demand ≤ sum) : shareOf r sum demand ≤ demand ∧ shareOf r sum demand ≤ r := by
  rcases Nat.lt_or_ge r sum with hlt | hle
  · rw [shareOf_of_lt hlt]
    constructor
    · exact Nat.div_le_of_le_mul (by rw [Nat.mul_comm sum]; exact Nat.mul_le_mul_left demand hlt.le)
    · exact Nat.div_le_of_le_mul (Nat.mul_le_mul_right r h)
  · rw [shareOf_of_le hle]
    exact ⟨le_rfl, h.trans hle⟩

/-- A class that finds nothing left receives nothing. -/
theorem shareOf_eq_zero {r sum demand : Nat} (h : demand ≤ sum) (hr : r = 0) : shareOf r sum demand = 0 := by
  have := (shareOf_le (r := r) h).2
  omega

/-! ### The allowance of each class, in rank order -/

section Ranks

variable (capacity demand : Nat) (peers : List Peer)

theorem allowanceOf_critical : allowanceOf capacity .critical demand peers =
    shareOf capacity (demand + peerSum .critical peers) demand := rfl

theorem allowanceOf_firm : allowanceOf capacity .firm demand peers =
    shareOf (capacity - peerSum .critical peers) (demand + peerSum .firm peers) demand := by
  simp [allowanceOf, classSum, leftAfter_eq_sub]

theorem allowanceOf_normal : allowanceOf capacity .normal demand peers =
    shareOf (capacity - peerSum .critical peers - peerSum .firm peers) (demand + peerSum .normal peers) demand := by
  simp [allowanceOf, classSum, leftAfter_eq_sub]

theorem allowanceOf_none : allowanceOf capacity .none demand peers = 0 := rfl

theorem allowanceOf_le (own : FlowClass) :
    allowanceOf capacity own demand peers ≤ demand ∧ allowanceOf capacity own demand peers ≤ capacity := by
  have hle : ∀ {r sum}, r ≤ capacity → demand ≤ sum → shareOf r sum demand ≤ demand ∧ shareOf r sum demand ≤ capacity :=
    fun hr hs => ⟨(shareOf_le hs).1, (shareOf_le hs).2.trans hr⟩
  cases own with
  | critical => exact hle le_rfl (Nat.le_add_right _ _)
  | firm =>
    rw [allowanceOf_firm]
    exact hle (Nat.sub_le _ _) (Nat.le_add_right _ _)
  | normal =>
    rw [allowanceOf_normal]
    exact hle (by omega) (Nat.le_add_right _ _)
  | none => exact ⟨Nat.zero_le _, Nat.zero_le _⟩

end Ranks

/-! ### The split (08 R126) -/

/-- The split shares out no more than the allowance. -/
theorem split_sum_le (p : Phase) (a : Nat) (probe : Bool) :
    (split p a probe).feed + (split p a probe).rotation + (split p a probe).injector ≤ a := by
  cases p with
  | drill =>
    simp only [split]
    split_ifs <;> omega
  | _ =>
    simp only [split]
    omega

theorem setpointsNow_flowing {s : State} {p : Phase} (hp : s.cycle.state = .active p) (hi : s.flow.interlock = .flowing) :
    setpointsNow s = split p s.flow.allowance s.neighbours.nearVoid := by
  simp [setpointsNow, hp, hi]

/-- Nothing is set outside the active phases, or while the interlock is not FLOWING. -/
theorem setpointsNow_zero {s : State} (h : s.cycle.state.isActive = false ∨ s.flow.interlock ≠ .flowing) :
    setpointsNow s = zeroSetpoints := by
  unfold setpointsNow
  split
  · rename_i p hp
    exact if_neg (by simpa [hp, CycleState.isActive] using h)
  · rfl

/-- Settles O27: `allowanceOf_critical`, `allowanceOf_firm` and `allowanceOf_normal` give what is left for each class, and
`shareOf` is the whole demand, its part or nothing by that. -/
theorem allowanceAndSplitKeepTheirBounds : Obligations.AllowanceAndSplitKeepTheirBounds := by
  refine ⟨fun capacity demand own peers => ?_, fun capacity demand critical firm normal peers hcr hf hn => ?_, fun a probe =>
    ⟨rfl, rfl, rfl, rfl, rfl, rfl, rfl, rfl⟩, split_sum_le, fun s p => setpointsNow_flowing, fun s => setpointsNow_zero⟩
  · obtain ⟨hdemand, hcapacity⟩ := allowanceOf_le capacity demand peers own
    exact ⟨hdemand, hcapacity, allowanceOf_none capacity demand peers⟩
  · rw [allowanceOf_critical, allowanceOf_firm, allowanceOf_normal, ← hcr, ← hf, ← hn]
    refine ⟨fun h => shareOf_of_le h _, fun h => shareOf_of_lt h _, fun _ => shareOf_of_le ?_ _, fun _ _ => shareOf_of_lt ?_ _,
      fun _ => shareOf_eq_zero ?_ ?_, fun _ => shareOf_of_le ?_ _, fun _ _ => shareOf_of_lt ?_ _,
      fun _ => shareOf_eq_zero ?_ ?_⟩ <;> omega

end Sys2Proof.Machine

/-! PROOFS. O48: the deadlines of the flow share unit, and the fault queue when it is full (08 R120, R133, R138, R139, 11
R194). -/

namespace Sys2Proof.Machine

/-! ### The fault queue -/

/-- A full queue gives up its newest entry (11 R194). -/
theorem joinFault_full {faults : List FaultEntry} (h : faults.length = 4) (code : FaultCode) :
    joinFault code faults = faults.take 3 ++ [⟨code, true⟩] := by
  rw [joinFault, if_neg (by omega), List.dropLast_eq_take, h]

/-! ### The peers -/

/-- The entry of a station ages at its stale deadline, and no other entry does (08 R120). -/
theorem ageStale_of_station (station : Nat) (now : Time) (p : Peer) :
    (if p.station = station then p.ageStale now else p) =
      if p.station = station ∧ deadlineDue p.staleDeadline now = true then
        { p with freshness := .stale, staleDeadline := none }
      else p := by
  by_cases hp : p.station = station <;> simp [hp, Peer.ageStale]

theorem any_removalDue_iff (peers : List Peer) (station : Nat) (now : Time) :
    (peers.any fun p => p.removalDue station now) = true
      ↔ ∃ p ∈ peers, p.station = station ∧ expired p.removalDeadline now = true := by
  simp [Peer.removalDue]

/-- The peers without the entry whose removal deadline has expired (08 R120). -/
def peerRemoved (station : Nat) (s : State) : State :=
  s.onFlow fun f => { f with peers := f.peers.filter fun p => !p.removalDue station s.now }

/-- A removal changes no cycle state, so that its event places no notice. -/
theorem event_peerRemoved_link (station : Nat) (s : State) : (event s (peerRemoved station s)).link = s.link := by
  simp [event, finish, placeDemandIf, peerRemoved]

/-! ### The expiries -/

section Expiries

variable {s : State} (hheld : s.resetHeld = false)
include hheld

theorem exec_releaseDeadline_due (hi : s.flow.interlock = .releasing)
    (hd : deadlineDue s.flow.releaseDeadline s.now = true) :
    exec .releaseDeadlineExpiry s =
      .next { s with
        flow := { s.flow with releaseDeadline := none }
        host := { s.host with faults := joinFault .valveStuck s.host.faults } } :=
  (unlessHeld_ite hheld).2 ⟨hi, hd⟩

theorem exec_demandSchedule_not_due (hd : deadlineDue s.flow.schedule s.now = false) :
    exec .demandScheduleExpiry s = .next s := by
  refine (unlessHeld_of_awake hheld).trans (congrArg Host.Outcome.next ?_)
  split
  · rename_i target hs
    exact if_neg (by simpa [hs, deadlineDue] using hd)
  · rfl

theorem exec_demandSchedule_due {target : Time} (hs : s.flow.schedule = some target)
    (he : expired target s.now = true) :
    exec .demandScheduleExpiry s =
      .next (placeDemandIf true (s.onFlow fun f => { f with schedule := some (rearmPeriodic target s.now 250) })) := by
  refine (unlessHeld_of_awake hheld).trans (congrArg Host.Outcome.next ?_)
  rw [hs]
  exact if_pos he

theorem exec_staleDeadline (station : Nat) :
    exec (.staleDeadlineExpiry station) s =
      .next { s with
        flow := { s.flow with
          peers := s.flow.peers.map fun p =>
            if p.station = station ∧ deadlineDue p.staleDeadline s.now = true then
              { p with freshness := .stale, staleDeadline := none }
            else p } } := by
  refine (unlessHeld_of_awake hheld).trans (congrArg Host.Outcome.next ?_)
  simp only [ageStale_of_station]
  rfl

theorem exec_removalDeadline_not_due {station : Nat}
    (h : ∀ p ∈ s.flow.peers, p.station = station → expired p.removalDeadline s.now = false) :
    exec (.removalDeadlineExpiry station) s = .next s := by
  refine (unlessHeld_ite hheld).1 ?_
  rw [any_removalDue_iff]
  rintro ⟨p, hp, hs, he⟩
  simp [h p hp hs] at he

theorem exec_removalDeadline_due {station : Nat} {p : Peer} (hp : p ∈ s.flow.peers) (hs : p.station = station)
    (he : expired p.removalDeadline s.now = true) :
    exec (.removalDeadlineExpiry station) s = .next (event s (peerRemoved station s)) :=
  (unlessHeld_ite hheld).2 ((any_removalDue_iff _ _ _).2 ⟨p, hp, hs, he⟩)

end Expiries

/-- R139 in the words of the statement: outside UNCONFIGURED and without MUTE the notice of the moment takes the slot. -/
theorem placeDemandIf_true (s : State) :
    placeDemandIf true s =
      { s with link := { s.link with
        slot := if s.cycle.state ≠ .unconfigured ∧ s.muted = false then some ⟨⟨s.cycle.state, ownClass s, ownDemand s⟩, false⟩
          else s.link.slot } } := by
  by_cases h : s.cycle.state ≠ .unconfigured ∧ s.muted = false
  · simp [placeDemandIf, State.onLink, mayPlace, demandNotice, h]
  · have hm : mayPlace s = false := by simpa [mayPlace] using h
    simp [placeDemandIf, State.onLink, hm, h]

/-- Settles O48: the four expiries one by one; the removal alone is a whole event. -/
theorem flowDeadlinesAct : Obligations.FlowDeadlinesAct := by
  refine ⟨fun code faults => ⟨fun h => if_pos h, fun h => joinFault_full h code⟩, fun s hheld =>
    ⟨(unlessHeld_ite hheld).1, exec_releaseDeadline_due hheld, exec_demandSchedule_not_due hheld, fun target hs he => ?_,
      exec_staleDeadline hheld, fun station => exec_removalDeadline_not_due hheld, fun station p hp hs he => ?_⟩⟩
  · rw [exec_demandSchedule_due hheld hs he, placeDemandIf_true]
    rfl
  · exact ⟨_, exec_removalDeadline_due hheld hp hs he, by simp [peerRemoved, Peer.removalDue], by simp [peerRemoved],
      by simp [peerRemoved], by simp [peerRemoved], event_peerRemoved_link station s, by simp [peerRemoved],
      by simp [peerRemoved], by simp [peerRemoved], event_flowFollows _ _⟩

end Sys2Proof.Machine

/-! PROOFS. O26: the end of a record on VTX, and the bit periods of a record (08 R128, R129, 12 R202). -/

namespace Sys2Proof.Machine

/-! ### What is handed over (08 R129) -/

/-- The record that ended carries the setpoints of the moment: VTX stays idle. -/
theorem sendSetpoints_of_same {s : State} (h : s.flow.lastSent.map SetpointRecord.setpoints = some (setpointsNow s)) :
    sendSetpoints s = s.onFlow fun f => { f with setpoints := setpointsNow s } := by
  simp [sendSetpoints, State.onFlow, h]

/-- Other setpoints go out on an idle VTX, under the next sequence number. -/
theorem sendSetpoints_of_differ {s : State} (hi : s.flow.onLine = false)
    (h : s.flow.lastSent.map SetpointRecord.setpoints ≠ some (setpointsNow s)) :
    sendSetpoints s = s.onFlow fun f =>
      { f with setpoints := setpointsNow s, lastSent := some ⟨f.sequence, setpointsNow s⟩, onLine := true,
               sequence := f.sequence + 1 } := by
  have hne : (s.flow.lastSent.map SetpointRecord.setpoints == some (setpointsNow s)) = false := by simpa using h
  simp only [sendSetpoints, State.onFlow, hi, hne, Bool.or_self, Bool.false_eq_true, if_false]

/-! ### The bit periods of a byte -/

theorem length_serialBits (b : Byte) (stopHigh : Bool) : (serialBits b stopHigh).length = 10 := by simp [serialBits, bitsOf]

theorem getD_serialBits_start (b : Byte) (stopHigh d : Bool) : (serialBits b stopHigh).getD 0 d = false := rfl

theorem getD_serialBits_stop (b : Byte) (stopHigh d : Bool) : (serialBits b stopHigh).getD 9 d = stopHigh := rfl

/-- The data bits go low bit first (log 29). -/
theorem getD_serialBits_data (b : Byte) (stopHigh d : Bool) {k : Nat} (hk : k < 8) :
    (serialBits b stopHigh).getD (1 + k) d = b.getLsbD k := by
  interval_cases k <;> rfl

/-! ### The bit periods of bytes back to back -/

/-- A bit period falls in the byte that its ten belong to. -/
theorem getD_serialBytes {bytes : List Byte} {i : Nat} {b : Byte} (h : bytes[i]? = some b) {j : Nat} (hj : j < 10)
    (d : Bool) : (bytes.flatMap fun b => serialBits b true).getD (10 * i + j) d = (serialBits b true).getD j d := by
  induction bytes generalizing i with
  | nil => simp at h
  | cons a bytes ih =>
    rw [List.flatMap_cons]
    cases i with
    | zero =>
      obtain rfl : a = b := by simpa using h
      rw [List.getD_append _ _ _ _ (by rw [length_serialBits]; omega)]
      simp
    | succ i =>
      rw [List.getD_append_right _ _ _ _ (by rw [length_serialBits]; omega), length_serialBits,
        show 10 * (i + 1) + j - 10 = 10 * i + j by omega]
      exact ih (by simpa using h)

theorem length_serialBytes (bytes : List Byte) : (bytes.flatMap fun b => serialBits b true).length = 10 * bytes.length := by
  simp [List.length_flatMap, length_serialBits, Nat.mul_comm]

/-! ### A record on VTX -/

/-- The first six bytes of a record (12 R202). -/
def setpointPayload (r : SetpointRecord) : List Byte :=
  [90, r.sequence, if r.setpoints.direction = .forward then 0 else 1, BitVec.ofNat 8 r.setpoints.feed,
    BitVec.ofNat 8 r.setpoints.rotation, BitVec.ofNat 8 r.setpoints.injector]

theorem setpointBytes_eq (r : SetpointRecord) : setpointBytes r = setpointPayload r ++ [checkByte (setpointPayload r)] := by
  have hd : u8 r.setpoints.direction.code = [if r.setpoints.direction = .forward then 0 else 1] := by
    cases r.setpoints.direction <;> rfl
  rw [setpointBytes, hd]
  rfl

section Record

variable {s : State} {r : SetpointRecord} (ho : s.flow.onLine = true) (hl : s.flow.lastSent = some r)
include ho hl

theorem vtxLevel_of_record (period : Nat) :
    s.vtxLevel period = ((setpointBytes r).flatMap fun b => serialBits b true).getD period true := by
  simp [State.vtxLevel, setpointBits, ho, hl]

/-- The start bit, the data bits and the stop bit of each byte. -/
theorem vtxLevel_byte {i : Nat} {b : Byte} (h : (setpointBytes r)[i]? = some b) :
    s.vtxLevel (10 * i) = false ∧ (∀ k, k < 8 → s.vtxLevel (10 * i + 1 + k) = b.getLsbD k)
      ∧ s.vtxLevel (10 * i + 9) = true := by
  have hbit : ∀ j, j < 10 → s.vtxLevel (10 * i + j) = (serialBits b true).getD j true := fun j hj => by
    rw [vtxLevel_of_record ho hl, getD_serialBytes h hj]
  refine ⟨hbit 0 (by omega), fun k hk => ?_, hbit 9 (by omega)⟩
  rw [Nat.add_assoc, hbit (1 + k) (by omega), getD_serialBits_data b true true hk]

/-- After its 70 bit periods the line is high. -/
theorem vtxLevel_after {period : Nat} (h : 70 ≤ period) : s.vtxLevel period = true := by
  rw [vtxLevel_of_record ho hl]
  refine List.getD_eq_default _ _ ?_
  rw [length_serialBytes, setpointBytes_eq]
  exact h

end Record

/-- VTX is free (08 R129). -/
def vtxFreed (s : State) : State := s.onFlow fun f => { f with onLine := false }

/-- The record that ended is compared with the setpoints of the moment once VTX is free. -/
theorem exec_setpointRecordEnd {s : State} (hheld : s.resetHeld = false) (ho : s.flow.onLine = true) :
    exec .setpointRecordEnd s = .next (sendSetpoints (vtxFreed s)) :=
  (unlessHeld_ite hheld).2 ho

/-- Settles O26: the hand-over turns on whether the setpoints differ (`sendSetpoints_of_same`, `sendSetpoints_of_differ`), and
the levels of a record are those of its seven bytes in turn (`vtxLevel_byte`). -/
theorem recordEndSendsTheLatestSetpoints : Obligations.RecordEndSendsTheLatestSetpoints := by
  refine ⟨fun s hheld ho => ⟨fun hsame => ?_, fun hdiffer => ?_⟩, fun s r ho hl => ?_, fun s period ho => ?_⟩
  · rw [exec_setpointRecordEnd hheld ho, sendSetpoints_of_same (s := vtxFreed s) hsame]
    rfl
  · rw [exec_setpointRecordEnd hheld ho, sendSetpoints_of_differ (s := vtxFreed s) rfl hdiffer]
    rfl
  · exact ⟨checkByte (setpointPayload r), setpointBytes r, setpointBytes_eq r, byteSum_setpointBytes r,
      fun i b => vtxLevel_byte ho hl, fun period => vtxLevel_after ho hl⟩
  · simp [State.vtxLevel, ho]

end Sys2Proof.Machine

/-! PROOFS. O25: the edges of VALVE_READY (08 R131, R132, 01 R4, R7, 06 R88, R92). -/

namespace Sys2Proof.Machine

/-! ### The interlock at the end of an event -/

theorem event_interlock (old w : State) :
    (event old w).flow.interlock = (actInterlock (recomputeAllowance (setNearVoid w))).flow.interlock := by
  simp [event, finish, settle_interlock]

theorem event_releaseDeadline (old w : State) :
    (event old w).flow.releaseDeadline = (actInterlock (recomputeAllowance (setNearVoid w))).flow.releaseDeadline := by
  simp [event, finish, settle]

/-- A high FLOW_REQ stays while it may (08 R131, R133). -/
theorem actInterlock_of_flowReq {x : State} (hr : x.flowReq = true) (hm : mayFlow x = true) :
    (actInterlock x).flow = x.flow := by
  simp only [State.flowReq, Bool.or_eq_true, beq_iff_eq] at hr
  rcases hr with hi | hi <;> simp [actInterlock, State.onFlow, hi, hm]

theorem actInterlock_releaseDeadline_of_off {x : State} (h : x.flow.interlock = .off) :
    (actInterlock x).flow.releaseDeadline = x.flow.releaseDeadline := by
  simp only [actInterlock, State.onFlow, h]
  split <;> rfl

/-- Work on the interlock and VALVE_READY alone leaves the conditions of FLOW_REQ as they were (08 R131). -/
theorem mayFlow_recomputed {s w : State} (sound : FlowSound s) (hc : w.cycle.state = s.cycle.state)
    (hh : w.host.config = s.host.config) (hf : w.flow.peers = s.flow.peers) (hp : w.canopySet = s.canopySet) :
    mayFlow (recomputeAllowance (setNearVoid w)) = mayFlow s := by
  have ha : (recomputeAllowance (setNearVoid w)).flow.allowance = allowanceNow w := rfl
  exact mayFlow_congr (by simpa using hc) (by simpa using hh)
    (by rw [ha, sound.allowance, allowanceNow_congr hc hh hf]) (by simpa using hp)

/-- FLOW_REQ is high in `s`, and the work `w` of the edge leaves it high: the interlock stays as the edge has set it. -/
theorem event_interlock_of_edge (old : State) {s w : State} (sound : FlowSound s) (hs : s.flowReq = true)
    (hw : w.flowReq = true) (hc : w.cycle.state = s.cycle.state) (hh : w.host.config = s.host.config)
    (hf : w.flow.peers = s.flow.peers) (hp : w.canopySet = s.canopySet) :
    (event old w).flow.interlock = w.flow.interlock := by
  rw [event_interlock, actInterlock_of_flowReq (by simpa [State.flowReq] using hw)
    ((mayFlow_recomputed sound hc hh hf hp).trans (sound.flowReq hs))]
  simp

/-- FLOW_REQ is high only in an active phase. -/
theorem FlowSound.active_of_flowReq {s : State} (h : FlowSound s) (hr : s.flowReq = true) :
    s.cycle.state.isActive = true := by
  by_contra ha
  simp [h.flowReq_low (by simpa using ha)] at hr

/-! ### The timers under HELD (01 R4) -/

/-- The pausable timers of a state beside those of another, in one order. -/
def pausableTimers (s t : State) : List (Timer × Timer) :=
  [(s.cycle.collarTimer, t.cycle.collarTimer), (s.cycle.retractTimer, t.cycle.retractTimer),
    (s.assembler.stallWindow, t.assembler.stallWindow), (s.resin.strokeTimer, t.resin.strokeTimer),
    (s.torque.timer, t.torque.timer)]

/-- The timers of the phases that run with the phase alone, each with its phase; the stroke timer runs with a stroke. -/
def phaseTimers (s t : State) : List (Timer × Timer × Phase) :=
  [(s.cycle.collarTimer, t.cycle.collarTimer, .collar), (s.cycle.retractTimer, t.cycle.retractTimer, .retract),
    (s.assembler.stallWindow, t.assembler.stallWindow, .drill), (s.torque.timer, t.torque.timer, .torque)]

theorem event_phaseTimers (old w : State) {timer new : Timer} {phase : Phase}
    (h : (timer, new, phase) ∈ phaseTimers w (event old w)) :
    new = timer.sync (phaseRuns (event old w) phase) w.now := by
  obtain ⟨hcollar, hretract, hstall, htorque⟩ := event_timers old w
  simp only [phaseTimers, List.mem_cons, Prod.mk.injEq, List.not_mem_nil, or_false] at h
  rcases h with ⟨rfl, rfl, rfl⟩ | ⟨rfl, rfl, rfl⟩ | ⟨rfl, rfl, rfl⟩ | ⟨rfl, rfl, rfl⟩
  exacts [hcollar, hretract, hstall, htorque]

/-- An event that ends with HELD pauses every timer. -/
theorem event_pauses {old w : State} (hh : (event old w).cycle.held = true) {timer new : Timer}
    (h : (timer, new) ∈ pausableTimers w (event old w)) : new = timer.pause w.now := by
  have hphase : ∀ {timer new phase}, (timer, new, phase) ∈ phaseTimers w (event old w) → new = timer.pause w.now :=
    fun hm => by simpa [phaseRuns, hh, Timer.sync] using event_phaseTimers old w hm
  simp only [pausableTimers, List.mem_cons, Prod.mk.injEq, List.not_mem_nil, or_false] at h
  rcases h with ⟨rfl, rfl⟩ | ⟨rfl, rfl⟩ | ⟨rfl, rfl⟩ | ⟨rfl, rfl⟩ | ⟨rfl, rfl⟩
  · exact hphase (phase := .collar) (by simp [phaseTimers])
  · exact hphase (phase := .retract) (by simp [phaseTimers])
  · exact hphase (phase := .drill) (by simp [phaseTimers])
  · exact (event_stroke_of_held old w hh).1
  · exact hphase (phase := .torque) (by simp [phaseTimers])

/-- R4's pause, by what the timer was; one past its target keeps 0 (log 4). -/
theorem Timer.pause_cases (timer : Timer) (now : Time) :
    (∀ target, timer = .running target → expired target now = false → timer.pause now = .paused (target - now).toNat)
      ∧ (∀ target, timer = .running target → expired target now = true → timer.pause now = .paused 0)
      ∧ (∀ left, timer = .paused left → timer.pause now = .paused left)
      ∧ (timer = .disarmed → timer.pause now = .disarmed) := by
  refine ⟨?_, ?_, ?_, ?_⟩
  · rintro target rfl he
    rw [Timer.pause, remaining_of_not_expired he]
  · rintro target rfl he
    rw [Timer.pause, remaining, if_pos he]
  · rintro left rfl
    rfl
  · rintro rfl
    rfl

/-! ### A rise in WAIT_READY -/

/-- VALVE_READY has risen in WAIT_READY (08 R132). -/
def valveRisen (s : State) : State := ({ s with valveReady := true }).onFlow fun f => { f with interlock := .flowing }

/-- Where no stroke starts, the stroke is as the work left it, and its timer runs only for one in progress in a running
INSERT. -/
theorem event_stroke_waits (old : State) {w : State}
    (h : w.cycle.state ≠ .active .insert ∨ strokeReady w = false) :
    (event old w).resin.stroke = w.resin.stroke
      ∧ (event old w).resin.strokeTimer =
          w.resin.strokeTimer.sync (phaseRuns (event old w) .insert && w.resin.stroke == .inProgress) w.now := by
  rw [event_resin, event_phaseRuns]
  refine settle_starts_not (h.imp_left fun hn => ?_)
  simp [phaseRuns, hn]

theorem strokeReady_valveRisen (s : State) : strokeReady (valveRisen s) = strokeReady s := rfl

/-- Where another of R88's conditions fails the stroke stays as it was. -/
theorem event_valveRisen_waits {s : State} (h : s.cycle.state ≠ .active .insert ∨ s.cycle.abortPending = true
      ∨ s.resin.gap.isSome = true ∨ s.resin.charge.getD 0 ≤ s.resin.pushed) :
    let t := event s (valveRisen s)
    t.resin.stroke = s.resin.stroke
      ∧ (s.cycle.state ≠ .active .insert ∨ s.resin.stroke ≠ .inProgress →
          ∀ left, s.resin.strokeTimer = .paused left → t.resin.strokeTimer = .paused left) := by
  have hwait : (valveRisen s).cycle.state ≠ .active .insert ∨ strokeReady (valveRisen s) = false := by
    refine h.imp_right fun h => ?_
    by_contra hr
    obtain ⟨-, hp, ha, hg⟩ := (strokeReady_iff s).1 (by simpa [strokeReady_valveRisen] using hr)
    rcases h with h | h | h
    · simp [ha] at h
    · simp [hg] at h
    · omega
  obtain ⟨hstroke, htimer⟩ := event_stroke_waits s hwait
  refine ⟨hstroke, fun hn left hl => ?_⟩
  have hruns : (phaseRuns (event s (valveRisen s)) .insert && (valveRisen s).resin.stroke == .inProgress) = false := by
    rcases hn with hn | hn <;> simp [phaseRuns, valveRisen, hn]
  rw [htimer, hruns]
  exact congrArg (Timer.sync · false s.now) hl

section Rise

variable {s : State} (sound : FlowSound s) (hi : s.flow.interlock = .waitReady)
include sound hi

theorem event_valveRisen_interlock : (event s (valveRisen s)).flow.interlock = .flowing :=
  event_interlock_of_edge s sound (by simp [State.flowReq, hi]) rfl rfl rfl rfl rfl

theorem event_valveRisen_held : (event s (valveRisen s)).cycle.held = false := by
  simp [event_held, heldNow, event_valveRisen_interlock sound hi]

/-- HELD is clear, so that the phase of the cycle runs, and no other. -/
theorem event_valveRisen_phaseRuns (p : Phase) :
    phaseRuns (event s (valveRisen s)) p = decide (s.cycle.state = .active p) := by
  rw [Bool.eq_iff_iff, phaseRuns_iff, event_valveRisen_held sound hi]
  simp [valveRisen]

/-- The stroke that only HELD kept back starts (06 R88). -/
theorem event_valveRisen_starts (hst : s.cycle.state = .active .insert) (hs : s.resin.stroke ≠ .inProgress)
    (ha : s.cycle.abortPending = false) (hg : s.resin.gap = none) (hp : s.resin.pushed < s.resin.charge.getD 0) :
    let t := event s (valveRisen s)
    t.strokeOut = true ∧ (s.resin.stroke = .idle → t.resin.strokeTimer = .running (after s.now 3000))
      ∧ (∀ left, s.resin.stroke = .interrupted → s.resin.strokeTimer = .paused left →
          t.resin.strokeTimer = .running (after s.now left)) := by
  have hstart : (event s (valveRisen s)).resin.stroke = .inProgress :=
    (event_stroke_iff s (w := valveRisen s) hs).2 ⟨by simpa [valveRisen] using hst, event_valveRisen_held sound hi,
      by simpa [valveRisen] using hp, by simpa [valveRisen] using ha, by simpa [valveRisen] using hg⟩
  exact ⟨by simp [State.strokeOut, hstart], event_stroke_timer s (w := valveRisen s) hs hstart⟩

/-- A stroke in progress runs on with what is left of it (06 R92). -/
theorem event_valveRisen_runsOn {left : Nat} (hst : s.cycle.state = .active .insert) (hs : s.resin.stroke = .inProgress)
    (hl : s.resin.strokeTimer = .paused left) :
    (event s (valveRisen s)).strokeOut = true
      ∧ (event s (valveRisen s)).resin.strokeTimer = .running (after s.now left) := by
  have hready : strokeReady (valveRisen s) = false := by rw [strokeReady_valveRisen]; simp [strokeReady, hs]
  obtain ⟨hstroke, htimer⟩ := event_stroke_waits s (.inr hready)
  have hstroke : (event s (valveRisen s)).resin.stroke = .inProgress := hstroke.trans hs
  have hruns : (phaseRuns (event s (valveRisen s)) .insert && (valveRisen s).resin.stroke == .inProgress) = true := by
    rw [event_valveRisen_phaseRuns sound hi]
    simp [valveRisen, hst, hs]
  refine ⟨by simp [State.strokeOut, hstroke], ?_⟩
  rw [htimer, hruns]
  exact congrArg (Timer.sync · true s.now) hl

/-- The timer of the phase runs on with what is left of it, the others stay paused (01 R4, R7). -/
theorem event_valveRisen_timers {timer new : Timer} {phase : Phase}
    (h : (timer, new, phase) ∈ phaseTimers s (event s (valveRisen s))) :
    (∀ left, timer = .paused left →
        new = (if s.cycle.state = .active phase then .running (after s.now left) else .paused left))
      ∧ (timer = .disarmed → new = .disarmed) := by
  have hnew : new = timer.sync (decide (s.cycle.state = .active phase)) s.now :=
    event_valveRisen_phaseRuns sound hi phase ▸ event_phaseTimers s (valveRisen s) h
  subst hnew
  refine ⟨?_, ?_⟩
  · rintro left rfl
    simp [sync_paused]
  · rintro rfl
    exact sync_disarmed _ _

end Rise

/-! ### A fall -/

/-- VALVE_READY has fallen in FLOWING (08 R132). -/
def valveFallen (s : State) : State := ({ s with valveReady := false }).onFlow fun f => { f with interlock := .waitReady }

/-- VALVE_READY has fallen in RELEASING (08 R132). -/
def valveReleased (s : State) : State :=
  ({ s with valveReady := false }).onFlow fun f => { f with interlock := .off, releaseDeadline := none }

theorem event_valveFallen_interlock {s : State} (sound : FlowSound s) (hi : s.flow.interlock = .flowing) :
    (event s (valveFallen s)).flow.interlock = .waitReady :=
  event_interlock_of_edge s sound (by simp [State.flowReq, hi]) rfl rfl rfl rfl rfl

/-- FLOWING stood in an active phase, which is HELD now (08 R125). -/
theorem event_valveFallen_held {s : State} (sound : FlowSound s) (hi : s.flow.interlock = .flowing) :
    (event s (valveFallen s)).cycle.held = true := by
  have ha := sound.active_of_flowReq (by simp [State.flowReq, hi])
  rw [event_held, heldNow, event_valveFallen_interlock sound hi]
  simp [valveFallen, ha]

/-- The interlock is OFF with VALVE_READY low, from which FLOW_REQ may be raised at once (08 R131). -/
theorem event_valveReleased_interlock (s : State) :
    (event s (valveReleased s)).flow.interlock =
      (if mayFlow (event s (valveReleased s)) then .waitReady else .off) := by
  have hoff : (recomputeAllowance (setNearVoid (valveReleased s))).flow.interlock = .off := by simp [valveReleased]
  have hlow : (recomputeAllowance (setNearVoid (valveReleased s))).valveReady = false := by simp [valveReleased]
  rw [event_interlock, actInterlock_of_off hoff, event_mayFlow, settle_mayFlow, hlow]
  simp

theorem event_valveReleased_releaseDeadline (s : State) :
    (event s (valveReleased s)).flow.releaseDeadline = none := by
  have hoff : (recomputeAllowance (setNearVoid (valveReleased s))).flow.interlock = .off := by simp [valveReleased]
  rw [event_releaseDeadline, actInterlock_releaseDeadline_of_off hoff]
  simp [valveReleased]

/-! ### The commands -/

section Edges

variable {s : State} (hheld : s.resetHeld = false)
include hheld

theorem exec_valveReadyRise_waiting (hv : s.valveReady = false) (hi : s.flow.interlock = .waitReady) :
    exec .valveReadyRise s = .next (event s (valveRisen s)) :=
  (unlessHeld_of_awake hheld).trans (congrArg Host.Outcome.next (if_pos ⟨hi, hv⟩))

theorem exec_valveReadyRise_elsewhere (hi : s.flow.interlock ≠ .waitReady) :
    exec .valveReadyRise s = .next { s with valveReady := true } :=
  (unlessHeld_of_awake hheld).trans (congrArg Host.Outcome.next (if_neg fun h => hi h.1))

theorem exec_valveReadyFall (hv : s.valveReady = true) :
    exec .valveReadyFall s = .next (valveFall s { s with valveReady := false }) := (unlessHeld_ite hheld).2 hv

theorem exec_valveReadyFall_flowing (hv : s.valveReady = true) (hi : s.flow.interlock = .flowing) :
    exec .valveReadyFall s = .next (event s (valveFallen s)) := by
  rw [exec_valveReadyFall hheld hv]
  simp only [valveFall, hi]
  rfl

theorem exec_valveReadyFall_releasing (hv : s.valveReady = true) (hi : s.flow.interlock = .releasing) :
    exec .valveReadyFall s = .next (event s (valveReleased s)) := by
  rw [exec_valveReadyFall hheld hv]
  simp only [valveFall, hi]
  rfl

theorem exec_valveReadyFall_elsewhere (hv : s.valveReady = true)
    (hi : s.flow.interlock = .off ∨ s.flow.interlock = .waitReady) :
    exec .valveReadyFall s = .next { s with valveReady := false } := by
  rw [exec_valveReadyFall hheld hv]
  rcases hi with hi | hi <;> simp only [valveFall, hi]

end Edges

/-- Settles O25: a rise and a fall of a flowing interlock leave FLOW_REQ as FlowSound has it, so that the event's end only
changes HELD and with it the timers and the stroke. -/
theorem valveReadyDrivesTheInterlock : Obligations.ValveReadyDrivesTheInterlock := by
  intro s hheld
  refine ⟨fun sound hv hi => ?_, exec_valveReadyRise_elsewhere hheld, fun sound hv hi => ?_, fun hv hi => ?_,
    exec_valveReadyFall_elsewhere hheld⟩
  · exact ⟨_, exec_valveReadyRise_waiting hheld hv hi, by simp [valveRisen], event_valveRisen_interlock sound hi,
      event_valveRisen_held sound hi, by simp [valveRisen], event_flowFollows _ _, by simp [valveRisen],
      event_valveRisen_starts sound hi, event_valveRisen_waits, fun left => event_valveRisen_runsOn sound hi,
      fun timer new phase => event_valveRisen_timers sound hi⟩
  · have hint := event_valveFallen_interlock sound hi
    have hh := event_valveFallen_held sound hi
    have hzero : (event s (valveFallen s)).flow.setpoints = zeroSetpoints :=
      (event_setpoints _ _).trans (setpointsNow_zero (.inr (by simp [hint])))
    refine ⟨_, exec_valveReadyFall_flowing hheld hv hi, by simp [valveFallen], hint, by simp [State.flowReq, hint], hh, hzero,
      by simp [valveFallen], by simp [valveFallen], (event_stroke_of_held s (valveFallen s) hh).2, fun timer new hmem => ?_⟩
    obtain rfl := event_pauses (w := valveFallen s) hh hmem
    exact timer.pause_cases s.now
  · exact ⟨_, exec_valveReadyFall_releasing hheld hv hi, by simp [valveReleased], event_valveReleased_releaseDeadline s,
      event_valveReleased_interlock s, by simp [valveReleased], event_flowFollows _ _, by simp [valveReleased]⟩

end Sys2Proof.Machine

/-! PROOFS. O54: the notices and frames read back, and the void list of the own notice (04 R66, R67, 09 R140 to R147). -/

namespace Sys2Proof.Machine

/-! ### Payloads read back (09 R145 to R147) -/

theorem decodeDemand_encodeDemand {n : DemandNotice} (h : n.demand ≤ 255) : decodeDemand (encodeDemand n) = some n := by
  simp only [encodeDemand, u8, List.cons_append, List.nil_append, decodeDemand, toNat_u8 (CycleState.code_lt _),
    toNat_u8 (FlowClass.code_lt _), toNat_u8 (show n.demand < 256 by omega), CycleState.ofCode_code, FlowClass.ofCode_code]

/-- The byte of a slot and a verdict reads back: three bits each, and the two bits between and above them clear (12 R203). -/
theorem decodeSlotVerdict_slotVerdict {slot : Nat} (h : slot ≤ 7) (v : Verdict) :
    decodeSlotVerdict (BitVec.ofNat 8 (slot * 16 + v.code)) = some (slot, v) := by
  have hall : ∀ k : Fin 8, decodeSlotVerdict (BitVec.ofNat 8 (k * 16 + v.code)) = some (k.val, v) := by cases v <;> decide
  exact hall ⟨slot, by omega⟩

/-- The void intervals of a payload read back, whatever follows them. -/
theorem decodeVoids_encoded {voids : List VoidInterval} (h : ∀ v ∈ voids, v.start ≤ 16383 ∧ v.length ≤ 16383)
    (rest : List Byte) :
    decodeVoids voids.length ((voids.flatMap fun v => encodeVar v.start ++ encodeVar v.length) ++ rest)
      = some (voids, rest) := by
  induction voids with
  | nil => rfl
  | cons v voids ih =>
    obtain ⟨hv, hvoids⟩ := List.forall_mem_cons.1 h
    simp only [List.flatMap_cons, List.append_assoc, List.length_cons, decodeVoids,
      decodeVar_encodeVar (show v.start < 16384 by omega), decodeVar_encodeVar (show v.length < 16384 by omega), ih hvoids]

theorem decodeHole_encodeHole {n : HoleNotice} (hrow : n.row ≤ 4095) (hslot : n.slot ≤ 7) (hdepth : n.depth ≤ 16383)
    (hfits : n.fits) (hvoids : ∀ v ∈ n.voids, v.start ≤ 16383 ∧ v.length ≤ 16383) :
    decodeHole n.station (encodeHole n) = some n := by
  have hcount : n.voids.length ≤ 8 := hfits
  have hread := decodeVoids_encoded hvoids []
  rw [List.append_nil] at hread
  simp only [encodeHole, List.append_assoc, u8, decodeHole, decodeVar_encodeVar (show n.row < 16384 by omega),
    List.cons_append, List.nil_append, decodeSlotVerdict_slotVerdict hslot,
    decodeVar_encodeVar (show n.depth < 16384 by omega), toNat_u8 (show n.voids.length < 256 by omega)]
  rw [if_neg (by simp only [Bool.or_eq_true, decide_eq_true_eq]; omega), hread]

theorem buildFrame_station {station : Nat} (h : station ≤ 5) (kind : BitVec 3) (payload : List Byte) :
    (buildFrame kind station payload).station.toNat = station := by
  simp only [buildFrame, BitVec.toNat_ofNat]
  omega

/-! ### The runs of VOID cells (04 R67) -/

/-- The cell `k` was closed VOID. -/
def IsVoid (cells : List CellRecord) (k : Nat) : Prop := (cells[k]?.map CellRecord.cls) = some .void

theorem IsVoid.lt_length {cells : List CellRecord} {k : Nat} (h : IsVoid cells k) : k < cells.length := by
  by_contra hk
  simp [IsVoid, List.getElem?_eq_none (Nat.le_of_not_lt hk)] at h

theorem isVoid_iff_of_drop {cells rest : List CellRecord} {k : Nat} {c : CellRecord} (h : cells.drop k = c :: rest) :
    IsVoid cells k ↔ c.cls = .void := by
  have hk : cells[k]? = some c := by
    rw [← List.head?_drop, h]
    rfl
  simp [IsVoid, hk]

theorem voidRun_iff (cells : List CellRecord) (first count : Nat) : VoidRun cells first count ↔
    0 < count ∧ (∀ i, i < count → IsVoid cells (first + i)) ∧ ¬IsVoid cells (first + count)
      ∧ ∀ k, first = k + 1 → ¬IsVoid cells k := Iff.rfl

theorem VoidRun.first_isVoid {cells : List CellRecord} {first count : Nat} (h : VoidRun cells first count) :
    IsVoid cells first := h.2.1 0 h.1

/-- A maximal run is known by its first cell. -/
theorem VoidRun.count_unique {cells : List CellRecord} {first count count' : Nat} (h : VoidRun cells first count)
    (h' : VoidRun cells first count') : count = count' := by
  obtain ⟨-, hall, hend, -⟩ := h
  obtain ⟨-, hall', hend', -⟩ := h'
  rcases Nat.lt_trichotomy count count' with hlt | heq | hlt
  · exact absurd (hall' count hlt) hend
  · exact heq
  · exact absurd (hall count' hlt) hend'

/-- What the scan for runs holds when it comes to the cell `k`: the run that ends right before `k`, of which the cells so far
are all VOID, or none where the cell before `k` is not VOID. -/
def RunSoFar (cells : List CellRecord) (k : Nat) : Option (Nat × Nat) → Prop
  | none => ∀ j, k = j + 1 → ¬IsVoid cells j
  | some (first, count) =>
    0 < count ∧ first + count = k ∧ (∀ i, i < count → IsVoid cells (first + i)) ∧ ∀ j, first = j + 1 → ¬IsVoid cells j

/-- The first cell of a run that the scan can still report. -/
def scanFrom (k : Nat) : Option (Nat × Nat) → Nat
  | none => k
  | some (first, _) => first

/-- The run that a VOID cell `k` begins or goes on. -/
def runWith (k : Nat) : Option (Nat × Nat) → Nat × Nat
  | none => (k, 1)
  | some (first, count) => (first, count + 1)

section Scan

variable {cells rest : List CellRecord} {k : Nat} {run : Option (Nat × Nat)}

theorem voidRuns_void {c : CellRecord} (h : c.cls = .void) :
    voidRuns k run (c :: rest) = voidRuns (k + 1) (some (runWith k run)) rest := by
  cases run <;> simp [voidRuns, h, runWith]

theorem voidRuns_other {c : CellRecord} (h : c.cls ≠ .void) :
    voidRuns k run (c :: rest) = run.toList ++ voidRuns (k + 1) none rest := by simp [voidRuns, h]

theorem scanFrom_runWith : scanFrom (k + 1) (some (runWith k run)) = scanFrom k run := by cases run <;> rfl

theorem RunSoFar.extend (h : RunSoFar cells k run) (hv : IsVoid cells k) :
    RunSoFar cells (k + 1) (some (runWith k run)) := by
  cases run with
  | none =>
    refine ⟨Nat.one_pos, rfl, fun i hi => ?_, h⟩
    obtain rfl : i = 0 := by omega
    exact hv
  | some r =>
    obtain ⟨-, hk, hall, hleft⟩ := h
    refine ⟨Nat.succ_pos _, by omega, fun i hi => ?_, hleft⟩
    rcases Nat.lt_succ_iff_lt_or_eq.1 hi with hlt | rfl
    · exact hall i hlt
    · rwa [hk]

/-- A cell that is not VOID ends the run before it: the maximal runs from there on are that one and those after the cell. -/
theorem RunSoFar.runs_iff (h : RunSoFar cells k run) (hv : ¬IsVoid cells k) (p : Nat × Nat) :
    VoidRun cells p.1 p.2 ∧ scanFrom k run ≤ p.1 ↔ p ∈ run.toList ∨ (VoidRun cells p.1 p.2 ∧ k + 1 ≤ p.1) := by
  have hne : VoidRun cells p.1 p.2 → p.1 ≠ k := fun hp he => hv (he ▸ hp.first_isVoid)
  cases run with
  | none =>
    simp only [scanFrom, Option.toList_none, List.not_mem_nil, false_or]
    exact and_congr_right fun hp => by have := hne hp; omega
  | some r =>
    obtain ⟨first, count⟩ := r
    obtain ⟨hpos, hk, hall, hleft⟩ := h
    have hrun : VoidRun cells first count := ⟨hpos, hall, hk ▸ hv, hleft⟩
    simp only [scanFrom, Option.toList_some, List.mem_singleton]
    constructor
    · rintro ⟨hp, hle⟩
      have hnk := hne hp
      by_cases hin : p.1 < k
      · have heq : p.1 = first := by
          by_contra hn
          refine hp.2.2.2 (p.1 - 1) (by omega) ?_
          have := hall (p.1 - 1 - first) (by omega)
          rwa [show first + (p.1 - 1 - first) = p.1 - 1 by omega] at this
        exact .inl (Prod.ext heq ((heq ▸ hp).count_unique hrun))
      · exact .inr ⟨hp, by omega⟩
    · rintro (rfl | ⟨hp, hle⟩)
      · exact ⟨hrun, Nat.le_refl _⟩
      · exact ⟨hp, by omega⟩

end Scan

/-- The scan from the cell `k` on reports the maximal runs that reach `k` or begin after it. -/
theorem mem_voidRuns {cells : List CellRecord} (rest : List CellRecord) : ∀ {k : Nat} {run : Option (Nat × Nat)},
    cells.drop k = rest → RunSoFar cells k run → ∀ p : Nat × Nat,
      p ∈ voidRuns k run rest ↔ VoidRun cells p.1 p.2 ∧ scanFrom k run ≤ p.1 := by
  induction rest with
  | nil =>
    intro k run hd h p
    have hlen : cells.length ≤ k := List.drop_eq_nil_iff.1 hd
    have hpast : ∀ j, k ≤ j → ¬IsVoid cells j := fun j hj hv => by have := hv.lt_length; omega
    rw [h.runs_iff (hpast k (Nat.le_refl k)), or_iff_left fun ⟨hp, hle⟩ => hpast p.1 (by omega) hp.first_isVoid, voidRuns]
  | cons c rest ih =>
    intro k run hd h p
    have hd' : cells.drop (k + 1) = rest := by rw [← List.drop_drop, hd, List.drop_one, List.tail_cons]
    by_cases hc : c.cls = .void
    · rw [voidRuns_void hc, ih hd' (h.extend ((isVoid_iff_of_drop hd).2 hc)), scanFrom_runWith]
    · have hv : ¬IsVoid cells k := fun hv => hc ((isVoid_iff_of_drop hd).1 hv)
      have hnext : RunSoFar cells (k + 1) none := fun j hj => by rwa [← Nat.succ.inj hj]
      rw [voidRuns_other hc, List.mem_append, ih hd' hnext, h.runs_iff hv, scanFrom]

/-- The runs are reported in the order of their first cells. -/
theorem voidRuns_rising {cells : List CellRecord} (rest : List CellRecord) : ∀ {k : Nat} {run : Option (Nat × Nat)},
    cells.drop k = rest → RunSoFar cells k run → (voidRuns k run rest).Pairwise fun p q => p.1 < q.1 := by
  induction rest with
  | nil => intro k run _ _; cases run <;> simp [voidRuns]
  | cons c rest ih =>
    intro k run hd h
    have hd' : cells.drop (k + 1) = rest := by rw [← List.drop_drop, hd, List.drop_one, List.tail_cons]
    by_cases hc : c.cls = .void
    · rw [voidRuns_void hc]
      exact ih hd' (h.extend ((isVoid_iff_of_drop hd).2 hc))
    · have hv : ¬IsVoid cells k := fun hv => hc ((isVoid_iff_of_drop hd).1 hv)
      have hnext : RunSoFar cells (k + 1) none := fun j hj => by rwa [← Nat.succ.inj hj]
      rw [voidRuns_other hc, List.pairwise_append]
      refine ⟨by cases run <;> simp, ih hd' hnext, fun p hp q hq => ?_⟩
      obtain rfl : run = some p := by simpa using hp
      have hle : k + 1 ≤ q.1 := ((mem_voidRuns rest hd' hnext q).1 hq).2
      obtain ⟨hpos, hk, -, -⟩ := h
      omega

theorem mem_voidRuns_zero (cells : List CellRecord) (p : Nat × Nat) :
    p ∈ voidRuns 0 none cells ↔ VoidRun cells p.1 p.2 := by
  rw [mem_voidRuns cells (List.drop_zero ..) (by intro j hj; omega)]
  exact and_iff_left (Nat.zero_le _)

theorem voidRuns_zero_rising (cells : List CellRecord) : (voidRuns 0 none cells).Pairwise fun p q => p.1 < q.1 :=
  voidRuns_rising cells (List.drop_zero ..) (by intro j hj; omega)

/-! ### The void list of the own notice (04 R67) -/

/-- A run of cells as the interval of depths that the notice carries, 20 mm to a cell. -/
def intervalOf (run : Nat × Nat) : VoidInterval := ⟨run.1 * 20, run.2 * 20⟩

/-- The runs are those left out of the list, and then the deepest eight. -/
theorem voidRuns_split (cells : List CellRecord) : ∃ shallow deep : List (Nat × Nat),
    voidRuns 0 none cells = shallow ++ deep ∧ voidList cells = deep.map intervalOf ∧ deep.length ≤ 8
      ∧ (shallow ≠ [] → deep.length = 8) := by
  refine ⟨_, _, (List.take_append_drop ((voidRuns 0 none cells).length - 8) _).symm, rfl, ?_, fun hne => ?_⟩
  · rw [List.length_drop]
    omega
  · have hpos := List.length_pos_iff.2 hne
    rw [List.length_take] at hpos
    rw [List.length_drop]
    omega

theorem voidList_deepest (cells : List CellRecord) :
    (voidList cells).length ≤ 8 ∧ (voidList cells).Pairwise (fun a b => a.start < b.start)
      ∧ (∀ v ∈ voidList cells, ∃ first count, VoidRun cells first count ∧ v = ⟨first * 20, count * 20⟩)
      ∧ (∀ first count, VoidRun cells first count →
          ⟨first * 20, count * 20⟩ ∈ voidList cells
            ∨ ((voidList cells).length = 8 ∧ ∀ v ∈ voidList cells, first * 20 < v.start)) := by
  obtain ⟨shallow, deep, hruns, hlist, hlen, hfull⟩ := voidRuns_split cells
  have hmem := mem_voidRuns_zero cells
  have hrise := voidRuns_zero_rising cells
  rw [hruns] at hmem hrise
  obtain ⟨-, hdeep, hacross⟩ := List.pairwise_append.1 hrise
  rw [hlist, List.length_map]
  refine ⟨hlen, List.pairwise_map.2 (hdeep.imp fun h => by simp only [intervalOf]; omega), fun v hv => ?_,
    fun first count hrun => ?_⟩
  · obtain ⟨p, hp, rfl⟩ := List.mem_map.1 hv
    exact ⟨p.1, p.2, (hmem p).1 (List.mem_append_right _ hp), rfl⟩
  · rcases List.mem_append.1 ((hmem (first, count)).2 hrun) with hs | hd
    · refine .inr ⟨hfull (List.ne_nil_of_mem hs), fun v hv => ?_⟩
      obtain ⟨q, hq, rfl⟩ := List.mem_map.1 hv
      have := hacross _ hs _ hq
      simp only [intervalOf]
      omega
    · exact .inl (List.mem_map.2 ⟨_, hd, rfl⟩)

/-- Settles O54: each payload field reads back in its place, and the void list is the end of the scan's rising list of
maximal runs. -/
theorem noticesAreReadBack : Obligations.NoticesAreReadBack := by
  refine ⟨fun n hd => ⟨decodeDemand_encodeDemand hd, length_encodeDemand n⟩, fun n hrow hslot hdepth hfits hvoids => ?_,
    fun kind station payload hst => ?_, fun f hf => ?_, fun _ _ _ => rfl, voidList_deepest⟩
  · exact ⟨decodeHole_encodeHole hrow hslot hdepth hfits hvoids, (length_encodeHole hfits).trans (by omega)⟩
  · exact ⟨crcGood_buildFrame kind station payload, rfl, buildFrame_station hst kind payload, rfl⟩
  · exact ⟨length_frameBits f, frameRead_frameBits hf, fun read rest h => by
      rw [frameWhole_prefix hf h, List.isEmpty_iff]⟩

end Sys2Proof.Machine

/-! PROOFS. O50: frames that are discarded, and bit periods that bring no frame (09 R141 to R144, R149, R151). -/

namespace Sys2Proof.Machine

/-! ### The commands that bring bit periods -/

theorem exec_demandFrameReceived {s : State} (hheld : s.resetHeld = false) (bits : List Bool) :
    exec (.demandFrameReceived bits) s = .next (bits.foldl takeBit s) := unlessHeld_of_awake hheld

theorem exec_holeFrameReceived {s : State} (hheld : s.resetHeld = false) (bits : List Bool) :
    exec (.holeFrameReceived bits) s = .next (bits.foldl takeBit s) := unlessHeld_of_awake hheld

/-- Both rows of received frames take the bit periods they bring (log 21). -/
theorem exec_bitPeriods {c : Instr} {bits : List Bool} {s : State}
    (hcmd : c ∈ [Instr.demandFrameReceived bits, .holeFrameReceived bits]) (hheld : s.resetHeld = false) :
    exec c s = .next (bits.foldl takeBit s) := by
  simp only [List.mem_cons, List.not_mem_nil, or_false] at hcmd
  rcases hcmd with rfl | rfl
  · exact exec_demandFrameReceived hheld bits
  · exact exec_holeFrameReceived hheld bits

/-! ### A frame that fails a check (09 R144) -/

/-- A payload that is malformed for its kind, or an unknown kind, is routed nowhere. -/
theorem routeFrame_malformed {f : LinkFrame} {s : State}
    (h : (f.kind ≠ 1 ∧ f.kind ≠ 2) ∨ (f.kind = 1 ∧ decodeDemand f.payload = none)
      ∨ (f.kind = 2 ∧ decodeHole f.station.toNat f.payload = none)) : routeFrame f s = s := by
  have h21 : (2 : BitVec 3) ≠ 1 := by decide
  rcases h with ⟨h1, h2⟩ | ⟨hk, hd⟩ | ⟨hk, hd⟩
  · simp only [routeFrame, demandKind, holeKind, h1, h2, if_false]
  · simp only [routeFrame, demandKind, hk, if_true, hd]
  · simp only [routeFrame, demandKind, holeKind, hk, h21, if_false, if_true, hd]

/-- A frame that fails a check of R144 is discarded without effect. -/
theorem checkFrame_fails {f : LinkFrame} {s : State}
    (h : 40 < f.payload.length ∨ 5 < f.station.toNat ∨ (f.kind ≠ 1 ∧ f.kind ≠ 2)
      ∨ (f.kind = 1 ∧ decodeDemand f.payload = none)
      ∨ (f.kind = 2 ∧ decodeHole f.station.toNat f.payload = none)) : checkFrame f s = s := by
  unfold checkFrame
  split_ifs with hc
  · rfl
  · simp only [Bool.or_eq_true, decide_eq_true_eq, not_or] at hc
    obtain ⟨hlength, hstation⟩ := hc
    exact routeFrame_malformed ((h.resolve_left hlength).resolve_left hstation)

/-! ### A part of a frame, and bit periods without one -/

/-- The lead bit in a GAP in which the station does not start a frame of its own begins the frame that it follows (09 R141). -/
theorem takeBit_lead {s : State} (hv : s.link.view = .gap) (hn : s.link.starts = false) :
    takeBit s false = s.onLink fun l => { l with view := .frame, assembly := [false] } := by
  rw [takeBit_of_idle hn, readLine, hv]
  rfl

/-- The first bits of a frame, short of its last one, leave a receiver in FRAME with those bits. -/
theorem foldl_takeBit_begins {f : LinkFrame} (hf : f.payload.length < 64) {s : State} {bits rest : List Bool}
    (hv : s.link.view = .gap) (hn : s.link.starts = false) (ht : s.link.tx = none) (hb : bits ≠ []) (hr : rest ≠ [])
    (h : bits ++ rest = frameBits f) :
    bits.foldl takeBit s = s.onLink fun l => { l with view := .frame, assembly := bits } := by
  obtain ⟨b, more, rfl⟩ := List.exists_cons_of_ne_nil hb
  obtain ⟨rfl, -⟩ : b = false ∧ _ := List.cons.inj h
  rw [List.foldl_cons, takeBit_lead hv hn, foldl_takeBit_part hf more rfl (by simpa using ht) h hr]
  rfl

/-- Recessive bits in SEEKING, short of the 544th, are counted (09 R141). -/
theorem foldl_takeBit_seeks (n : Nat) : ∀ {s : State}, s.link.view = .seeking → s.link.recessive + n < 544 →
    (List.replicate n true).foldl takeBit s = s.onLink fun l => { l with recessive := l.recessive + n } := by
  induction n with
  | zero => intro s _ _; rfl
  | succ n ih =>
    intro s hv hn
    have hb : takeBit s true = s.onLink fun l => { l with recessive := l.recessive + 1 } := by
      have hcount : ¬544 ≤ s.link.recessive + 1 := by omega
      simp [takeBit_of_view (s := s) (by simp [hv]), readLine, hv, LinkBlock.seekBit, hcount, State.onLink]
    rw [List.replicate_succ, List.foldl_cons, hb, ih (by simpa using hv) (by simp only [State.onLink_link]; omega)]
    simp only [State.onLink, Nat.add_assoc, Nat.add_comm 1]

/-- The 544th recessive bit in a row opens the line (09 R141). -/
theorem takeBit_opens {s : State} (hv : s.link.view = .seeking) (hn : s.link.recessive = 543) :
    takeBit s true = s.onLink fun l => { l with view := .gap, recessive := 544 } := by
  simp [takeBit_of_view (s := s) (by simp [hv]), readLine, hv, LinkBlock.seekBit, hn, State.onLink]

/-- Recessive bits past the 544th are counted in the GAP, while the station starts no frame there (09 R141, R149). -/
theorem foldl_takeBit_opens {s : State} {n : Nat} (hv : s.link.view = .seeking) (hlt : s.link.recessive < 544)
    (hle : 544 ≤ s.link.recessive + n) (hn : ∀ k, 544 ≤ k → k < s.link.recessive + n →
      ({ s.link with view := .gap, recessive := k } : LinkBlock).starts = false) :
    (List.replicate n true).foldl takeBit s
      = s.onLink fun l => { l with view := .gap, recessive := l.recessive + n } := by
  have hsplit : n = (543 - s.link.recessive) + ((s.link.recessive + n - 544) + 1) := by omega
  have hbits : List.replicate n true = List.replicate (543 - s.link.recessive) true
      ++ true :: List.replicate (s.link.recessive + n - 544) true := by
    rw [← List.replicate_succ, ← List.replicate_add, ← hsplit]
  rw [hbits, List.foldl_append, foldl_takeBit_seeks _ hv (by omega), List.foldl_cons,
    takeBit_opens (by simpa using hv) (by simp only [State.onLink_link]; omega), foldl_takeBit_waits _ rfl]
  · have hcount : 544 + (s.link.recessive + n - 544) = s.link.recessive + n := by omega
    simp only [State.onLink, hcount]
  · intro k hk
    exact hn (544 + k) (by omega) (by omega)

/-- Settles O50: the bit periods run to the end of the frame they bring, and short of it by the line view (09 R141, R143). -/
theorem otherFramesAreDiscarded : Obligations.OtherFramesAreDiscarded := by
  intro c bits f s hheld hcmd
  have hexec := exec_bitPeriods hcmd hheld
  refine ⟨fun hb => ⟨fun hc => ?_, fun hc hfail => ?_⟩, fun rest hf ht hr hne => ⟨fun hv hn h => ?_, fun hv h => ?_⟩,
    fun rest g hv ht hr h => ?_, fun n hbits hv hn => ?_, fun hv => ?_, fun hv => ⟨fun hf hbits => ?_,
    fun n hbits hlt hle hn => ?_⟩⟩
  · rw [hexec, foldl_takeBit_bad hb hc]
    rfl
  · rw [hexec, foldl_takeBit_brings hb, if_pos hc, checkFrame_fails hfail]
    rfl
  · rw [hexec, foldl_takeBit_begins hf hv hn ht hne hr h]
    rfl
  · rw [hexec, foldl_takeBit_part hf bits hv ht h hr]
    rfl
  · rw [hexec, foldl_takeBit_matching bits hv ht h hr]
    rfl
  · rw [hexec, hbits, foldl_takeBit_waits n hv hn]
    rfl
  · rw [hexec, foldl_takeBit_off bits hv]
  · rw [hexec, hbits, foldl_takeBit_passing hf hv]
    rfl
  · rw [hexec, hbits, foldl_takeBit_opens hv hlt hle hn]
    rfl

end Sys2Proof.Machine

/-! PROOFS. O51: the own frames, and the level of LTX (09 R140, R141, R149 to R154, R157). -/

namespace Sys2Proof.Machine

/-! ### The level of LTX, and when a station starts (09 R140, R149) -/

theorem LinkBlock.startCount_le_iff (l : LinkBlock) (n : Nat) :
    l.startCount ≤ n ↔ 11 ≤ n ∧ (l.ownLast = true → 19 ≤ n) := by
  cases h : l.ownLast <;> simp [LinkBlock.startCount, h]
  omega

theorem LinkBlock.hasNotice_iff (l : LinkBlock) :
    l.hasNotice = true ↔ l.slot ≠ none ∨ (l.queue ≠ [] ∧ l.queueOnLine = false) := by
  simp [LinkBlock.hasNotice, Option.isSome_iff_ne_none]

theorem LinkBlock.starts_iff (l : LinkBlock) : l.starts = true ↔
    l.view = .gap ∧ l.startCount ≤ l.recessive ∧ l.mute = none ∧ l.hasNotice = true := by
  simp [LinkBlock.starts, and_assoc]

/-- A station that sends nothing is dominant exactly where it starts a frame. -/
theorem State.ltx_of_silent {s : State} (h : s.link.tx = none) : s.ltx = !s.link.starts := by simp only [State.ltx, h]

/-- A sender's LTX is the bit of its frame that is next to be read back. -/
theorem State.ltx_of_sending {s : State} {f : LinkFrame} {level : Bool} (h : s.link.tx = some f)
    (hb : (frameBits f)[s.link.assembly.length]? = some level) : s.ltx = level := by
  simp only [State.ltx, h, List.getD, hb, Option.getD_some]

/-- The lead bit of a frame is dominant. -/
theorem getElem?_frameBits_zero (f : LinkFrame) : (frameBits f)[0]? = some false := rfl

theorem State.ltx_of_lead {s : State} {f : LinkFrame} (h : s.link.tx = some f) (ha : s.link.assembly = []) :
    s.ltx = false := s.ltx_of_sending h (by rw [ha]; rfl)

/-! ### FRAME_START (09 R149, R150) -/

/-- The station after as many of these recessive bit periods as its start still needs. -/
def awaited (recessive : Nat) (s : State) : State := s.onLink fun l => l.await recessive

theorem exec_frameStart {s : State} (hheld : s.resetHeld = false) (recessive : Nat) :
    exec (.frameStart recessive) s =
      .next (if (awaited recessive s).link.starts then startFrame (awaited recessive s) else s) := unlessHeld_of_awake hheld

/-- The count that the start needs is reached within the periods brought exactly where it is reached at their end. -/
theorem awaited_starts_iff (recessive : Nat) (s : State) : (awaited recessive s).link.starts = true ↔
    s.link.view = .gap ∧ s.link.startCount ≤ s.link.recessive + recessive ∧ s.link.mute = none ∧ s.link.hasNotice = true := by
  have hcount : s.link.startCount ≤ max s.link.recessive (min s.link.startCount (s.link.recessive + recessive))
      ↔ s.link.startCount ≤ s.link.recessive + recessive := by omega
  rw [LinkBlock.starts_iff, ← hcount]
  rfl

/-- Where it is reached, no more periods pass than the start needs. -/
theorem awaited_of_reached {recessive : Nat} {s : State} (h : s.link.startCount ≤ s.link.recessive + recessive) :
    awaited recessive s = s.onLink fun l => { l with recessive := max l.recessive l.startCount } := by
  simp only [awaited, LinkBlock.await, State.onLink, Nat.min_eq_left h]

/-- The periods that the start still needs, read bit by bit: the station starts in none of them (09 R141, R149). -/
theorem foldl_takeBit_awaits {recessive : Nat} {s : State} (hv : s.link.view = .gap)
    (hcount : s.link.recessive + recessive = max s.link.recessive s.link.startCount) :
    (List.replicate recessive true).foldl takeBit s = awaited recessive s := by
  rw [foldl_takeBit_waits _ hv, awaited_of_reached (by omega)]
  · simp only [State.onLink, hcount]
  · intro k hk
    have hshort : ¬s.link.startCount ≤ s.link.recessive + k := by omega
    exact Bool.eq_false_iff.2 fun hs => hshort ((LinkBlock.starts_iff _).1 hs).2.1

/-- FRAME_START in a station of which a condition of R149 fails, or whose count is not reached, is no event (log 14). -/
theorem exec_frameStart_none {s : State} (hheld : s.resetHeld = false) {recessive : Nat}
    (h : s.link.view ≠ .gap ∨ s.link.recessive + recessive < s.link.startCount ∨ s.link.mute ≠ none
      ∨ (s.link.slot = none ∧ (s.link.queue = [] ∨ s.link.queueOnLine = true))) :
    exec (.frameStart recessive) s = .next s := by
  rw [exec_frameStart hheld, if_neg]
  rw [awaited_starts_iff, LinkBlock.hasNotice_iff]
  rintro ⟨hview, hle, hmute, hnotice⟩
  rcases h with h | h | h | ⟨hslot, hqueue⟩
  · exact h hview
  · omega
  · exact h hmute
  · obtain ⟨hne, hoff⟩ := hnotice.resolve_left (not_not_intro hslot)
    rcases hqueue with h | h
    · exact hne h
    · exact Bool.false_ne_true (hoff.symm.trans h)

theorem exec_frameStart_starts {s : State} (hheld : s.resetHeld = false) {recessive : Nat} (hv : s.link.view = .gap)
    (hle : s.link.startCount ≤ s.link.recessive + recessive) (hm : s.link.mute = none) (hn : s.link.hasNotice = true) :
    exec (.frameStart recessive) s = .next (startFrame (awaited recessive s)) := by
  rw [exec_frameStart hheld, if_pos ((awaited_starts_iff recessive s).2 ⟨hv, hle, hm, hn⟩)]

/-- A station that starts is in FRAME with its lead bit still to be read back, and drives the line (09 R149). -/
theorem startFrame_leads {s : State} (hn : s.link.hasNotice = true) :
    (startFrame s).link.view = .frame ∧ (startFrame s).ltx = false := by
  obtain ⟨frame, fromSlot, -, hstart⟩ := startFrame_of_notice hn
  rw [hstart]
  exact ⟨rfl, State.ltx_of_lead rfl rfl⟩

/-- The bit period after those that the start needs is the lead bit of the own frame, whatever level is read in it. -/
theorem foldl_takeBit_awaits_starts {recessive : Nat} {s : State} (hv : s.link.view = .gap) (hm : s.link.mute = none)
    (hn : s.link.hasNotice = true) (hcount : s.link.recessive + recessive = max s.link.recessive s.link.startCount)
    {bits : List Bool} (hb : bits ≠ []) :
    (List.replicate recessive true ++ bits).foldl takeBit s = bits.foldl takeBit (startFrame (awaited recessive s)) := by
  have hstarts := (awaited_starts_iff recessive s).2 ⟨hv, by omega, hm, hn⟩
  rw [List.foldl_append, foldl_takeBit_awaits hv hcount, foldl_takeBit_starts hstarts hb]

theorem startFrame_of_slot {s : State} {d : DemandSlot} (h : s.link.slot = some d) :
    startFrame s = s.onLink fun l => { l with
      view := .frame, assembly := [], slot := some { d with onLine := true }
      tx := some (buildFrame 1 s.cfg.station (encodeDemand d.notice)) } := by
  simp only [startFrame, State.onLink, chooseFrame, h, LinkBlock.markOnLine, if_true, Option.map_some]
  rfl

theorem startFrame_of_queue {s : State} {n : HoleNotice} {rest : List HoleNotice} (hs : s.link.slot = none)
    (hq : s.link.queue = n :: rest) (hn : s.link.queueOnLine = false) :
    startFrame s = s.onLink fun l => { l with
      view := .frame, assembly := [], queueOnLine := true
      tx := some (buildFrame 2 s.cfg.station (encodeHole n)) } := by
  simp only [startFrame, State.onLink, chooseFrame, hs, hq, hn, LinkBlock.markOnLine, Bool.false_eq_true, if_false]
  rfl

/-! ### Events of a station that sends (09 R151 to R154) -/

theorem LinkBlock.sending_of {l : LinkBlock} {f : LinkFrame} (hv : l.view = .frame) (ht : l.tx = some f) :
    l.sending = some f := by simp only [LinkBlock.sending, hv, if_true, ht]

theorem LinkBlock.sending_none {l : LinkBlock} (h : l.view ≠ .frame ∨ l.tx = none) : l.sending = none := by
  unfold LinkBlock.sending
  split_ifs with hv
  · exact h.resolve_left (not_not_intro hv)
  · rfl

theorem LinkBlock.sendsBit_iff (l : LinkBlock) (f : LinkFrame) (bit : Nat) (level : Bool) :
    l.sendsBit f bit level = true ↔ l.assembly.length ≤ bit ∧ (frameBits f)[bit]? = some level := by
  simp [LinkBlock.sendsBit]

/-- The events of a sender are none for a station that sends nothing (log 14). -/
theorem exec_senderEvent_silent {s : State} (hheld : s.resetHeld = false) (h : s.link.view ≠ .frame ∨ s.link.tx = none) :
    exec .frameSent s = .next s ∧ (∀ bit, exec (.arbitrationLost bit) s = .next s)
      ∧ (∀ bit, exec (.transmitFault bit) s = .next s) ∧ (∀ bit, exec (.duplicateOverridden bit) s = .next s) := by
  have hn := LinkBlock.sending_none h
  refine ⟨?_, fun bit => ?_, fun bit => ?_, fun bit => ?_⟩ <;> refine (unlessHeld_of_awake hheld).trans ?_ <;> rw [hn]
  rfl

section Sender

variable {s : State} {f : LinkFrame} (hheld : s.resetHeld = false) (hv : s.link.view = .frame) (ht : s.link.tx = some f)
include hheld hv ht

theorem exec_frameSent : exec .frameSent s = .next (endSent s) := by
  refine (unlessHeld_of_awake hheld).trans ?_
  rw [LinkBlock.sending_of hv ht]
  rfl

theorem exec_arbitrationLost (bit : Nat) : exec (.arbitrationLost bit) s =
    .next (if 1 ≤ bit ∧ bit ≤ 6 ∧ s.link.sendsBit f bit true then overridden f bit s else s) := by
  refine (unlessHeld_of_awake hheld).trans ?_
  rw [LinkBlock.sending_of hv ht]

theorem exec_transmitFault (bit : Nat) :
    exec (.transmitFault bit) s = .next (if s.link.sendsBit f bit false then faultTransmit s else s) := by
  refine (unlessHeld_of_awake hheld).trans ?_
  rw [LinkBlock.sending_of hv ht]

theorem exec_duplicateOverridden (bit : Nat) : exec (.duplicateOverridden bit) s =
    .next (if 7 ≤ bit ∧ s.link.sendsBit f bit true then overridden f bit s else s) := by
  refine (unlessHeld_of_awake hheld).trans ?_
  rw [LinkBlock.sending_of hv ht]

theorem exec_arbitrationLost_none {bit : Nat}
    (h : bit < 1 ∨ 6 < bit ∨ bit < s.link.assembly.length ∨ (frameBits f)[bit]? ≠ some true) :
    exec (.arbitrationLost bit) s = .next s := by
  rw [exec_arbitrationLost hheld hv ht, if_neg]
  rw [LinkBlock.sendsBit_iff]
  rintro ⟨h1, h6, hle, hk⟩
  rcases h with h | h | h | h
  · omega
  · omega
  · omega
  · exact h hk

theorem exec_transmitFault_none {bit : Nat} (h : bit < s.link.assembly.length ∨ (frameBits f)[bit]? ≠ some false) :
    exec (.transmitFault bit) s = .next s := by
  rw [exec_transmitFault hheld hv ht, if_neg]
  rw [LinkBlock.sendsBit_iff]
  rintro ⟨hle, hk⟩
  rcases h with h | h
  · omega
  · exact h hk

theorem exec_duplicateOverridden_none {bit : Nat}
    (h : bit < 7 ∨ bit < s.link.assembly.length ∨ (frameBits f)[bit]? ≠ some true) :
    exec (.duplicateOverridden bit) s = .next s := by
  rw [exec_duplicateOverridden hheld hv ht, if_neg]
  rw [LinkBlock.sendsBit_iff]
  rintro ⟨h7, hle, hk⟩
  rcases h with h | h | h
  · omega
  · omega
  · exact h hk

end Sender

/-- Overridden in the kind or station field, the station only goes on as a receiver (09 R151). -/
theorem overridden_of_header (f : LinkFrame) {bit : Nat} (h : bit ≤ 6) (s : State) :
    overridden f bit s = s.onLink fun l => l.follow f bit := if_pos h

/-! ### A bit read otherwise than it was sent (09 R151, R152) -/

/-- What has been read back before the bit that was overridden is part of the own frame, and says nothing more. -/
theorem overridden_of_assembly (f : LinkFrame) (bit : Nat) (s : State) (read : List Bool) :
    overridden f bit (s.onLink fun l => { l with assembly := read }) = overridden f bit s := rfl

/-- A bit of a frame, after those read and those that follow them. -/
theorem getElem?_frameBits {f : LinkFrame} {read front rest : List Bool} {level : Bool}
    (h : read ++ (front ++ level :: rest) = frameBits f) : (frameBits f)[read.length + front.length]? = some level := by
  rw [← h, ← List.append_assoc, ← List.length_append]
  simp

section ReadBack

variable {s : State} {f : LinkFrame} (hv : s.link.view = .frame) (ht : s.link.tx = some f)
include hv ht

/-- The first bit that differs from the one sent is a transmit fault where that one was dominant, and an override where it was
recessive. -/
theorem foldl_takeBit_differs {front rest : List Bool} {level : Bool}
    (h : s.link.assembly ++ (front ++ level :: rest) = frameBits f) :
    (front ++ [!level]).foldl takeBit s =
      if level then overridden f (s.link.assembly.length + front.length) s else faultTransmit s := by
  have hk := getElem?_frameBits h
  rw [List.foldl_append, foldl_takeBit_matching front hv ht h (List.cons_ne_nil _ _), List.foldl_cons, List.foldl_nil,
    takeBit_of_view (by simp [hv])]
  simp only [readLine, State.onLink_link, hv, ht, readBack, List.length_append, hk]
  cases level
  · rfl
  · exact overridden_of_assembly f _ s _

/-- The event of the bit that differs, by its place and level, does what that bit period does. -/
theorem exec_mismatch (hheld : s.resetHeld = false) {k : Nat} {level : Bool} (hle : s.link.assembly.length ≤ k)
    (hk : (frameBits f)[k]? = some level) :
    exec (if level = false then .transmitFault k else if k ≤ 6 then .arbitrationLost k else .duplicateOverridden k) s =
      .next (if level then overridden f k s else faultTransmit s) := by
  have hsends := (s.link.sendsBit_iff f k level).2 ⟨hle, hk⟩
  cases level with
  | false =>
    rw [if_pos rfl, exec_transmitFault hheld hv ht, if_pos hsends]
    rfl
  | true =>
    have hpos : 1 ≤ k := by
      refine Nat.one_le_iff_ne_zero.2 fun h0 => ?_
      rw [h0, getElem?_frameBits_zero] at hk
      cases hk
    rw [if_neg (by simp)]
    by_cases h6 : k ≤ 6
    · rw [if_pos h6, exec_arbitrationLost hheld hv ht, if_pos ⟨hpos, h6, hsends⟩]
      rfl
    · rw [if_neg h6, exec_duplicateOverridden hheld hv ht, if_pos ⟨by omega, hsends⟩]
      rfl

end ReadBack

/-- Settles O51: a start is R149's test on the recessive count reached, and a sender's bit periods are those read as sent up to
the one that decides. -/
theorem ownFramesAreSentOrWait : Obligations.OwnFramesAreSentOrWait := by
  intro s
  refine ⟨⟨fun ht => ?_, fun f ht ha => s.ltx_of_lead ht ha, fun f level ht hb => s.ltx_of_sending ht hb⟩, fun hheld =>
    ⟨unlessHeld_of_awake hheld, fun recessive count need hcount hneed => ?_, exec_senderEvent_silent hheld,
      fun f hv ht => ?_⟩⟩
  · rw [State.ltx_of_silent ht, Bool.not_eq_false', LinkBlock.starts_iff, LinkBlock.startCount_le_iff,
      LinkBlock.hasNotice_iff, and_assoc]
  · obtain rfl : need = s.link.startCount := hneed
    subst hcount
    refine ⟨exec_frameStart_none hheld, fun hv hle hm => ?_⟩
    have hexec := exec_frameStart_starts hheld hv hle hm
    refine ⟨fun d hd => ?_, fun n rest hs hq hoff => ?_, fun hnotice hreach bits hbits => ?_⟩
    · rw [hexec (s.link.hasNotice_iff.2 (.inl (by simp [hd]))), awaited_of_reached hle, startFrame_of_slot (by exact hd)]
      rfl
    · rw [hexec (s.link.hasNotice_iff.2 (.inr ⟨by simp [hq], hoff⟩)), awaited_of_reached hle,
        startFrame_of_queue (by exact hs) (by exact hq) (by exact hoff)]
      rfl
    · have hn := s.link.hasNotice_iff.2 hnotice
      have hfold := foldl_takeBit_awaits_starts hv hm hn hreach hbits
      have hheld' : (startFrame (awaited recessive s)).resetHeld = false := hheld
      obtain ⟨hview, hltx⟩ := startFrame_leads (s := awaited recessive s) hn
      refine ⟨_, hexec hn, hview, hltx, ?_, ?_⟩
      · rw [exec_demandFrameReceived hheld, exec_demandFrameReceived hheld', hfold]
      · rw [exec_holeFrameReceived hheld, exec_holeFrameReceived hheld', hfold]
  · refine ⟨exec_frameSent hheld hv ht, fun bit h1 h6 hle hk => ?_, fun bit => exec_arbitrationLost_none hheld hv ht,
      fun bit hle hk => ?_, fun bit => exec_transmitFault_none hheld hv ht,
      fun bit => exec_duplicateOverridden_none hheld hv ht, fun bits hbits => ⟨fun h => ?_, fun level rest h hlast => ?_, ?_⟩⟩
    · rw [exec_arbitrationLost hheld hv ht, if_pos ⟨h1, h6, (s.link.sendsBit_iff f bit true).2 ⟨hle, hk⟩⟩,
        overridden_of_header f h6]
      rfl
    · rw [exec_transmitFault hheld hv ht, if_pos ((s.link.sendsBit_iff f bit false).2 ⟨hle, hk⟩)]
      rfl
    · rw [exec_demandFrameReceived hheld, foldl_takeBit_sent hv ht hbits h, exec_frameSent hheld hv ht]
    · have hsplit : bits = bits.dropLast ++ [!level] := by
        rw [← List.dropLast_append_getLast? _ hlast]
        simp
      rw [exec_demandFrameReceived hheld,
        exec_mismatch hv ht hheld (Nat.le_add_right _ _) (getElem?_frameBits h), ← foldl_takeBit_differs hv ht h, ← hsplit]
    · rw [exec_holeFrameReceived hheld, exec_demandFrameReceived hheld]

end Sys2Proof.Machine

/-! PROOFS. O52: a duplicate station found, and MUTE (09 R143, R151, R154 to R156, 01 R20). -/

namespace Sys2Proof.Machine

/-! ### MUTE set in one event (09 R155, 01 R20) -/

/-- The link controller's part of R155: nothing is sent or held, MUTE is set, and DUPLICATE is queued. -/
def silenced (cause : MuteCause) (s : State) : State :=
  queueFault .duplicate
    (s.onLink fun l => { l with tx := none, slot := none, queue := [], queueOnLine := false, mute := some cause })

theorem muteStation_of_muted (cause : MuteCause) {s : State} (h : s.muted = true) : muteStation cause s = s := if_pos h

theorem muteStation_of_unmuted (cause : MuteCause) {s : State} (h : s.muted = false) :
    muteStation cause s = muteCycle (silenced cause s) := if_neg (by simp [h])

/-- The phases that MUTE suspends (01 R20). -/
def MuteSuspends (s : State) (p : Phase) : Prop :=
  p = .collar ∨ p = .drill ∨ p = .retract ∨ (p = .insert ∧ s.resin.stroke ≠ .inProgress)

/-- The phases that go on under MUTE (01 R20). -/
def MuteSpares (s : State) (p : Phase) : Prop :=
  p = .mix ∨ p = .hold ∨ p = .torque ∨ (p = .insert ∧ s.resin.stroke = .inProgress)

theorem muteCycle_suspends {s : State} {p : Phase} (hp : s.cycle.state = .active p) (h : MuteSuspends s p) :
    muteCycle s = suspend .mute s := by
  rcases h with rfl | rfl | rfl | ⟨rfl, hstroke⟩
  · simp only [muteCycle, hp]
  · simp only [muteCycle, hp]
  · simp only [muteCycle, hp]
  · simp only [muteCycle, hp, hstroke, if_false]

theorem muteCycle_spares {s : State} (h : ∀ p, s.cycle.state = .active p → MuteSpares s p) : muteCycle s = s := by
  cases hc : s.cycle.state with
  | active p =>
    rcases h p hc with rfl | rfl | rfl | ⟨rfl, hstroke⟩
    · simp only [muteCycle, hc]
    · simp only [muteCycle, hc]
    · simp only [muteCycle, hc]
    · simp only [muteCycle, hc, hstroke, if_true]
  | _ => simp only [muteCycle, hc]

/-- An event of a muted station places no notice (08 R139). -/
theorem event_link_of_muted (old : State) {w : State} (h : w.muted = true) : (event old w).link = w.link := by
  have hmuted : (settle w).muted = true := by simpa [State.muted] using h
  simp [event, finish, placeDemandIf, mayPlace, hmuted]

/-- Where no stroke is ready, the end of an event changes of the resin block the stroke timer alone. -/
theorem event_resin_of_not_ready (old : State) {w : State} (h : strokeReady w = false) :
    (event old w).resin = { w.resin with
      strokeTimer := w.resin.strokeTimer.sync (phaseRuns (event old w) .insert && w.resin.stroke == .inProgress) w.now } := by
  have hdue : strokeDue (syncTimers (setHeld (actInterlock (recomputeAllowance (setNearVoid w))))) = false := by
    rw [strokeDue_sync, h, Bool.and_false]
  rw [event_resin, event_phaseRuns, ← phaseRuns_setHeld, settle, startStroke_of_not_due hdue]
  rfl

/-- A stroke in progress goes on through an event that changes nothing the interlock reads (06 R88, 08 R131). -/
theorem event_resin_of_stroke (old : State) {s w : State} (flow : FlowSound s) (timers : TimersSound s)
    (hs : s.resin.stroke = .inProgress) (hr : w.resin = s.resin) (hc : w.cycle = s.cycle)
    (hh : w.host.config = s.host.config) (hf : w.flow = s.flow) (hp : w.canopySet = s.canopySet) :
    (event old w).resin = s.resin := by
  have hruns : phaseRuns (event old w) .insert = phaseRuns s .insert :=
    phaseRuns_congr (by rw [event_cycle_state, hc]) (event_held_of_flowSound old s w flow (by rw [hc]) hh hf hp) _
  rw [event_resin_of_not_ready old (by simp [strokeReady, hr, hs]), hruns, hr, Timer.sync_of_follows timers.stroke]

/-! ### What a finding leaves (09 R154, R155) -/

/-- What the finding of a duplicate leaves, but for the bits of the line: a muted station is as it was, and another one is
muted, with its notices lost, DUPLICATE queued and the cycle as 01 R20 has it. -/
structure DuplicateFound (s : State) (cause : MuteCause) (t : State) : Prop where
  peers : t.flow.peers = s.flow.peers
  entries : t.neighbours.entries = s.neighbours.entries
  holeDropped : t.link.holeDropped = s.link.holeDropped
  reply : t.host.reply = s.host.reply
  silent : t.link.tx = none
  muted : s.muted = true → t.link.mute = s.link.mute ∧ t.host.faults = s.host.faults ∧ t.history = s.history
    ∧ t.cycle.state = s.cycle.state
  mutes : s.muted = false → t.link.mute = some cause ∧ t.link.slot = none ∧ t.link.queue = []
    ∧ t.host.faults = joinFault .duplicate s.host.faults
  suspends : s.muted = false → ∀ p, s.cycle.state = .active p → MuteSuspends s p → Suspended s p .mute t
  spares : s.muted = false → (∀ p, s.cycle.state = .active p → MuteSpares s p) →
    t.cycle.state = s.cycle.state ∧ t.history = s.history ∧ FlowFollows t
      ∧ (s.resin.stroke = .inProgress → t.resin = s.resin)

section Finding

variable {s : State} {line : LinkBlock → LinkBlock} (old : State) (cause : MuteCause)

theorem duplicateFound_muted (hmute : (line s.link).mute = s.link.mute)
    (hdropped : (line s.link).holeDropped = s.link.holeDropped) (htx : (line s.link).tx = none) (hm : s.muted = true) :
    DuplicateFound s cause (event old (muteStation cause (s.onLink line))) := by
  have hw : (s.onLink line).muted = true := by simpa [State.muted, hmute] using hm
  have hne : ¬s.muted = false := by simp [hm]
  have hlink : (event old (s.onLink line)).link = line s.link := event_link_of_muted old hw
  rw [muteStation_of_muted cause hw]
  exact
    { peers := event_flow_peers _ _
      entries := event_neighbours_entries _ _
      holeDropped := by rw [hlink, hdropped]
      reply := event_host_reply _ _
      silent := by rw [hlink, htx]
      muted := fun _ => ⟨by rw [hlink, hmute], event_host_faults _ _, event_history _ _, event_cycle_state _ _⟩
      mutes := fun h => absurd h hne
      suspends := fun h => absurd h hne
      spares := fun h => absurd h hne }

theorem duplicateFound_unmuted (cycle : CycleSound s) (flow : FlowSound s) (timers : TimersSound s)
    (hmute : (line s.link).mute = s.link.mute) (hdropped : (line s.link).holeDropped = s.link.holeDropped)
    (hm : s.muted = false) : DuplicateFound s cause (event old (muteStation cause (s.onLink line))) := by
  have hw : (s.onLink line).muted = false := by simpa [State.muted, hmute] using hm
  have hlink : (event old (muteCycle (silenced cause (s.onLink line)))).link = (silenced cause (s.onLink line)).link := by
    rw [event_link_of_muted old (by simp [State.muted, silenced]), muteCycle_link]
  rw [muteStation_of_unmuted cause hw]
  exact
    { peers := by rw [event_flow_peers, muteCycle_flow]; rfl
      entries := by rw [event_neighbours_entries, muteCycle_neighbours]; rfl
      holeDropped := by rw [hlink, ← hdropped]; rfl
      reply := by rw [event_host_reply, muteCycle_host]; rfl
      silent := by rw [hlink]; rfl
      muted := fun h => by simp [hm] at h
      mutes := fun _ => ⟨by rw [hlink]; rfl, by rw [hlink]; rfl, by rw [hlink]; rfl, by
        rw [event_host_faults, muteCycle_host]; rfl⟩
      suspends := fun _ p hp h => by
        rw [muteCycle_suspends (s := silenced cause (s.onLink line)) hp h]
        exact (event_suspend old (silenced cause (s.onLink line)) p .mute hp (cycle.stroke_insert hp)).of_work rfl rfl rfl rfl
          rfl rfl rfl
      spares := fun _ h => by
        rw [muteCycle_spares (s := silenced cause (s.onLink line)) h]
        exact ⟨event_cycle_state _ _, event_history _ _, event_flowFollows _ _, fun hs =>
          event_resin_of_stroke old flow timers hs rfl rfl rfl rfl rfl⟩ }

/-- A finding by a station that sends nothing any more, whatever it has read of the line. -/
theorem duplicateFound (cycle : CycleSound s) (flow : FlowSound s) (timers : TimersSound s)
    (hmute : (line s.link).mute = s.link.mute) (hdropped : (line s.link).holeDropped = s.link.holeDropped)
    (htx : (line s.link).tx = none) : DuplicateFound s cause (event old (muteStation cause (s.onLink line))) := by
  cases hm : s.muted with
  | true => exact duplicateFound_muted old cause hmute hdropped htx hm
  | false => exact duplicateFound_unmuted old cause cycle flow timers hmute hdropped hm

end Finding

/-- The figures and items of the other blocks do not read the line. -/
theorem FlowFollows.onLink {t : State} (h : FlowFollows t) (line : LinkBlock → LinkBlock) : FlowFollows (t.onLink line) :=
  ⟨h.allowance, h.flowCut, h.flowReq, h.held, h.setpoints⟩

theorem Suspended.onLink {s t : State} {p : Phase} {cause : Cause} (h : Suspended s p cause t)
    (line : LinkBlock → LinkBlock) : Suspended s p cause (t.onLink line) :=
  ⟨h.state, h.remembered, ⟨h.rest.setpoints, h.rest.flowReq, h.rest.stroke, h.rest.held⟩, h.demand, h.paused, h.gel,
    h.torqueNear, h.nearVoid, h.stroke, h.records⟩

/-- The end of the frame that the station follows changes nothing of what the finding has left. -/
theorem DuplicateFound.endReceived {s t : State} {cause : MuteCause} (h : DuplicateFound s cause t) (good : Bool) :
    DuplicateFound s cause (t.onLink fun l => l.endReceived good) :=
  ⟨h.peers, h.entries, h.holeDropped, h.reply, h.silent, h.muted, h.mutes, fun hm p hp hs => (h.suspends hm p hp hs).onLink _,
    fun hm hs => by
      obtain ⟨hstate, hhistory, hflow, hresin⟩ := h.spares hm hs
      exact ⟨hstate, hhistory, hflow.onLink _, hresin⟩⟩

/-! ### The frame that overrode the own one (09 R143, R151) -/

/-- Sixteen bits with the last one cleared. -/
theorem bitsOf_clearLast (x : BitVec 16) : bitsOf (x &&& 0xFFFE#16) = (bitsOf x).dropLast ++ [false] := by
  have hmask : ∀ i, i < 15 → (0xFFFE#16).getMsbD i = true := by decide
  have hfront : (List.range 15).map (x &&& 0xFFFE#16).getMsbD = (List.range 15).map x.getMsbD :=
    List.map_congr_left fun i hi => by rw [BitVec.getMsbD_and, hmask i (List.mem_range.1 hi), Bool.and_true]
  have hlast : (x &&& 0xFFFE#16).getMsbD 15 = false := by rw [BitVec.getMsbD_and, Bool.and_eq_false_iff]; right; decide
  simp only [bitsOf, List.range_succ (n := 15), List.map_append, List.map_singleton, hfront, hlast, List.dropLast_concat]

/-- A good frame overridden at its last bit is read as a frame with a bad CRC (09 R143). -/
theorem overriddenAtLast_bad {f : LinkFrame} {bit : Nat} (hf : f.payload.length < 64) (hgood : crcGood f = true)
    (hbit : (frameBits f)[bit]? = some true) (hlast : bit + 1 = (frameBits f).length) :
    ∃ g : LinkFrame, g.payload.length < 64 ∧ crcGood g = false ∧ (frameBits f).take bit ++ [false] = frameBits g := by
  have hbits : (frameBits f).take bit ++ [false] = frameBits { f with crc := f.crc &&& 0xFFFE#16 } := by
    have hdrop : (frameBits f).take bit = (frameBits f).dropLast := by
      rw [List.dropLast_eq_take, ← hlast, Nat.add_sub_cancel]
    rw [hdrop, frameBits, frameBits, bitsOf_clearLast, ← List.cons_append, ← List.cons_append, List.dropLast_append_of_ne_nil,
      List.append_assoc]
    exact List.ne_nil_of_length_pos (by rw [length_bitsOf]; omega)
  refine ⟨{ f with crc := f.crc &&& 0xFFFE#16 }, hf, Bool.eq_false_iff.2 fun hc => ?_, hbits⟩
  have hcrc : f.crc &&& 0xFFFE#16 = f.crc := (eq_of_beq hc).symm.trans (eq_of_beq hgood)
  rw [hcrc] at hbits
  have hlen : ((frameBits f).take bit).length = bit := by rw [List.length_take]; omega
  rw [← hbits, List.getElem?_append_right (by omega), hlen, Nat.sub_self] at hbit
  cases hbit

/-- What follows the 13th bit says nothing of the length (09 R143). -/
theorem lengthRead_append {read : List Bool} (h : 13 ≤ read.length) (more : List Bool) :
    lengthRead (read ++ more) = lengthRead read := by
  simp only [lengthRead, bitField]
  rw [List.drop_append_of_le_length (by omega), List.take_append_of_le_length (by rw [List.length_drop]; omega)]

/-- Overridden short of its last bit, the frame is not whole: either its length has not been read, or it is the own frame's. -/
theorem overridden_not_whole {f : LinkFrame} {bit : Nat} (hf : f.payload.length < 64) (hlt : bit + 1 < (frameBits f).length) :
    frameWhole ((frameBits f).take bit ++ [false]) = false := by
  have htotal := length_frameBits f
  have hlen : ((frameBits f).take bit).length = bit := by rw [List.length_take]; omega
  rw [Bool.eq_false_iff]
  intro hw
  simp only [frameWhole, Bool.and_eq_true, decide_eq_true_eq, beq_iff_eq, List.length_append, hlen,
    List.length_singleton] at hw
  obtain ⟨-, hwhole⟩ := hw
  by_cases h13 : 13 ≤ bit
  · rw [lengthRead_append (by omega), lengthRead_prefix hf (List.take_append_drop bit _) (by omega)] at hwhole
    omega
  · omega

/-- A receiver short of the last bit of its frame. -/
theorem endFrame_short {s : State} (h : frameWhole s.link.assembly = false) : endFrame s = s := by
  simp only [endFrame, h, Bool.false_eq_true, if_false]

/-- A station that sends nothing leaves LTX recessive outside a GAP, and in one that has just begun. -/
theorem ltx_recessive {t : State} (ht : t.link.tx = none) (h : t.link.view ≠ .gap ∨ t.link.recessive = 0) : t.ltx = true := by
  rw [State.ltx_of_silent ht, Bool.not_eq_true', Bool.eq_false_iff, Ne, LinkBlock.starts_iff, LinkBlock.startCount_le_iff]
  rintro ⟨hview, ⟨hcount, -⟩, -⟩
  rcases h with h | h
  · exact h hview
  · omega

/-! ### The two findings (09 R154) -/

section Findings

variable {s : State} {f : LinkFrame}

/-- The own frame is overridden in its length, payload or CRC field. -/
theorem overridden_finds {bit : Nat} (cycle : CycleSound s) (flow : FlowSound s) (timers : TimersSound s) (line : LinkSound s)
    (hv : s.link.view = .frame) (ht : s.link.tx = some f) (h7 : 7 ≤ bit) (hbit : (frameBits f)[bit]? = some true) :
    let t := overridden f bit s
    DuplicateFound s .overridden t ∧ t.ltx = true
      ∧ (bit + 1 = (frameBits f).length → t.link.view = .seeking ∧ t.link.assembly = [])
      ∧ (bit + 1 ≠ (frameBits f).length → t.link.view = .frame ∧ t.link.assembly = (frameBits f).take bit ++ [false]) := by
  intro t
  obtain ⟨hp, hgood, -, -⟩ := line.readBack f ht
  have hf : f.payload.length < 64 := by omega
  let u := event s (muteStation .overridden (s.onLink fun l => l.follow f bit))
  have htu : t = endFrame u := if_neg (by omega)
  have hfound : DuplicateFound s .overridden u := duplicateFound s .overridden cycle flow timers rfl rfl rfl
  have hview : u.link.view = .frame := by rw [event_link_view, muteStation_link_view]; exact hv
  have hread : u.link.assembly = (frameBits f).take bit ++ [false] := by
    rw [event_link_assembly, muteStation_link_assembly]
    rfl
  have hlt : bit < (frameBits f).length := (List.getElem?_eq_some_iff.1 hbit).1
  by_cases hlast : bit + 1 = (frameBits f).length
  · obtain ⟨g, hg, hbad, hbits⟩ := overriddenAtLast_bad hf hgood hbit hlast
    have hend : t = u.onLink fun l => l.endReceived false := by
      rw [htu, endFrame_whole hg (hread.trans hbits), hbad]
      rfl
    have hfound' := hfound.endReceived false
    rw [← hend] at hfound'
    have hseek : t.link.view = .seeking := by rw [hend]; rfl
    exact ⟨hfound', ltx_recessive hfound'.silent (.inl (by simp [hseek])), fun _ => ⟨hseek, by rw [hend]; rfl⟩, absurd hlast⟩
  · have hend : t = u := htu.trans (endFrame_short (by rw [hread]; exact overridden_not_whole hf (by omega)))
    rw [hend]
    exact ⟨hfound, ltx_recessive hfound.silent (.inl (by simp [hview])), fun h => absurd h hlast, fun _ => ⟨hview, hread⟩⟩

/-- A good frame with the own number is no table's (09 R148). -/
theorem routeFrame_own (hown : f.station.toNat = s.cfg.station)
    (hk : (f.kind = 1 ∧ (decodeDemand f.payload).isSome = true)
      ∨ (f.kind = 2 ∧ (decodeHole f.station.toNat f.payload).isSome = true)) :
    routeFrame f s = event s (muteStation .heard s) := by
  have h21 : (2 : BitVec 3) ≠ 1 := by decide
  have hown' : f.station.toNat = ownStation s := hown
  rcases hk with ⟨hk, hd⟩ | ⟨hk, hd⟩
  · obtain ⟨n, hd⟩ := Option.isSome_iff_exists.1 hd
    simp only [routeFrame, demandKind, hk, if_true, hd]
    exact if_pos hown'
  · obtain ⟨n, hd⟩ := Option.isSome_iff_exists.1 hd
    simp only [routeFrame, demandKind, holeKind, hk, h21, if_false, if_true, hd]
    exact if_pos hown'

/-- A good frame with the own number has been heard. -/
theorem heard_finds (cycle : CycleSound s) (flow : FlowSound s) (timers : TimersSound s) (ht : s.link.tx = none) :
    let t := event (frameEnded s) (muteStation .heard (frameEnded s))
    DuplicateFound s .heard t ∧ t.ltx = true ∧ t.link.view = .gap ∧ t.link.assembly = [] := by
  intro t
  have hfound : DuplicateFound s .heard t := duplicateFound (frameEnded s) .heard cycle flow timers rfl rfl ht
  have hcount : t.link.recessive = 0 := by rw [event_link_recessive, muteStation_link_recessive]; rfl
  refine ⟨hfound, ltx_recessive hfound.silent (.inr hcount), ?_, ?_⟩
  · rw [event_link_view, muteStation_link_view]
    rfl
  · rw [event_link_assembly, muteStation_link_assembly]
    rfl

end Findings

/-- Settles O52: each finding is MUTE set in the state that the bits read have left (09 R154, R155). -/
theorem duplicateMutesTheStation : Obligations.DuplicateMutesTheStation := by
  intro c f bit bits cause s hheld cycle flow timers line hcase
  rcases hcase with ⟨rfl, rfl, hv, ht, h7, hle, hbit⟩ | ⟨hcmd, rfl, hb, hgood, hl, hown, hst, hk⟩
  · obtain ⟨hfound, hltx, hlast, hshort⟩ := overridden_finds cycle flow timers line hv ht h7 hbit
    have hexec : exec (.duplicateOverridden bit) s = .next (overridden f bit s) := by
      rw [exec_duplicateOverridden hheld hv ht, if_pos ⟨h7, (s.link.sendsBit_iff f bit true).2 ⟨hle, hbit⟩⟩]
    exact ⟨_, hexec, hfound.peers, hfound.entries, hfound.holeDropped, hfound.reply, hfound.silent, hltx, nofun,
      fun _ => hlast, fun _ => hshort, hfound.muted, fun hm => by
        obtain ⟨hmute, hslot, hqueue, hfaults⟩ := hfound.mutes hm
        exact ⟨hmute, hslot, hqueue, hfaults, hfound.suspends hm, hfound.spares hm⟩⟩
  · obtain ⟨hfound, hltx, hgap⟩ := heard_finds cycle flow timers hb.2.1
    have hexec : exec c s = .next (event (frameEnded s) (muteStation .heard (frameEnded s))) := by
      rw [exec_goodFrame (by simpa using hcmd) hheld hb hgood hl (by omega), routeFrame_own (by exact hown) hk]
    exact ⟨_, hexec, hfound.peers, hfound.entries, hfound.holeDropped, hfound.reply, hfound.silent, hltx, fun _ => hgap,
      nofun, nofun, hfound.muted, fun hm => by
        obtain ⟨hmute, hslot, hqueue, hfaults⟩ := hfound.mutes hm
        exact ⟨hmute, hslot, hqueue, hfaults, hfound.suspends hm, hfound.spares hm⟩⟩

end Sys2Proof.Machine

/-! PROOFS. The ring of the hole history under numbers, writes into the OPEN record and a finish (10 R162 to R171). -/

namespace Sys2Proof.Machine

/-! ### The record of a number (10 R170, R171) -/

theorem present_of_head {h : HistoryBlock} {first : HoleRecord} (hf : h.records.head? = some first) (n : HoleNo) :
    h.present n = h.records[(n - first.number).toNat]? := by
  simp [HistoryBlock.present, HistoryBlock.oldest, hf]

/-- The numbers of the ring count on from the oldest one. -/
theorem NumbersSound.number_eq {s : State} (h : NumbersSound s) {first r : HoleRecord} {i : Nat}
    (hf : s.history.records.head? = some first) (hr : s.history.records[i]? = some r) :
    r.number = first.number + BitVec.ofNat 16 i := by
  obtain ⟨n, hn, h0⟩ := h 0 first (by rwa [← List.head?_eq_getElem?])
  obtain ⟨m, hm, hi⟩ := h i r hr
  obtain rfl : n = m := Option.some.inj (hn.symm.trans hm)
  have hlt : i < s.history.records.length := (List.getElem?_eq_some_iff.1 hr).1
  have hsplit : s.history.records.length - 1 - 0 = i + (s.history.records.length - 1 - i) := by omega
  rw [hsplit, BitVec.ofNat_add, ← BitVec.add_assoc, ← hi] at h0
  exact (BitVec.add_left_inj _).1 h0.symm

/-- A present number names the one record that carries it (10 R171). -/
theorem NumbersSound.present_iff {s : State} (h : NumbersSound s) (hl : s.history.records.length ≤ 16) {n : HoleNo}
    {r : HoleRecord} : s.history.present n = some r ↔ r ∈ s.history.records ∧ r.number = n := by
  constructor
  · intro hp
    cases hf : s.history.records.head? with
    | none => simp [HistoryBlock.present, HistoryBlock.oldest, hf] at hp
    | some first =>
      rw [present_of_head hf] at hp
      refine ⟨List.mem_of_getElem? hp, ?_⟩
      rw [h.number_eq hf hp, BitVec.ofNat_toNat, BitVec.setWidth_eq, BitVec.add_comm, BitVec.sub_add_cancel]
  · rintro ⟨hr, rfl⟩
    obtain ⟨i, hi⟩ := List.getElem?_of_mem hr
    have hlt : i < s.history.records.length := (List.getElem?_eq_some_iff.1 hi).1
    obtain ⟨first, hf⟩ : ∃ first, s.history.records.head? = some first := by
      cases hs : s.history.records with
      | nil => simp [hs] at hr
      | cons first rest => exact ⟨first, rfl⟩
    rw [present_of_head hf, h.number_eq hf hi, BitVec.add_comm, BitVec.add_sub_cancel, BitVec.toNat_ofNat,
      Nat.mod_eq_of_lt (by omega), hi]

/-- The window by the records themselves: the selected number stands in the ring, with the pointer within its cells. -/
theorem windowSound_iff {s : State} (h : NumbersSound s) (hl : s.history.records.length ≤ 16) : WindowSound s ↔
    ∀ n, s.history.selection = .hole n → ∃ r ∈ s.history.records, r.number = n ∧ s.history.pointer ≤ r.cells.length := by
  simp only [WindowSound, h.present_iff hl, and_assoc, and_self_left]

/-! ### The ring rewritten record by record -/

/-- `g` leaves a record's number and its planned cells, never opens it again, and only adds cells, up to the planned ones. -/
structure Rewrites (g : HoleRecord → HoleRecord) : Prop where
  number : ∀ r, (g r).number = r.number
  planned : ∀ r, (g r).planned = r.planned
  isOpen : ∀ r, (g r).isOpen = true → r.isOpen = true
  grows : ∀ r, r.cells.length ≤ (g r).cells.length
  fits : ∀ r, r.cells.length ≤ r.planned → (g r).cells.length ≤ r.planned

section Rewritten

variable {s t : State} {g : HoleRecord → HoleRecord} (hg : Rewrites g)
  (hr : t.history.records = s.history.records.map g)
include hg hr

theorem NumbersSound.rewrite (h : NumbersSound s) (hn : t.cycle.holeNumber = s.cycle.holeNumber) : NumbersSound t := by
  intro i q hq
  rw [hr, List.getElem?_map, Option.map_eq_some_iff] at hq
  obtain ⟨r, hi, rfl⟩ := hq
  simpa only [hr, List.length_map, hn, hg.number] using h i r hi

theorem WindowSound.rewrite (h : WindowSound s) (hs : t.history.selection = s.history.selection)
    (hp : t.history.pointer = s.history.pointer) : WindowSound t := by
  intro n hn
  obtain ⟨r, hpres, hnum, hle⟩ := h n (hs ▸ hn)
  have hmap : t.history.present n = (s.history.present n).map g := by
    simp only [HistoryBlock.present, HistoryBlock.oldest, hr, List.head?_map, Option.map_map, Function.comp_def, hg.number]
    cases s.history.records.head? <;> simp
  exact ⟨g r, by rw [hmap, hpres, Option.map_some], (hg.number r).trans hnum, hp ▸ hle.trans (hg.grows r)⟩

theorem HistorySound.rewrite (h : HistorySound s)
    (hpool : t.history.free + reservedSum t.history.records = s.history.free + reservedSum s.history.records)
    (hi : t.cycle.state.hasHole = false → ∀ r ∈ t.history.records, r.isOpen = false) : HistorySound t where
  pool := hpool.trans h.pool
  ring := by rw [hr, List.length_map]; exact h.ring
  cells := by
    rw [hr, List.forall_mem_map]
    intro r hm
    obtain ⟨hc, hp⟩ := h.cells r hm
    rw [hg.planned]
    exact ⟨hg.fits r hc, hp⟩
  newest := by
    rw [hr, ← List.map_dropLast, List.forall_mem_map]
    intro r hm
    have hclosed := h.newest r hm
    by_contra ho
    simp [hg.isOpen r (by simpa using ho)] at hclosed
  inProgress := hi

end Rewritten

/-! ### A write into the OPEN record (10 R164) -/

/-- A write into the OPEN record that leaves its number, its planned cells and its verdict, and may append cells within the
planned ones. -/
structure OpenWrite (f : HoleRecord → HoleRecord) : Prop where
  number : ∀ r, (f r).number = r.number
  planned : ∀ r, (f r).planned = r.planned
  verdict : ∀ r, (f r).verdict = r.verdict
  grows : ∀ r, r.cells.length ≤ (f r).cells.length
  fits : ∀ r, r.cells.length ≤ r.planned → (f r).cells.length ≤ r.planned

/-- The number, the planned cells, the verdict and the cells of `r` stand in `q`. -/
structure SameCells (r q : HoleRecord) : Prop where
  number : q.number = r.number
  planned : q.planned = r.planned
  verdict : q.verdict = r.verdict
  cells : q.cells = r.cells

/-- A write that leaves the cells. -/
theorem OpenWrite.of_sameCells {f : HoleRecord → HoleRecord} (h : ∀ r, SameCells r (f r)) : OpenWrite f where
  number := fun r => (h r).number
  planned := fun r => (h r).planned
  verdict := fun r => (h r).verdict
  grows := fun r => by rw [(h r).cells]
  fits := fun r hr => by rwa [(h r).cells]

theorem OpenWrite.id : OpenWrite fun r => r := .of_sameCells fun _ => ⟨rfl, rfl, rfl, rfl⟩

theorem OpenWrite.comp {f g : HoleRecord → HoleRecord} (hg : OpenWrite g) (hf : OpenWrite f) : OpenWrite fun r => g (f r) where
  number := fun r => (hg.number _).trans (hf.number r)
  planned := fun r => (hg.planned _).trans (hf.planned r)
  verdict := fun r => (hg.verdict _).trans (hf.verdict r)
  grows := fun r => (hf.grows r).trans (hg.grows _)
  fits := fun r hr => by
    rw [← hf.planned r]
    exact hg.fits _ (by rw [hf.planned]; exact hf.fits r hr)

theorem openWrite_append (c : CellRecord) : OpenWrite fun r => r.append c := by
  have h : ∀ r : HoleRecord, r.append c = r ∨
      r.cells.length < r.planned ∧ r.append c = { r with cells := r.cells ++ [c] } := by
    intro r
    unfold HoleRecord.append
    split_ifs with hl
    · exact .inr ⟨hl, rfl⟩
    · exact .inl rfl
  constructor <;> intro r <;> rcases h r with h | ⟨hl, h⟩ <;> simp only [h]
  case grows.inr => simp
  case fits.inl => exact fun hr => hr
  case fits.inr => simpa using fun _ => hl
  exact le_rfl

theorem openWrite_appendAll (cells : List CellRecord) : OpenWrite fun r => cells.foldl HoleRecord.append r := by
  induction cells with
  | nil => exact .id
  | cons c cells ih => exact ih.comp (openWrite_append c)

theorem OpenWrite.isOpen {f : HoleRecord → HoleRecord} (hf : OpenWrite f) (r : HoleRecord) : (f r).isOpen = r.isOpen := by
  simp only [HoleRecord.isOpen, hf.verdict]

theorem OpenWrite.rewrites {f : HoleRecord → HoleRecord} (hf : OpenWrite f) :
    Rewrites fun r => if r.isOpen then f r else r := by
  constructor <;> intro r <;> by_cases ho : r.isOpen = true <;> simp only [ho, if_true, if_false, Bool.false_eq_true]
  · exact hf.number r
  · exact hf.planned r
  · simp
  · simp
  · exact hf.grows r
  · exact le_rfl
  · exact hf.fits r
  · exact fun h => h

/-- Each record keeps its reserved count: the OPEN one by its planned cells, the others untouched (10 R162). -/
theorem OpenWrite.reservedSum_onOpen {f : HoleRecord → HoleRecord} (hf : OpenWrite f) (records : List HoleRecord) :
    reservedSum (onOpen f records) = reservedSum records := by
  simp only [reservedSum, onOpen, List.map_map]
  congr 1
  refine List.map_congr_left fun r _ => ?_
  by_cases ho : r.isOpen = true <;> simp [HoleRecord.reserved, ho, hf.isOpen, hf.planned]

/-- The OPEN record after a write is the record written. -/
theorem OpenWrite.openRecord {f : HoleRecord → HoleRecord} (hf : OpenWrite f) {s t : State}
    (hr : t.history.records = onOpen f s.history.records) : t.openRecord = s.openRecord.map f := by
  have hp : (HoleRecord.isOpen ∘ fun r => if r.isOpen then f r else r) = HoleRecord.isOpen := by
    funext r
    by_cases ho : r.isOpen = true <;> simp [ho, hf.isOpen]
  rw [State.openRecord, State.openRecord, hr, onOpen, List.find?_map, hp]
  cases h : s.history.records.find? HoleRecord.isOpen with
  | none => rfl
  | some r => simp [List.find?_some h]

/-! ### The OPEN record finished (10 R167, R168) -/

/-- What a finish makes of each record. -/
def finishedRecord (v : Verdict) (cut : Bool) (r : HoleRecord) : HoleRecord :=
  if r.isOpen then { r with verdict := some v, flags := { r.flags with resetCut := r.flags.resetCut || cut } } else r

theorem finish_records (h : HistoryBlock) (v : Verdict) (cut : Bool) :
    (h.finish v cut).records = h.records.map (finishedRecord v cut) := rfl

theorem finishedRecord_isOpen (v : Verdict) (cut : Bool) (r : HoleRecord) : (finishedRecord v cut r).isOpen = false := by
  unfold finishedRecord
  split_ifs with ho
  · rfl
  · simpa using ho

theorem finishedRecord_rewrites (v : Verdict) (cut : Bool) : Rewrites (finishedRecord v cut) := by
  have hc : ∀ r, (finishedRecord v cut r).cells = r.cells := fun r => by unfold finishedRecord; split_ifs <;> rfl
  refine ⟨fun r => ?_, fun r => ?_, fun r h => ?_, fun r => by rw [hc], fun r h => by rwa [hc]⟩
  · unfold finishedRecord; split_ifs <;> rfl
  · unfold finishedRecord; split_ifs <;> rfl
  · simp [finishedRecord_isOpen] at h

/-- The reserved cells that no cell has taken go back to the pool (10 R167). -/
theorem finished_reservedSum (v : Verdict) (cut : Bool) {records : List HoleRecord}
    (h : ∀ r ∈ records, r.cells.length ≤ r.planned) :
    unusedCells records + reservedSum (records.map (finishedRecord v cut)) = reservedSum records := by
  induction records with
  | nil => rfl
  | cons r rest ih =>
    obtain ⟨hr, hrest⟩ := List.forall_mem_cons.1 h
    have hi := ih hrest
    simp only [unusedCells] at hi ⊢
    cases ho : r.isOpen <;>
      simp only [List.map_cons, reservedSum_cons, List.filter_cons, ho, if_true, if_false, Bool.false_eq_true, List.sum_cons,
        HoleRecord.reserved, finishedRecord_isOpen] <;>
      simp only [finishedRecord, ho, if_true, if_false, Bool.false_eq_true] <;> omega

theorem HistorySound.finish_pool {s : State} (h : HistorySound s) (v : Verdict) (cut : Bool) :
    (s.history.finish v cut).free + reservedSum (s.history.finish v cut).records
      = s.history.free + reservedSum s.history.records := by
  have hsum := finished_reservedSum v cut fun r hr => (h.cells r hr).1
  have hfree : (s.history.finish v cut).free = s.history.free + unusedCells s.history.records := rfl
  rw [finish_records, hfree]
  omega

end Sys2Proof.Machine

/-! PROOFS. O57: what the works of the cycle's events keep of the hole history and of the cell in assembly. -/

namespace Sys2Proof.Machine

/-! ### What is kept -/

/-- What is kept from `s` to `t`. -/
structure HistoryKeeps (s t : State) : Prop where
  history : HistorySound s → HistorySound t
  numbers : HistorySound s → NumbersSound s → NumbersSound t
  window : HistorySound s → NumbersSound s → WindowSound s → WindowSound t
  assembler : HistorySound s → AssemblerSound s → AssemblerSound t

theorem HistoryKeeps.refl (s : State) : HistoryKeeps s s := ⟨id, fun _ => id, fun _ _ => id, fun _ => id⟩

theorem HistoryKeeps.trans {s t u : State} (h : HistoryKeeps s t) (k : HistoryKeeps t u) : HistoryKeeps s u where
  history := fun hs => k.history (h.history hs)
  numbers := fun hs hn => k.numbers (h.history hs) (h.numbers hs hn)
  window := fun hs hn hw => k.window (h.history hs) (h.numbers hs hn) (h.window hs hn hw)
  assembler := fun hs ha => k.assembler (h.history hs) (h.assembler hs ha)

theorem HistoryKeeps.ite {s t u : State} {c : Prop} [Decidable c] (h : c → HistoryKeeps s t) (k : ¬c → HistoryKeeps s u) :
    HistoryKeeps s (if c then t else u) := by split_ifs with hc; exacts [h hc, k hc]

/-- A run of events keeps what each of them keeps. -/
theorem HistoryKeeps.foldl {α : Type} {f : State → α → State} (hf : ∀ s a, HistoryKeeps s (f s a)) (l : List α) :
    ∀ s, HistoryKeeps s (l.foldl f s) := by
  induction l with
  | nil => exact HistoryKeeps.refl
  | cons a l ih => exact fun s => (hf s a).trans (ih _)

/-! ### The sums of the cell in assembly (02 R30, R39) -/

/-- The sums of a cell within those of n clamped samples. -/
structure SumsSound (a : AssemblerBlock) : Prop where
  n : a.n ≤ 4095
  capped : a.capped = (a.n == 4095)
  rotary : a.rotary ≤ a.n * (1023 * 1023)
  thrust : a.thrust ≤ a.n * 600

theorem AssemblerSound.sums {s : State} (h : AssemblerSound s) : SumsSound s.assembler := ⟨h.n, h.capped, h.rotary, h.thrust⟩

theorem SumsSound.zero {a : AssemblerBlock} (hn : a.n = 0) (hc : a.capped = false) (hr : a.rotary = 0) (ht : a.thrust = 0) :
    SumsSound a := ⟨by simp [hn], by simp [hn, hc], by simp [hr], by simp [ht]⟩

theorem SumsSound.congr {a b : AssemblerBlock} (h : SumsSound a) (hn : b.n = a.n) (hc : b.capped = a.capped)
    (hr : b.rotary = a.rotary) (ht : b.thrust = a.thrust) : SumsSound b :=
  ⟨by rw [hn]; exact h.n, by rw [hc, hn]; exact h.capped, by rw [hr, hn]; exact h.rotary, by rw [ht, hn]; exact h.thrust⟩

/-- A clamped sample (02 R30). -/
def Sample.bounded (x : Sample) : Prop := x.thrust ≤ 600 ∧ x.torque ≤ 1023 ∧ x.speed ≤ 1023

theorem clamp_bounded (raw : Sample) : raw.clamp.bounded :=
  ⟨Nat.min_le_right _ _, Nat.min_le_right _ _, Nat.min_le_right _ _⟩

theorem SumsSound.accumulate {a : AssemblerBlock} (h : SumsSound a) {x : Sample} (hx : x.bounded) :
    SumsSound (a.accumulate x) := by
  obtain ⟨hthrust, htorque, hspeed⟩ := hx
  cases hc : a.capped with
  | true => rwa [accumulate_of_capped hc]
  | false =>
    rw [accumulate_of_open hc]
    have hne : a.n ≠ 4095 := by simpa [hc] using h.capped
    have hn := h.n
    have hmul : x.torque * x.speed ≤ 1023 * 1023 := Nat.mul_le_mul htorque hspeed
    have hrotary := h.rotary
    have hsum := h.thrust
    exact ⟨by dsimp only; omega, rfl, by dsimp only; omega, by dsimp only; omega⟩

/-! ### Works that write into the OPEN record -/

/-- The work leads from `s` to `t` by the write `f` into the OPEN record, and does not leave the hole. -/
structure RingWritten (f : HoleRecord → HoleRecord) (s t : State) : Prop where
  write : OpenWrite f
  history : t.history = { s.history with records := onOpen f s.history.records }
  hole : t.cycle.holeNumber = s.cycle.holeNumber
  hasHole : t.cycle.state.hasHole = false → s.cycle.state.hasHole = false

/-- The work keeps the ring sound; the cell in assembly is what is left to show. -/
theorem RingWritten.keeps {f : HoleRecord → HoleRecord} {s t : State} (h : RingWritten f s t)
    (ha : AssemblerSound s → AssemblerSound t) : HistoryKeeps s t := by
  have hr : t.history.records = s.history.records.map fun r => if r.isOpen then f r else r := by rw [h.history]; rfl
  refine ⟨fun hs => hs.rewrite h.write.rewrites hr ?_ fun hi => ?_, fun _ hn => hn.rewrite h.write.rewrites hr h.hole,
    fun _ _ hw => hw.rewrite h.write.rewrites hr (by rw [h.history]) (by rw [h.history]), fun _ => ha⟩
  · rw [h.history, h.write.reservedSum_onOpen]
  · rw [hr, List.forall_mem_map]
    intro r hm
    have hclosed := hs.inProgress (h.hasHole hi) r hm
    simp [hclosed]

/-- No record written. -/
theorem RingWritten.of_history {s t : State} (hh : t.history = s.history) (hn : t.cycle.holeNumber = s.cycle.holeNumber)
    (hs : t.cycle.state.hasHole = false → s.cycle.state.hasHole = false) : RingWritten (fun r => r) s t :=
  ⟨.id, by rw [hh, onOpen_of_unchanged fun _ => rfl], hn, hs⟩

/-- Without a cell in assembly only its sums matter. -/
theorem AssemblerSound.of_noCell {t : State} (hc : t.assembler.cell = none) (h : SumsSound t.assembler) : AssemblerSound t :=
  ⟨by simp [hc], by simp [hc], h.n, h.capped, h.rotary, h.thrust⟩

/-- The cell in assembly stays, with the cells of the OPEN record and the depths it stands against. -/
theorem AssemblerSound.carry {f : HoleRecord → HoleRecord} {s t : State} (h : AssemblerSound s) (hw : RingWritten f s t)
    (hcells : ∀ r, (f r).cells = r.cells) (hc : t.assembler.cell = s.assembler.cell)
    (hm : t.assembler.maxDepth = s.assembler.maxDepth) (hp : t.cycle.planned = s.cycle.planned)
    (hs : SumsSound t.assembler) (hd : s.assembler.cell.isSome = true → Machine.drilling t = true) :
    AssemblerSound t where
  drilling := fun ht => hd (hc ▸ ht)
  closed := by
    intro k hk
    obtain ⟨hlt, hdepth, h30, r, hr, hlen, hplan⟩ := h.closed k (hc ▸ hk)
    rw [hp, hm]
    refine ⟨hlt, hdepth, h30, f r, ?_, ?_, (hw.write.planned r).trans hplan⟩
    · rw [hw.write.openRecord (congrArg HistoryBlock.records hw.history), hr, Option.map_some]
    · rw [hcells, hlen]
  n := hs.n
  capped := hs.capped
  rotary := hs.rotary
  thrust := hs.thrust

/-! ### What leaves the hole as it is -/

theorem drilling_congr {s t : State} (hs : t.cycle.state = s.cycle.state) (hr : t.cycle.remembered = s.cycle.remembered) :
    drilling t = drilling s := by simp only [drilling, hs, hr]

/-- The hole, its cell in assembly and the ring are as they were. -/
structure SameHole (s t : State) : Prop where
  history : t.history = s.history
  state : t.cycle.state = s.cycle.state
  remembered : t.cycle.remembered = s.cycle.remembered
  number : t.cycle.holeNumber = s.cycle.holeNumber
  planned : t.cycle.planned = s.cycle.planned
  cell : t.assembler.cell = s.assembler.cell
  maxDepth : t.assembler.maxDepth = s.assembler.maxDepth
  n : t.assembler.n = s.assembler.n
  capped : t.assembler.capped = s.assembler.capped
  rotary : t.assembler.rotary = s.assembler.rotary
  thrust : t.assembler.thrust = s.assembler.thrust

theorem SameHole.keeps {s t : State} (e : SameHole s t) : HistoryKeeps s t := by
  have hw : RingWritten _ s t := .of_history e.history e.number fun h => by rwa [← e.state]
  refine hw.keeps fun ha => ha.carry hw (fun _ => rfl) e.cell e.maxDepth e.planned
    (ha.sums.congr e.n e.capped e.rotary e.thrust) fun hc => ?_
  rw [drilling_congr e.state e.remembered]
  exact ha.drilling hc

/-- Only other blocks have changed. -/
theorem HistoryKeeps.of_blocks {s t : State} (hh : t.history = s.history) (hc : t.cycle = s.cycle)
    (ha : t.assembler = s.assembler) : HistoryKeeps s t :=
  SameHole.keeps ⟨hh, by rw [hc], by rw [hc], by rw [hc], by rw [hc], by rw [ha], by rw [ha], by rw [ha], by rw [ha],
    by rw [ha], by rw [ha]⟩

theorem settle_historyKeeps (w : State) : HistoryKeeps w (settle w) :=
  SameHole.keeps ⟨by simp, by simp, by simp, by simp, by simp, by simp, by simp, by simp, by simp, by simp, by simp⟩

theorem HistoryKeeps.finish {s w : State} (h : HistoryKeeps s w) (old : State) : HistoryKeeps s (finish old w) :=
  h.trans (.of_blocks (by simp) (by simp) (by simp))

theorem HistoryKeeps.event {s w : State} (h : HistoryKeeps s w) (old : State) : HistoryKeeps s (event old w) :=
  (h.trans (settle_historyKeeps w)).finish old

theorem HistoryKeeps.reply {s t : State} (h : HistoryKeeps s t) (status : Status) (data : List Byte) :
    HistoryKeeps s (setReply status data t) := h.trans (.of_blocks rfl rfl rfl)

theorem HistoryKeeps.accept {s w : State} (h : HistoryKeeps s w) (old : State) (data : List Byte) :
    HistoryKeeps s (accept old w data) := (h.event old).reply _ _

theorem queueFault_historyKeeps (code : FaultCode) (s : State) : HistoryKeeps s (queueFault code s) := .of_blocks rfl rfl rfl

theorem onSensor_historyKeeps (s : State) (f : SensorBlock → SensorBlock) : HistoryKeeps s (s.onSensor f) :=
  .of_blocks rfl rfl rfl

theorem onResin_historyKeeps (s : State) (f : ResinBlock → ResinBlock) : HistoryKeeps s (s.onResin f) := .of_blocks rfl rfl rfl

theorem onTorque_historyKeeps (s : State) (f : TorqueBlock → TorqueBlock) : HistoryKeeps s (s.onTorque f) :=
  .of_blocks rfl rfl rfl

theorem onAnchor_historyKeeps (s : State) (f : AnchorBlock → AnchorBlock) : HistoryKeeps s (s.onAnchor f) :=
  .of_blocks rfl rfl rfl

theorem onFlow_historyKeeps (s : State) (f : FlowBlock → FlowBlock) : HistoryKeeps s (s.onFlow f) := .of_blocks rfl rfl rfl

theorem onLink_historyKeeps (s : State) (f : LinkBlock → LinkBlock) : HistoryKeeps s (s.onLink f) := .of_blocks rfl rfl rfl

theorem onNeighbours_historyKeeps (s : State) (f : NeighbourBlock → NeighbourBlock) : HistoryKeeps s (s.onNeighbours f) :=
  .of_blocks rfl rfl rfl

theorem onHost_historyKeeps (s : State) (f : HostBlock → HostBlock) : HistoryKeeps s (s.onHost f) := .of_blocks rfl rfl rfl

/-- Timers, marks and verdicts of the cycle are none of the hole's items. -/
theorem onCycle_historyKeeps {s : State} {f : CycleBlock → CycleBlock} (h1 : (f s.cycle).state = s.cycle.state)
    (h2 : (f s.cycle).remembered = s.cycle.remembered) (h3 : (f s.cycle).holeNumber = s.cycle.holeNumber)
    (h4 : (f s.cycle).planned = s.cycle.planned) : HistoryKeeps s (s.onCycle f) :=
  SameHole.keeps ⟨rfl, h1, h2, h3, h4, rfl, rfl, rfl, rfl, rfl, rfl⟩

theorem setPendingVerdict_historyKeeps (v : PendingVerdict) (s : State) : HistoryKeeps s (setPendingVerdict v s) :=
  onCycle_historyKeeps rfl rfl rfl rfl

theorem restartStall_historyKeeps (s : State) : HistoryKeeps s (restartStall s) :=
  SameHole.keeps ⟨rfl, rfl, rfl, rfl, rfl, rfl, rfl, rfl, rfl, rfl, rfl⟩

/-- A write that leaves the cells of the OPEN record. -/
theorem writeOpen_historyKeeps {f : HoleRecord → HoleRecord} (hf : ∀ r, SameCells r (f r))
    (s : State) : HistoryKeeps s (writeOpen f s) := by
  have hw : RingWritten f s (writeOpen f s) := ⟨.of_sameCells hf, rfl, rfl, id⟩
  exact hw.keeps fun ha => ha.carry hw (fun r => (hf r).cells) rfl rfl rfl ha.sums ha.drilling

/-- Such a write on top of other work. -/
theorem HistoryKeeps.written {f : HoleRecord → HoleRecord} {s w : State} (h : HistoryKeeps s w)
    (hf : ∀ r, SameCells r (f r)) : HistoryKeeps s (writeOpen f w) := h.trans (writeOpen_historyKeeps hf w)

theorem evaluateAnchor_historyKeeps (s : State) : HistoryKeeps s (evaluateAnchor s) := by
  refine ((onAnchor_historyKeeps s _).written ?_).written ?_ <;> exact fun _ => ⟨rfl, rfl, rfl, rfl⟩

/-! ### The cycle's transitions -/

/-- COLLAR and DRILL, the phases with a cell in assembly (02 R38). -/
def Phase.drills : Phase → Bool
  | .collar => true
  | .drill => true
  | _ => false

theorem drilling_of_active {s : State} {p : Phase} (h : s.cycle.state = .active p) : drilling s = p.drills := by
  cases p <;> simp [drilling, h, Phase.drills]

theorem drilling_of_suspended {s : State} {p : Phase} (h : s.cycle.state = .suspended)
    (hr : s.cycle.remembered = some p) : drilling s = p.drills := by
  cases p <;> simp [drilling, h, hr, Phase.drills]

/-- Where AssemblerSound holds, there is no cell in assembly. -/
def NoCell (s : State) : Prop := AssemblerSound s → s.assembler.cell = none

theorem noCell_of_not_drilling {s : State} (h : drilling s = false) : NoCell s := by
  intro ha
  by_contra hc
  have hd := ha.drilling (Option.isSome_iff_ne_none.2 hc)
  simp [h] at hd

/-- A change of the cycle alone, from a state without a cell, to one that is past START_HOLE. -/
theorem enterState_historyKeeps {c : CycleState} {s : State} (hc : c.hasHole = true)
    (hd : NoCell s ∨ ∃ p : Phase, c = .active p ∧ p.drills = true) : HistoryKeeps s (enterState c s) := by
  have hw : RingWritten _ s (enterState c s) := .of_history rfl rfl fun h => by simp [hc] at h
  refine hw.keeps fun ha => ha.carry hw (fun _ => rfl) rfl rfl rfl ha.sums fun hs => ?_
  rcases hd with hno | ⟨p, rfl, hp⟩
  · simp [hno ha] at hs
  · rw [drilling_of_active (p := p) rfl, hp]

/-- A suspension remembers the phase it leaves, so that a cell in assembly stays in it (01 R17). -/
theorem suspend_historyKeeps (c : Cause) (s : State) : HistoryKeeps s (suspend c s) := by
  by_cases h : ∃ p, s.cycle.state = .active p
  · obtain ⟨p, hp⟩ := h
    have hst := suspend_state hp c
    have hw : RingWritten (fun r => { r with flags := { r.flags with mixShort := r.flags.mixShort || p == .mix } }) s
        (suspend c s) :=
      ⟨.of_sameCells fun _ => ⟨rfl, rfl, rfl, rfl⟩, by simp [suspend, hp, writeOpen, State.onHistory, onOpen], by simp,
        fun h => by simp [hst, CycleState.hasHole] at h⟩
    refine hw.keeps fun ha => ha.carry hw (fun _ => rfl) (by simp) (by simp) (by simp) (by simpa using ha.sums) fun hc => ?_
    rw [drilling_of_suspended hst (p := p) (by rw [suspend_cycle hp]), ← drilling_of_active hp]
    exact ha.drilling hc
  · have hs : suspend c s = s := by
      unfold suspend
      split
      · rename_i p hp
        exact absurd ⟨p, hp⟩ h
      · rfl
    rw [hs]
    exact .refl s

theorem enterPhase_historyKeeps {p : Phase} {s : State} (hd : NoCell s ∨ p.drills = true) :
    HistoryKeeps s (enterPhase p s) := by
  have he : HistoryKeeps s (enterState (.active p) s) :=
    enterState_historyKeeps rfl (hd.imp_right fun hp => ⟨p, rfl, hp⟩)
  rcases enterPhase_cases p s with ⟨h, -⟩ | ⟨-, h⟩ <;> rw [h]
  · exact he
  · exact he.trans (suspend_historyKeeps _ _)

/-- A completion finishes the OPEN record, so that none is left in IDLE (01 R26, 10 R167). -/
theorem complete_historyKeeps (v : Verdict) {s : State} (hd : NoCell s) : HistoryKeeps s (complete v s) := by
  have hh : (complete v s).history = s.history.finish v false := by simp [complete]
  have hr := (congrArg HistoryBlock.records hh).trans (finish_records s.history v false)
  have hg := finishedRecord_rewrites v false
  refine ⟨fun hs => hs.rewrite hg hr ?_ fun _ => ?_, fun _ hn => hn.rewrite hg hr (by simp),
    fun _ _ hw => hw.rewrite hg hr (by simp) (by simp), fun _ ha => .of_noCell (by simpa using hd ha) (by simpa using ha.sums)⟩
  · rw [hh, hs.finish_pool]
  · rw [hr, List.forall_mem_map]
    exact fun r _ => finishedRecord_isOpen v false r

theorem enterRetractFresh_historyKeeps {s : State} (hd : NoCell s) : HistoryKeeps s (enterRetractFresh s) := by
  have hs : HistoryKeeps s ((s.onCycle fun c => { c with retractTimer := .paused 20000, collarTimer := .disarmed }).onAssembler
      fun a => { a with stallWindow := .disarmed }) :=
    SameHole.keeps ⟨rfl, rfl, rfl, rfl, rfl, rfl, rfl, rfl, rfl, rfl, rfl⟩
  refine hs.trans (enterPhase_historyKeeps (.inl fun ha => hd ?_))
  exact ⟨ha.drilling, ha.closed, ha.n, ha.capped, ha.rotary, ha.thrust⟩

end Sys2Proof.Machine

/-! PROOFS. O57: samples, the phases of a hole, and a hole's start keep the hole history and the cell in assembly. -/

namespace Sys2Proof.Machine

/-! ### Samples of COLLAR and DRILL (02 R39 to R43) -/

/-- The cells a sample closes are written into the OPEN record, if any. -/
theorem placeSample_ringWritten (x : Sample) (s : State) : ∃ f, RingWritten f s (placeSample x s) := by
  have hsame : ∀ {t : State}, t.history = s.history → t.cycle = s.cycle → ∃ f, RingWritten f s t := fun hh hc =>
    ⟨_, .of_history hh (by rw [hc]) (by rw [hc]; exact id)⟩
  have hclosed : ∀ {t : State} {cells : List CellRecord}, t.history = (handOn cells s).history → t.cycle = s.cycle →
      ∃ f, RingWritten f s t := fun {t cells} hh hc =>
    ⟨_, openWrite_appendAll cells, hh, by rw [hc], by rw [hc]; exact id⟩
  simp only [placeSample]
  split
  · exact hsame rfl rfl
  · split_ifs
    · exact hclosed rfl rfl
    · exact hclosed rfl rfl
    · exact hsame rfl rfl

/-- A sample within the cell in assembly adds to its sums and raises the depth short of the planned one (02 R39). -/
theorem placeSample_within_assemblerSound {s : State} {x : Sample} {k : Nat} (h : AssemblerSound s) (hx : x.bounded)
    (hc : s.assembler.cell = some k) (hk : x.feed < (k + 1) * 200) (hd : x.feed < s.cycle.planned * 200) :
    AssemblerSound (placeSample x s) := by
  obtain ⟨hh, ha⟩ := placeSample_within hc hk hd
  have hcy : (placeSample x s).cycle = s.cycle := by simp
  have hcell : (placeSample x s).assembler.cell = s.assembler.cell := by
    obtain ⟨_, _, _, _, ho⟩ := accumulate_only { s.assembler with maxDepth := max s.assembler.maxDepth x.feed } x
    rw [ha, ho]
  have hs : SumsSound (placeSample x s).assembler := by
    have hb : SumsSound { s.assembler with maxDepth := max s.assembler.maxDepth x.feed } := h.sums.congr rfl rfl rfl rfl
    rw [ha]
    exact hb.accumulate hx
  refine ⟨fun ht => ?_, fun j hj => ?_, hs.n, hs.capped, hs.rotary, hs.thrust⟩
  · rw [drilling_congr (s := s) (by rw [hcy]) (by rw [hcy])]
    exact h.drilling (hcell ▸ ht)
  · obtain ⟨hlt, hdepth, h30, hopen⟩ := h.closed j (hcell ▸ hj)
    rw [hcy, placeSample_maxDepth, State.openRecord, hh]
    exact ⟨hlt, max_lt hdepth hd, h30, hopen⟩

/-- A sample beyond the cell in assembly closes every cell before the one that it opens (02 R40, R41). -/
theorem placeSample_crossing_assemblerSound {s : State} {x : Sample} {k : Nat} (h : AssemblerSound s) (hx : x.bounded)
    (hc : s.assembler.cell = some k) (hk : k < x.feed / 200) (hd : x.feed / 200 < s.cycle.planned) :
    AssemblerSound (placeSample x s) := by
  obtain ⟨hlt, hdepth, h30, r, hopen, hlen, hplan⟩ := h.closed k hc
  have hcy : (placeSample x s).cycle = s.cycle := by simp
  have he := placeSample_crossing hc hk hd
  have ha : (placeSample x s).assembler = (AssemblerBlock.openCell _ (x.feed / 200)).accumulate x :=
    congrArg State.assembler he
  have hcell : (placeSample x s).assembler.cell = some (x.feed / 200) := by
    rw [placeSample_crossing_assembler hc hk hd]
  have hs : SumsSound (placeSample x s).assembler := by
    rw [ha]
    exact SumsSound.accumulate (.zero rfl rfl rfl rfl) hx
  have hr : (placeSample x s).history.records =
      onOpen (fun q => (closedUpTo s k (x.feed / 200)).foldl HoleRecord.append q) s.history.records := by rw [he]; rfl
  have hclosed : r.cells.length + (closedUpTo s k (x.feed / 200)).length = x.feed / 200 := by
    simp only [closedUpTo, List.length_cons, List.length_replicate]
    omega
  refine ⟨fun _ => ?_, fun j hj => ?_, hs.n, hs.capped, hs.rotary, hs.thrust⟩
  · rw [drilling_congr (s := s) (by rw [hcy]) (by rw [hcy])]
    exact h.drilling (by simp [hc])
  · obtain rfl : x.feed / 200 = j := Option.some.inj (hcell.symm.trans hj)
    rw [hcy, placeSample_maxDepth, (openWrite_appendAll _).openRecord hr, hopen, Option.map_some,
      foldl_append_cells _ r (by omega)]
    exact ⟨hd, max_lt hdepth (by omega), h30, _, rfl, by simpa using hclosed, hplan⟩

theorem placeSample_assemblerSound {x : Sample} {s : State} (hx : x.bounded) (h : AssemblerSound s) :
    AssemblerSound (placeSample x s) := by
  cases hc : s.assembler.cell with
  | none =>
    have ha : placeSample x s = raiseDepth x s := by
      have hc' : (raiseDepth x s).assembler.cell = none := hc
      simp only [placeSample, hc']
    rw [ha]
    exact .of_noCell hc (h.sums.congr rfl rfl rfl rfl)
  | some k =>
    by_cases hd : s.cycle.planned * 200 ≤ x.feed
    · rw [placeSample_atPlanned hc hd]
      exact .of_noCell rfl (h.sums.congr (by simp [raiseDepth]) (by simp [raiseDepth]) (by simp [raiseDepth])
        (by simp [raiseDepth]))
    · by_cases hk : k < x.feed / 200
      · exact placeSample_crossing_assemblerSound h hx hc hk (by omega)
      · exact placeSample_within_assemblerSound h hx hc (by omega) (by omega)

theorem placeSample_historyKeeps {x : Sample} (hx : x.bounded) (s : State) : HistoryKeeps s (placeSample x s) := by
  obtain ⟨f, hw⟩ := placeSample_ringWritten x s
  exact hw.keeps (placeSample_assemblerSound hx)

/-- At the planned depth there is no cell left in assembly (02 R42). -/
theorem drillTests_historyKeeps (s : State) : HistoryKeeps s (drillTests s) := by
  refine .ite (fun hd => ?_) fun _ => .ite (fun _ => restartStall_historyKeeps s) fun _ => .refl s
  refine (evaluateAnchor_historyKeeps s).trans (enterRetractFresh_historyKeeps fun ha => ?_)
  cases hc : (evaluateAnchor s).assembler.cell with
  | none => rfl
  | some k =>
    have hdepth := (ha.closed k hc).2.1
    simp only [evaluateAnchor_cycle, evaluateAnchor_assembler] at hdepth
    omega

theorem collarTests_historyKeeps (s : State) : HistoryKeeps s (collarTests s) := by
  refine .ite (fun _ => ?_) fun _ => .refl s
  exact ((onCycle_historyKeeps rfl rfl rfl rfl).trans ((restartStall_historyKeeps _).trans
    (enterPhase_historyKeeps (.inr rfl)))).trans (drillTests_historyKeeps _)

/-- An end short of the planned depth leaves no cell in assembly (02 R43). -/
theorem shortEnd_historyKeeps (s : State) : HistoryKeeps s (shortEnd s) := by
  have hw : RingWritten (fun r => ((shortEndCells s).foldl HoleRecord.append r).scanned) s (shortEnd s) :=
    ⟨OpenWrite.comp (g := HoleRecord.scanned) (.of_sameCells fun _ => ⟨rfl, rfl, rfl, rfl⟩) (openWrite_appendAll _),
      by rw [← shortEnd_records]; rfl, by simp, by simp⟩
  exact hw.keeps fun ha => .of_noCell rfl
    (ha.sums.congr (by simp [shortEnd]) (by simp [shortEnd]) (by simp [shortEnd]) (by simp [shortEnd]))

theorem noCell_shortEnd (s : State) : NoCell (shortEnd s) := fun _ => rfl

/-- A tainted cell starts its sums again (02 R44). -/
theorem taintCell_historyKeeps (s : State) : HistoryKeeps s (taintCell s) := by
  have hw : RingWritten _ s (taintCell s) := .of_history rfl rfl id
  refine hw.keeps fun ha => ha.carry hw (fun _ => rfl) (by simp) (by simp) rfl ?_ ha.drilling
  cases hc : s.assembler.cell with
  | none => rw [taintCell_none hc]; exact ha.sums
  | some k => rw [taintCell_some (by simp [hc])]; exact .zero rfl rfl rfl rfl

/-! ### The phases after drilling -/

/-- A phase that does not drill entered on work that left the hole, from a state that does not drill either. -/
theorem enterPhase_historyKeeps_of {p : Phase} {s w : State} (h : HistoryKeeps s w) (hd : drilling s = false)
    (hc : w.cycle.state = s.cycle.state) (hr : w.cycle.remembered = s.cycle.remembered) :
    HistoryKeeps s (enterPhase p w) :=
  h.trans (enterPhase_historyKeeps (.inl (noCell_of_not_drilling ((drilling_congr hc hr).trans hd))))

/-- A hole completes on such work. -/
theorem complete_historyKeeps_of {s w : State} (v : Verdict) (h : HistoryKeeps s w) (hd : drilling s = false)
    (hc : w.cycle.state = s.cycle.state) (hr : w.cycle.remembered = s.cycle.remembered) :
    HistoryKeeps s (complete v w) :=
  h.trans (complete_historyKeeps v (noCell_of_not_drilling ((drilling_congr hc hr).trans hd)))

theorem awaitNextStroke_historyKeeps (w : State) : HistoryKeeps w (awaitNextStroke w) :=
  .ite (fun _ => (onResin_historyKeeps w _).trans (suspend_historyKeeps _ _)) fun _ => onResin_historyKeeps w _

section NotDrilling

variable {s : State} (hd : drilling s = false)
include hd

theorem enterInsert_historyKeeps : HistoryKeeps s (enterInsert s) :=
  enterPhase_historyKeeps_of (onResin_historyKeeps s _) hd rfl rfl

theorem enterDecide_historyKeeps : HistoryKeeps s (enterDecide s) :=
  (enterState_historyKeeps rfl (.inl (noCell_of_not_drilling hd))).trans (.of_blocks rfl rfl rfl)

theorem enterMix_historyKeeps : HistoryKeeps s (enterMix s) := by
  refine enterPhase_historyKeeps_of ((onResin_historyKeeps s _).written ?_) hd rfl rfl
  exact fun _ => ⟨rfl, rfl, rfl, rfl⟩

theorem enterHold_historyKeeps : HistoryKeeps s (enterHold s) :=
  enterPhase_historyKeeps_of (onResin_historyKeeps s _) hd rfl rfl

theorem enterTorqueFirst_historyKeeps : HistoryKeeps s (enterTorqueFirst s) := by
  refine enterPhase_historyKeeps_of ((onTorque_historyKeeps s _).written ?_) hd rfl rfl
  exact fun _ => ⟨rfl, rfl, rfl, rfl⟩

theorem enterTorqueAgain_historyKeeps : HistoryKeeps s (enterTorqueAgain s) := by
  have hr := onResin_historyKeeps s fun r => { r with holdPassed := false }
  exact .ite (fun _ => enterPhase_historyKeeps_of (hr.trans (onTorque_historyKeeps _ _)) hd rfl rfl)
    fun _ => hr.trans (enterTorqueFirst_historyKeeps hd)

theorem endRetract_historyKeeps : HistoryKeeps s (endRetract s) := by
  have hw : HistoryKeeps s (s.onCycle fun c => { c with retractTimer := .disarmed }) := onCycle_historyKeeps rfl rfl rfl rfl
  unfold endRetract
  dsimp only
  split
  · exact complete_historyKeeps_of _ hw hd rfl rfl
  · exact complete_historyKeeps_of _ hw hd rfl rfl
  · exact .ite (fun _ => hw.trans (enterDecide_historyKeeps hd)) fun _ => hw.trans (enterInsert_historyKeeps hd)

theorem torqueSample_historyKeeps (q : Nat) : HistoryKeeps s (torqueSample q s) := by
  have hw : HistoryKeeps s (writeOpen (fun r =>
      { r with peak := if s.torque.peak < q then some q else r.peak
               flags := { r.flags with overshoot := r.flags.overshoot || s.torque.ceiling.any fun c => c < q } })
      (s.onTorque fun t =>
        { t with peak := max t.peak q, overshoot := t.overshoot || s.torque.ceiling.any fun c => c < q })) :=
    (onTorque_historyKeeps s _).written fun _ => ⟨rfl, rfl, rfl, rfl⟩
  exact .ite (fun _ => complete_historyKeeps_of _ hw hd rfl rfl) fun _ => hw.trans (onTorque_historyKeeps _ _)

theorem mixPulse_historyKeeps : HistoryKeeps s (mixPulse s) := by
  have hw : HistoryKeeps s (writeOpen (fun r => { r with quarterRevs := some (s.resin.quarterRevs + 1) })
      (s.onResin fun r => { r with quarterRevs := s.resin.quarterRevs + 1 })) :=
    (onResin_historyKeeps s _).written fun _ => ⟨rfl, rfl, rfl, rfl⟩
  exact .ite (fun _ => hw.trans (enterHold_historyKeeps hd)) fun _ => hw

theorem torquePulse_historyKeeps : HistoryKeeps s (torquePulse s) := by
  have hw := onTorque_historyKeeps s fun t => { t with spinner := s.torque.spinner + 1 }
  exact .ite (fun _ => complete_historyKeeps_of _ hw hd rfl rfl) fun _ => hw

theorem strokeTimeout_historyKeeps : HistoryKeeps s (strokeTimeout s) := by
  have hw := onResin_historyKeeps s fun r => { r with stroke := .idle, strokeTimer := .disarmed }
  refine .ite (fun _ => complete_historyKeeps_of _ hw hd rfl rfl) fun _ => .ite (fun _ => ?_) fun _ => ?_
  · exact complete_historyKeeps_of _ (hw.trans (queueFault_historyKeeps _ _)) hd rfl rfl
  · exact .ite (fun _ => (hw.trans (onResin_historyKeeps _ _)).trans (suspend_historyKeeps _ _))
      fun _ => hw.trans (onResin_historyKeeps _ _)

theorem strokeCounted_historyKeeps : HistoryKeeps s (strokeCounted s) := by
  have hw : HistoryKeeps s (cartridgeCounted s) := (onResin_historyKeeps s _).written fun _ => ⟨rfl, rfl, rfl, rfl⟩
  cases ha : s.cycle.abortPending with
  | true => rw [strokeCounted_of_abort ha]; exact complete_historyKeeps_of _ hw hd rfl rfl
  | false =>
    by_cases hc : s.resin.charge = some (s.resin.pushed + 1)
    · rw [strokeCounted_of_last ha hc]
      exact hw.trans (enterMix_historyKeeps hd)
    · rw [strokeCounted_of_more ha hc]
      exact hw.trans (awaitNextStroke_historyKeeps _)

end NotDrilling

end Sys2Proof.Machine

/-! PROOFS. O57: START_HOLE, the profile window, the starting events, and with them every command. -/

namespace Sys2Proof.Machine

/-! ### A record reserved (10 R165, R166) -/

theorem reservedSum_append (a b : List HoleRecord) : reservedSum (a ++ b) = reservedSum a + reservedSum b := by
  simp [reservedSum]

section Reservation

variable {s t : State} {n : HoleNo} {row slot planned : Nat} {gone kept : List HoleRecord} {raised : Bool}
  (hres : Reserved s n row slot planned gone kept t.history raised)
include hres

/-- The evicted cells and the free ones give the reservation. -/
theorem Reserved.historySound (hs : HistorySound s) (hi : s.cycle.state.hasHole = false) (hp : planned ≤ 128)
    (ht : t.cycle.state.hasHole = true) : HistorySound t where
  pool := by
    have hpool : s.history.free + reservedSum s.history.records = 1024 := hs.pool
    have hfree := hres.free
    rw [hres.split, reservedSum_append] at hpool
    change t.history.free + reservedSum t.history.records = 1024
    rw [hres.records, reservedSum_append]
    simp only [reservedSum_cons, reservedSum_nil, HoleRecord.reserved, newRecord, HoleRecord.isOpen, Option.isNone_none,
      if_true]
    omega
  ring := by
    have := hres.ring
    simp only [hres.records, List.length_append, List.length_singleton]
    omega
  cells := by
    rw [hres.records, List.forall_mem_append]
    refine ⟨fun r hr => hs.cells r (by simp [hres.split, hr]), fun r hr => ?_⟩
    obtain rfl := List.mem_singleton.1 hr
    exact ⟨Nat.zero_le _, hp⟩
  newest := by
    rw [hres.records, List.dropLast_concat]
    exact fun r hr => hs.inProgress hi r (by simp [hres.split, hr])
  inProgress := fun h => by simp [ht] at h

/-- The new record has the number after the newest one's. -/
theorem Reserved.numbersSound (hs : NumbersSound s) (hn : n = nextHole s) (ht : t.cycle.holeNumber = some n) :
    NumbersSound t := by
  intro i r hr
  refine ⟨n, ht, ?_⟩
  rw [hres.records] at hr ⊢
  have hlt := (List.getElem?_eq_some_iff.1 hr).1
  simp only [List.length_append, List.length_singleton] at hlt ⊢
  rcases Nat.lt_or_eq_of_le (Nat.le_of_lt_succ hlt) with hi | rfl
  · rw [List.getElem?_append_left hi] at hr
    obtain ⟨m, hm, hsum⟩ := hs (gone.length + i) r (by rw [hres.split, List.getElem?_append_right (by omega)]; simpa using hr)
    have hnext : n = m + 1 := by simp [hn, nextHole, hm]
    have hlen : s.history.records.length = gone.length + kept.length := by rw [hres.split, List.length_append]
    rw [hnext, ← hsum, BitVec.add_assoc]
    have hd : kept.length + 1 - 1 - i = (s.history.records.length - 1 - (gone.length + i)) + 1 := by omega
    rw [hd, BitVec.ofNat_add]
    rfl
  · simp only [List.getElem?_concat_length, Option.some.injEq] at hr
    subst hr
    simp [newRecord]

/-- A selected number that is not evicted is still present (10 R166, R171). -/
theorem Reserved.windowSound (hs : HistorySound s) (hn : NumbersSound s) (hw : WindowSound s) (ht : NumbersSound t) :
    WindowSound t := by
  have hl : t.history.records.length ≤ 16 := by
    have := hres.ring
    simp only [hres.records, List.length_append, List.length_singleton]
    omega
  rw [windowSound_iff ht hl]
  rw [windowSound_iff hn hs.ring] at hw
  intro m hm
  by_cases hevicted : ∃ r ∈ gone, s.history.selection = .hole r.number
  · obtain ⟨r, hr, hsel⟩ := hevicted
    rw [hres.selectionGone _ hsel ⟨r, hr, rfl⟩] at hm
    cases hm
  · have hkept := hres.selectionKept fun n hsel r hr hnum => hevicted ⟨r, hr, hnum ▸ hsel⟩
    obtain ⟨r, hr, hnum, hp⟩ := hw m (hkept ▸ hm)
    rw [hres.split, List.mem_append] at hr
    refine ⟨r, ?_, hnum, hres.pointer ▸ hp⟩
    rw [hres.records, List.mem_append]
    exact .inl (hr.resolve_left fun hg => hevicted ⟨r, hg, by rw [hnum, ← hkept, hm]⟩)

/-- The new record is the OPEN one, where none was OPEN before. -/
theorem Reserved.openRecord (hs : HistorySound s) (hi : s.cycle.state.hasHole = false) :
    t.openRecord = some (newRecord n row slot planned) := by
  have hnone : kept.find? HoleRecord.isOpen = none := by
    rw [List.find?_eq_none]
    exact fun r hr => by simp [hs.inProgress hi r (by simp [hres.split, hr])]
  rw [State.openRecord, hres.records, List.find?_append, hnone]
  rfl

end Reservation

/-- COLLAR with its record reserved, before the link is looked at (01 R9). -/
theorem beginHole_historyKeeps {s : State} (hi : s.cycle.state = .idle) (row slot : Nat) {planned : Nat} (h30 : 30 ≤ planned)
    (h128 : planned ≤ 128) : HistoryKeeps s (enterState (.active .collar) (preparedHole row slot planned s)) := by
  have hnone : s.cycle.state.hasHole = false := by rw [hi]; rfl
  generalize ht : enterState (.active .collar) (preparedHole row slot planned s) = t
  have hh : t.history = (reserveRecord (nextHole s) row slot planned s).history := by rw [← ht]; rfl
  have hnum : t.cycle.holeNumber = some (nextHole s) := by rw [← ht]; simp [preparedHole, freshHole, enterState, nextHole]
  have hst : t.cycle.state = .active .collar := by rw [← ht]; rfl
  have hres : HistorySound s → ∃ gone kept raised, Reserved s (nextHole s) row slot planned gone kept t.history raised := by
    intro hs
    obtain ⟨gone, kept, h⟩ := reserveRecord_reserved hs (nextHole s) row slot h128
    exact ⟨gone, kept, _, hh ▸ h⟩
  refine ⟨fun hs => ?_, fun hs hn => ?_, fun hs hn hw => ?_, fun hs _ => ?_⟩ <;> obtain ⟨gone, kept, raised, h⟩ := hres hs
  · exact h.historySound hs hnone h128 (by rw [hst]; rfl)
  · exact h.numbersSound hn rfl hnum
  · exact h.windowSound hs hn hw (h.numbersSound hn rfl hnum)
  · have hopen := h.openRecord hs hnone
    subst ht
    refine ⟨fun _ => drilling_of_active (p := .collar) rfl, fun k hk => ?_, Nat.zero_le _, rfl, Nat.zero_le _, Nat.zero_le _⟩
    obtain rfl : 0 = k := Option.some.inj hk
    exact ⟨by simpa [preparedHole, freshHole, enterState] using by omega,
      by simpa [preparedHole, freshHole, enterState] using by omega, h30, _, hopen, rfl, rfl⟩

theorem startedHole_historyKeeps {s : State} (hi : s.cycle.state = .idle) (row slot : Nat) {planned : Nat} (h30 : 30 ≤ planned)
    (h128 : planned ≤ 128) : HistoryKeeps s (startedHole row slot planned s) := by
  have hb := beginHole_historyKeeps hi row slot h30 h128
  have he : startedHole row slot planned s = enterPhase .collar (preparedHole row slot planned s) := rfl
  rw [he]
  rcases enterPhase_cases .collar (preparedHole row slot planned s) with ⟨h, -⟩ | ⟨-, h⟩ <;> rw [h]
  · exact hb
  · exact hb.trans (suspend_historyKeeps _ _)

theorem startHole_historyKeeps (row slot planned : Nat) (s : State) : HistoryKeeps s (startHole row slot planned s) := by
  have hreply := fun status => (HistoryKeeps.refl s).reply status []
  refine .ite (fun _ => hreply _) fun hi => .ite (fun _ => hreply _) fun ha => .ite (fun _ => hreply _) fun _ =>
    .ite (fun _ => hreply _) fun _ => ?_
  have hargs : (row ≤ 4095 ∧ slot ≤ 7) ∧ 30 ≤ planned ∧ planned ≤ 128 := by
    simpa [holeArgsOk, within] using ha
  exact (startedHole_historyKeeps (not_not.1 hi) row slot hargs.2.1 hargs.2.2).accept s _

/-! ### The profile window (10 R171 to R175) -/

/-- A selection and a pointer within the record it names. -/
theorem window_historyKeeps {s : State} (sel : Selection) (pointer : Nat)
    (h : HistorySound s → NumbersSound s → WindowSound s → ∀ n, sel = .hole n →
      ∃ r, s.history.present n = some r ∧ r.number = n ∧ pointer ≤ r.cells.length) :
    HistoryKeeps s (s.onHistory fun b => { b with selection := sel, pointer := pointer }) where
  history := fun hs => ⟨hs.pool, hs.ring, hs.cells, hs.newest, hs.inProgress⟩
  numbers := fun _ hn => hn
  window := fun hs hn hw n hsel => h hs hn hw n hsel
  assembler := fun _ ha => ⟨ha.drilling, ha.closed, ha.n, ha.capped, ha.rotary, ha.thrust⟩

theorem readCells_historyKeeps {s : State} {number : HoleNo} {r : HoleRecord} (hsel : s.history.selection = .hole number)
    (hr : s.history.present number = some r) (count : Nat) (up : Bool) :
    HistoryKeeps s (readCells number r.cells count up s) := by
  have hmove : ∀ pointer : Nat, (s.history.pointer ≤ r.cells.length → pointer ≤ r.cells.length) →
      HistoryKeeps s (s.onHistory fun b => { b with pointer := pointer }) := fun pointer hp =>
    window_historyKeeps s.history.selection pointer fun _ _ hw n hn => by
      obtain ⟨q, hq, hnum, hle⟩ := hw n hn
      obtain rfl : number = n := Selection.hole.inj (hsel.symm.trans hn)
      obtain rfl : r = q := Option.some.inj (hr.symm.trans hq)
      exact ⟨r, hr, hnum, hp hle⟩
  exact .ite (fun _ => (hmove _ (by omega)).reply _ _) fun _ => (hmove _ (by omega)).reply _ _

/-! ### Samples, pulses and pins -/

theorem handSample_historyKeeps {x : Sample} (hx : x.bounded) (s : State) : HistoryKeeps s (handSample x s) := by
  have hplace := placeSample_historyKeeps hx s
  unfold handSample
  split
  · exact (hplace.trans (collarTests_historyKeeps _)).event s
  · exact (hplace.trans (drillTests_historyKeeps _)).event s
  · rename_i hp
    exact .ite (fun _ => (endRetract_historyKeeps (drilling_of_active hp)).event s) fun _ => .refl s
  · rename_i hp
    exact (torqueSample_historyKeeps (drilling_of_active hp) _).event s
  · exact .refl s

theorem takeRecord_historyKeeps (record : List Byte) (s : State) : HistoryKeeps s (takeRecord record s) := by
  unfold takeRecord
  split
  · exact (onSensor_historyKeeps s _).trans (handSample_historyKeeps (clamp_bounded _) _)
  · exact .refl s

theorem takeByte_historyKeeps (value : Byte) (stopHigh : Bool) (s : State) : HistoryKeeps s (takeByte value stopHigh s) := by
  unfold takeByte
  dsimp only
  split
  · exact (onSensor_historyKeeps s _).trans (takeRecord_historyKeeps _ _)
  · exact onSensor_historyKeeps s _

theorem takeSrxBit_historyKeeps (s : State) (bit : Bool) : HistoryKeeps s (takeSrxBit s bit) := by
  unfold takeSrxBit
  split
  · exact onSensor_historyKeeps s _
  · exact .ite (fun _ => onSensor_historyKeeps s _) fun _ => takeByte_historyKeeps _ _ s
  · exact .ite (fun _ => onSensor_historyKeeps s _) fun _ => .refl s

theorem handPulse_historyKeeps (s : State) : HistoryKeeps s (handPulse s) := by
  unfold handPulse
  split
  · rename_i hp
    exact (mixPulse_historyKeeps (drilling_of_active hp)).event s
  · rename_i hp
    exact (torquePulse_historyKeeps (drilling_of_active hp)).event s
  · exact .refl s

theorem linkFall_historyKeeps (s : State) : HistoryKeeps s (linkFall s) := by
  have hl : HistoryKeeps s (linkLost s) :=
    ((onSensor_historyKeeps s _).trans (queueFault_historyKeeps _ _)).trans (taintCell_historyKeeps _)
  rcases linkFall_cases s with ⟨p, -, -, he⟩ | ⟨-, he⟩ <;> rw [he]
  · exact hl.trans (suspend_historyKeeps _ _)
  · exact hl

theorem canopyFall_historyKeeps (s : State) : HistoryKeeps s (canopyFall s) := by
  have hq := queueFault_historyKeeps .canopyLost s
  unfold canopyFall
  split
  · rename_i p hp
    refine HistoryKeeps.event (.ite (fun ha => ?_) fun _ => hq.trans (suspend_historyKeeps _ _)) s
    obtain ⟨rfl, -⟩ := ha
    exact complete_historyKeeps_of _ hq (drilling_of_active hp) rfl rfl
  · exact .refl s

theorem valveFall_historyKeeps (old s : State) : HistoryKeeps s (valveFall old s) := by
  unfold valveFall
  split
  · exact (onFlow_historyKeeps s _).event old
  · exact (onFlow_historyKeeps s _).event old
  · exact .refl s

/-! ### Host commands to the cycle -/

theorem abortDrilling_historyKeeps (s : State) : HistoryKeeps s (abortDrilling s) :=
  ((setPendingVerdict_historyKeeps .aborted s).trans (shortEnd_historyKeeps _)).trans
    (enterRetractFresh_historyKeeps (noCell_shortEnd _))

/-- An ABORT in SUSPENDED closes the cell in assembly first, where there is one (01 R25). -/
theorem abortSuspended_historyKeeps {s : State} (hs : s.cycle.state = .suspended) : HistoryKeeps s (abortSuspended s) := by
  have hdrilled : ∀ c : Bool, HistoryKeeps s (if c then complete .aborted (shortEnd s) else abortDrilling s) := fun _ =>
    .ite (fun _ => (shortEnd_historyKeeps s).trans (complete_historyKeeps _ (noCell_shortEnd s)))
      fun _ => abortDrilling_historyKeeps s
  have hv := setPendingVerdict_historyKeeps .aborted s
  unfold abortSuspended
  dsimp only
  split
  · exact hdrilled _
  · exact hdrilled _
  · rename_i hp
    have hd := drilling_of_suspended hs hp
    refine .ite (fun _ => complete_historyKeeps_of _ (.refl s) hd rfl rfl) fun _ => .ite (fun _ => ?_) fun _ => ?_
    · exact hv.trans (enterRetractFresh_historyKeeps (noCell_of_not_drilling hd))
    · exact enterPhase_historyKeeps_of hv hd rfl rfl
  · rename_i hc hdr _
    refine complete_historyKeeps_of _ (.refl s) ?_ rfl rfl
    simpa [drilling, hs] using And.intro hc hdr

theorem abort_historyKeeps (s : State) : HistoryKeeps s (abort s) := by
  have hcomplete : drilling s = false → HistoryKeeps s (accept s (complete .aborted s) []) := fun hd =>
    (complete_historyKeeps_of _ (.refl s) hd rfl rfl).accept s []
  unfold abort
  split
  · exact (HistoryKeeps.refl s).reply _ _
  · exact (HistoryKeeps.refl s).reply _ _
  · exact (abortDrilling_historyKeeps s).accept s []
  · exact (abortDrilling_historyKeeps s).accept s []
  · exact (setPendingVerdict_historyKeeps _ s).reply _ _
  · rename_i hp
    exact .ite (fun _ => (onCycle_historyKeeps rfl rfl rfl rfl).reply _ _) fun _ => hcomplete (drilling_of_active hp)
  · rename_i hp
    exact (abortSuspended_historyKeeps hp).accept s []
  · rename_i h1 h2 _ _ h5
    exact hcomplete (by simpa [drilling] using ⟨⟨h1, h2⟩, fun hs => (h5 hs).elim⟩)

/-- RESUME enters COLLAR or DRILL only where they stand remembered (01 R22). -/
theorem reenter_historyKeeps {s : State} {target : Phase} (hs : s.cycle.state = .suspended)
    (ht : resumeTarget s = some target) : HistoryKeeps s (reenter target s) := by
  have hd : target.drills = false → drilling s = false := fun hn => by
    rcases resumeTarget_cases ht with hp | ⟨hp, -⟩ | ⟨hp, -⟩ <;> rw [drilling_of_suspended hs hp]
    · exact hn
    · rfl
    · rfl
  cases target with
  | collar => exact (onNeighbours_historyKeeps s _).trans (enterPhase_historyKeeps (.inr rfl))
  | drill =>
    exact ((restartStall_historyKeeps s).trans (onNeighbours_historyKeeps _ _)).trans (enterPhase_historyKeeps (.inr rfl))
  | retract =>
    exact .ite (fun _ => enterRetractFresh_historyKeeps (noCell_of_not_drilling (hd rfl)))
      fun _ => enterPhase_historyKeeps_of (.refl s) (hd rfl) rfl rfl
  | insert => exact enterPhase_historyKeeps_of (.refl s) (hd rfl) rfl rfl
  | mix => exact .refl s
  | hold =>
    exact .ite (fun _ => enterHold_historyKeeps (hd rfl))
      fun _ => enterPhase_historyKeeps_of (onResin_historyKeeps s _) (hd rfl) rfl rfl
  | torque => exact enterTorqueAgain_historyKeeps (hd rfl)

/-- Only INSERT has a stroke in progress (06 R88). -/
theorem CycleSound.not_drilling {s : State} (h : CycleSound s) (hs : s.resin.stroke = .inProgress) : drilling s = false :=
  drilling_of_active (h.stroke hs).1

theorem zeroRemainder_historyKeeps {s : State} (h : CycleSound s) : HistoryKeeps s (zeroRemainder s) := by
  refine .ite (fun hc => ?_) fun _ => .ite (fun hc => ?_) fun _ => .refl s
  · exact (complete_historyKeeps_of _ (.refl s) (drilling_of_active hc.1) rfl rfl).trans (settle_historyKeeps _)
  · exact (strokeTimeout_historyKeeps (h.not_drilling hc.1)).trans (settle_historyKeeps _)

theorem resume_historyKeeps {s : State} (h : CycleSound s) : HistoryKeeps s (resume s) := by
  have hreply := fun status => (HistoryKeeps.refl s).reply status []
  refine .ite (fun _ => hreply _) fun hs => ?_
  split
  · exact hreply _
  · rename_i target ht
    refine .ite (fun _ => hreply _) fun hc => ?_
    have hsus := not_not.1 hs
    have hcan := (causePresent_eq_false.1 (by simpa using hc)).1
    have hsound := (reenter_work h hsus ht hcan).settle.cycle
    exact (((reenter_historyKeeps hsus ht).trans (settle_historyKeeps _)).trans
      (zeroRemainder_historyKeeps hsound)).finish s |>.reply _ _

theorem drilling_of_decide {s : State} (h : s.cycle.state = .decide) : drilling s = false := by simp [drilling, h]

theorem proceed_historyKeeps (s : State) : HistoryKeeps s (proceed s) := by
  have hreply := fun status => (HistoryKeeps.refl s).reply status []
  refine .ite (fun _ => hreply _) fun hd => .ite (fun _ => hreply _) fun _ => .ite (fun _ => hreply _) fun _ => ?_
  have hw : HistoryKeeps s (proceedAnchor s) := (onAnchor_historyKeeps s _).written fun _ => ⟨rfl, rfl, rfl, rfl⟩
  have hdrill := drilling_of_decide (not_not.1 hd)
  exact (hw.trans (enterInsert_historyKeeps (s := proceedAnchor s) hdrill)).accept s []

/-- UNCONFIGURED has no hole to lose (11 R185). -/
theorem configured_historyKeeps {s : State} (c : Configuration) (hu : s.cycle.state = .unconfigured) :
    HistoryKeeps s (configured c s) := by
  have hw : RingWritten _ s (configured c s) := .of_history rfl rfl fun _ => by rw [hu]; rfl
  have hno : NoCell s := noCell_of_not_drilling (by simp [drilling, hu])
  exact hw.keeps fun ha => .of_noCell (hno ha) ha.sums

/-! ### The rig link -/

theorem muteStation_historyKeeps (cause : MuteCause) (s : State) : HistoryKeeps s (muteStation cause s) := by
  have hcycle : ∀ u, HistoryKeeps u (muteCycle u) := fun u => by
    unfold muteCycle
    split
    · exact suspend_historyKeeps _ u
    · exact suspend_historyKeeps _ u
    · exact suspend_historyKeeps _ u
    · exact .ite (fun _ => .refl u) fun _ => suspend_historyKeeps _ u
    · exact .refl u
  exact .ite (fun _ => .refl s)
    fun _ => ((onLink_historyKeeps s _).trans (queueFault_historyKeeps _ _)).trans (hcycle _)

theorem routeFrame_historyKeeps (f : LinkFrame) (s : State) : HistoryKeeps s (routeFrame f s) := by
  have hmute := (muteStation_historyKeeps .heard s).event s
  refine .ite (fun _ => ?_) fun _ => .ite (fun _ => ?_) fun _ => .refl s
  · split
    · exact .refl s
    · exact .ite (fun _ => hmute) fun _ => (onFlow_historyKeeps s _).event s
  · split
    · exact .refl s
    · exact .ite (fun _ => hmute) fun _ => (onNeighbours_historyKeeps s _).event s

theorem endFrame_historyKeeps (s : State) : HistoryKeeps s (endFrame s) := by
  have hl := onLink_historyKeeps s fun l => l.endReceived (crcGood (frameRead s.link.assembly))
  exact .ite (fun _ => .ite (fun _ => hl.trans (.ite (fun _ => .refl _) fun _ => routeFrame_historyKeeps _ _)) fun _ => hl)
    fun _ => .refl s

theorem overridden_historyKeeps (f : LinkFrame) (bit : Nat) (s : State) : HistoryKeeps s (overridden f bit s) := by
  have hl := onLink_historyKeeps s fun l => l.follow f bit
  exact .ite (fun _ => hl) fun _ =>
    ((hl.trans (muteStation_historyKeeps .overridden _)).event s).trans (endFrame_historyKeeps _)

theorem readLine_historyKeeps (bit : Bool) (s : State) : HistoryKeeps s (readLine s bit) := by
  unfold readLine
  split
  · exact .refl s
  · exact onLink_historyKeeps s _
  · exact onLink_historyKeeps s _
  · split
    · exact (onLink_historyKeeps s _).trans (endFrame_historyKeeps _)
    · exact .ite (fun _ => .ite (fun _ => onLink_historyKeeps s _) fun _ => onLink_historyKeeps s _)
        fun _ => .ite (fun _ => onLink_historyKeeps s _) fun _ => overridden_historyKeeps _ _ s

theorem takeBit_historyKeeps (s : State) (bit : Bool) : HistoryKeeps s (takeBit s bit) :=
  (HistoryKeeps.ite (fun _ => onLink_historyKeeps s _) fun _ => .refl s).trans (readLine_historyKeeps bit _)

/-! ### The starting events (11 R186, R187) -/

/-- A part with an empty ring, no selection and no cell in assembly. -/
theorem HistoryKeeps.of_reset {s t : State} (hh : t.history = State.reset.history)
    (ha : t.assembler = State.reset.assembler) : HistoryKeeps s t where
  history := fun _ => ⟨by rw [hh]; rfl, by rw [hh]; exact Nat.zero_le _, by simp [hh, State.reset], by simp [hh, State.reset],
    by simp [hh, State.reset]⟩
  numbers := fun _ _ => by simp [NumbersSound, hh, State.reset]
  window := fun _ _ _ => by simp [WindowSound, hh, State.reset]
  assembler := fun _ _ => .of_noCell (by rw [ha]; rfl) (by rw [ha]; exact .zero rfl rfl rfl rfl)

/-- The reset line finishes an OPEN record with RESET_CUT and leaves the ring and the number (10 R168). -/
theorem resetLine_historyKeeps {s t : State} (e : execResetLine s = .next t) : HistoryKeeps s t := by
  obtain rfl := Host.Outcome.next.inj e
  have hg := finishedRecord_rewrites .aborted true
  refine ⟨fun hs => hs.rewrite hg rfl (hs.finish_pool .aborted true) fun _ => ?_, fun _ hn => hn.rewrite hg rfl rfl,
    fun _ _ _ _ => nofun, fun _ _ => .of_noCell rfl (.zero rfl rfl rfl rfl)⟩
  exact List.forall_mem_map.2 fun r _ => finishedRecord_isOpen .aborted true r

theorem resetNRise_historyKeeps {s t : State} (levels : InputLevels) (e : execResetNRise levels s = .next t) :
    HistoryKeeps s t := by
  obtain rfl := Host.Outcome.next.inj e
  exact .ite (fun _ => .of_blocks rfl rfl rfl) fun _ => .refl s

/-! ### The commands -/

section Commands

variable {s t : State}

theorem HistoryKeeps.of_unlessHeld {new : State} (h : HistoryKeeps s new)
    (e : (unlessHeld s new : Host.Outcome State Fault Refusal) = .next t) : HistoryKeeps s t := by
  rw [unlessHeld_next, Host.Outcome.next.injEq] at e
  subst e
  exact .ite (fun _ => .refl s) fun _ => h

theorem HistoryKeeps.transacted (h : HistoryKeeps s t) (host : Transaction) : HistoryKeeps s (transacted host s t) :=
  .ite (fun _ => .refl s) fun _ => h.trans (onHost_historyKeeps _ _)

theorem HistoryKeeps.of_inTransaction {new : State} {host : Transaction} (h : HistoryKeeps s new)
    (e : (inTransaction host s new : Host.Outcome State Fault Refusal) = .next t) : HistoryKeeps s t :=
  .of_unlessHeld (h.transacted host) e

/-- A host command that reads, or works on other blocks. -/
theorem HistoryKeeps.of_reply {u : State} {host : Transaction} {status : Status} {data : List Byte} (h : HistoryKeeps s u)
    (e : (inTransaction host s (setReply status data u) : Host.Outcome State Fault Refusal) = .next t) : HistoryKeeps s t :=
  .of_inTransaction (h.reply _ _) e

/-- A host command that may bring a rise of CANOPY_SET. -/
theorem HistoryKeeps.of_rise {f : State → State} {rise : Bool} {host : Transaction}
    (hf : HistoryKeeps (s.noteCanopy rise) (f (s.noteCanopy rise)))
    (e : (unlessHeld s (Machine.transacted host (s.noteCanopy rise) (f (s.noteCanopy rise))) : Host.Outcome State Fault Refusal)
      = .next t) : HistoryKeeps s t :=
  have hu : HistoryKeeps s (s.noteCanopy rise) := .of_blocks rfl rfl rfl
  .of_unlessHeld (hu.trans (hf.transacted host)) e

/-- An expiry out of its time is no event (log 3). -/
theorem HistoryKeeps.of_expiry {c : Prop} [Decidable c] {new : State} (h : c → HistoryKeeps s new)
    (e : (unlessHeld s (if c then new else s) : Host.Outcome State Fault Refusal) = .next t) : HistoryKeeps s t :=
  .of_unlessHeld (.ite h fun _ => .refl s) e

theorem configure_historyKeeps (record : List Byte) (host : Transaction) (e : execConfigure record s host = .next t) :
    HistoryKeeps s t := by
  have hreply := fun status => (HistoryKeeps.refl s).reply status []
  refine .of_inTransaction (.ite (fun _ => hreply _) fun _ => .ite (fun _ => hreply _) fun hu => ?_) e
  split
  · exact hreply _
  · exact (configured_historyKeeps _ (not_not.1 hu)).accept s _

theorem execSelectHole_historyKeeps (number : HoleNo) (host : Transaction) (e : execSelectHole number s host = .next t) :
    HistoryKeeps s t := by
  refine .of_inTransaction ?_ e
  split
  · rename_i r hr
    refine (window_historyKeeps _ 0 fun hs hn _ n hsel => ?_).reply _ _
    obtain rfl : number = n := Selection.hole.inj hsel
    exact ⟨r, hr, ((hn.present_iff hs.ring).1 hr).2, Nat.zero_le _⟩
  · exact (window_historyKeeps .none 0 fun _ _ _ _ => nofun).reply _ _

theorem execReadCells_historyKeeps (count direction : Byte) (host : Transaction)
    (e : execReadCells count direction s host = .next t) : HistoryKeeps s t := by
  have hreply := fun status data => (HistoryKeeps.refl s).reply status data
  refine .of_inTransaction (.ite (fun _ => hreply _ _) fun _ => ?_) e
  split
  · exact hreply _ _
  · exact hreply _ _
  · rename_i number hsel
    split
    · rename_i r hr
      exact readCells_historyKeeps hsel hr _ _
    · exact hreply _ _

/-- Every command keeps the hole history sound: the events by their works, the others by leaving its blocks. -/
theorem exec_historyKeeps (h : CycleSound s) (c : Instr) (e : exec c s = .next t) : HistoryKeeps s t := by
  have hsame := HistoryKeeps.refl s
  cases c with
  | powerOn levels =>
    obtain rfl := Host.Outcome.next.inj e
    exact .of_reset rfl rfl
  | resetLine => exact resetLine_historyKeeps e
  | resetNRise levels => exact resetNRise_historyKeeps levels e
  | timebaseTick =>
    obtain rfl := Host.Outcome.next.inj e
    exact onCycle_historyKeeps rfl rfl rfl rfl
  | sampleRecord bits => exact .of_unlessHeld (.foldl takeSrxBit_historyKeeps bits s) e
  | linkDeadlineExpiry => exact .of_expiry (fun _ => (linkFall_historyKeeps s).event s) e
  | rotPulse => exact .of_unlessHeld ((onSensor_historyKeeps s _).trans (handPulse_historyKeeps _)) e
  | pulseDeadlineExpiry => exact .of_expiry (fun _ => onSensor_historyKeeps s _) e
  | canopySetFall =>
    have hc : HistoryKeeps s { s with canopySet := false } := .of_blocks rfl rfl rfl
    exact .of_expiry (fun _ => hc.trans (canopyFall_historyKeeps _)) e
  | valveReadyRise =>
    have hv : HistoryKeeps s { s with valveReady := true } := .of_blocks rfl rfl rfl
    exact .of_unlessHeld (.ite (fun _ => (hv.trans (onFlow_historyKeeps _ _)).event s) fun _ => hv) e
  | valveReadyFall =>
    have hv : HistoryKeeps s { s with valveReady := false } := .of_blocks rfl rfl rfl
    exact .of_expiry (fun _ => hv.trans (valveFall_historyKeeps s _)) e
  | strokeDone => exact .of_expiry (fun hs => (strokeCounted_historyKeeps (h.not_drilling hs)).event s) e
  | fetch host => exact hsame.of_reply e
  | badFrame host => exact hsame.of_reply e
  | configure record host => exact configure_historyKeeps record host e
  | startHole row slot planned rise host => exact .of_rise (startHole_historyKeeps _ _ _ _) e
  | abort rise host => exact .of_rise (abort_historyKeeps _) e
  | resume rise host =>
    exact .of_rise (resume_historyKeeps ((noteCanopy_untouched s rise).event h).cycle) e
  | proceed rise host => exact .of_rise (proceed_historyKeeps _) e
  | abandon host =>
    refine .of_inTransaction (.ite (fun _ => hsame.reply _ _) fun hd => ?_) e
    exact (complete_historyKeeps_of _ hsame (drilling_of_decide (not_not.1 hd)) rfl rfl).accept s []
  | readState host => exact hsame.of_reply e
  | readAttention host =>
    refine .of_inTransaction ?_ e
    split
    · exact hsame.reply _ _
    · have hu : ∀ src draws, HistoryKeeps s { s.onHost (takeSource src) with freeDraws := draws } :=
        fun _ _ => .of_blocks rfl rfl rfl
      exact (hu _ _).reply _ _
  | serviceDone host =>
    refine .of_inTransaction ?_ e
    split
    · exact hsame.reply _ _
    · exact (onHost_historyKeeps s _).reply _ _
  | setWatch mask sense combination host =>
    exact .of_inTransaction (.ite (fun _ => hsame.reply _ _) fun _ => (onHost_historyKeeps s _).reply _ _) e
  | readSensors host => exact (onSensor_historyKeeps s _).of_reply e
  | unlatch host =>
    exact .of_inTransaction (.ite (fun _ => hsame.reply _ _) fun _ =>
      .ite (fun _ => hsame.reply _ _) fun _ => (onSensor_historyKeeps s _).reply _ _) e
  | readFlow host => exact hsame.of_reply e
  | readNeighbours index host =>
    exact .of_inTransaction (.ite (fun _ => hsame.reply _ _) fun _ => hsame.reply _ _) e
  | readLink host => exact (onLink_historyKeeps s _).of_reply e
  | selectHole number host => exact execSelectHole_historyKeeps number host e
  | readCells count direction host => exact execReadCells_historyKeeps count direction host e
  | collarTimerExpiry =>
    exact .of_expiry (fun _ => ((((queueFault_historyKeeps _ s).trans (setPendingVerdict_historyKeeps _ _)).trans
      (shortEnd_historyKeeps _)).trans (enterRetractFresh_historyKeeps (noCell_shortEnd _))).event s) e
  | retractTimerExpiry =>
    exact .of_expiry (fun _ => (((queueFault_historyKeeps _ s).trans (onCycle_historyKeeps rfl rfl rfl rfl)).trans
      (suspend_historyKeeps _ _)).event s) e
  | stallWindowExpiry =>
    exact .of_expiry (fun _ => ((((shortEnd_historyKeeps s).trans (queueFault_historyKeeps _ _)).trans
      (setPendingVerdict_historyKeeps _ _)).trans (enterRetractFresh_historyKeeps fun _ => rfl)).event s) e
  | strokeTimerExpiry => exact .of_expiry (fun hs => (strokeTimeout_historyKeeps (h.not_drilling hs.1)).event s) e
  | strokeGapExpiry => exact .of_expiry (fun _ => (onResin_historyKeeps s _).event s) e
  | mixDeadlineExpiry =>
    refine .of_expiry (fun _ => .ite (fun hp => ?_) fun _ => onResin_historyKeeps s _) e
    have hm : HistoryKeeps s (markMixShort s) := hsame.written fun _ => ⟨rfl, rfl, rfl, rfl⟩
    exact (hm.trans (enterHold_historyKeeps (s := markMixShort s) (drilling_of_active hp))).event s
  | holdDeadlineExpiry =>
    have hw : HistoryKeeps s (holdExpired s) := onResin_historyKeeps s _
    refine .of_expiry (fun _ => .ite (fun hp => ?_) fun _ => .ite (fun _ => hw.trans (onResin_historyKeeps _ _)) fun _ => hw) e
    exact (hw.trans (enterTorqueFirst_historyKeeps (s := holdExpired s) (drilling_of_active hp))).event s
  | torqueTimerExpiry =>
    exact .of_expiry (fun hs => (complete_historyKeeps_of _ hsame (drilling_of_active hs.1) rfl rfl).event s) e
  | releaseDeadlineExpiry =>
    exact .of_expiry (fun _ => (queueFault_historyKeeps _ s).trans (onFlow_historyKeeps _ _)) e
  | demandScheduleExpiry =>
    refine .of_unlessHeld ?_ e
    split
    · exact .ite (fun _ => (onFlow_historyKeeps s _).trans (onLink_historyKeeps _ _)) fun _ => hsame
    · exact hsame
  | staleDeadlineExpiry station => exact .of_unlessHeld (onFlow_historyKeeps s _) e
  | removalDeadlineExpiry station => exact .of_expiry (fun _ => (onFlow_historyKeeps s _).event s) e
  | demandFrameReceived bits => exact .of_unlessHeld (.foldl takeBit_historyKeeps bits s) e
  | holeFrameReceived bits => exact .of_unlessHeld (.foldl takeBit_historyKeeps bits s) e
  | seekingComplete => exact .of_expiry (fun _ => onLink_historyKeeps s _) e
  | frameStart recessive => exact .of_expiry (fun _ => (onLink_historyKeeps s _).trans (onLink_historyKeeps _ _)) e
  | frameSent => exact .of_expiry (fun _ => onLink_historyKeeps s _) e
  | arbitrationLost bit =>
    refine .of_unlessHeld ?_ e
    split
    · exact .ite (fun _ => overridden_historyKeeps _ bit s) fun _ => hsame
    · exact hsame
  | transmitFault bit =>
    refine .of_unlessHeld ?_ e
    split
    · exact .ite (fun _ => onLink_historyKeeps s _) fun _ => hsame
    · exact hsame
  | duplicateOverridden bit =>
    refine .of_unlessHeld ?_ e
    split
    · exact .ite (fun _ => overridden_historyKeeps _ bit s) fun _ => hsame
    · exact hsame
  | setpointRecordEnd => exact .of_expiry (fun _ => (onFlow_historyKeeps s _).trans (onFlow_historyKeeps _ _)) e

end Commands

/-- Taking the front command off the queue touches neither the ring nor the cell. -/
theorem step_historyKeeps {s t : State} (h : CycleSound s) (e : step s = .next t) : HistoryKeeps s t := by
  unfold step at e
  split at e
  · obtain rfl := Host.Outcome.next.inj e
    exact .refl s
  · rename_i c rest _
    have hu : HistoryKeeps s { s with pending := rest } := .of_blocks rfl rfl rfl
    have hc : Untouched s { s with pending := rest } := ⟨rfl, id, id, rfl, rfl, rfl, rfl, rfl, rfl⟩
    exact hu.trans (exec_historyKeeps (hc.event h).cycle c e)

/-- Settles O57: each command rewrites the ring record by record (`Rewrites`) or reserves a record in it (`Reserved`), moves
the window within a present record, and closes the cell in assembly before the hole leaves drilling (`NoCell`). -/
theorem stepsKeepTheHistorySound : Obligations.StepsKeepTheHistorySound := by
  intro s t e h hs
  have hk := step_historyKeeps h e
  exact ⟨hk.history hs, hk.numbers hs, hk.window hs, hk.assembler hs⟩

end Sys2Proof.Machine

/-! PROOFS. O43, O44: SELECT_HOLE and READ_CELLS, their replies field by field (10 R171 to R175, 12 R200, R204). -/

namespace Sys2Proof.Machine

/-! ### The fields of the replies (12 R200, R204) -/

/-- A set of named members is a field of one byte. -/
theorem setByte_eq_u8 (members : List Bool) : [setByte members] = u8 (memberSet members) := by
  rw [setByte_eq]
  rfl

/-- The oldest and the newest number of the ring, as the summary and a GONE reply carry them. -/
theorem ringEnds_eq {h : HistoryBlock} {first : HoleRecord} (hf : h.records.head? = some first) : ringEnds h =
    u16 first.number.toNat ++ u16 ((h.records.getLast?.map fun x => x.number.toNat).getD 0) := by
  have hnewest : (h.newest.getD 0).toNat = (h.records.getLast?.map fun x => x.number.toNat).getD 0 := by
    unfold HistoryBlock.newest
    cases h.records.getLast? <;> rfl
  rw [ringEnds, numberBytes, numberBytes, hnewest, HistoryBlock.oldest, hf]
  rfl

theorem goneData_of_empty {h : HistoryBlock} (he : h.records = []) : goneData h = [0, 0, 0, 0, 0] := by
  simp [goneData, ringEnds, HistoryBlock.oldest, HistoryBlock.newest, he, numberBytes, u16, flag]

theorem goneData_of_ends {h : HistoryBlock} {first last : HoleRecord} (hf : h.records.head? = some first)
    (hl : h.records.getLast? = some last) :
    goneData h = 1 :: (u16 first.number.toNat ++ u16 last.number.toNat) := by
  have hne : h.records.isEmpty = false := by
    cases hr : h.records with
    | nil => simp [hr] at hf
    | cons _ _ => rfl
  rw [goneData, ringEnds_eq hf, hl, hne]
  rfl

/-- The hole summary, field by field (10 R172, 12 R204). -/
theorem summaryData_eq {h : HistoryBlock} {first : HoleRecord} (hf : h.records.head? = some first) (r : HoleRecord) :
    summaryData h r = layout (
      [(2, r.number.toNat), (2, r.row), (1, r.slot), (1, r.planned), (1, r.cells.length), (1, verdictCode r.verdict),
        (1, memberSet [r.flags.mixShort, r.flags.overshoot, r.flags.softTarget, r.flags.proceeded,
          r.flags.extraCharge, r.flags.lostCells, r.flags.resetCut]),
        (1, memberSet [r.charge.isSome, r.target.isSome, r.band.isSome, r.quarterRevs.isSome, r.peak.isSome]),
        (1, r.outcome.code), (1, r.voidCount), (1, r.softCount), (1, r.hardCount), (1, r.charge.getD 0),
        (2, r.target.getD 0), (1, r.pushed), (1, r.band.getD 0), (1, r.quarterRevs.getD 0), (2, r.peak.getD 0),
        (2, first.number.toNat), (2, (h.records.getLast?.map fun x => x.number.toNat).getD 0)]) := by
  simp only [summaryData, RecordFlags.toByte, setByte_eq_u8, numberBytes, orZero, ringEnds_eq hf, layout_cons, layout_nil,
    fieldBytes_one, fieldBytes_two, List.append_nil, List.append_assoc]

theorem length_summaryData (h : HistoryBlock) (r : HoleRecord) : (summaryData h r).length = 26 := by
  simp [summaryData, ringEnds, numberBytes, u8, u16]

/-- A cell record, field by field; the CAPPED mark is the top bit of the class (12 R204). -/
theorem cellBytes_eq (number : Nat) (c : CellRecord) : cellBytes number c = layout
    [(1, number), (1, c.cls.code + 128 * c.capped.toNat), (2, c.n), (3, c.energy), (3, c.specificEnergy),
      (2, c.meanThrust)] := by
  have hcapped : (if c.capped then 128 else 0) = 128 * c.capped.toNat := by cases c.capped <;> rfl
  simp only [cellBytes, hcapped, layout_cons, layout_nil, fieldBytes_one, fieldBytes_two, fieldBytes_three, List.append_nil,
    List.append_assoc]

/-! ### SELECT_HOLE (10 R171, R172) -/

section Select

variable {host : Transaction} {number : HoleNo} {s : State} (hheld : s.resetHeld = false) (hcut : host.cut = false)
include hheld hcut

theorem exec_selectHole_present {r : HoleRecord} (hr : s.history.present number = some r) :
    exec (.selectHole number host) s = .next (answered host s .ok (summaryData s.history r)
      (s.onHistory fun h => { h with selection := .hole number, pointer := 0 })) := by
  simp only [exec, execSelectHole, hr]
  exact taken hheld hcut

theorem exec_selectHole_absent (hr : s.history.present number = none) :
    exec (.selectHole number host) s = .next (answered host s .gone (goneData s.history)
      (s.onHistory fun h => { h with selection := .none, pointer := 0 })) := by
  simp only [exec, execSelectHole, hr]
  exact taken hheld hcut

end Select

/-- A number is absent from an empty ring, and where its place lies beyond the newest record (10 R171). -/
theorem present_eq_none {h : HistoryBlock} {number : HoleNo}
    (ha : ∀ first, h.records.head? = some first → h.records.length ≤ (number - first.number).toNat) :
    h.present number = none := by
  cases hf : h.records.head? with
  | none => simp [HistoryBlock.present, HistoryBlock.oldest, hf]
  | some first => rw [present_of_head hf, List.getElem?_eq_none (ha first hf)]

/-- Settles O43. -/
theorem selectHoleMovesTheWindow : Obligations.SelectHoleMovesTheWindow := by
  intro host number s hheld hcut
  refine ⟨fun first r hf hr => ?_, fun ha => ?_, goneData_of_empty, fun first last hf hl => goneData_of_ends hf hl⟩
  · exact ⟨exec_selectHole_present hheld hcut ((present_of_head hf number).trans hr), length_summaryData _ _,
      summaryData_eq hf r⟩
  · exact exec_selectHole_absent hheld hcut (present_eq_none ha)

/-! ### READ_CELLS (10 R173 to R175) -/

/-- The cell of a number, or no bytes where there is none. -/
def cellAt (cells : List CellRecord) (number : Nat) : List Byte := ((cells[number]?).map fun c => cellBytes number c).getD []

theorem cellsBytes_eq (cells : List CellRecord) (numbers : List Nat) :
    cellsBytes cells numbers = numbers.flatMap (cellAt cells) := by
  unfold cellsBytes
  congr 1
  funext k
  unfold cellAt
  cases cells[k]? <;> rfl

/-- Upward, the cells from the pointer on (10 R174). -/
theorem cellsBytes_up (cells : List CellRecord) (pointer count closed : Nat) :
    cellsBytes cells (cellsUp pointer count closed) =
      (List.range (min count (closed - pointer))).flatMap fun i => cellAt cells (pointer + i) := by
  rw [cellsBytes_eq, cellsUp, List.range'_eq_map_range, List.flatMap_map]

/-- Downward, the cells below the pointer in falling order (10 R175). -/
theorem cellsBytes_down (cells : List CellRecord) (pointer count : Nat) : cellsBytes cells (cellsDown pointer count) =
    (List.range (min count pointer)).flatMap fun i => cellAt cells (pointer - 1 - i) := by
  have hback : pointer - min count pointer + min count pointer - 1 = pointer - 1 := by omega
  rw [cellsBytes_eq, cellsDown, List.reverse_range', hback, List.flatMap_map]

theorem readCells_argsOk {count direction : Byte} (h : 1 ≤ count.toNat ∧ count.toNat ≤ 8 ∧ direction.toNat ≤ 1) :
    (!within 1 count.toNat 8 || decide (1 < direction.toNat)) = false := by
  simp only [within, Bool.or_eq_false_iff, Bool.not_eq_false', Bool.and_eq_true, decide_eq_true_eq, decide_eq_false_iff_not]
  omega

section Read

variable {host : Transaction} {count direction : Byte} {s : State} (hheld : s.resetHeld = false) (hcut : host.cut = false)
include hheld hcut

/-- Arguments out of range are refused before the selection is looked at (10 R173). -/
theorem exec_readCells_badArg (h : count.toNat < 1 ∨ 8 < count.toNat ∨ 1 < direction.toNat) :
    exec (.readCells count direction host) s = .next (answered host s .badArg [] s) := by
  have hbad : (!within 1 count.toNat 8 || decide (1 < direction.toNat)) = true := by
    simp only [within, Bool.or_eq_true, Bool.not_eq_true', Bool.and_eq_false_iff, decide_eq_true_eq, decide_eq_false_iff_not]
    omega
  simp only [exec, execReadCells, hbad, if_true]
  exact taken hheld hcut

variable (hargs : 1 ≤ count.toNat ∧ count.toNat ≤ 8 ∧ direction.toNat ≤ 1)
include hargs

theorem exec_readCells_none (hs : s.history.selection = .none) :
    exec (.readCells count direction host) s = .next (answered host s .badState [] s) := by
  simp only [exec, execReadCells, readCells_argsOk hargs, hs, Bool.false_eq_true, if_false]
  exact taken hheld hcut

theorem exec_readCells_gone {n : HoleNo} (hs : s.history.selection = .gone n) :
    exec (.readCells count direction host) s = .next (answered host s .gone (goneData s.history) s) := by
  simp only [exec, execReadCells, readCells_argsOk hargs, hs, Bool.false_eq_true, if_false]
  exact taken hheld hcut

end Read

theorem exec_readCells_hole {host : Transaction} {count direction : Byte} {s : State} {n : HoleNo} {r : HoleRecord}
    (hargs : 1 ≤ count.toNat ∧ count.toNat ≤ 8 ∧ direction.toNat ≤ 1) (hs : s.history.selection = .hole n)
    (hr : s.history.present n = some r) : exec (.readCells count direction host) s =
      inTransaction host s (readCells n r.cells count.toNat (direction.toNat == 0) s) := by
  simp only [exec, execReadCells, readCells_argsOk hargs, hs, hr, Bool.false_eq_true, if_false]

/-- The reply of a read in either direction, with the pointer it leaves (10 R173). -/
theorem taken_answerCells {host : Transaction} {s : State} (hheld : s.resetHeld = false) (hcut : host.cut = false) (n : HoleNo)
    (cells : List CellRecord) (numbers : List Nat) (pointer : Nat) (atEnd : Bool) :
    (inTransaction host s (answerCells n cells numbers pointer atEnd s) : Host.Outcome State Fault Refusal) =
      .next (answered host s .ok (u16 n.toNat ++ u8 numbers.length ++ u8 pointer ++ flag atEnd ++ cellsBytes cells numbers)
        (s.onHistory fun h => { h with pointer := pointer })) :=
  taken hheld hcut

theorem length_cellsUp (pointer count closed : Nat) :
    (cellsUp pointer count closed).length = min count (closed - pointer) := by simp [cellsUp]

theorem length_cellsDown (pointer count : Nat) : (cellsDown pointer count).length = min count pointer := by simp [cellsDown]

/-- Settles O44: the refusals in their order, and the two directions by the numbers of the cells they return. -/
theorem readCellsWalksThePointer : Obligations.ReadCellsWalksThePointer := by
  refine ⟨cellBytes_eq, fun host count direction s hheld hcut => ⟨exec_readCells_badArg hheld hcut, fun h1 h8 hdir => ?_⟩⟩
  have hargs : 1 ≤ count.toNat ∧ count.toNat ≤ 8 ∧ direction.toNat ≤ 1 := ⟨h1, h8, hdir⟩
  refine ⟨exec_readCells_none hheld hcut hargs, fun n => exec_readCells_gone hheld hcut hargs,
    fun n r hs hr _ hup returned hret => ?_, fun n r hs hr _ hdown returned hret => ?_⟩
  · subst hup hret
    rw [exec_readCells_hole hargs hs hr]
    refine (taken_answerCells hheld hcut n r.cells (cellsUp s.history.pointer count.toNat r.cells.length) _ _).trans ?_
    rw [length_cellsUp, cellsBytes_up]
    rfl
  · subst hdown hret
    rw [exec_readCells_hole hargs hs hr]
    refine (taken_answerCells hheld hcut n r.cells (cellsDown s.history.pointer count.toNat) _ _).trans ?_
    rw [length_cellsDown, cellsBytes_down]
    rfl

end Sys2Proof.Machine

/-! PROOFS. O3 to O6, O60: the hold, the starting events, and what holds right after power-on (11 R180, R186 to R188). -/

namespace Sys2Proof.Machine

/-! ### No event while the part is held, and no cut transaction (11 R180, R187) -/

theorem unlessHeld_of_held {φ ρ : Type} {s new : State} (h : s.resetHeld = true) :
    (unlessHeld s new : Host.Outcome State φ ρ) = .next s := by simp [unlessHeld_next, h]

/-- Every command but the starting events, the rise of RESET_N and the tick stands under `unlessHeld`. -/
theorem exec_of_held {c : Instr} {s : State} (hheld : s.resetHeld = true) (hp : ∀ levels, c ≠ .powerOn levels)
    (hl : c ≠ .resetLine) (hr : ∀ levels, c ≠ .resetNRise levels) (ht : c ≠ .timebaseTick) : exec c s = .next s := by
  cases c with
  | powerOn levels => exact absurd rfl (hp levels)
  | resetLine => exact absurd rfl hl
  | resetNRise levels => exact absurd rfl (hr levels)
  | timebaseTick => exact absurd rfl ht
  | _ => exact unlessHeld_of_held hheld

theorem noteCanopy_false (s : State) : s.noteCanopy false = s := by simp [State.noteCanopy]

section Cut

variable {host : Transaction} {s new : State} (hheld : s.resetHeld = false) (hcut : host.cut = true)
include hheld hcut

/-- A cut transaction of a command that brings no rise of CANOPY_SET leaves all as it was. -/
theorem inTransaction_of_cut : (inTransaction host s new : Host.Outcome State Fault Refusal) = .next (s.noteCanopy false) := by
  rw [inTransaction, unlessHeld_of_awake hheld, transacted_cut hcut, noteCanopy_false]

/-- A cut transaction leaves the level of CANOPY_SET that came with it (log 24). -/
theorem unlessHeld_of_cut (rise : Bool) :
    (unlessHeld s (transacted host (s.noteCanopy rise) new) : Host.Outcome State Fault Refusal)
      = .next (s.noteCanopy rise) := by
  rw [unlessHeld_of_awake hheld, transacted_cut hcut]

end Cut

/-- A transaction that was cut is not taken, whatever its command. -/
theorem exec_of_cut {c : Instr} {host : Transaction} {s : State} (ht : c.transaction = some host) (hcut : host.cut = true)
    (hheld : s.resetHeld = false) : exec c s = .next (s.noteCanopy c.canopyRise) := by
  cases c with
  | startHole _ _ _ rise _ | abort rise _ | resume rise _ | proceed rise _ =>
    obtain rfl := Option.some.inj ht
    exact unlessHeld_of_cut hheld hcut rise
  | fetch _ | badFrame _ | configure _ _ | abandon _ | readState _ | readAttention _ | serviceDone _ | setWatch _ _ _ _
  | readSensors _ | unlatch _ | readFlow _ | readNeighbours _ _ | readLink _ | selectHole _ _ | readCells _ _ _ =>
    obtain rfl := Option.some.inj ht
    exact inTransaction_of_cut hheld hcut
  | _ => cases ht

/-- Settles O3. -/
theorem heldPartTakesNoEvent : Obligations.HeldPartTakesNoEvent :=
  ⟨fun _ _ hheld hp hl hr ht => exec_of_held hheld hp hl hr ht, fun _ _ _ ht hcut hheld => exec_of_cut ht hcut hheld⟩

/-! ### The starting events (11 R186, R187) -/

/-- Every block of `t` but the pins, the timebase, the hole number, the ring and the valve port stands as at power-on. -/
structure BlocksReset (t : State) : Prop where
  cycle : t.cycle =
    { State.reset.cycle with timebase := t.cycle.timebase, holeNumber := t.cycle.holeNumber }
  sensor : t.sensor = State.reset.sensor
  assembler : t.assembler = State.reset.assembler
  neighbours : t.neighbours = State.reset.neighbours
  anchor : t.anchor = State.reset.anchor
  resin : t.resin = State.reset.resin
  torque : t.torque = State.reset.torque
  claims : t.flow.peers = [] ∧ t.flow.allowance = 0 ∧ t.flow.flowCut = false ∧ t.flow.schedule = none
    ∧ t.flow.setpoints = zeroSetpoints
  flowReq : t.flowReq = false
  link : t.link = State.reset.link
  window : t.history.selection = .none ∧ t.history.pointer = 0
  host : t.host = State.reset.host

/-- The blocks as they stand at power-on are the values of 11 R188. -/
theorem BlocksReset.startingValues {t : State} (h : BlocksReset t) : StartingValues t where
  cycle := by
    rw [h.cycle]
    exact ⟨rfl, rfl, rfl, rfl, rfl, rfl, rfl, rfl, rfl, rfl, rfl⟩
  sensor := h.sensor
  assembler := h.assembler
  neighbours := h.neighbours
  anchor := h.anchor
  resin := h.resin
  torque := h.torque
  flow := by
    obtain ⟨hpeers, hallowance, hcut, hschedule, hzero⟩ := h.claims
    exact ⟨hpeers, hallowance, hcut, hschedule, hzero, h.flowReq, by rw [State.strokeOut, h.resin]; rfl⟩
  link := h.link
  window := h.window
  ltx := by
    rw [State.ltx, h.link]
    rfl
  host := by
    rw [State.attnLow, h.host]
    exact ⟨rfl, rfl, rfl, rfl, rfl, rfl⟩
  watch := by
    rw [h.host]
    rfl

/-- Both ways in which a starting event starts the interlock (08 R134). -/
theorem interlockStarts_of_flow {f : FlowBlock} {valveReady : Bool} {now : Time} {t : State}
    (hi : t.flow.interlock = (f.startInterlock valveReady now).interlock)
    (hd : t.flow.releaseDeadline = (f.startInterlock valveReady now).releaseDeadline) : InterlockStarts valveReady now t := by
  cases valveReady
  · exact ⟨fun _ => ⟨hi, hd⟩, nofun⟩
  · exact ⟨nofun, fun _ => ⟨hi, hd⟩⟩

/-- The interlock is all of the valve port that a starting event chooses (08 R134). -/
theorem startInterlock_eq (f : FlowBlock) (valveReady : Bool) (now : Time) : f.startInterlock valveReady now =
    { f with
      interlock := (f.startInterlock valveReady now).interlock
      releaseDeadline := (f.startInterlock valveReady now).releaseDeadline } := by
  cases valveReady <;> rfl

/-- Settles O4. -/
theorem powerOnSetsEveryBlock : Obligations.PowerOnSetsEveryBlock := by
  refine ⟨rfl, fun levels s => ⟨_, rfl, ?_⟩⟩
  obtain ⟨hreq, hallowance, hcut, hzero, -⟩ := startInterlock_flow State.reset.flow levels.valveReady 0
  have hflow := startInterlock_eq State.reset.flow levels.valveReady 0
  refine ⟨BlocksReset.startingValues ⟨rfl, rfl, rfl, rfl, rfl, rfl, rfl, ⟨?_, hallowance, hcut, ?_, hzero⟩, hreq, rfl,
    ⟨rfl, rfl⟩, rfl⟩, rfl, rfl, rfl, rfl, interlockStarts_of_flow rfl rfl, ?_, ?_, ?_, rfl, rfl, rfl⟩
  all_goals
    dsimp only [State.onFlow]
    rw [hflow]
    rfl

/-- The OPEN record cut by the reset line (10 R168). -/
theorem finish_cut (h : HistoryBlock) : (h.finish .aborted true).records =
    onOpen (fun r => { r with verdict := some .aborted, flags := { r.flags with resetCut := true } }) h.records := by
  simp [HistoryBlock.finish, onOpen]

/-- Settles O5. -/
theorem resetLineCutsTheHole : Obligations.ResetLineCutsTheHole := by
  intro s
  refine ⟨_, rfl, BlocksReset.startingValues ⟨rfl, rfl, rfl, rfl, rfl, rfl, rfl, ⟨rfl, rfl, rfl, rfl, rfl⟩, ?_, rfl,
    ⟨rfl, rfl⟩, rfl⟩, rfl, rfl, rfl, finish_cut s.history, rfl, rfl, rfl, rfl, rfl, rfl, rfl⟩
  cases s.valveReady <;> simp [State.flowReq, heldFlow]

/-- Settles O6. -/
theorem resetNRiseEndsTheHold : Obligations.ResetNRiseEndsTheHold := by
  intro levels s hheld
  refine ⟨_, congrArg Host.Outcome.next (if_pos hheld), interlockStarts_of_flow rfl rfl, ?_⟩
  dsimp only [State.onFlow]
  rw [startInterlock_eq s.flow]
  rfl

/-! ### Right after power-on -/

theorem reset_cycleSound : CycleSound State.reset :=
  ⟨rfl, rfl, nofun, rfl, nofun, nofun, Nat.le_refl 0, nofun, nofun, nofun⟩

theorem reset_flowSound : FlowSound State.reset := flowSound_of_unconfigured rfl rfl rfl rfl rfl rfl rfl

theorem reset_timersSound : TimersSound State.reset := ⟨rfl, rfl, rfl, rfl, rfl⟩

/-- No phase runs or stands remembered after power-on. -/
theorem reset_inPhase (p : Phase) : inPhase State.reset p = false := by cases p <;> rfl

theorem reset_chargeSound : ChargeSound State.reset where
  outcome := nofun
  retract := fun h => absurd h (by simp [reset_inPhase])
  charged := fun p _ h => absurd h (by simp [reset_inPhase])
  range := nofun
  torque := fun h => absurd h (by simp [reset_inPhase])
  notEntered := fun p _ _ => rfl
  decide := nofun

/-- The ring is empty after power-on (10 R169). -/
theorem reset_records : State.reset.history.records = [] := rfl

theorem reset_historySound : HistorySound State.reset where
  pool := by
    rw [reset_records]
    rfl
  ring := Nat.zero_le 16
  cells := by simp [reset_records]
  newest := by simp [reset_records]
  inProgress := by simp [reset_records]

theorem reset_numbersSound : NumbersSound State.reset := fun i r h => by simp [reset_records] at h

theorem reset_assemblerSound : AssemblerSound State.reset :=
  ⟨nofun, nofun, Nat.zero_le _, rfl, Nat.zero_le _, Nat.zero_le _⟩

theorem reset_attentionSound : AttentionSound State.reset := ⟨.nil, Nat.zero_le 4⟩

theorem reset_watchSound : WatchSound State.reset := ⟨rfl, nofun, nofun⟩

theorem reset_sensorSound : SensorSound State.reset :=
  ⟨rfl, rfl, fun _ => ⟨rfl, rfl⟩, ⟨by decide, .inl rfl⟩, nofun, nofun, by decide, fun _ => rfl⟩

theorem reset_linkSound : LinkSound State.reset :=
  ⟨⟨Nat.zero_le 4, nofun⟩, nofun, nofun, rfl, fun _ => rfl, nofun, nofun⟩

theorem reset_configSound : ConfigSound State.reset := ⟨rfl, nofun, fun _ => rfl, rfl⟩

/-- Settles O60: State.reset meets each invariant, having nothing configured, in progress or stored. -/
theorem everythingIsSoundAtReset : Obligations.EverythingIsSoundAtReset :=
  ⟨reset_cycleSound, reset_flowSound, fun _ => nofun, reset_timersSound, reset_chargeSound, reset_historySound,
    reset_numbersSound, nofun,
    reset_assemblerSound, reset_attentionSound, reset_watchSound, reset_sensorSound, reset_linkSound, reset_configSound,
    ⟨Nat.zero_le 16, .nil⟩, ⟨.nil, nofun, fun _ => nofun⟩⟩

end Sys2Proof.Machine

/-! PROOFS. O47: the one evaluation of the watch at the end of an event (11 R196). -/

namespace Sys2Proof.Machine

/-! ### The watch at the end of an event -/

/-- The notice and the setpoints are no watch inputs. -/
theorem watchInputs_finish (old s : State) : watchInputs (finish old s) = watchInputs s := by simp [watchInputs]

/-- The end of an event changes the host's block by one evaluation, if an input has changed (11 R196). -/
theorem finish_host (old s : State) : (finish old s).host =
    if watchInputs s = watchInputs old then s.host else s.host.evaluate (watchInputs s) := by
  have hw : ∀ u, (watchAfter old u).host =
      if watchInputs u = watchInputs old then u.host else u.host.evaluate (watchInputs u) := fun _ => rfl
  have hi : ∀ wanted, watchInputs (sendSetpoints (placeDemandIf wanted s)) = watchInputs s := fun _ => by simp [watchInputs]
  rw [finish, hw, hi]
  simp

/-- What both ends of an event come to: the work's host block, evaluated on the inputs that the event leaves if they have
changed. -/
theorem host_of_event {old work t : State} (h : t = event old work ∨ t = finish old work) : t.host =
    if watchInputs t = watchInputs old then work.host else work.host.evaluate (watchInputs t) := by
  obtain rfl | rfl := h
  · rw [event, watchInputs_finish, finish_host, settle_host]
  · rw [watchInputs_finish, finish_host]

/-! ### One evaluation (11 R196) -/

section Evaluate

variable {h : HostBlock} {inputs : WatchInputs}

theorem evaluate_fires (ha : h.watch.arming = .armed) (hy : h.watch.y = false) (hv : h.watch.value inputs = true) :
    h.evaluate inputs =
      { h with watch := { h.watch with y := true, arming := .fired }, raised := h.raised.set .watch true } := by
  simp [HostBlock.evaluate, ha, hy, hv]

theorem evaluate_armed (ha : h.watch.arming = .armed) (hy : h.watch.y = true ∨ h.watch.value inputs = false) :
    h.evaluate inputs = { h with watch := { h.watch with y := h.watch.value inputs } } := by
  have hno : (!h.watch.y && h.watch.value inputs) = false := by
    obtain hy | hy := hy <;> simp [hy]
  simp [HostBlock.evaluate, ha, hno]

theorem evaluate_fired (ha : h.watch.arming = .fired) :
    h.evaluate inputs = { h with watch := { h.watch with y := h.watch.value inputs } } := by
  simp [HostBlock.evaluate, ha]

theorem evaluate_served (ha : h.watch.arming = .served) : h.evaluate inputs =
    { h with watch := { h.watch with y := h.watch.value inputs, fell := h.watch.fell || !h.watch.value inputs } } := by
  simp [HostBlock.evaluate, ha]

theorem evaluate_waitFalse (ha : h.watch.arming = .waitFalse) : h.evaluate inputs =
    { h with watch := { h.watch with
        y := h.watch.value inputs, arming := if h.watch.value inputs then .waitFalse else .armed } } := by
  simp [HostBlock.evaluate, ha]

end Evaluate

/-- Settles O47: one row of R196's table for each arming state. -/
theorem watchIsEvaluatedOncePerEvent : Obligations.WatchIsEvaluatedOncePerEvent := by
  intro old work t h
  have hhost := host_of_event h
  refine ⟨fun hi => ?_, fun hi y hy => ?_⟩
  · rw [if_pos hi] at hhost
    rw [hhost]
    exact ⟨rfl, rfl⟩
  · rw [if_neg hi] at hhost
    rw [hhost]
    subst hy
    refine ⟨HostBlock.evaluate_y _ _, fun ha hf hv => ?_, fun ha hrow => ?_, fun ha => ?_, fun ha => ?_, fun ha => ?_⟩
    · rw [evaluate_fires ha hf hv]
      exact ⟨rfl, rfl⟩
    · rw [evaluate_armed ha hrow]
      exact ⟨rfl, rfl⟩
    · rw [evaluate_fired ha]
      exact ⟨rfl, rfl⟩
    · rw [evaluate_served ha]
      exact ⟨rfl, rfl⟩
    · rw [evaluate_waitFalse ha]
      exact ⟨rfl, rfl⟩

end Sys2Proof.Machine

/-! PROOFS. O58: what an event keeps of the attention unit, the watch and the sample port (11 R190, R193, R196, 02 R29, R34). -/

namespace Sys2Proof.Machine

/-! ### What is kept -/

/-- What is kept from `s` to `t`. -/
structure AttentionKeeps (s t : State) : Prop where
  attention : AttentionSound s → AttentionSound t
  watch : WatchSound s → WatchSound t
  sensor : SensorSound s → SensorSound t

theorem AttentionKeeps.refl (s : State) : AttentionKeeps s s := ⟨id, id, id⟩

theorem AttentionKeeps.trans {s t u : State} (h : AttentionKeeps s t) (k : AttentionKeeps t u) : AttentionKeeps s u :=
  ⟨fun x => k.attention (h.attention x), fun x => k.watch (h.watch x), fun x => k.sensor (h.sensor x)⟩

theorem AttentionKeeps.ite {s t u : State} {c : Prop} [Decidable c] (h : c → AttentionKeeps s t)
    (k : ¬c → AttentionKeeps s u) : AttentionKeeps s (if c then t else u) := by split_ifs with hc; exacts [h hc, k hc]

/-- A run of events keeps what each of them keeps. -/
theorem AttentionKeeps.foldl {α : Type} {f : State → α → State} (hf : ∀ s a, AttentionKeeps s (f s a)) (l : List α) :
    ∀ s, AttentionKeeps s (l.foldl f s) := by
  induction l with
  | nil => exact AttentionKeeps.refl
  | cons a l ih => exact fun s => (hf s a).trans (ih _)

/-- SensorSound reads the sample port alone. -/
theorem SensorSound.congr {s t : State} (h : SensorSound s) (e : t.sensor = s.sensor) : SensorSound t := by
  obtain ⟨h1, h2, h3, h4, h5, h6, h7⟩ := h
  constructor <;> rw [e] <;> assumption

/-! ### The work of an event -/

/-- What the work of an event does to the attention unit and the sample port: it may queue faults and raise any source but
WATCH, and may change the watch's inputs, but leaves the stack and the watch to the event's end. -/
structure AttentionWork (s w : State) : Prop where
  stack : w.host.stack = s.host.stack
  faults : s.host.faults.length ≤ 4 → w.host.faults.length ≤ 4
  watch : w.host.watch = s.host.watch
  raised : w.host.raised.watch = s.host.raised.watch
  sensor : SensorSound s → SensorSound w

theorem AttentionWork.of_blocks {s w : State} (hh : w.host = s.host) (hs : w.sensor = s.sensor) : AttentionWork s w :=
  ⟨by rw [hh], by rw [hh]; exact id, by rw [hh], by rw [hh], fun x => x.congr hs⟩

theorem AttentionWork.refl (s : State) : AttentionWork s s := .of_blocks rfl rfl

theorem AttentionWork.trans {s w v : State} (h : AttentionWork s w) (k : AttentionWork w v) : AttentionWork s v :=
  ⟨k.stack.trans h.stack, fun x => k.faults (h.faults x), k.watch.trans h.watch, k.raised.trans h.raised,
    fun x => k.sensor (h.sensor x)⟩

theorem AttentionWork.ite {s w v : State} {c : Prop} [Decidable c] (h : c → AttentionWork s w) (k : ¬c → AttentionWork s v) :
    AttentionWork s (if c then w else v) := by split_ifs with hc; exacts [h hc, k hc]

/-- A full queue takes a fault in place of its newest entry (11 R194). -/
theorem length_joinFault {faults : List FaultEntry} (h : faults.length ≤ 4) (code : FaultCode) :
    (joinFault code faults).length ≤ 4 := by
  unfold joinFault
  split_ifs <;> simp <;> omega

theorem queueFault_work (code : FaultCode) (s : State) : AttentionWork s (queueFault code s) :=
  ⟨rfl, fun h => length_joinFault h code, rfl, rfl, fun x => x.congr rfl⟩

/-- Raising a source other than WATCH leaves WATCH's pending bit (11 R189). -/
theorem raiseSource_work {src : Source} (h : src ≠ .watch) (s : State) : AttentionWork s (raiseSource src s) where
  stack := rfl
  faults := id
  watch := rfl
  raised := by
    cases src with
    | watch => exact absurd rfl h
    | _ => rfl
  sensor := fun x => x.congr rfl

/-! ### The end of an event -/

/-- The value of an expression is that of its mask, sense and combination (11 R195). -/
theorem Watch.value_congr {w v : Watch} (hm : w.mask = v.mask) (hs : w.activeFalse = v.activeFalse) (hc : w.isAnd = v.isAnd)
    (inputs : WatchInputs) : w.value inputs = v.value inputs := by
  simp only [Watch.value, hm, hs, hc]

/-- What an arming state promises: WATCH pending in FIRED, and the FELL mark clear in WAIT_FALSE (11 R196, R198). -/
def ArmingSound (h : HostBlock) : Prop :=
  (h.watch.arming = .fired → h.raised.watch = true) ∧ (h.watch.arming = .waitFalse → h.watch.fell = false)

/-- Each row of R196's table keeps the promise of the arming state it leads to. -/
theorem ArmingSound.evaluate {h : HostBlock} (hs : ArmingSound h) (inputs : WatchInputs) :
    ArmingSound (h.evaluate inputs) := by
  obtain ⟨hfired, hfell⟩ := hs
  cases ha : h.watch.arming with
  | armed =>
    by_cases hf : h.watch.y = false ∧ h.watch.value inputs = true
    · rw [evaluate_fires ha hf.1 hf.2]
      exact ⟨fun _ => rfl, nofun⟩
    · have hrow : h.watch.y = true ∨ h.watch.value inputs = false := by
        simpa only [not_and_or, Bool.not_eq_false, Bool.not_eq_true] using hf
      rw [evaluate_armed ha hrow]
      exact ⟨hfired, hfell⟩
  | fired =>
    rw [evaluate_fired ha]
    exact ⟨hfired, hfell⟩
  | served =>
    rw [evaluate_served ha]
    exact ⟨hfired, fun hw => absurd (ha.symm.trans hw) (by decide)⟩
  | waitFalse =>
    rw [evaluate_waitFalse ha]
    refine ⟨fun hf => ?_, fun _ => hfell ha⟩
    dsimp only at hf
    split_ifs at hf

/-- WatchSound by the watch's inputs and the host block. -/
theorem watchSound_iff (s : State) :
    WatchSound s ↔ s.host.watch.y = s.host.watch.value (watchInputs s) ∧ ArmingSound s.host :=
  ⟨fun ⟨hy, hfired, hfell⟩ => ⟨hy, hfired, hfell⟩, fun ⟨hy, hfired, hfell⟩ => ⟨hy, hfired, hfell⟩⟩

section Work

variable {s w : State} (h : AttentionWork s w)
include h

theorem AttentionWork.armingSound (hs : ArmingSound s.host) : ArmingSound w.host := by
  unfold ArmingSound
  rw [h.watch, h.raised]
  exact hs

theorem AttentionWork.attentionSound (hs : AttentionSound s) : AttentionSound w :=
  ⟨by rw [h.stack]; exact hs.stack, h.faults hs.faults⟩

/-- The end of an event evaluates the watch on the inputs that its work has led to. -/
theorem AttentionWork.finish : AttentionKeeps s (finish s w) where
  attention := fun hs => by
    obtain ⟨hstack, hfaults⟩ := h.attentionSound hs
    exact ⟨by simpa using hstack, by simpa using hfaults⟩
  watch := fun hs => by
    obtain ⟨hy, harm⟩ := (watchSound_iff s).1 hs
    rw [watchSound_iff, watchInputs_finish, finish_host]
    split_ifs with hi
    · exact ⟨by rw [h.watch, hi, hy], h.armingSound harm⟩
    · obtain ⟨hm, hf, ha⟩ := w.host.evaluate_expression (watchInputs w)
      refine ⟨?_, (h.armingSound harm).evaluate _⟩
      rw [HostBlock.evaluate_y]
      exact (Watch.value_congr hm hf ha _).symm
  sensor := fun hs => (h.sensor hs).congr (by simp)

/-- What settles between the work and the end is no concern of the host's block or the sample port. -/
theorem AttentionWork.settle : AttentionWork s (settle w) := h.trans (.of_blocks (by simp) (by simp))

theorem AttentionWork.event : AttentionKeeps s (event s w) := h.settle.finish

/-- Work that changes no watch input needs no evaluation. -/
theorem AttentionWork.keeps (hi : watchInputs w = watchInputs s) : AttentionKeeps s w where
  attention := h.attentionSound
  watch := fun hs => by
    obtain ⟨hy, harm⟩ := (watchSound_iff s).1 hs
    exact (watchSound_iff w).2 ⟨by rw [h.watch, hi, hy], h.armingSound harm⟩
  sensor := h.sensor

/-- What comes after may change every block but the host's and the sample port. -/
theorem AttentionWork.then {v : State} (hh : v.host = w.host) (hs : v.sensor = w.sensor) : AttentionWork s v :=
  h.trans (.of_blocks hh hs)

end Work

/-! ### The works of the cycle's events -/

/-- A completion raises HOLE_DONE (01 R26). -/
theorem AttentionWork.complete {s w : State} (h : AttentionWork s w) (v : Verdict) : AttentionWork s (complete v w) := by
  unfold Machine.complete
  exact (h.then (by simp) (by simp)).trans (raiseSource_work (src := .holeDone) (by simp) _)

theorem endRetract_attentionWork (s : State) : AttentionWork s (endRetract s) := by
  have hu : AttentionWork s (s.onCycle fun c => { c with retractTimer := .disarmed }) := .of_blocks rfl rfl
  unfold endRetract
  dsimp only
  split
  · exact hu.complete _
  · exact hu.complete _
  · refine .ite (fun _ => ?_) fun _ => hu.then (by simp) (by simp)
    exact hu.trans (.trans (.of_blocks (by rfl) (by rfl)) (raiseSource_work (src := .decide) (by simp) (enterState .decide _)))

theorem torqueSample_attentionWork (q : Nat) (s : State) : AttentionWork s (torqueSample q s) :=
  .ite (fun _ => .complete (.of_blocks (by rfl) (by rfl)) _) fun _ => .of_blocks rfl rfl

theorem torquePulse_attentionWork (s : State) : AttentionWork s (torquePulse s) :=
  .ite (fun _ => .complete (.of_blocks (by rfl) (by rfl)) _) fun _ => .of_blocks rfl rfl

theorem strokeTimeout_attentionWork (s : State) : AttentionWork s (strokeTimeout s) := by
  have hu : AttentionWork s (s.onResin fun r => { r with stroke := .idle, strokeTimer := .disarmed }) := .of_blocks rfl rfl
  refine .ite (fun _ => hu.complete _) fun _ => .ite (fun _ => ?_) fun _ => ?_
  · exact (hu.trans (queueFault_work _ _)).complete _
  · exact .ite (fun _ => hu.then (by simp) (by simp)) fun _ => hu.then rfl rfl

theorem strokeCounted_attentionWork (s : State) : AttentionWork s (strokeCounted s) := by
  refine .ite (fun _ => .complete (.of_blocks (by rfl) (by rfl)) _) fun _ => .ite (fun _ => ?_) fun _ => ?_
  · exact .of_blocks (by simp) (by simp)
  · exact .ite (fun _ => .of_blocks (by simp) (by simp)) fun _ => .of_blocks rfl rfl

/-- MUTE queues DUPLICATE and may suspend the phase (09 R154, R155, 01 R20). -/
theorem muteStation_attentionWork (c : MuteCause) (s : State) : AttentionWork s (muteStation c s) := by
  refine .ite (fun _ => .refl s) fun _ => ?_
  exact (queueFault_work .duplicate s).then (muteCycle_host _) (muteCycle_sensor _)

/-- An eviction raises HISTORY (10 R166). -/
theorem reserveRecord_attentionWork (number : HoleNo) (row slot planned : Nat) (s : State) :
    AttentionWork s (reserveRecord number row slot planned s) where
  stack := rfl
  faults := id
  watch := rfl
  raised := by
    simp only [reserveRecord, State.onHost]
    split_ifs <;> rfl
  sensor := fun x => x.congr rfl

theorem startedHole_attentionWork (row slot planned : Nat) (s : State) :
    AttentionWork s (startedHole row slot planned s) := by
  unfold startedHole
  exact (reserveRecord_attentionWork (nextHole s) row slot planned s).then (by simp [freshHole]) (by simp [freshHole])

theorem abortSuspended_attentionWork (s : State) : AttentionWork s (abortSuspended s) := by
  have hcomplete : AttentionWork s (complete .aborted (shortEnd s)) :=
    .complete (.of_blocks (by simp) (by simp)) _
  have hretract : AttentionWork s (abortDrilling s) := .of_blocks (by simp [abortDrilling]) (by simp [abortDrilling])
  unfold abortSuspended
  dsimp only
  split
  · exact .ite (fun _ => hcomplete) fun _ => hretract
  · exact .ite (fun _ => hcomplete) fun _ => hretract
  · exact .ite (fun _ => (AttentionWork.refl s).complete _) fun _ =>
      .ite (fun _ => .of_blocks (by simp) (by simp)) fun _ => .of_blocks (by simp) (by simp)
  · exact (AttentionWork.refl s).complete _

theorem reenter_attentionWork (target : Phase) (s : State) : AttentionWork s (reenter target s) := by
  cases target with
  | retract => exact .ite (fun _ => .of_blocks (by simp) (by simp)) fun _ => .of_blocks (by simp) (by simp)
  | hold => exact .ite (fun _ => .of_blocks (by simp) (by simp)) fun _ => .of_blocks (by simp) (by simp)
  | _ => exact .of_blocks (by simp [reenter]) (by simp [reenter])

/-- The expiry that a remainder of 0 brings in RESUME's own event (log 31). -/
theorem zeroRemainder_attentionWork (s : State) : AttentionWork s (zeroRemainder s) :=
  .ite (fun _ => ((AttentionWork.refl s).complete _).settle) fun _ =>
    .ite (fun _ => (strokeTimeout_attentionWork s).settle) fun _ => .refl s

end Sys2Proof.Machine

/-! PROOFS. O58: the sample port, and every command. -/

namespace Sys2Proof.Machine

/-! ### The sample port (02 R29, R34) -/

/-- New live members that agree with the deadlines keep the port sound: they are latched at once, or were so already, or have
not changed (02 R34). -/
theorem SensorSound.takeLive {s : State} (h : SensorSound s) {last : Option Sample} {link pulse : Option Time}
    {live : StatusGroup} (hlink : live.linkUp = link.isSome) (hpulse : live.pulseActive = pulse.isSome) :
    SensorSound (s.onSensor fun p =>
      ({ p with last := last, linkDeadline := link, pulseDeadline := pulse }).takeLive live) where
  linkUp := by simpa using hlink
  pulseActive := by simpa using hpulse
  unlatched := by
    simp only [State.onSensor_sensor, SensorBlock.takeLive]
    split_ifs with hsame
    · intro hl
      obtain ⟨hread, hsnap⟩ := h.unlatched hl
      obtain hlive | hlatched := hsame
      · exact ⟨hread, hsnap.trans hlive.symm⟩
      · exact absurd (hl.symm.trans hlatched) (by decide)
    · exact nofun
  assembly := by simpa using h.assembly
  byte := by simpa using h.byte
  low := by simpa using h.low
  gap := by simpa using h.gap

theorem storeSample_attentionWork (raw : Sample) (s : State) : AttentionWork s (storeSample raw s) :=
  ⟨rfl, id, rfl, rfl, fun h => h.takeLive (last := some raw.clamp) (pulse := s.sensor.pulseDeadline) rfl h.pulseActive⟩

theorem notePulse_attentionWork (s : State) : AttentionWork s (notePulse s) :=
  ⟨rfl, id, rfl, rfl, fun h => h.takeLive (last := s.sensor.last) (link := s.sensor.linkDeadline) h.linkUp rfl⟩

/-- PULSE_ACTIVE falls with its deadline (02 R33). -/
theorem pulseFall_attentionWork (s : State) : AttentionWork s
    (s.onSensor fun p => ({ p with pulseDeadline := none }).takeLive { p.live with pulseActive := false }) :=
  ⟨rfl, id, rfl, rfl, fun h => h.takeLive (last := s.sensor.last) (link := s.sensor.linkDeadline) h.linkUp rfl⟩

/-- LINK_UP falls with its deadline, and the phase may be suspended (01 R18, 02 R32). -/
theorem linkFall_attentionWork (s : State) : AttentionWork s (linkFall s) := by
  have hfall : AttentionWork s
      (s.onSensor fun p => ({ p with linkDeadline := none }).takeLive { p.live with linkUp := false }) :=
    ⟨rfl, id, rfl, rfl, fun h => h.takeLive (last := s.sensor.last) (pulse := s.sensor.pulseDeadline) rfl h.pulseActive⟩
  have htaint := (hfall.trans (queueFault_work .sensorLost _)).then (taintCell_host _) (taintCell_sensor _)
  unfold linkFall sensorSuspension
  split
  · exact .ite (fun _ => htaint.then (suspend_host _ _) (suspend_sensor _ _)) fun _ => htaint
  · exact htaint

/-- UNLATCH clears the latch, or latches the live members at once (02 R36). -/
theorem unlatch_attentionWork (s : State) : AttentionWork s (s.onSensor SensorBlock.unlatch) := by
  refine ⟨rfl, id, rfl, rfl, fun h => ?_⟩
  by_cases hsame : s.sensor.live = s.sensor.snapshot
  · rw [State.onSensor, unlatch_same hsame]
    exact ⟨h.linkUp, h.pulseActive, fun _ => ⟨rfl, hsame.symm⟩, h.assembly, h.byte, h.low, h.gap⟩
  · rw [State.onSensor, unlatch_differs hsame]
    exact ⟨h.linkUp, h.pulseActive, nofun, h.assembly, h.byte, h.low, h.gap⟩

/-- READ_SENSORS marks a latched group as read (02 R35). -/
theorem readMark_attentionWork (s : State) :
    AttentionWork s (s.onSensor fun p => { p with readMark := p.readMark || p.latched }) := by
  refine ⟨rfl, id, rfl, rfl, fun h => ⟨h.linkUp, h.pulseActive, fun hl => ?_, h.assembly, h.byte, h.low, h.gap⟩⟩
  obtain ⟨hread, hsnap⟩ := h.unlatched hl
  have hl : s.sensor.latched = false := hl
  exact ⟨by simp [hread, hl], hsnap⟩

/-! ### The bit periods of SRX (02 R29) -/

/-- A byte leaves a part of a record that starts with the sync byte, or none, and none after a low stop bit (02 R29). -/
theorem feedSrx_assembly {assembly : List Byte} (h : assembly = [] ∨ assembly.head? = some sampleSync) (value : Byte)
    (stopHigh : Bool) (hlen : assembly.length < 12) :
    (feedSrx assembly value stopHigh).1.length < 12
      ∧ ((feedSrx assembly value stopHigh).1 = [] ∨ (feedSrx assembly value stopHigh).1.head? = some sampleSync)
      ∧ (stopHigh = false → (feedSrx assembly value stopHigh).1 = []) := by
  unfold feedSrx
  split_ifs with hstop hempty hsync
  · simp
  · simp_all
  · simp_all
  · have hne : assembly ≠ [] := by simpa using hempty
    have hhead : (assembly ++ [value]).head? = some sampleSync := by
      rw [List.head?_append_of_ne_nil _ hne, h.resolve_left hne]
    by_cases hwhole : assembly.length = 11
    · simp [hwhole]
    · simp [hwhole, hhead, show stopHigh = true by simpa using hstop]
      omega

/-- The receiver and the record at the stop bit of a byte (02 R29). -/
theorem byteTaken_attentionWork {s : State} {data : List Bool} (hr : s.sensor.receiver = .byte data) (value : Byte)
    (stopHigh : Bool) : AttentionWork s (s.onSensor fun p =>
      { p with receiver := if stopHigh then .idle else .low, assembly := (feedSrx s.sensor.assembly value stopHigh).1 }) := by
  refine ⟨rfl, id, rfl, rfl, fun h => ?_⟩
  obtain ⟨hlen, hsync, hlow⟩ := feedSrx_assembly h.assembly.2 value stopHigh h.assembly.1
  have hgap : s.sensor.gap = 0 := h.gap.2 (.inl (by simp [hr]))
  refine ⟨h.linkUp, h.pulseActive, h.unlatched, ⟨hlen, hsync⟩, ?_, ?_, ?_⟩
  · cases stopHigh <;> simp
  · cases stopHigh
    · exact fun _ => hlow rfl
    · simp
  · simp [hgap]

theorem handSample_attentionKeeps (x : Sample) (s : State) : AttentionKeeps s (handSample x s) := by
  unfold handSample
  split
  · exact (AttentionWork.of_blocks (by simp) (by simp)).event
  · exact (AttentionWork.of_blocks (by simp) (by simp)).event
  · exact .ite (fun _ => (endRetract_attentionWork s).event) fun _ => .refl s
  · exact (torqueSample_attentionWork _ s).event
  · exact .refl s

theorem takeRecord_attentionKeeps (record : List Byte) (s : State) : AttentionKeeps s (takeRecord record s) := by
  unfold takeRecord
  split
  · rename_i raw _
    exact ((storeSample_attentionWork raw s).keeps rfl).trans (handSample_attentionKeeps _ _)
  · exact .refl s

theorem takeByte_attentionKeeps {s : State} {data : List Bool} (hr : s.sensor.receiver = .byte data) (value : Byte)
    (stopHigh : Bool) : AttentionKeeps s (takeByte value stopHigh s) := by
  have hu := (byteTaken_attentionWork hr value stopHigh).keeps rfl
  unfold takeByte
  dsimp only
  split
  · exact hu.trans (takeRecord_attentionKeeps _ _)
  · exact hu

/-- A high bit period is counted only between two bytes of a record, and the 461st discards it (02 R29). -/
theorem highBit_attentionWork {s : State} (hr : s.sensor.receiver = .idle) :
    AttentionWork s (s.onSensor SensorBlock.highBit) := by
  refine ⟨rfl, id, rfl, rfl, fun h => ?_⟩
  unfold State.onSensor SensorBlock.highBit
  split_ifs with hempty hlimit
  · exact h
  · exact ⟨h.linkUp, h.pulseActive, h.unlatched, ⟨by simp, .inl rfl⟩, h.byte, fun _ => rfl, by simp⟩
  · have hne : s.sensor.assembly ≠ [] := by simpa using hempty
    simp only [srxGapLimit] at hlimit
    exact ⟨h.linkUp, h.pulseActive, h.unlatched, h.assembly, h.byte, h.low, by simp; omega, by simp [hr, hne]⟩

theorem takeSrxBit_attentionKeeps (s : State) (bit : Bool) : AttentionKeeps s (takeSrxBit s bit) := by
  unfold takeSrxBit
  split
  · rename_i hr
    cases bit
    · refine AttentionWork.keeps ⟨rfl, id, rfl, rfl, fun h => ?_⟩ rfl
      exact ⟨h.linkUp, h.pulseActive, h.unlatched, h.assembly, by simp, by simp, by simp⟩
    · exact (highBit_attentionWork hr).keeps rfl
  · rename_i data hr
    refine .ite (fun hlen => ?_) fun _ => takeByte_attentionKeeps hr _ bit
    refine AttentionWork.keeps ⟨rfl, id, rfl, rfl, fun h => ?_⟩ rfl
    have hgap : s.sensor.gap = 0 := h.gap.2 (.inl (by simp [hr]))
    exact ⟨h.linkUp, h.pulseActive, h.unlatched, h.assembly, by simp; omega, by simp, by simp [hgap]⟩
  · rename_i hr
    refine .ite (fun _ => AttentionWork.keeps ⟨rfl, id, rfl, rfl, fun h => ?_⟩ rfl) fun _ => .refl s
    have hgap : s.sensor.gap = 0 := h.gap.2 (.inl (by simp [hr]))
    exact ⟨h.linkUp, h.pulseActive, h.unlatched, h.assembly, by simp, by simp, by simp [hgap]⟩

/-! ### Updates that concern none of this -/

/-- Neither the host's block nor the sample port nor a watch input has changed. -/
theorem AttentionKeeps.of_blocks {s t : State} (hh : t.host = s.host) (hs : t.sensor = s.sensor)
    (hi : watchInputs t = watchInputs s) : AttentionKeeps s t := (AttentionWork.of_blocks hh hs).keeps hi

theorem onLink_attentionKeeps (s : State) (f : LinkBlock → LinkBlock) : AttentionKeeps s (s.onLink f) :=
  .of_blocks rfl rfl rfl

theorem onResin_attentionKeeps (s : State) (f : ResinBlock → ResinBlock) : AttentionKeeps s (s.onResin f) :=
  .of_blocks rfl rfl rfl

theorem onCycle_attentionKeeps (s : State) (f : CycleBlock → CycleBlock) : AttentionKeeps s (s.onCycle f) :=
  .of_blocks rfl rfl rfl

theorem onHistory_attentionKeeps (s : State) (f : HistoryBlock → HistoryBlock) : AttentionKeeps s (s.onHistory f) :=
  .of_blocks rfl rfl rfl

theorem setReply_attentionWork (status : Status) (data : List Byte) (s : State) : AttentionWork s (setReply status data s) :=
  ⟨rfl, id, rfl, rfl, fun h => h.congr rfl⟩

theorem AttentionKeeps.reply {s t : State} (h : AttentionKeeps s t) (status : Status) (data : List Byte) :
    AttentionKeeps s (setReply status data t) := h.trans ((setReply_attentionWork status data t).keeps rfl)

theorem AttentionWork.accept {s w : State} (h : AttentionWork s w) (data : List Byte) : AttentionKeeps s (accept s w data) :=
  h.event.reply _ _

theorem setReply_attentionKeeps (status : Status) (data : List Byte) (s : State) :
    AttentionKeeps s (setReply status data s) := (AttentionKeeps.refl s).reply _ _

/-! ### Pulses and pins -/

theorem handPulse_attentionKeeps (s : State) : AttentionKeeps s (handPulse s) := by
  unfold handPulse
  split
  · exact (AttentionWork.of_blocks (by simp) (by simp)).event
  · exact (torquePulse_attentionWork s).event
  · exact .refl s

theorem canopyFall_attentionKeeps (s : State) : AttentionKeeps s (canopyFall s) := by
  unfold canopyFall
  split
  · refine AttentionWork.event (.ite (fun _ => (queueFault_work _ s).complete _) fun _ => ?_)
    exact (queueFault_work _ s).then (suspend_host _ _) (suspend_sensor _ _)
  · exact .refl s

theorem valveFall_attentionKeeps (s : State) : AttentionKeeps s (valveFall s { s with valveReady := false }) := by
  unfold valveFall
  split
  · exact (AttentionWork.of_blocks (by rfl) (by rfl)).event
  · exact (AttentionWork.of_blocks (by rfl) (by rfl)).event
  · exact .of_blocks rfl rfl rfl

/-! ### The rig link -/

theorem routeFrame_attentionKeeps (f : LinkFrame) (s : State) : AttentionKeeps s (routeFrame f s) := by
  have hmute := (muteStation_attentionWork .heard s).event
  refine .ite (fun _ => ?_) fun _ => .ite (fun _ => ?_) fun _ => .refl s
  all_goals
    split
    · exact .refl s
    · exact .ite (fun _ => hmute) fun _ => (AttentionWork.of_blocks (by rfl) (by rfl)).event

theorem endFrame_attentionKeeps (s : State) : AttentionKeeps s (endFrame s) := by
  have hu := onLink_attentionKeeps s fun l => l.endReceived (crcGood (frameRead s.link.assembly))
  refine .ite (fun _ => .ite (fun _ => hu.trans ?_) fun _ => hu) fun _ => .refl s
  exact .ite (fun _ => .refl _) fun _ => routeFrame_attentionKeeps _ _

theorem overridden_attentionKeeps (f : LinkFrame) (bit : Nat) (s : State) : AttentionKeeps s (overridden f bit s) := by
  have hlost : AttentionWork s (s.onLink fun l => l.follow f bit) := .of_blocks rfl rfl
  exact .ite (fun _ => onLink_attentionKeeps s _) fun _ =>
    (hlost.trans (muteStation_attentionWork .overridden _)).event.trans (endFrame_attentionKeeps _)

theorem readBack_attentionKeeps (f : LinkFrame) (bit : Bool) (s : State) : AttentionKeeps s (readBack f bit s) :=
  .ite (fun _ => .ite (fun _ => onLink_attentionKeeps s _) fun _ => onLink_attentionKeeps s _) fun _ =>
    .ite (fun _ => onLink_attentionKeeps s _) fun _ => overridden_attentionKeeps f _ s

theorem readLine_attentionKeeps (bit : Bool) (s : State) : AttentionKeeps s (readLine s bit) := by
  unfold readLine
  split
  · exact .refl s
  · exact onLink_attentionKeeps s _
  · exact onLink_attentionKeeps s _
  · split
    · exact (onLink_attentionKeeps s _).trans (endFrame_attentionKeeps _)
    · exact readBack_attentionKeeps _ bit s

theorem takeBit_attentionKeeps (s : State) (bit : Bool) : AttentionKeeps s (takeBit s bit) :=
  (AttentionKeeps.ite (fun _ => onLink_attentionKeeps s _) fun _ => .refl s).trans (readLine_attentionKeeps bit _)

/-! ### Host commands to the cycle -/

theorem startHole_attentionKeeps (row slot planned : Nat) (s : State) : AttentionKeeps s (startHole row slot planned s) := by
  have hreply := fun status => setReply_attentionKeeps status [] s
  exact .ite (fun _ => hreply _) fun _ => .ite (fun _ => hreply _) fun _ => .ite (fun _ => hreply _) fun _ =>
    .ite (fun _ => hreply _) fun _ => (startedHole_attentionWork row slot planned s).accept _

theorem abort_attentionKeeps (s : State) : AttentionKeeps s (abort s) := by
  have hdrilling : AttentionWork s (abortDrilling s) := .of_blocks (by simp [abortDrilling]) (by simp [abortDrilling])
  have hcomplete := (AttentionWork.refl s).complete .aborted
  unfold abort
  split
  · exact setReply_attentionKeeps _ _ s
  · exact setReply_attentionKeeps _ _ s
  · exact hdrilling.accept _
  · exact hdrilling.accept _
  · exact (onCycle_attentionKeeps s _).reply _ _
  · exact .ite (fun _ => (onCycle_attentionKeeps s _).reply _ _) fun _ => hcomplete.accept _
  · exact (abortSuspended_attentionWork s).accept _
  · exact hcomplete.accept _

theorem resume_attentionKeeps (s : State) : AttentionKeeps s (resume s) := by
  refine .ite (fun _ => setReply_attentionKeeps _ _ s) fun _ => ?_
  split
  · exact setReply_attentionKeeps _ _ s
  · rename_i target _
    refine .ite (fun _ => setReply_attentionKeeps _ _ s) fun _ => ?_
    exact ((reenter_attentionWork target s).settle.trans (zeroRemainder_attentionWork _)).finish.reply _ _

theorem proceed_attentionKeeps (s : State) : AttentionKeeps s (proceed s) := by
  have hreply := fun status => setReply_attentionKeeps status [] s
  exact .ite (fun _ => hreply _) fun _ => .ite (fun _ => hreply _) fun _ => .ite (fun _ => hreply _) fun _ =>
    AttentionWork.accept (.of_blocks (by simp) (by simp)) _

/-! ### The attention unit (11 R189 to R192, R197, R198) -/

/-- The source taken is pending and outranks the top of the stack (11 R190, R191). -/
theorem qualifying_outranks {h : HostBlock} {src : Source} (hq : h.qualifying = some src) :
    outranksTop h.stack src = true := by
  have hfound := List.find?_some hq
  simp only [Bool.and_eq_true] at hfound
  exact hfound.2

/-- A source that outranks the top of a rising stack outranks all of it (11 R190). -/
theorem stack_pairwise_cons {stack : List Source} {src : Source} (ho : outranksTop stack src = true)
    (hs : stack.Pairwise fun upper lower => upper.priority < lower.priority) :
    (src :: stack).Pairwise fun upper lower => upper.priority < lower.priority := by
  cases stack with
  | nil => simp
  | cons top rest =>
    have htop : src.priority < top.priority := by simpa [outranksTop] using ho
    refine List.pairwise_cons.2 ⟨fun lower hl => ?_, hs⟩
    obtain rfl | hl := List.mem_cons.1 hl
    · exact htop
    · exact htop.trans ((List.pairwise_cons.1 hs).1 lower hl)

theorem takeSource_stack (src : Source) (h : HostBlock) : (takeSource src h).stack = src :: h.stack := by cases src <;> rfl

theorem takeSource_faults_length (src : Source) (h : HostBlock) : (takeSource src h).faults.length ≤ h.faults.length := by
  cases src <;> simp [takeSource]

/-- Taking WATCH enters SERVED, and taking another source leaves the watch and its pending bit (11 R191, R198). -/
theorem takeSource_armingSound {h : HostBlock} (hs : ArmingSound h) (src : Source) : ArmingSound (takeSource src h) := by
  cases src with
  | watch => exact ⟨nofun, nofun⟩
  | _ => exact hs

theorem takeSource_watch_y (src : Source) (h : HostBlock) (inputs : WatchInputs) :
    (takeSource src h).watch.y = h.watch.y ∧ (takeSource src h).watch.value inputs = h.watch.value inputs := by
  cases src <;> exact ⟨rfl, rfl⟩

theorem takeSource_attentionKeeps {s : State} {src : Source} (hq : s.host.qualifying = some src) (draws : Nat) :
    AttentionKeeps s { s.onHost (takeSource src) with freeDraws := draws } where
  attention := fun hs =>
    ⟨(takeSource_stack src s.host).symm ▸ stack_pairwise_cons (qualifying_outranks hq) hs.stack,
      (takeSource_faults_length src s.host).trans hs.faults⟩
  watch := fun hs => by
    obtain ⟨hy, harm⟩ := (watchSound_iff s).1 hs
    obtain ⟨hy', hv⟩ := takeSource_watch_y src s.host (watchInputs s)
    exact (watchSound_iff _).2 ⟨hy'.trans (hy.trans hv.symm), takeSource_armingSound harm src⟩
  sensor := fun hs => hs.congr rfl

/-- R198's table: what each row leaves of the watch and its pending bit. -/
theorem rearmWatch_armingSound {h : HostBlock} (hs : ArmingSound h) : ArmingSound h.rearmWatch := by
  unfold HostBlock.rearmWatch
  split_ifs with hserved hfell hy
  · exact hs
  · exact ⟨nofun, fun _ => by simpa using hfell⟩
  · exact ⟨fun _ => rfl, nofun⟩
  · exact ⟨nofun, nofun⟩

theorem rearmWatch_keeps (h : HostBlock) (inputs : WatchInputs) : h.rearmWatch.stack = h.stack
    ∧ h.rearmWatch.faults = h.faults ∧ h.rearmWatch.watch.y = h.watch.y
    ∧ h.rearmWatch.watch.value inputs = h.watch.value inputs := by
  unfold HostBlock.rearmWatch
  split_ifs <;> exact ⟨rfl, rfl, rfl, rfl⟩

/-- SERVICE_DONE's stack, faults and watch (11 R192, R198). -/
theorem serviced_keeps (h : HostBlock) (top : Source) (rest : List Source) (inputs : WatchInputs) :
    (h.serviced top rest).stack = rest ∧ (h.serviced top rest).faults = h.faults
      ∧ (h.serviced top rest).watch.y = h.watch.y
      ∧ (h.serviced top rest).watch.value inputs = h.watch.value inputs := by
  unfold HostBlock.serviced
  dsimp only
  split_ifs
  · exact rearmWatch_keeps _ inputs
  · exact ⟨rfl, rfl, rfl, rfl⟩

theorem serviced_armingSound {h : HostBlock} (hs : ArmingSound h) (top : Source) (rest : List Source) :
    ArmingSound (h.serviced top rest) := by
  have hpopped : ArmingSound { h with stack := rest } := hs
  unfold HostBlock.serviced
  dsimp only
  split_ifs
  · exact rearmWatch_armingSound hpopped
  · exact hpopped

theorem serviced_attentionKeeps {s : State} {top : Source} {rest : List Source} (hstack : s.host.stack = top :: rest) :
    AttentionKeeps s (s.onHost fun h => h.serviced top rest) := by
  obtain ⟨hst, hfaults, hy', hv⟩ := serviced_keeps s.host top rest (watchInputs s)
  refine ⟨fun hs => ⟨?_, ?_⟩, fun hs => ?_, fun hs => hs.congr rfl⟩
  · rw [State.onHost_host, hst]
    exact (List.pairwise_cons.1 (hstack ▸ hs.stack)).2
  · rw [State.onHost_host, hfaults]
    exact hs.faults
  · obtain ⟨hy, harm⟩ := (watchSound_iff s).1 hs
    exact (watchSound_iff _).2 ⟨hy'.trans (hy.trans hv.symm), serviced_armingSound harm top rest⟩

/-- SET_WATCH arms the watch with Y computed from the present inputs (11 R197). -/
theorem setWatch_attentionKeeps (mask sense combination : Byte) (s : State) :
    AttentionKeeps s (s.onHost fun h => { h with
      watch := Watch.ofBytes mask sense combination (watchInputs s), raised := h.raised.set .watch false }) :=
  ⟨fun hs => ⟨hs.stack, hs.faults⟩, fun _ => ⟨rfl, nofun, nofun⟩, fun hs => hs.congr rfl⟩

/-! ### The starting events (11 R186 to R188) -/

/-- The values of both starting events: an empty stack, no fault, an empty expression and an empty sample port. -/
theorem attentionKeeps_of_reset {s t : State} (hh : t.host = State.reset.host) (hs : t.sensor = State.reset.sensor) :
    AttentionKeeps s t where
  attention := fun _ => ⟨by simp [hh, State.reset], by simp [hh, State.reset]⟩
  watch := fun _ => (watchSound_iff t).2 ⟨by rw [hh]; rfl, by rw [hh]; exact ⟨nofun, nofun⟩⟩
  sensor := fun _ => reset_sensorSound.congr hs

/-- The interlock is no watch input. -/
theorem resetNRise_attentionKeeps {s t : State} (levels : InputLevels) (e : execResetNRise levels s = .next t) :
    AttentionKeeps s t := by
  obtain rfl := Host.Outcome.next.inj e
  refine .ite (fun _ => .of_blocks rfl rfl ?_) fun _ => .refl s
  obtain ⟨-, -, hcut, -⟩ := startInterlock_flow s.flow levels.valveReady s.now
  simpa [watchInputs] using hcut

/-! ### The commands -/

section Commands

variable {s t : State}

theorem AttentionKeeps.of_unlessHeld {new : State} (h : AttentionKeeps s new)
    (e : (unlessHeld s new : Host.Outcome State Fault Refusal) = .next t) : AttentionKeeps s t := by
  rw [unlessHeld_next, Host.Outcome.next.injEq] at e
  subst e
  exact .ite (fun _ => .refl s) fun _ => h

theorem AttentionKeeps.transacted (h : AttentionKeeps s t) (host : Transaction) :
    AttentionKeeps s (transacted host s t) := by
  refine .ite (fun _ => .refl s) fun _ => h.trans (AttentionWork.keeps ?_ rfl)
  exact ⟨rfl, id, rfl, rfl, fun x => x.congr rfl⟩

theorem AttentionKeeps.of_inTransaction {new : State} {host : Transaction} (h : AttentionKeeps s new)
    (e : (inTransaction host s new : Host.Outcome State Fault Refusal) = .next t) : AttentionKeeps s t :=
  .of_unlessHeld (h.transacted host) e

/-- A host command that may bring a rise of CANOPY_SET. -/
theorem AttentionKeeps.of_rise {f : State → State} {rise : Bool} {host : Transaction} (hf : ∀ u, AttentionKeeps u (f u))
    (e : (unlessHeld s (Machine.transacted host (s.noteCanopy rise) (f (s.noteCanopy rise))) : Host.Outcome State Fault Refusal)
      = .next t) : AttentionKeeps s t := by
  have hu : AttentionKeeps s (s.noteCanopy rise) := .of_blocks rfl rfl rfl
  exact .of_unlessHeld (hu.trans ((hf _).transacted host)) e

/-- An expiry whose work is an event. -/
theorem AttentionKeeps.of_due {c : Prop} [Decidable c] {w : State} (h : AttentionWork s w)
    (e : (unlessHeld s (if c then event s w else s) : Host.Outcome State Fault Refusal) = .next t) : AttentionKeeps s t :=
  .of_unlessHeld (.ite (fun _ => h.event) fun _ => .refl s) e

theorem configure_attentionKeeps (record : List Byte) (host : Transaction) (e : execConfigure record s host = .next t) :
    AttentionKeeps s t := by
  have hreply := fun status => setReply_attentionKeeps status [] s
  refine .of_inTransaction (.ite (fun _ => hreply _) fun _ => .ite (fun _ => hreply _) fun _ => ?_) e
  split
  · exact hreply _
  · rename_i c _
    have hw : AttentionWork s (configured c s) := ⟨rfl, id, rfl, rfl, fun x => x.congr rfl⟩
    exact hw.accept _

theorem readCells_attentionKeeps (count direction : Byte) (host : Transaction)
    (e : execReadCells count direction s host = .next t) : AttentionKeeps s t := by
  have hreply := fun status data => setReply_attentionKeeps status data s
  have hmoved := fun pointer => onHistory_attentionKeeps s fun h => { h with pointer := pointer }
  refine .of_inTransaction (.ite (fun _ => hreply _ _) fun _ => ?_) e
  split
  · exact hreply _ _
  · exact hreply _ _
  · split
    · exact .ite (fun _ => (hmoved _).reply _ _) fun _ => (hmoved _).reply _ _
    · exact hreply _ _

/-- A new schedule changes no watch input, nor does the notice placed with it. -/
theorem demandSchedule_attentionKeeps (schedule : Option Time) (s : State) :
    AttentionKeeps s (placeDemandIf true (s.onFlow fun f => { f with schedule := schedule })) := .of_blocks rfl rfl rfl

theorem releaseDeadline_attentionKeeps (s : State) :
    AttentionKeeps s ((queueFault .valveStuck s).onFlow fun f => { f with releaseDeadline := none }) :=
  ((queueFault_work .valveStuck s).then (by rfl) (by rfl)).keeps (by rfl)

/-- Every command keeps the attention unit, the watch and the sample port sound: it is an event, whose end evaluates the watch,
or it changes no watch input. -/
theorem exec_attentionKeeps (c : Instr) (e : exec c s = .next t) : AttentionKeeps s t := by
  cases c with
  | powerOn levels =>
    obtain rfl := Host.Outcome.next.inj e
    exact attentionKeeps_of_reset rfl rfl
  | resetLine =>
    obtain rfl := Host.Outcome.next.inj e
    exact attentionKeeps_of_reset rfl rfl
  | resetNRise levels => exact resetNRise_attentionKeeps levels e
  | timebaseTick =>
    obtain rfl := Host.Outcome.next.inj e
    exact onCycle_attentionKeeps s _
  | sampleRecord bits => exact .of_unlessHeld (.foldl takeSrxBit_attentionKeeps bits s) e
  | linkDeadlineExpiry => exact .of_due (linkFall_attentionWork s) e
  | rotPulse =>
    exact .of_unlessHeld (((notePulse_attentionWork s).keeps rfl).trans (handPulse_attentionKeeps _)) e
  | pulseDeadlineExpiry =>
    exact .of_unlessHeld (.ite (fun _ => (pulseFall_attentionWork s).keeps rfl) fun _ => .refl s) e
  | canopySetFall =>
    have hlow : AttentionKeeps s { s with canopySet := false } := .of_blocks rfl rfl rfl
    exact .of_unlessHeld (.ite (fun _ => hlow.trans (canopyFall_attentionKeeps _)) fun _ => .refl s) e
  | valveReadyRise =>
    have hhigh : AttentionKeeps s { s with valveReady := true } := .of_blocks rfl rfl rfl
    exact .of_unlessHeld (.ite (fun _ => (AttentionWork.of_blocks (by rfl) (by rfl)).event) fun _ => hhigh) e
  | valveReadyFall => exact .of_unlessHeld (.ite (fun _ => valveFall_attentionKeeps s) fun _ => .refl s) e
  | strokeDone => exact .of_due (strokeCounted_attentionWork s) e
  | fetch host => exact .of_inTransaction (setReply_attentionKeeps _ _ s) e
  | badFrame host => exact .of_inTransaction (setReply_attentionKeeps _ _ s) e
  | configure record host => exact configure_attentionKeeps record host e
  | startHole row slot planned rise host =>
    exact .of_rise (startHole_attentionKeeps row.toNat slot.toNat planned.toNat) e
  | abort rise host => exact .of_rise abort_attentionKeeps e
  | resume rise host => exact .of_rise resume_attentionKeeps e
  | proceed rise host => exact .of_rise proceed_attentionKeeps e
  | abandon host =>
    exact .of_inTransaction (.ite (fun _ => setReply_attentionKeeps _ _ s) fun _ =>
      ((AttentionWork.refl s).complete .rejected).accept _) e
  | readState host => exact .of_inTransaction (setReply_attentionKeeps _ _ s) e
  | readAttention host =>
    refine .of_inTransaction ?_ e
    split
    · exact setReply_attentionKeeps _ _ s
    · rename_i hq
      exact (takeSource_attentionKeeps hq _).reply _ _
  | serviceDone host =>
    refine .of_inTransaction ?_ e
    split
    · exact setReply_attentionKeeps _ _ s
    · rename_i hstack
      exact (serviced_attentionKeeps hstack).reply _ _
  | setWatch mask sense combination host =>
    exact .of_inTransaction (.ite (fun _ => setReply_attentionKeeps _ _ s) fun _ =>
      (setWatch_attentionKeeps mask sense combination s).reply _ _) e
  | readSensors host => exact .of_inTransaction (((readMark_attentionWork s).keeps rfl).reply _ _) e
  | unlatch host =>
    exact .of_inTransaction (.ite (fun _ => setReply_attentionKeeps _ _ s) fun _ =>
      .ite (fun _ => setReply_attentionKeeps _ _ s) fun _ => ((unlatch_attentionWork s).keeps rfl).reply _ _) e
  | readFlow host => exact .of_inTransaction (setReply_attentionKeeps _ _ s) e
  | readNeighbours index host =>
    exact .of_inTransaction (.ite (fun _ => setReply_attentionKeeps _ _ s) fun _ => setReply_attentionKeeps _ _ s) e
  | readLink host => exact .of_inTransaction ((onLink_attentionKeeps s _).reply _ _) e
  | selectHole number host =>
    refine .of_inTransaction ?_ e
    split <;> exact (onHistory_attentionKeeps s _).reply _ _
  | readCells count direction host => exact readCells_attentionKeeps count direction host e
  | collarTimerExpiry => exact .of_due ((queueFault_work .collarTimeout s).then (by simp) (by simp)) e
  | retractTimerExpiry => exact .of_due ((queueFault_work .retractStuck s).then (by simp) (by simp)) e
  | stallWindowExpiry =>
    refine .of_due (AttentionWork.then (.trans (.of_blocks (by simp) (by simp)) (queueFault_work .stall (shortEnd s))) ?_ ?_) e
    all_goals simp
  | strokeTimerExpiry => exact .of_due (strokeTimeout_attentionWork s) e
  | strokeGapExpiry => exact .of_due (.of_blocks (by rfl) (by rfl)) e
  | mixDeadlineExpiry =>
    exact .of_unlessHeld (.ite (fun _ => .ite (fun _ => (AttentionWork.of_blocks (by simp) (by simp)).event) fun _ =>
      onResin_attentionKeeps s _) fun _ => .refl s) e
  | holdDeadlineExpiry =>
    have hu := onResin_attentionKeeps s fun r => { r with holdDeadline := none }
    exact .of_unlessHeld (.ite (fun _ => .ite (fun _ => (AttentionWork.of_blocks (by simp) (by simp)).event) fun _ =>
      .ite (fun _ => hu.trans (onResin_attentionKeeps _ _)) fun _ => hu) fun _ => .refl s) e
  | torqueTimerExpiry => exact .of_due ((AttentionWork.refl s).complete .torqueTimeout) e
  | releaseDeadlineExpiry =>
    exact .of_unlessHeld (.ite (fun _ => releaseDeadline_attentionKeeps s) fun _ => .refl s) e
  | demandScheduleExpiry =>
    refine .of_unlessHeld ?_ e
    split
    · exact .ite (fun _ => demandSchedule_attentionKeeps _ s) fun _ => .refl s
    · exact .refl s
  | staleDeadlineExpiry station => exact .of_unlessHeld (.of_blocks (by rfl) (by rfl) (by rfl)) e
  | removalDeadlineExpiry station => exact .of_due (.of_blocks (by rfl) (by rfl)) e
  | demandFrameReceived bits => exact .of_unlessHeld (.foldl takeBit_attentionKeeps bits s) e
  | holeFrameReceived bits => exact .of_unlessHeld (.foldl takeBit_attentionKeeps bits s) e
  | seekingComplete => exact .of_unlessHeld (.ite (fun _ => onLink_attentionKeeps s _) fun _ => .refl s) e
  | frameStart recessive =>
    exact .of_unlessHeld (.ite (fun _ => (onLink_attentionKeeps s _).trans (onLink_attentionKeeps _ _)) fun _ => .refl s) e
  | frameSent => exact .of_unlessHeld (.ite (fun _ => onLink_attentionKeeps s _) fun _ => .refl s) e
  | arbitrationLost bit =>
    refine .of_unlessHeld ?_ e
    split
    · exact .ite (fun _ => overridden_attentionKeeps _ bit s) fun _ => .refl s
    · exact .refl s
  | transmitFault bit =>
    refine .of_unlessHeld ?_ e
    split
    · exact .ite (fun _ => onLink_attentionKeeps s _) fun _ => .refl s
    · exact .refl s
  | duplicateOverridden bit =>
    refine .of_unlessHeld ?_ e
    split
    · exact .ite (fun _ => overridden_attentionKeeps _ bit s) fun _ => .refl s
    · exact .refl s
  | setpointRecordEnd =>
    exact .of_unlessHeld (.ite (fun _ => .of_blocks (by simp) (by simp) (by simp [watchInputs])) fun _ => .refl s) e

end Commands

/-- Settles O58: a command is an event, whose work leaves the watch to the one evaluation at its end (`AttentionWork.event`), or
changes no watch input; the sample port is kept bit by bit (`takeSrxBit_attentionKeeps`). -/
theorem stepsKeepTheAttentionSound : Obligations.StepsKeepTheAttentionSound := by
  intro s t e
  have hk : AttentionKeeps s t := by
    unfold step at e
    split at e
    · obtain rfl := Host.Outcome.next.inj e
      exact .refl s
    · rename_i c rest _
      have hu : AttentionKeeps s { s with pending := rest } := .of_blocks rfl rfl rfl
      exact hu.trans (exec_attentionKeeps c e)
  exact ⟨hk.attention, hk.watch, hk.sensor⟩

end Sys2Proof.Machine

/-! PROOFS. O45, O46: the attention unit and the watch by the host's commands (11 R189 to R192, R195, R197, R198). -/

namespace Sys2Proof.Machine

/-! ### READ_ATTENTION (11 R190, R191) -/

section ReadAttention

variable {host : Transaction} {s : State} (hheld : s.resetHeld = false) (hcut : host.cut = false)
include hheld hcut

theorem exec_readAttention_none (hq : s.host.qualifying = none) :
    exec (.readAttention host) s = .next (answered host s .none [] s) := by
  simp only [exec, execReadAttention, hq]
  exact taken hheld hcut

/-- The source taken, where its data name an item that exists, so that no free byte is drawn (11 R191, log 16). -/
theorem exec_readAttention_some {src : Source} (hq : s.host.qualifying = some src) {data : List Byte}
    (hd : sourceData s src = (data, 0)) : exec (.readAttention host) s =
      .next (answered host s .ok (u8 src.code ++ data) (s.onHost (takeSource src))) := by
  simp only [exec, execReadAttention, hq, hd]
  exact taken hheld hcut

end ReadAttention

theorem sourceData_fault {s : State} {e : FaultEntry} {rest : List FaultEntry} (h : s.host.faults = e :: rest) :
    sourceData s .fault = (u8 e.code.code ++ flag e.overflow ++ u8 rest.length, 0) := by
  simp [sourceData, h, orUnstated]

theorem sourceData_decide {s : State} {n : HoleNo} (h : s.cycle.holeNumber = some n) :
    sourceData s .decide = (u16 n.toNat, 0) := by
  simp [sourceData, h, orUnstated, numberBytes]

/-- The newest finished record is the last one before the records that are OPEN (11 R191). -/
theorem newestFinished_eq {h : HistoryBlock} {before after : List HoleRecord} {r : HoleRecord} {v : Verdict}
    (hr : h.records = before ++ r :: after) (hopen : ∀ q ∈ after, q.isOpen = true) (hv : r.verdict = some v) :
    h.newestFinished = some r := by
  have hskip : after.reverse.find? (fun q => !q.isOpen) = none := by
    rw [List.find?_eq_none]
    intro q hq
    simp [hopen q (List.mem_reverse.1 hq)]
  have hfound : r.isOpen = false := by simp [HoleRecord.isOpen, hv]
  simp [HistoryBlock.newestFinished, hr, List.find?_append, hskip, hfound]

theorem sourceData_holeDone {s : State} {r : HoleRecord} {v : Verdict} (h : s.history.newestFinished = some r)
    (hv : r.verdict = some v) : sourceData s .holeDone = (u16 r.number.toNat ++ u8 v.code, 0) := by
  simp [sourceData, h, hv, orUnstated, numberBytes, verdictCode]

theorem sourceData_history {s : State} {oldest : HoleRecord} (h : s.history.records.head? = some oldest) :
    sourceData s .history = (u16 oldest.number.toNat, 0) := by
  simp [sourceData, HistoryBlock.oldest, h, orUnstated, numberBytes]

/-! ### SERVICE_DONE (11 R192, R198) -/

section ServiceDone

variable {host : Transaction} {s : State} (hheld : s.resetHeld = false) (hcut : host.cut = false)
include hheld hcut

theorem exec_serviceDone_empty (h : s.host.stack = []) :
    exec (.serviceDone host) s = .next (answered host s .badState [] s) := by
  simp only [exec, execServiceDone, h]
  exact taken hheld hcut

theorem exec_serviceDone_top {top : Source} {rest : List Source} (h : s.host.stack = top :: rest) :
    exec (.serviceDone host) s =
      .next (answered host s .ok (u8 top.code) (s.onHost fun b => b.serviced top rest)) := by
  simp only [exec, execServiceDone, h]
  exact taken hheld hcut

end ServiceDone

section Serviced

variable {h : HostBlock} {rest : List Source}

/-- The table of R198 is for a served watch that leaves the stack; nothing else happens to the watch (11 R192). -/
theorem serviced_plain {top : Source} (hw : top ≠ .watch ∨ h.watch.arming ≠ .served) :
    h.serviced top rest = { h with stack := rest } := by
  by_cases ht : top = .watch
  · have ha : h.watch.arming ≠ .served := hw.resolve_left (not_not.2 ht)
    simp [HostBlock.serviced, HostBlock.rearmWatch, ht, ha]
  · simp [HostBlock.serviced, ht]

variable (ha : h.watch.arming = .served)
include ha

theorem serviced_again (hf : h.watch.fell = true) (hy : h.watch.y = true) : h.serviced .watch rest =
    { h with stack := rest, raised := { h.raised with watch := true }, watch := { h.watch with arming := .fired } } := by
  simp [HostBlock.serviced, HostBlock.rearmWatch, ha, hf, hy, Raised.set]

theorem serviced_rearmed (hf : h.watch.fell = true) (hy : h.watch.y = false) : h.serviced .watch rest =
    { h with stack := rest, watch := { h.watch with arming := .armed } } := by
  simp [HostBlock.serviced, HostBlock.rearmWatch, ha, hf, hy]

theorem serviced_waits (hf : h.watch.fell = false) : h.serviced .watch rest =
    { h with stack := rest, watch := { h.watch with arming := .waitFalse } } := by
  simp [HostBlock.serviced, HostBlock.rearmWatch, ha, hf]

end Serviced

/-- Settles O45. -/
theorem attentionIsTakenAndServed : Obligations.AttentionIsTakenAndServed := by
  intro host s hheld hcut
  refine ⟨fun hnone => ?_, fun src hpending hout hfirst => ?_, exec_serviceDone_empty hheld hcut, fun top rest hstack => ?_⟩
  · have hq : s.host.qualifying = none := HostBlock.qualifying_none fun src hp =>
      Bool.eq_false_iff.2 fun ho => hnone src hp ((outranksTop_iff _ _).1 ho)
    exact ⟨exec_readAttention_none hheld hcut hq, by simp [State.attnLow, hq]⟩
  · have hq : s.host.qualifying = some src := HostBlock.qualifying_some hpending ((outranksTop_iff _ _).2 hout)
      fun other hp ho => hfirst other hp ((outranksTop_iff _ _).1 ho)
    refine ⟨by simp [State.attnLow, hq], fun e rest hsrc hf => ?_, fun n hsrc hn => ?_,
      fun before r after v hsrc hr hopen hv => ?_, fun hsrc => ?_, fun oldest hsrc ho => ?_⟩
    all_goals subst hsrc
    · refine (exec_readAttention_some hheld hcut hq (sourceData_fault hf)).trans ?_
      simp [answered, State.onHost, takeSource, Raised.set, hf]
      rfl
    · exact exec_readAttention_some hheld hcut hq (sourceData_decide hn)
    · exact exec_readAttention_some hheld hcut hq (sourceData_holeDone (newestFinished_eq hr hopen hv) hv)
    · exact exec_readAttention_some hheld hcut hq rfl
    · exact exec_readAttention_some hheld hcut hq (sourceData_history ho)
  · have hexec := exec_serviceDone_top hheld hcut hstack
    refine ⟨fun hw => ?_, fun ht ha hf hy => ?_, fun ht ha hf hy => ?_, fun ht ha hf => ?_⟩
    · rw [hexec, State.onHost, serviced_plain hw]
      rfl
    · rw [hexec, ht, State.onHost, serviced_again ha hf hy]
      rfl
    · rw [hexec, ht, State.onHost, serviced_rearmed ha hf hy]
      rfl
    · rw [hexec, ht, State.onHost, serviced_waits ha hf]
      rfl

/-! ### SET_WATCH (11 R195, R197) -/

/-- A sense or a combination code above 1 is refused (11 R197, 12 R200). -/
theorem exec_setWatch_badArg {host : Transaction} {mask sense combination : Byte} {s : State} (hheld : s.resetHeld = false)
    (hcut : host.cut = false) (h : 1 < sense.toNat ∨ 1 < combination.toNat) :
    exec (.setWatch mask sense combination host) s = .next (answered host s .badArg [] s) := by
  have hbad : (decide (1 < sense.toNat) || decide (1 < combination.toNat)) = true := by simpa using h
  simp only [exec, execSetWatch, hbad, if_true]
  exact taken hheld hcut

theorem exec_setWatch {host : Transaction} {mask sense combination : Byte} {s : State} (hheld : s.resetHeld = false)
    (hcut : host.cut = false) (hs : sense.toNat ≤ 1) (hc : combination.toNat ≤ 1) :
    exec (.setWatch mask sense combination host) s =
      .next (answered host s .ok (flag (Watch.ofBytes mask sense combination (watchInputs s)).y)
        (s.onHost fun h => { h with
          watch := Watch.ofBytes mask sense combination (watchInputs s), raised := h.raised.set .watch false })) := by
  have hok : (decide (1 < sense.toNat) || decide (1 < combination.toNat)) = false := by simp; omega
  simp only [exec, execSetWatch, hok, Bool.false_eq_true, if_false]
  exact taken hheld hcut

/-- The watch of SET_WATCH is the one with its expression, Y computed and a fresh round (11 R197). -/
theorem watch_eq_ofBytes {w : Watch} {mask sense combination : Byte} {inputs : WatchInputs}
    (hm : w.mask = WatchInputs.ofByte mask) (hs : w.activeFalse = (sense == 1)) (hc : w.isAnd = (combination == 1))
    (hy : w.y = w.value inputs) (ha : w.arming = .armed) (hf : w.fell = false) :
    w = Watch.ofBytes mask sense combination inputs := by
  obtain ⟨wmask, wsense, wand, wy, warming, wfell⟩ := w
  dsimp only at hm hs hc ha hf
  subst hm hs hc ha hf
  simp only [Watch.ofBytes, Watch.mk.injEq, true_and, and_true]
  exact hy

/-- Whether the inputs that the mask includes are counted true: none of them, or all (11 R195). -/
theorem all_included {pairs : List (Bool × Bool)} (sense : Bool) :
    (((pairs.filter Prod.fst).map fun m => m.2 != sense).all id = true) ↔ ∀ p ∈ pairs, p.1 = true → p.2 ≠ sense := by
  simp [List.all_map, List.all_filter]

theorem any_included {pairs : List (Bool × Bool)} (sense : Bool) :
    (((pairs.filter Prod.fst).map fun m => m.2 != sense).any id = true) ↔ ∃ p ∈ pairs, p.1 = true ∧ p.2 ≠ sense := by
  simp [List.any_map, List.any_filter]

/-- The AND or the OR of the included inputs as they count by the sense, false where none is included (11 R195). -/
theorem value_iff (w : Watch) (inputs : WatchInputs) : w.value inputs = true ↔
    (∃ p ∈ w.mask.members.zip inputs.members, p.1 = true ∧ p.2 ≠ w.activeFalse)
      ∧ (w.isAnd = true → ∀ p ∈ w.mask.members.zip inputs.members, p.1 = true → p.2 ≠ w.activeFalse) := by
  rw [← all_included, ← any_included]
  unfold Watch.value
  generalize (((w.mask.members.zip inputs.members).filter Prod.fst).map fun m => m.2 != w.activeFalse) = counted
  cases counted with
  | nil => simp
  | cons first rest =>
    cases w.isAnd with
    | true => simp; grind
    | false => simp

/-- Settles O46. -/
theorem setWatchArmsTheExpression : Obligations.SetWatchArmsTheExpression := by
  refine ⟨fun host mask sense combination s hheld hcut => ⟨exec_setWatch_badArg hheld hcut, ?_⟩, value_iff⟩
  intro hs hc w hmask hsense hcomb hy ha hf
  rw [exec_setWatch hheld hcut hs hc, ← watch_eq_ofBytes hmask hsense hcomb hy ha hf]
  cases w.y <;> rfl

end Sys2Proof.Machine

/-! PROOFS. O53: the host's frames read back, and what HSDO carries (11 R178, R179, 12 R204). -/

namespace Sys2Proof.Machine

/-! ### The frames the host sends (11 R178, R179) -/

/-- A two-byte argument is its high byte and then its low byte (12 R200). -/
theorem highByte_append_lowByte (x : BitVec 16) : x.extractLsb' 8 8 ++ x.extractLsb' 0 8 = x := by
  rw [BitVec.extractLsb'_append_extractLsb'_eq_extractLsb' (show 8 = 0 + 8 from rfl)]
  exact BitVec.extractLsb'_eq_self

/-- What a command's frame is taken as, from its bytes and whatever bytes follow them. -/
def ReadsBack (i : Instr) : Prop := ∀ (host : Transaction) (bytes padding : List Byte), i.WellFormed = true →
  hostFrame i = some bytes → i.transaction = some host → hostEvent host i.canopyRise (bytes ++ padding) = some i

/-- A row that is no host command with a frame of its own. -/
theorem ReadsBack.of_none {i : Instr} (h : hostFrame i = none) : ReadsBack i :=
  fun _ _ _ _ hb _ => absurd (h.symm.trans hb) (by simp)

/-- A command whose frame carries its code and its arguments. -/
theorem ReadsBack.of_command {i : Instr} {host : Transaction} {code : Byte} {args : List Byte}
    (ht : i.transaction = some host) (hb : hostFrame i = some (commandFrame code args)) (hcode : code ≠ 255)
    (h : i.WellFormed = true → args.length < 256 ∧ hostCommand host i.canopyRise code args = some i) : ReadsBack i := by
  intro host' bytes padding hwf hbytes ht'
  obtain rfl := Option.some.inj (hb.symm.trans hbytes)
  obtain rfl := Option.some.inj (ht.symm.trans ht')
  obtain ⟨hlength, hcommand⟩ := h hwf
  exact hostEvent_commandFrame padding hcode hlength hcommand

/-- Every frame reads back as its command (12 R204). -/
theorem readsBack (i : Instr) : ReadsBack i := by
  cases i with
  | fetch host =>
    intro _ _ _ _ hb ht
    obtain rfl := Option.some.inj hb
    obtain rfl := Option.some.inj ht
    rfl
  | configure record host =>
    refine .of_command rfl rfl (by decide) fun hwf => ?_
    have hlength : record.length = 69 := by
      simp only [Instr.WellFormed, Bool.and_eq_true, beq_iff_eq] at hwf
      exact hwf.1
    exact ⟨by omega, if_pos hlength⟩
  | startHole row slot planned rise host =>
    refine .of_command rfl rfl (by decide) fun _ => ⟨by simp, ?_⟩
    exact congrArg (fun r => some (Instr.startHole r slot planned rise host)) (highByte_append_lowByte row)
  | selectHole number host =>
    refine .of_command rfl rfl (by decide) fun _ => ⟨by simp, ?_⟩
    exact congrArg (fun n => some (Instr.selectHole n host)) (highByte_append_lowByte number)
  | abort _ _ | resume _ _ | proceed _ _ | abandon _ | readState _ | readAttention _ | serviceDone _ | setWatch _ _ _ _
  | readSensors _ | unlatch _ | readFlow _ | readNeighbours _ _ | readLink _ | readCells _ _ _ =>
    exact .of_command rfl rfl (by decide) fun _ => ⟨by simp, rfl⟩
  | _ => exact .of_none rfl

/-- Fewer than eight bits are no whole byte (11 R178). -/
theorem wholeBytes_of_short {bits : List Bool} (h : bits.length < 8) : wholeBytes bits = [] := by
  unfold wholeBytes
  split
  · simp only [List.length_cons] at h
    omega
  · rfl

/-! ### HSDO (11 R178, R179) -/

theorem length_replyFrame (r : Reply) : (replyFrame r).length = r.data.length + 3 := by
  simp [replyFrame, u8]

/-- The bits of a reply frame, and 1 after them. -/
theorem replyBit_eq (r : Reply) (k : Nat) : ((replyFrame r).flatMap bitsOf).getD k true =
    if k < 8 * (replyFrame r).length then ((replyFrame r).flatMap bitsOf).getD k true else true := by
  split_ifs with hk
  · rfl
  · refine List.getD_eq_default _ _ ?_
    rw [length_flatMap_bitsOf]
    omega

/-- Settles O53. -/
theorem hostFramesAreReadBack : Obligations.HostFramesAreReadBack := by
  refine ⟨fun i cut bytes padding hwf hb ht => ?_, fun rise cut bits hlen => ?_, fun clocks r => ?_, fun r => ?_,
    fun s clock => ?_⟩
  · have hlen : (bytes.flatMap bitsOf ++ padding).length = 8 * bytes.length + padding.length := by
      rw [List.length_append, length_flatMap_bitsOf]
    rw [hostTransaction, wholeBytes_flatMap, hlen]
    exact readsBack i _ bytes _ hwf hb ht
  · rw [hostTransaction, wholeBytes_of_short hlen]
    rfl
  · refine ⟨length_clockedOut clocks r, fun k hk => ?_⟩
    rw [getElem?_clockedOut hk, ← replyBit_eq]
  · exact ⟨byteSum_replyFrame r, length_replyFrame r⟩
  · exact ⟨rfl, fun clocks hk => (getElem?_clockedOut hk _).symm⟩

end Sys2Proof.Machine

/-! PROOFS. O41: the host's reads, field by field (11 R179, R181 to R183, 09 R160, 12 R200, R204). -/

namespace Sys2Proof.Machine

/-! ### Fields and layouts (12 R200, R204) -/

/-- The bytes of a layout are as many as its fields are wide together. -/
theorem length_layout (fields : List (Nat × Nat)) : (layout fields).length = (fields.map Prod.fst).sum := by
  induction fields with
  | nil => rfl
  | cons f fields ih => rw [layout_cons, List.length_append, length_fieldBytes, ih, List.map_cons, List.sum_cons]

theorem width_markedField (width : Nat) (item : Option Nat) : ((markedField width item).map Prod.fst).sum = 1 + width := by
  simp [markedField]

/-- A run of fields of one byte each. -/
theorem width_bytes (n : Nat) (value : Nat → Nat) :
    (((List.range n).map fun i => (1, value i)).map Prod.fst).sum = n := by
  simp [Function.comp_def]

/-- A marked item whose bytes are those of one number. -/
theorem marked_map_eq_layout {α : Type} {width : Nat} {bytes : α → List Byte} {value : α → Nat}
    (h : ∀ a, bytes a = fieldBytes width (value a)) (item : Option α) :
    marked width (item.map bytes) = layout (markedField width (item.map value)) := by
  rw [← marked_eq_layout fun _ => rfl, Option.map_map]
  congr 2
  exact funext h

/-- A marked item of a byte, of two bytes, and of three. -/
theorem marked_u8 (item : Option Nat) : marked 1 (item.map u8) = layout (markedField 1 item) :=
  marked_eq_layout (fun n => (fieldBytes_one n).symm) item

theorem marked_u16 (item : Option Nat) : marked 2 (item.map u16) = layout (markedField 2 item) :=
  marked_eq_layout (fun n => (fieldBytes_two n).symm) item

theorem marked_u24 (item : Option Nat) : marked 3 (item.map u24) = layout (markedField 3 item) :=
  marked_eq_layout (fun n => (fieldBytes_three n).symm) item

theorem marked_number (item : Option HoleNo) :
    marked 2 (item.map numberBytes) = layout (markedField 2 (item.map BitVec.toNat)) :=
  marked_map_eq_layout (bytes := numberBytes) (value := BitVec.toNat) (fun n => (fieldBytes_two n.toNat).symm) item

/-- Codes in their places, and zeros in the places left over. -/
theorem padded_codes (codes : List Nat) : ∀ places, codes.length ≤ places →
    codes.flatMap u8 ++ List.replicate (places - codes.length) 0 =
      layout ((List.range places).map fun i => (1, codes[i]?.getD 0)) := by
  induction codes with
  | nil =>
    intro places _
    have hzero : (List.range places).map (fun i => (1, ([] : List Nat)[i]?.getD 0)) = List.replicate places (1, 0) := by
      simp [List.map_const']
    rw [hzero]
    clear hzero
    induction places with
    | zero => rfl
    | succ n ih =>
      rw [List.replicate_succ, layout_cons, ← ih (Nat.zero_le n)]
      rfl
  | cons code codes ih =>
    intro places hle
    obtain ⟨n, rfl⟩ : ∃ n, places = n + 1 := ⟨places - 1, by simp only [List.length_cons] at hle; omega⟩
    have hrest := ih n (by simpa using hle)
    rw [List.range_succ_eq_map, List.map_cons, List.map_map, layout_cons, fieldBytes_one, List.flatMap_cons,
      List.append_assoc, List.length_cons, Nat.add_sub_add_right, hrest]
    rfl

/-! ### READ_STATE (11 R181) -/

/-- The fields of READ_STATE, block by block. -/
def partFields (s : State) : List (Nat × Nat) :=
  [(4, s.cycle.timebase.toNat)] ++ markedField 1 (s.host.config.map Configuration.station)

theorem partData_eq (s : State) : partData s = layout (partFields s) := by
  have hstation := marked_map_eq_layout (bytes := fun c => u8 c.station) (value := Configuration.station)
    (fun c => (fieldBytes_one _).symm) s.host.config
  rw [partFields, layout_append, ← hstation, layout_cons, fieldBytes_four, layout_nil, List.append_nil]
  rfl

def cycleFields (c : CycleBlock) : List (Nat × Nat) :=
  [(1, c.state.code)] ++ markedField 1 (c.remembered.map fun p => (CycleState.active p).code)
    ++ [(1, causeCode c.cause), (1, c.held.toNat), (1, pendingVerdictCode c.pendingVerdict), (1, c.abortPending.toNat)]
    ++ markedField 2 (c.holeNumber.map BitVec.toNat) ++ [(2, c.row), (1, c.slot), (1, c.planned)]

theorem cycleData_eq (s : State) : cycleData s = layout (cycleFields s.cycle) := by
  simp only [cycleData, cycleFields, layout_append, layout_cons, layout_nil, fieldBytes_one, fieldBytes_two, flag_eq_u8,
    marked_number, marked_map_eq_layout (bytes := fun p => u8 (CycleState.active p).code) fun p => (fieldBytes_one _).symm,
    List.append_nil, List.append_assoc]

def resinFields (r : ResinBlock) (now : Time) : List (Nat × Nat) :=
  [(1, r.pushed)] ++ markedField 1 r.charge ++ [(1, r.stroke.code), (1, r.retry.toNat)] ++ markedField 1 r.band
    ++ [(1, r.quarterRevs), (1, r.holdPassed.toNat)] ++ markedField 3 (r.strokeTimer.report now)
    ++ markedField 3 (deadlineReport r.mixDeadline now) ++ markedField 3 (deadlineReport r.holdDeadline now)

theorem resinData_eq (s : State) : resinData s = layout (resinFields s.resin s.now) := by
  simp only [resinData, resinFields, timerBytes, layout_append, layout_cons, layout_nil, fieldBytes_one, flag_eq_u8,
    marked_u8, marked_u24, List.append_nil, List.append_assoc]

def torqueFields (t : TorqueBlock) (now : Time) : List (Nat × Nat) :=
  markedField 2 t.target ++ markedField 2 t.ceiling ++ markedField 2 t.near
    ++ [(1, t.entered.toNat), (1, t.spinner), (2, t.peak), (1, t.overshoot.toNat), (1, t.torqueNear.toNat)]
    ++ markedField 3 (t.timer.report now)

theorem torqueData_eq (s : State) : torqueData s = layout (torqueFields s.torque s.now) := by
  simp only [torqueData, torqueFields, timerBytes, layout_append, layout_cons, layout_nil, fieldBytes_one, fieldBytes_two,
    flag_eq_u8, marked_u16, marked_u24, List.append_nil, List.append_assoc]

def historyFields (h : HistoryBlock) : List (Nat × Nat) :=
  [(1, h.records.length), (2, h.free)] ++ markedField 2 (h.records.head?.map fun r => r.number.toNat)
    ++ markedField 2 (h.records.getLast?.map fun r => r.number.toNat)
    ++ [(1, (h.records.getLast?.any fun r => r.verdict.isNone).toNat)]

theorem historyData_eq (s : State) : historyData s = layout (historyFields s.history) := by
  have hends : ∀ r : Option HoleRecord,
      (r.map HoleRecord.number).map BitVec.toNat = r.map fun r => r.number.toNat := fun r => by cases r <;> rfl
  simp only [historyData, historyFields, HistoryBlock.oldest, HistoryBlock.newest, marked_number, hends, layout_append,
    layout_cons, layout_nil, fieldBytes_one, fieldBytes_two, flag_eq_u8, List.append_nil, List.append_assoc]
  rfl

def attentionFields (s : State) : List (Nat × Nat) :=
  [(1, memberSet [!s.host.faults.isEmpty, s.host.raised.decide, s.host.raised.holeDone, s.host.raised.watch,
      s.host.raised.history]), (1, s.host.stack.length)]
    ++ (List.range 5).map (fun i => (1, (s.host.stack.reverse[i]?.map Source.code).getD 0))
    ++ [(1, s.host.faults.length), (1, s.attnLow.toNat)]

/-- The stack bottom to top, 0 where it is not used (12 R204). -/
theorem stackBytes_eq {stack : List Source} (h : stack.length ≤ 5) : stackBytes stack =
    layout ((List.range 5).map fun i => (1, (stack.reverse[i]?.map Source.code).getD 0)) := by
  have hcodes : (stack.reverse.flatMap fun src => u8 src.code) = (stack.reverse.map Source.code).flatMap u8 := by
    rw [List.flatMap_map]
  have hlength : ((stack.reverse.map Source.code).flatMap u8).length = (stack.reverse.map Source.code).length := by
    generalize stack.reverse.map Source.code = codes
    simp [u8, List.length_flatMap]
  rw [stackBytes, hcodes, hlength, padded_codes _ 5 (by simpa using h)]
  simp only [List.getElem?_map]

theorem attentionData_eq {s : State} (h : s.host.stack.length ≤ 5) : attentionData s = layout (attentionFields s) := by
  simp only [attentionData, attentionFields, pendingByte, setByte_eq_u8, stackBytes_eq h, layout_append, layout_cons,
    layout_nil, fieldBytes_one, flag_eq_u8, List.append_nil, List.append_assoc]
  rfl

/-- The value of a set of watch inputs (12 R200). -/
def inputSet (x : WatchInputs) : Nat := memberSet [x.voidCell, x.softCell, x.hardCell, x.nearVoid, x.flowCut, x.torqueNear]

theorem watchInputs_toByte (x : WatchInputs) : [x.toByte] = u8 (inputSet x) := setByte_eq_u8 _

def watchFields (s : State) : List (Nat × Nat) :=
  [(1, inputSet s.host.watch.mask), (1, s.host.watch.activeFalse.toNat), (1, s.host.watch.isAnd.toNat),
    (1, s.host.watch.y.toNat), (1, s.host.watch.arming.code), (1, s.host.watch.fell.toNat), (1, inputSet (watchInputs s))]

theorem watchData_eq (s : State) : watchData s = layout (watchFields s) := by
  simp only [watchData, watchFields, watchInputs_toByte, layout_cons, layout_nil, fieldBytes_one, flag_eq_u8,
    List.append_nil, List.append_assoc]

/-- All the fields of READ_STATE in the order of 12 R204. -/
def stateFields (s : State) : List (Nat × Nat) :=
  partFields s ++ cycleFields s.cycle ++ resinFields s.resin s.now ++ torqueFields s.torque s.now
    ++ historyFields s.history ++ attentionFields s ++ watchFields s

theorem stateData_eq {s : State} (h : s.host.stack.length ≤ 5) : stateData s = layout (stateFields s) := by
  simp only [stateData, stateFields, layout_append, partData_eq, cycleData_eq, resinData_eq, torqueData_eq, historyData_eq,
    attentionData_eq h, watchData_eq]

theorem length_stateData {s : State} (h : s.host.stack.length ≤ 5) : (stateData s).length = 86 := by
  rw [stateData_eq h, length_layout]
  simp only [stateFields, partFields, cycleFields, resinFields, torqueFields, historyFields, attentionFields, watchFields,
    List.map_append, List.sum_append, width_markedField, width_bytes, List.map_cons, List.map_nil, List.sum_cons,
    List.sum_nil, Nat.reduceAdd]

/-- What a timer reports is the time left to it, in the words of 01 R2 and R4. -/
theorem report_eq (t : Timer) (now : Time) : t.report now =
    (match t with
      | .disarmed => none
      | .paused left => some left
      | .running target => some (if expired target now = true then 0 else (target - now).toNat)) := by
  cases t <;> rfl

/-! ### READ_FLOW (11 R182) -/

theorem setpointFields_eq (x : Setpoints) :
    setpointFields x = layout [(1, x.direction.code), (1, x.feed), (1, x.rotation), (1, x.injector)] := by
  simp only [setpointFields, layout_cons, layout_nil, fieldBytes_one, List.append_nil, List.append_assoc]

/-- The last record sent, with its mark. -/
def sentFields : Option SetpointRecord → List (Nat × Nat)
  | some r => [(1, 1), (1, r.sequence.toNat), (1, r.setpoints.direction.code), (1, r.setpoints.feed),
      (1, r.setpoints.rotation), (1, r.setpoints.injector)]
  | none => [(1, 0), (5, 0)]

theorem byte_eq_u8 (b : Byte) : [b] = u8 b.toNat := by simp [u8]

theorem markedSent_eq (sent : Option SetpointRecord) :
    marked 5 (sent.map fun r => [r.sequence] ++ setpointFields r.setpoints) = layout (sentFields sent) := by
  cases sent with
  | none => simp [marked, sentFields, layout, fieldBytes_zero]
  | some r => simp [marked, sentFields, setpointFields_eq, layout, fieldBytes_one, u8]

def peerFields (now : Time) (p : Peer) : List (Nat × Nat) :=
  [(1, p.station), (1, p.phase.code), (1, p.flowClass.code), (1, p.demand), (1, p.freshness.code),
    (2, (now - p.lastHeard).toNat)]

theorem peerBytes_eq (now : Time) (p : Peer) : peerBytes now p = layout (peerFields now p) := by
  simp only [peerBytes, peerFields, layout_cons, layout_nil, fieldBytes_one, fieldBytes_two, List.append_nil,
    List.append_assoc]

def flowFields (s : State) : List (Nat × Nat) :=
  [(2, (s.host.config.map Configuration.capacity).getD 0), (1, s.cycle.state.code), (1, (ownClass s).code),
    (1, ownDemand s), (1, ownMinimum s), (1, s.flow.allowance), (1, s.flow.flowCut.toNat), (1, s.flow.interlock.code),
    (1, s.flowReq.toNat), (1, s.valveReady.toNat), (1, s.flow.setpoints.direction.code), (1, s.flow.setpoints.feed),
    (1, s.flow.setpoints.rotation), (1, s.flow.setpoints.injector)]
    ++ sentFields s.flow.lastSent ++ [(1, s.flow.sequence.toNat), (1, s.flow.peers.length)]
    ++ s.flow.peers.flatMap (peerFields s.now)

theorem flowData_eq (s : State) : flowData s = layout (flowFields s) := by
  have hpeers : s.flow.peers.flatMap (peerBytes s.now) = layout (s.flow.peers.flatMap (peerFields s.now)) := by
    rw [layout_flatMap]
    exact congrArg (List.flatMap · _) (funext (peerBytes_eq s.now))
  simp only [flowData, flowFields, hpeers, markedSent_eq, setpointFields_eq s.flow.setpoints, byte_eq_u8 s.flow.sequence,
    layout_append, layout_cons, layout_nil, fieldBytes_one, fieldBytes_two, flag_eq_u8, List.append_nil, List.append_assoc]
  cases s.host.config <;> rfl

theorem length_sentFields (sent : Option SetpointRecord) : ((sentFields sent).map Prod.fst).sum = 6 := by
  cases sent <;> rfl

theorem length_flowData (s : State) : (flowData s).length = 23 + 7 * s.flow.peers.length := by
  have hpeers : ((s.flow.peers.flatMap (peerFields s.now)).map Prod.fst).sum = 7 * s.flow.peers.length := by
    induction s.flow.peers with
    | nil => rfl
    | cons p peers ih =>
      rw [List.flatMap_cons, List.map_append, List.sum_append, ih, List.length_cons]
      simp [peerFields]
      omega
  rw [flowData_eq, length_layout, flowFields]
  simp only [List.map_append, List.sum_append, length_sentFields, hpeers, List.map_cons, List.map_nil, List.sum_cons,
    List.sum_nil]
  omega

/-! ### READ_NEIGHBOURS (11 R183) -/

/-- An entry of the table with its mark, 0 where there is none. -/
def entryFields : Option HoleNotice → List (Nat × Nat)
  | some e => [(1, 1), (1, e.station), (2, e.row), (1, e.slot), (2, e.depth), (1, e.verdict.code), (1, e.voids.length)]
      ++ e.voids.flatMap fun v => [(2, v.start), (2, v.length)]
  | none => [(1, 0), (8, 0)]

theorem markedEntry_eq (entry : Option HoleNotice) : marked 8 (entry.map entryBytes) = layout (entryFields entry) := by
  cases entry with
  | none => simp [marked, entryFields, layout, fieldBytes_zero]
  | some e =>
    have hvoids : (e.voids.flatMap fun v => u16 v.start ++ u16 v.length) =
        layout (e.voids.flatMap fun v => [(2, v.start), (2, v.length)]) := by
      rw [layout_flatMap]
      simp only [layout_cons, layout_nil, fieldBytes_two, List.append_nil]
    simp only [marked, Option.map_some, entryFields, entryBytes, hvoids, layout_append, layout_cons, layout_nil,
      fieldBytes_one, fieldBytes_two, List.append_nil, List.append_assoc]
    rfl

/-- The width of an entry: eight bytes and four for each void, after the mark (12 R204). -/
theorem length_entryFields (entry : Option HoleNotice) :
    ((entryFields entry).map Prod.fst).sum = 9 + 4 * (entry.map fun e => e.voids.length).getD 0 := by
  cases entry with
  | none => rfl
  | some e =>
    have hvoids : ((e.voids.flatMap fun v => [(2, v.start), (2, v.length)]).map Prod.fst).sum = 4 * e.voids.length := by
      induction e.voids with
      | nil => rfl
      | cons v voids ih =>
        rw [List.flatMap_cons, List.map_append, List.sum_append, ih, List.length_cons]
        simp
        omega
    simp only [entryFields, List.map_append, List.sum_append, hvoids, List.map_cons, List.map_nil, List.sum_cons,
      List.sum_nil, Option.map_some, Option.getD_some]
    omega

/-- The predicted cells of a byte of the set (12 R204). -/
def predictedFields (predicted : List Nat) : List (Nat × Nat) :=
  (List.range 16).map fun i => (1, memberSet ((List.range 8).map fun k => decide (8 * i + k ∈ predicted)))

theorem predictedBytes_eq (predicted : List Nat) : predictedBytes predicted = layout (predictedFields predicted) := by
  have hbyte : ∀ i, [setByte ((List.range 8).map fun b => predicted.contains (8 * i + b))] =
      fieldBytes 1 (memberSet ((List.range 8).map fun k => decide (8 * i + k ∈ predicted))) := fun i => by
    simp only [setByte_eq_u8, fieldBytes_one, List.contains_eq_mem]
  rw [predictedBytes, predictedFields, layout, List.flatMap_map, List.map_eq_flatMap]
  exact congrArg (List.flatMap · _) (funext hbyte)

def neighboursFields (nb : NeighbourBlock) (index : Nat) : List (Nat × Nat) :=
  [(1, nb.entries.length)] ++ entryFields nb.entries[index]? ++ predictedFields nb.predicted ++ [(1, nb.nearVoid.toNat)]

theorem neighboursData_eq (s : State) (index : Nat) :
    neighboursData s index = layout (neighboursFields s.neighbours index) := by
  simp only [neighboursData, neighboursFields, markedEntry_eq, predictedBytes_eq, layout_append, layout_cons, layout_nil,
    fieldBytes_one, flag_eq_u8, List.append_nil, List.append_assoc]

theorem length_neighboursData (s : State) (index : Nat) : (neighboursData s index).length =
    27 + 4 * (s.neighbours.entries[index]?.map fun e => e.voids.length).getD 0 := by
  have hpredicted : ((predictedFields s.neighbours.predicted).map Prod.fst).sum = 16 :=
    width_bytes 16 _
  rw [neighboursData_eq, length_layout, neighboursFields]
  simp only [List.map_append, List.sum_append, length_entryFields, hpredicted, List.map_cons, List.map_nil, List.sum_cons,
    List.sum_nil]
  omega

/-! ### READ_LINK (09 R160) -/

/-- The DEMAND notice in the slot with its mark, 0 where the slot is empty. -/
def slotFields : Option DemandSlot → List (Nat × Nat)
  | some d => [(1, 1), (1, d.notice.phase.code), (1, d.notice.flowClass.code), (1, d.notice.demand), (1, d.onLine.toNat)]
  | none => [(1, 0), (4, 0)]

theorem markedSlot_eq (slot : Option DemandSlot) : marked 4 (slot.map slotBytes) = layout (slotFields slot) := by
  cases slot with
  | none => simp [marked, slotFields, layout, fieldBytes_zero]
  | some d => simp [marked, slotFields, slotBytes, flag_eq_u8, layout, fieldBytes_one, u8]

theorem length_slotFields (slot : Option DemandSlot) : ((slotFields slot).map Prod.fst).sum = 5 := by cases slot <;> rfl

/-- A queued notice at its place in the queue, which only the oldest of has the on-line mark. -/
def queuedFields (onLine : Bool) (n : HoleNotice × Nat) : List (Nat × Nat) :=
  [(2, n.1.row), (1, n.1.slot), (1, n.1.verdict.code), (1, n.1.voids.length), (1, (n.2 == 0 && onLine).toNat)]

theorem queuedBytes_eq (n : HoleNotice) (place : Nat) (onLine : Bool) :
    queuedBytes n (place == 0 && onLine) = layout (queuedFields onLine (n, place)) := by
  simp only [queuedBytes, queuedFields, flag_eq_u8, layout_cons, layout_nil, fieldBytes_one, fieldBytes_two,
    List.append_nil, List.append_assoc]

/-- The notices behind the oldest are not on the line. -/
theorem waitingBytes_eq (onLine : Bool) (rest : List HoleNotice) : ∀ place, (rest.flatMap fun n => queuedBytes n false) =
    layout ((rest.zipIdx (place + 1)).flatMap (queuedFields onLine)) := by
  induction rest with
  | nil => exact fun _ => rfl
  | cons n rest ih =>
    intro place
    have hn : queuedBytes n false = layout (queuedFields onLine (n, place + 1)) := by
      rw [← queuedBytes_eq]
      rfl
    rw [List.zipIdx_cons, List.flatMap_cons, List.flatMap_cons, layout_append, hn, ih (place + 1)]

theorem queueBytes_eq (onLine : Bool) (queue : List HoleNotice) :
    queueBytes onLine queue = layout (queue.zipIdx.flatMap (queuedFields onLine)) := by
  cases queue with
  | nil => rfl
  | cons oldest rest =>
    rw [queueBytes, List.zipIdx_cons, List.flatMap_cons, layout_append, ← queuedBytes_eq, waitingBytes_eq onLine rest 0]
    rfl

def linkFields (l : LinkBlock) : List (Nat × Nat) :=
  [(1, l.view.code), (1, l.tx.isSome.toNat), (1, l.mute.isSome.toNat), (1, muteCauseCode l.mute), (1, l.holeDropped.toNat),
    (1, l.txFault.toNat)] ++ slotFields l.slot ++ [(1, l.queue.length)] ++ l.queue.zipIdx.flatMap (queuedFields l.queueOnLine)

theorem linkData_eq (s : State) : linkData s = layout (linkFields s.link) := by
  simp only [linkData, linkFields, State.muted, markedSlot_eq, queueBytes_eq, flag_eq_u8, layout_append, layout_cons,
    layout_nil, fieldBytes_one, List.append_nil, List.append_assoc]

theorem length_linkData (s : State) : (linkData s).length = 12 + 6 * s.link.queue.length := by
  have hqueue : ∀ (queue : List HoleNotice) (place : Nat),
      (((queue.zipIdx place).flatMap (queuedFields s.link.queueOnLine)).map Prod.fst).sum = 6 * queue.length := by
    intro queue
    induction queue with
    | nil => exact fun _ => rfl
    | cons n rest ih =>
      intro place
      rw [List.zipIdx_cons, List.flatMap_cons, List.map_append, List.sum_append, ih, List.length_cons]
      simp [queuedFields]
      omega
  rw [linkData_eq, length_layout, linkFields]
  simp only [List.map_append, List.sum_append, length_slotFields, hqueue, List.map_cons, List.map_nil, List.sum_cons,
    List.sum_nil]
  omega

/-! ### The statement -/

/-- READ_NEIGHBOURS refuses an index above 15 (11 R183). -/
theorem exec_readNeighbours {host : Transaction} {s : State} (hheld : s.resetHeld = false) (hcut : host.cut = false)
    (index : Byte) : exec (.readNeighbours index host) s = .next (if 15 < index.toNat then answered host s .badArg [] s
      else answered host s .ok (neighboursData s index.toNat) s) := by
  simp only [exec, execReadNeighbours]
  split_ifs <;> exact taken hheld hcut

/-- Settles O41: each reply is the layout of its fields, block by block. -/
theorem readsReplyWithoutAChange : Obligations.ReadsReplyWithoutAChange := by
  refine ⟨by decide, fun host s hheld hcut => ?_⟩
  refine ⟨taken hheld hcut, taken hheld hcut, taken hheld hcut, fun hstack => ⟨length_stateData hstack, ?_⟩,
    taken hheld hcut, length_flowData s, ?_, exec_readNeighbours hheld hcut, fun i e he => ?_, fun i hi => ?_,
    fun i => ?_, taken hheld hcut, length_linkData s, ?_⟩
  · rw [stateData_eq hstack]
    simp only [stateFields, partFields, cycleFields, resinFields, torqueFields, historyFields, attentionFields, watchFields,
      inputSet, report_eq, List.append_assoc] <;> rfl
  · rw [flowData_eq]
    cases hsent : s.flow.lastSent <;> simp only [flowFields, hsent] <;> rfl
  · rw [length_neighboursData, he]
    rfl
  · rw [length_neighboursData, List.getElem?_eq_none hi]
    rfl
  · rw [neighboursData_eq]
    cases he : s.neighbours.entries[i]? <;> simp only [neighboursFields, he] <;> rfl
  · rw [linkData_eq]
    cases hslot : s.link.slot <;> simp only [linkFields, hslot] <;> rfl

end Sys2Proof.Machine

/-! PROOFS. O34: CONFIGURE, and the ranges of its record (11 R179, R184, R185, 12 R204). -/

namespace Sys2Proof.Machine

/-! ### The ranges of R184 -/

theorem within_iff (low x high : Nat) : within low x high = true ↔ low ≤ x ∧ x ≤ high := by simp [within]

/-- A test of the seven phases of two tables is one of the seven places of each (12 R204). -/
theorem allPhases_phaseTableAt (record : List Byte) (i j : Nat) (test : Nat → Nat → Bool) :
    allPhases (fun p => test ((phaseTableAt record i).get p) ((phaseTableAt record j).get p)) = true ↔
      ∀ phase, phase < 7 → test (byteAt record (i + phase)) (byteAt record (j + phase)) = true := by
  simp only [allPhases, phaseTableAt, PhaseTable.get, List.all_cons, List.all_nil, Bool.and_true, Bool.and_eq_true]
  constructor
  · rintro ⟨hcollar, hdrill, hretract, hinsert, hmix, hhold, htorque⟩ phase hphase
    interval_cases phase <;> assumption
  · exact fun h => ⟨h 0 (by decide), h 1 (by decide), h 2 (by decide), h 3 (by decide), h 4 (by decide), h 5 (by decide),
      h 6 (by decide)⟩

theorem byteAt_le (record : List Byte) (i : Nat) : byteAt record i ≤ 255 := by
  have := (record.getD i 0).isLt
  simp only [byteAt]
  omega

/-- The fields of a record are in their ranges exactly when the record meets R184, given a bit size that is one of the two. -/
theorem inRange_fields_iff {record : List Byte} (hsize : byteAt record 18 = 27 ∨ byteAt record 18 = 35) (size : BitSize) :
    (rawConfiguration.fields record size).inRange = true ↔ RecordAdmitted (byteAt record) := by
  have hdemands := allPhases_phaseTableAt record 4 4 fun x _ => within 1 x 255
  have hminimums := allPhases_phaseTableAt record 11 4 fun x high => within 1 x high
  have hlow : ∀ place band, place + 4 * band + 1 = place + 1 + 4 * band := fun place band => by omega
  simp only [Configuration.inRange, rawConfiguration.fields, Bool.and_eq_true, and_assoc]
  simp only [hdemands, hminimums, Bool.and_eq_true, within_iff, wordAt, tripleAt, List.all_map, List.all_eq_true,
    List.mem_range, Function.comp_apply, hlow, Nat.reduceAdd]
  constructor
  · rintro ⟨hstation, hcapacity, hdem, hmin, hsoft, hhard, hvoidN, hvoidThrust, hbase, hextra, hreject, hnormal,
      hsoftTarget, hmix, hspinner, hgel⟩
    exact
      { station := hstation.2
        capacity := hcapacity
        demands := fun phase hp => (hdem phase hp).1
        minimums := hmin
        bitSize := hsize
        soft := by omega
        hard := by omega
        voidN := hvoidN
        voidThrust := hvoidThrust
        base := hbase
        extraVoid := hextra
        rejectVoid := by omega
        normalTarget := hnormal
        softTarget := hsoftTarget
        mixRevolutions := hmix
        spinnerLimit := hspinner
        gel := fun band hb => and_assoc.1 (hgel band hb) }
  · intro h
    have hsoft := h.soft
    have hhard := h.hard
    have hreject := h.rejectVoid
    exact ⟨⟨Nat.zero_le _, h.station⟩, h.capacity, fun phase hp => ⟨h.demands phase hp, byteAt_le _ _⟩, h.minimums,
      by omega, by omega, h.voidN, h.voidThrust, h.base, h.extraVoid, by omega, h.normalTarget, h.softTarget,
      h.mixRevolutions, h.spinnerLimit, fun band hb => and_assoc.2 (h.gel band hb)⟩

/-! ### The configuration of a record (11 R184) -/

section Parse

variable {record : List Byte}

theorem parseConfiguration_badMark (h : 1 < byteAt record 0) : parseConfiguration record = none := by
  unfold parseConfiguration
  split
  · omega
  · omega
  · rfl

theorem parseConfiguration_badStation (h : byteAt record 0 = 1) (hs : 5 < byteAt record 1) :
    parseConfiguration record = none := by
  simp only [parseConfiguration, h, if_neg (Nat.not_le.2 hs)]

theorem parseConfiguration_defaults (h : byteAt record 0 = 1) (hs : byteAt record 1 ≤ 5) :
    parseConfiguration record = some (defaultConfiguration (byteAt record 1)) := by
  simp only [parseConfiguration, h, if_pos hs]

/-- The bit size is one of the two, or the record gives no fields (11 R184). -/
theorem rawConfiguration_eq_some (h : byteAt record 18 = 27 ∨ byteAt record 18 = 35) : rawConfiguration record =
    some (rawConfiguration.fields record (if byteAt record 18 = 27 then .mm27 else .mm35)) := by
  obtain h | h := h <;> simp [rawConfiguration, h]

theorem rawConfiguration_eq_none (h : ¬(byteAt record 18 = 27 ∨ byteAt record 18 = 35)) : rawConfiguration record = none := by
  unfold rawConfiguration
  split
  · exact absurd (.inl ‹_›) h
  · exact absurd (.inr ‹_›) h
  · rfl

theorem parseConfiguration_of_raw (h : byteAt record 0 = 0) :
    parseConfiguration record = (rawConfiguration record).filter Configuration.inRange := by
  simp only [parseConfiguration, h]
  cases rawConfiguration record with
  | none => rfl
  | some c => simp [Option.filter]

theorem parseConfiguration_refused (h : byteAt record 0 = 0) (hno : ¬RecordAdmitted (byteAt record)) :
    parseConfiguration record = none := by
  rw [parseConfiguration_of_raw h]
  by_cases hsize : byteAt record 18 = 27 ∨ byteAt record 18 = 35
  · rw [rawConfiguration_eq_some hsize, Option.filter_some, if_neg ((inRange_fields_iff hsize _).not.2 hno)]
  · rw [rawConfiguration_eq_none hsize, Option.filter_none]

theorem parseConfiguration_admitted (h : byteAt record 0 = 0) (hyes : RecordAdmitted (byteAt record)) :
    parseConfiguration record =
      some (rawConfiguration.fields record (if byteAt record 18 = 27 then .mm27 else .mm35)) := by
  rw [parseConfiguration_of_raw h, rawConfiguration_eq_some hyes.bitSize, Option.filter_some,
    if_pos ((inRange_fields_iff hyes.bitSize _).2 hyes)]

end Parse

/-! ### What the end of an event leaves of a part without flow -/

/-- The items of the cycle that the end of an event sets: HELD and the two timers. -/
theorem event_cycle_eq (old w : State) : (event old w).cycle =
    { w.cycle with
      held := (event old w).cycle.held
      collarTimer := (event old w).cycle.collarTimer
      retractTimer := (event old w).cycle.retractTimer } := rfl

/-- No phase runs outside the active phases. -/
theorem phaseRuns_of_rest {t : State} (h : t.cycle.state.isActive = false) (p : Phase) : phaseRuns t p = false := by
  cases hs : t.cycle.state <;> simp_all [phaseRuns, CycleState.isActive]

/-- NEAR_VOID is all of the neighbour table that the end of an event sets. -/
theorem event_neighbours_eq (old w : State) :
    (event old w).neighbours = { w.neighbours with nearVoid := (event old w).neighbours.nearVoid } := rfl

/-- An interlock that has nothing to raise or to lower stays as it is (08 R131, R133). -/
theorem event_interlock_of_quiet (old : State) {w : State} (hr : w.flowReq = false) (hc : w.cycle.state.isActive = false) :
    (event old w).flow.interlock = w.flow.interlock ∧ (event old w).flow.releaseDeadline = w.flow.releaseDeadline := by
  have hm : mayFlow (recomputeAllowance (setNearVoid w)) = false := by simp [mayFlow, hc]
  have hact : ∀ x : State, x.flowReq = false → mayFlow x = false → (actInterlock x).flow = x.flow := by
    intro x hx hmx
    simp only [State.flowReq, Bool.or_eq_false_iff, beq_eq_false_iff_ne] at hx
    cases hi : x.flow.interlock <;> simp_all [actInterlock, State.onFlow]
  have hflow := hact _ (by simpa [State.flowReq] using hr) hm
  constructor
  · simpa [event, finish, settle] using congrArg FlowBlock.interlock hflow
  · simpa [event, finish, settle] using congrArg FlowBlock.releaseDeadline hflow

/-! ### CONFIGURE accepted (11 R185, 08 R121, R138, 09 R161) -/

section Configured

variable {s : State} (c : Configuration) (hu : s.cycle.state = .unconfigured)

/-- IDLE has no class and no demand (08 R116). -/
theorem configured_claims : ownClass (event s (configured c s)) = .none ∧ ownDemand (event s (configured c s)) = 0 := by
  simp [ownClass, ownDemand, configured, CycleState.flowClass]

theorem configured_allowance : (event s (configured c s)).flow.allowance = 0 := by
  rw [event_allowance, allowanceNow, (configured_claims c).1]
  rfl

/-- The line opens SEEKING, and the schedule starts with an empty peer table (08 R121, R138, 09 R161). -/
theorem configured_link : (event s (configured c s)).link.view = .seeking ∧ (event s (configured c s)).link.recessive = 0 := by
  simp [configured]

theorem configured_peers : (event s (configured c s)).flow.peers = []
    ∧ (event s (configured c s)).flow.schedule = some (after s.now 250) := by
  simp [configured]

theorem configured_frame : (event s (configured c s)).sensor = s.sensor
    ∧ (event s (configured c s)).history = s.history := by
  simp [configured]

include hu

theorem unconfigured_quiet (flow : FlowSound s) :
    s.flowReq = false ∧ s.cycle.held = false ∧ s.neighbours.nearVoid = false ∧ s.flow.flowCut = false := by
  refine ⟨flow.flowReq_low (by rw [hu]; rfl), ?_, ?_, ?_⟩
  · rw [flow.held]
    simp [heldNow, hu, CycleState.isActive]
  · rw [flow.nearVoid]
    simp [nearVoidNow, hu]
  · rw [flow.flowCut]
    simp [ownDemand, hu]

theorem configured_cycle (flow : FlowSound s) (timers : TimersSound s) :
    (event s (configured c s)).cycle = { s.cycle with state := .idle } := by
  obtain ⟨-, hheld, -, -⟩ := unconfigured_quiet hu flow
  obtain ⟨hcollar, hretract, -, -⟩ := event_timers s (configured c s)
  have hruns : ∀ p, phaseRuns (event s (configured c s)) p = phaseRuns s p := fun p => by
    rw [phaseRuns_of_rest (by simp [configured, CycleState.isActive]), phaseRuns_of_rest (by rw [hu]; rfl)]
  have hh : (event s (configured c s)).cycle.held = s.cycle.held := by
    rw [event_held, hheld]
    simp [heldNow, configured, CycleState.isActive]
  rw [hruns] at hcollar hretract
  rw [event_cycle_eq, hcollar, hretract, hh]
  dsimp only [configured, State.onCycle, State.onLink, State.onFlow, State.onHost]
  rw [Timer.sync_of_follows timers.collar, Timer.sync_of_follows timers.retract]

theorem configured_neighbours (flow : FlowSound s) : (event s (configured c s)).neighbours = s.neighbours := by
  obtain ⟨-, -, hnear, -⟩ := unconfigured_quiet hu flow
  have hn : (event s (configured c s)).neighbours.nearVoid = s.neighbours.nearVoid := by
    rw [event_nearVoid, hnear]
    simp [nearVoidNow, configured]
  rw [event_neighbours_eq, hn]
  rfl

/-- No watch input changes, so that the watch is not evaluated (11 R196). -/
theorem configured_host (flow : FlowSound s) : (event s (configured c s)).host = { s.host with config := some c } := by
  obtain ⟨-, -, -, hcut⟩ := unconfigured_quiet hu flow
  have hcut' : (event s (configured c s)).flow.flowCut = s.flow.flowCut := by
    rw [event_flowCut, hcut, (configured_claims c).2]
    simp
  have hinputs : watchInputs (event s (configured c s)) = watchInputs s := by
    simp only [watchInputs, hcut', configured_neighbours c hu flow]
    simp [configured]
  rw [host_of_event (.inl rfl), if_pos hinputs]
  rfl

theorem configured_interlock (flow : FlowSound s) :
    (event s (configured c s)).flow.interlock = s.flow.interlock
      ∧ (event s (configured c s)).flow.releaseDeadline = s.flow.releaseDeadline :=
  event_interlock_of_quiet s (w := configured c s) (unconfigured_quiet hu flow).1 rfl

/-- The first notice is that of IDLE (08 R137, R139). -/
theorem configured_slot (hm : s.muted = false) :
    (event s (configured c s)).link.slot = some ⟨⟨.idle, .none, 0⟩, false⟩ := by
  have hplaced := event_noticePlaced (old := s) (s := configured c s) (by simp [configured, hu]) (by simp [configured])
  have hslot := hplaced (by simpa [State.muted, configured] using hm)
  rw [(configured_claims c).1, (configured_claims c).2] at hslot
  simpa [configured] using hslot

end Configured

/-! ### CONFIGURE as a command (11 R179, R184) -/

section Configure

variable {host : Transaction} {record : List Byte} {s : State} (hheld : s.resetHeld = false) (hcut : host.cut = false)
include hheld hcut

theorem exec_configure_refused {status : Status} (hs : status = (if record.length ≠ 69 then .badFrame
      else if s.cycle.state ≠ .unconfigured then .badState
      else if (parseConfiguration record).isNone then .badArg else .ok)) (hno : status ≠ .ok) :
    exec (.configure record host) s = .next (answered host s status [] s) := by
  refine (congrArg (inTransaction host s) (?_ : _ = setReply status [] s)).trans (taken hheld hcut)
  split_ifs at hs with hlength hstate hparse
  · rw [if_pos hlength, hs]
  · rw [if_neg hlength, if_pos hstate, hs]
  · rw [if_neg hlength, if_neg hstate, Option.isNone_iff_eq_none.1 hparse, hs]
  · exact absurd hs hno

theorem exec_configure_accepted {c : Configuration} (hlength : record.length = 69) (hu : s.cycle.state = .unconfigured)
    (hc : parseConfiguration record = some c) :
    exec (.configure record host) s = .next (answered host s .ok [] (event s (configured c s))) := by
  refine (congrArg (inTransaction host s) (?_ : _ = setReply .ok [] (event s (configured c s)))).trans (taken hheld hcut)
  rw [if_neg (not_not.2 hlength), if_neg (not_not.2 hu), hc]
  rfl

end Configure

/-- Settles O34. -/
theorem configureStoresTheRecord : Obligations.ConfigureStoresTheRecord := by
  refine ⟨fun record => ⟨parseConfiguration_badMark, parseConfiguration_badStation, parseConfiguration_defaults,
    parseConfiguration_refused, parseConfiguration_admitted⟩, fun host record s hheld hcut =>
    ⟨fun status => exec_configure_refused hheld hcut, fun c flow timers hlength hu hc => ?_⟩⟩
  obtain ⟨hinterlock, hrelease⟩ := configured_interlock c hu flow
  obtain ⟨hview, hrecessive⟩ := configured_link (s := s) c
  obtain ⟨hpeers, hschedule⟩ := configured_peers (s := s) c
  obtain ⟨hsensor, hhistory⟩ := configured_frame (s := s) c
  refine ⟨_, exec_configure_accepted hheld hcut hlength hu hc, answered_replied, ?_⟩
  dsimp only [answered]
  rw [configured_host c hu flow]
  exact ⟨rfl, configured_cycle c hu flow timers, hpeers, configured_allowance c, hschedule, hview, hrecessive,
    configured_slot c hu, hinterlock, hrelease, hsensor, hhistory, configured_neighbours c hu flow, rfl, rfl, rfl, rfl⟩

end Sys2Proof.Machine

/-! PROOFS. O1 and O2: a step runs the front command, and every command completes and keeps the queue (log 1, log 18). -/

namespace Sys2Proof.Machine

/-! ### A branch and a run that keep the queue -/

theorem ite_pending {c : Prop} [Decidable c] {s t u : State} (ht : t.pending = s.pending) (hu : u.pending = s.pending) :
    (if c then t else u).pending = s.pending := by
  split_ifs
  exacts [ht, hu]

/-- A guard that fails leaves the state. -/
theorem guarded_pending {c : Prop} [Decidable c] {s t : State} (ht : t.pending = s.pending) :
    (if c then t else s).pending = s.pending := ite_pending ht rfl

theorem foldl_pending {take : State → Bool → State} (h : ∀ s bit, (take s bit).pending = s.pending) (bits : List Bool)
    (s : State) : (bits.foldl take s).pending = s.pending := by
  induction bits generalizing s with
  | nil => rfl
  | cons bit bits ih => rw [List.foldl_cons, ih, h]

/-! ### The sample port (02) -/

@[simp] theorem handSample_pending (x : Sample) (s : State) : (handSample x s).pending = s.pending := by
  unfold handSample
  split
  · simp
  · simp
  · exact guarded_pending (by simp)
  · simp
  · rfl

@[simp] theorem takeRecord_pending (record : List Byte) (s : State) : (takeRecord record s).pending = s.pending := by
  unfold takeRecord
  split
  · simp [storeSample]
  · rfl

@[simp] theorem takeByte_pending (value : Byte) (stopHigh : Bool) (s : State) :
    (takeByte value stopHigh s).pending = s.pending := by
  unfold takeByte
  dsimp only
  split
  · simp
  · rfl

theorem takeSrxBit_pending (s : State) (bit : Bool) : (takeSrxBit s bit).pending = s.pending := by
  unfold takeSrxBit
  split
  · rfl
  · exact ite_pending rfl (takeByte_pending _ _ s)
  · exact guarded_pending rfl

@[simp] theorem sensorSuspension_pending (s : State) : (sensorSuspension s).pending = s.pending := by
  unfold sensorSuspension
  split
  · exact guarded_pending (by simp)
  · rfl

@[simp] theorem linkFall_pending (s : State) : (linkFall s).pending = s.pending := by simp [linkFall]

theorem handPulse_pending (s : State) : (handPulse s).pending = s.pending := by
  unfold handPulse
  split <;> simp

/-! ### The pins -/

theorem canopyFall_pending (s : State) : (canopyFall s).pending = s.pending := by
  unfold canopyFall
  split
  · rw [event_pending]
    exact ite_pending (by simp) (by simp)
  · rfl

theorem valveFall_pending (old low : State) : (valveFall old low).pending = low.pending := by
  unfold valveFall
  split <;> simp

/-! ### The host's commands to the cycle (01) -/

@[simp] theorem accept_pending (s work : State) (data : List Byte) : (accept s work data).pending = work.pending := by
  simp [accept]

@[simp] theorem startedHole_pending (row slot planned : Nat) (s : State) :
    (startedHole row slot planned s).pending = s.pending := by
  simp [startedHole, freshHole]

theorem startHole_pending (row slot planned : Nat) (s : State) : (startHole row slot planned s).pending = s.pending := by
  unfold startHole
  split_ifs <;> simp

@[simp] theorem abortDrilling_pending (s : State) : (abortDrilling s).pending = s.pending := by simp [abortDrilling]

@[simp] theorem abortSuspended_pending (s : State) : (abortSuspended s).pending = s.pending := by
  unfold abortSuspended
  dsimp only
  split
  · exact ite_pending (by simp) (by simp)
  · exact ite_pending (by simp) (by simp)
  · exact ite_pending (by simp) (ite_pending (by simp) (by simp))
  · simp

theorem abort_pending (s : State) : (abort s).pending = s.pending := by
  unfold abort
  split
  case h_6 => exact ite_pending rfl (by simp)
  all_goals simp

@[simp] theorem reenter_pending (target : Phase) (s : State) : (reenter target s).pending = s.pending := by
  cases target with
  | retract => exact ite_pending (by simp) (by simp)
  | hold => exact ite_pending (by simp) (by simp)
  | _ => simp [reenter]

@[simp] theorem zeroRemainder_pending (s : State) : (zeroRemainder s).pending = s.pending :=
  ite_pending (by simp) (guarded_pending (by simp))

theorem resume_pending (s : State) : (resume s).pending = s.pending := by
  refine ite_pending rfl ?_
  split
  · rfl
  · exact ite_pending rfl (by simp)

theorem proceed_pending (s : State) : (proceed s).pending = s.pending := by
  unfold proceed
  split_ifs <;> simp

/-! ### The rig link (09) -/

@[simp] theorem routeFrame_pending (f : LinkFrame) (s : State) : (routeFrame f s).pending = s.pending := by
  unfold routeFrame
  dsimp only
  refine ite_pending ?_ (guarded_pending ?_)
  · split
    · rfl
    · exact ite_pending (by simp) (by simp)
  · split
    · rfl
    · exact ite_pending (by simp) (by simp)

@[simp] theorem endFrame_pending (s : State) : (endFrame s).pending = s.pending :=
  guarded_pending (ite_pending (ite_pending rfl (by simp)) rfl)

theorem overridden_pending (f : LinkFrame) (bit : Nat) (s : State) : (overridden f bit s).pending = s.pending :=
  ite_pending rfl (by simp)

theorem readBack_pending (f : LinkFrame) (bit : Bool) (s : State) : (readBack f bit s).pending = s.pending :=
  ite_pending (ite_pending rfl rfl) (ite_pending rfl (overridden_pending f _ s))

theorem readLine_pending (s : State) (bit : Bool) : (readLine s bit).pending = s.pending := by
  unfold readLine
  split
  · rfl
  · rfl
  · rfl
  · split
    · simp [followBit]
    · exact readBack_pending _ bit s

theorem takeBit_pending (s : State) (bit : Bool) : (takeBit s bit).pending = s.pending :=
  (readLine_pending _ bit).trans (guarded_pending rfl)

/-! ### The commands -/

/-- The outcome is a next state with the queue of `s`. -/
def CompletesWithQueue (s : State) (outcome : Host.Outcome State Fault Refusal) : Prop :=
  ∃ t, outcome = .next t ∧ t.pending = s.pending

namespace CompletesWithQueue

variable {s new : State} {host : Transaction}

theorem of_next (h : new.pending = s.pending) : CompletesWithQueue s (.next new) := ⟨new, rfl, h⟩

/-- A part held by RESET_N keeps its state (11 R187). -/
theorem of_unlessHeld (h : new.pending = s.pending) : CompletesWithQueue s (unlessHeld s new) :=
  of_next (ite_pending rfl h)

/-- An event that takes place only under a condition, or has no effect (log 3, log 14). -/
theorem of_guarded {c : Prop} [Decidable c] (h : new.pending = s.pending) :
    CompletesWithQueue s (unlessHeld s (if c then new else s)) := of_unlessHeld (guarded_pending h)

/-- A transaction that was cut is not taken (11 R180). -/
theorem of_inTransaction (h : new.pending = s.pending) : CompletesWithQueue s (inTransaction host s new) :=
  of_unlessHeld (ite_pending rfl h)

/-- A host command that may bring a rise of CANOPY_SET (log 5, log 24). -/
theorem of_rise {f : State → State} {rise : Bool} (h : ∀ u, (f u).pending = u.pending) :
    CompletesWithQueue s (unlessHeld s (transacted host (s.noteCanopy rise) (f (s.noteCanopy rise)))) :=
  of_unlessHeld (ite_pending rfl (h (s.noteCanopy rise)))

/-- An event of the own frame on the line, none for a station that sends none (log 14). -/
theorem of_sending {c : LinkFrame → Prop} [∀ f, Decidable (c f)] {act : LinkFrame → State}
    (h : ∀ f, (act f).pending = s.pending) :
    CompletesWithQueue s
      (unlessHeld s (match s.link.sending with | some f => if c f then act f else s | none => s)) := by
  refine of_unlessHeld ?_
  split
  · exact guarded_pending (h _)
  · rfl

end CompletesWithQueue

theorem configure_completes (record : List Byte) (host : Transaction) (s : State) :
    CompletesWithQueue s (execConfigure record s host) := by
  refine .of_inTransaction (ite_pending rfl (ite_pending rfl ?_))
  split
  · rfl
  · simp [configured]

theorem readAttention_completes (host : Transaction) (s : State) : CompletesWithQueue s (execReadAttention s host) := by
  refine .of_inTransaction ?_
  split <;> rfl

theorem serviceDone_completes (host : Transaction) (s : State) : CompletesWithQueue s (execServiceDone s host) := by
  refine .of_inTransaction ?_
  split <;> rfl

theorem selectHole_completes (number : HoleNo) (host : Transaction) (s : State) :
    CompletesWithQueue s (execSelectHole number s host) := by
  refine .of_inTransaction ?_
  split <;> rfl

theorem readCells_completes (count direction : Byte) (host : Transaction) (s : State) :
    CompletesWithQueue s (execReadCells count direction s host) := by
  refine .of_inTransaction (ite_pending rfl ?_)
  split
  · rfl
  · rfl
  · split
    · exact ite_pending rfl rfl
    · rfl

theorem demandSchedule_completes (s : State) : CompletesWithQueue s (execDemandScheduleExpiry s) := by
  refine .of_unlessHeld ?_
  split
  · exact guarded_pending rfl
  · rfl

/-- Each command is a next state written out, an event unless the part is held, or a host transaction. -/
theorem exec_completes (c : Instr) (s : State) : CompletesWithQueue s (exec c s) := by
  cases c with
  | powerOn levels => exact .of_next rfl
  | resetLine => exact .of_next rfl
  | resetNRise levels => exact .of_next (guarded_pending rfl)
  | timebaseTick => exact .of_next rfl
  | sampleRecord bits => exact .of_unlessHeld (foldl_pending takeSrxBit_pending bits s)
  | linkDeadlineExpiry => exact .of_guarded (by simp)
  | rotPulse => exact .of_unlessHeld (handPulse_pending (notePulse s))
  | pulseDeadlineExpiry => exact .of_guarded rfl
  | canopySetFall => exact .of_guarded (canopyFall_pending _)
  | valveReadyRise => exact .of_unlessHeld (ite_pending (by simp) rfl)
  | valveReadyFall => exact .of_guarded (valveFall_pending s _)
  | strokeDone => exact .of_guarded (by simp)
  | fetch host => exact .of_inTransaction rfl
  | badFrame host => exact .of_inTransaction rfl
  | configure record host => exact configure_completes record host s
  | startHole row slot planned rise host => exact .of_rise (startHole_pending row.toNat slot.toNat planned.toNat)
  | abort rise host => exact .of_rise abort_pending
  | resume rise host => exact .of_rise resume_pending
  | proceed rise host => exact .of_rise proceed_pending
  | abandon host => exact .of_inTransaction (ite_pending rfl (by simp))
  | readState host => exact .of_inTransaction rfl
  | readAttention host => exact readAttention_completes host s
  | serviceDone host => exact serviceDone_completes host s
  | setWatch mask sense combination host => exact .of_inTransaction (ite_pending rfl rfl)
  | readSensors host => exact .of_inTransaction rfl
  | unlatch host => exact .of_inTransaction (ite_pending rfl (ite_pending rfl rfl))
  | readFlow host => exact .of_inTransaction rfl
  | readNeighbours index host => exact .of_inTransaction (ite_pending rfl rfl)
  | readLink host => exact .of_inTransaction rfl
  | selectHole number host => exact selectHole_completes number host s
  | readCells count direction host => exact readCells_completes count direction host s
  | collarTimerExpiry => exact .of_guarded (by simp)
  | retractTimerExpiry => exact .of_guarded (by simp)
  | stallWindowExpiry => exact .of_guarded (by simp)
  | strokeTimerExpiry => exact .of_guarded (by simp)
  | strokeGapExpiry => exact .of_guarded (by simp)
  | mixDeadlineExpiry => exact .of_guarded (ite_pending (by simp) rfl)
  | holdDeadlineExpiry => exact .of_guarded (ite_pending (by simp) (ite_pending rfl rfl))
  | torqueTimerExpiry => exact .of_guarded (by simp)
  | releaseDeadlineExpiry => exact .of_guarded rfl
  | demandScheduleExpiry => exact demandSchedule_completes s
  | staleDeadlineExpiry station => exact .of_unlessHeld rfl
  | removalDeadlineExpiry station => exact .of_guarded (by simp)
  | demandFrameReceived bits => exact .of_unlessHeld (foldl_pending takeBit_pending bits s)
  | holeFrameReceived bits => exact .of_unlessHeld (foldl_pending takeBit_pending bits s)
  | seekingComplete => exact .of_guarded rfl
  | frameStart recessive => exact .of_guarded rfl
  | frameSent => exact .of_guarded rfl
  | arbitrationLost bit => exact .of_sending fun f => overridden_pending f bit s
  | transmitFault bit => exact .of_sending fun _ => rfl
  | duplicateOverridden bit => exact .of_sending fun f => overridden_pending f bit s
  | setpointRecordEnd => exact .of_guarded rfl

/-- Settles O2. -/
theorem everyCommandCompletesAndKeepsTheQueue : Obligations.EveryCommandCompletesAndKeepsTheQueue := exec_completes

/-! ### The step -/

theorem step_of_front {c : Instr} {rest : List Instr} {s : State} (h : s.pending = c :: rest) :
    step s = exec c { s with pending := rest } := by
  unfold step
  rw [h]

theorem step_of_empty {s : State} (h : s.pending = []) : step s = .next s := by
  unfold step
  rw [h]

/-- Settles O1. -/
theorem stepRunsTheFrontCommand : Obligations.StepRunsTheFrontCommand :=
  ⟨fun _ _ _ => step_of_front, fun _ => step_of_empty⟩

end Sys2Proof.Machine
